-- ==== Sys2Proof/Word.lean ====
section
/-! DEFINITION. The widths the block works in (00_scope.md R9): CSRs, descriptor words, addresses and
cursors are 32 bits, memory is byte addressed, statistics counters are 64 bits. -/

namespace Sys2Proof

/-- A CSR, a descriptor word, an address or a cursor (R9). -/
abbrev Word := BitVec 32

/-- One byte of shared memory (R80). -/
abbrev Byte := BitVec 8

/-- One statistics counter (R9, R56). -/
abbrev Counter := BitVec 64

end Sys2Proof
end

