-- ==== Sys2Proof/Config.lean ====
section
/-! DEFINITION. What the platform fixes for the whole run (00_scope.md R8), as plain data that State carries,
and the values the spec leaves open, as constants with no body. -/

namespace Sys2Proof

/-- Hardware generation (R2). -/
inductive Variant where
  | mac100
  | gmac
deriving DecidableEq, Repr

/-- `DESC_ENDIAN` (R8, R82). -/
inductive Endian where
  | le
  | be
deriving DecidableEq, Repr

/-- A window of `DMA_MAP` (R8, D32): the `len` CPU addresses from `cpu` up go to the DMA addresses from `dma` up. -/
structure DmaWindow where
  cpu : Word
  dma : Word
  len : Nat
deriving DecidableEq, Repr

/-- The legal values of `BASE` (R8): 256-byte aligned. -/
abbrev BaseAddr := { a : Word // a &&& 0xFF = 0 }

/-- The legal values of `TX_BUF_CAP` (R8). -/
abbrev TxBufCap := { n : Nat // 1 ≤ n ∧ n ≤ 8191 }

/-- The legal values of `PBL` (R8). -/
abbrev BurstLength := { n : Nat // n ∈ [1, 2, 4, 8, 16, 32] }

/-- The implementation parameters of R8. The platform's tunables are unrestricted numbers, because a platform
may supply one that OPEN has to clamp (R416). `dmaMap` lists windows of the total function `DMA_MAP`, the first that
holds an address counting and the identity outside them all, so that the function is plain data (log 18). -/
structure Params where
  variant     : Variant
  csumOffload : Bool
  endian      : Endian
  base        : BaseAddr
  irqMac      : Nat
  irqPhy      : Option Nat
  nTx         : Nat
  nRx         : Nat
  bufSz       : Nat
  txBufCap    : TxBufCap
  tc          : Nat
  pbl         : BurstLength
  flowCtrl    : Nat
  pause       : Nat
  txCoal      : Nat
  rxCoal      : Nat
  watchdog    : Nat
  mtu         : Nat
  maxFrags    : Nat
  fbeStopsRx  : Bool
  dmaMap      : List DmaWindow
deriving DecidableEq, Repr

/-- The defaults of R8 on a platform of a given generation: CSUM_OFFLOAD is true on a GMAC and false on a MAC100. BASE and
the interrupt lines, which R8 gives no default, are 0 and no PHY line (log 1). -/
def Params.of (v : Variant) : Params where
  variant := v
  csumOffload := match v with | .mac100 => false | .gmac => true
  endian := .le
  base := ⟨0, by decide⟩
  irqMac := 0
  irqPhy := none
  nTx := 128
  nRx := 128
  bufSz := 1536
  txBufCap := ⟨4096, by decide⟩
  tc := 64
  pbl := ⟨8, by decide⟩
  flowCtrl := 3
  pause := 0xFFFF
  txCoal := 1
  rxCoal := 1
  watchdog := 5000
  mtu := 1500
  maxFrags := 17
  fbeStopsRx := false
  dmaMap := []

/-- The platform of 95_test_vectors.md S0, a GMAC, with the defaults of R8 (log 1). -/
def Params.default : Params := Params.of .gmac

/-- `SW_CSUM`: an uninterpreted total function on byte sequences (R11, R263, D57). -/
opaque Config.swCsum : List Byte → List Byte

/-- `HW_CSUM`: an uninterpreted total function on byte sequences (R11, R332, D57). -/
opaque Config.hwCsum : List Byte → List Byte

/-- The allocation oracle's answer to a draw that `State.allocAnswers` does not already hold: an address, or
`none` for FAIL (R11, D33, 93_implementation_defined.md item 12). -/
opaque Config.allocAnswer : Nat → Option Word

/-- How many bytes of a frame cut off by jabber reach the wire (R335, 93_implementation_defined.md item 16). -/
opaque Config.jabberPrefix : Nat → Nat

/-- The delivered length of a frame whose status word reports fewer than the 4 bytes of its frame check
sequence: R303 subtracts 4 from a natural number and states no result below 0 (log 21). -/
opaque Config.shortFrameLength : Nat → Nat

end Sys2Proof
end

