-- ==== Sys2Proof/Syntax.lean ====
section
/-! DEFINITION. The instruction set: one constructor per row of spec/opcode_table.json, the 41 commands of
30_encoding.md R140 and the 10 agent-step codes. -/

namespace Sys2Proof

/-- The RING field of a command word (R139): 0 names the TX ring, 1 the RX ring. -/
inductive RingSel where
  | tx
  | rx
deriving DecidableEq, Repr

/-- The operations of R140. A command whose ring column is T, R or a dash has no ring operand; an operation
whose IDX column is 0 has no index operand. The other operands are in ARG0..ARG3 (R139, R142). -/
inductive Instr where
  | initDescChain (r : RingSel)
  | getOwn (r : RingSel) (i : BitVec 16)
  | setOwn (r : RingSel) (i : BitVec 16)
  | getTxLen (i : BitVec 16)
  | rxStatus (i : BitVec 16)
  | dmaMode
  | setMacAddr
  | setFilter
  | rxCoalEnable (i : BitVec 16)
  | rxCoalDisable (i : BitVec 16)
  | readIrqStatus
  | clearIrqStatus
  | setWol (mode : BitVec 16)
  | dmaStart (r : RingSel)
  | dmaStop (r : RingSel)
  | irqEnable
  | adjustLink
  | irqDisable
  | readLink
  | pollDemand (r : RingSel)
  | allocate (r : RingSel)
  | submit (i : BitVec 16)
  | reclaim (i : BitVec 16)
  | refill (i : BitVec 16)
  | avail (r : RingSel)
  | transmit
  | txReclaim
  | watchdogExpire
  | poll (budget : BitVec 16)
  | isr
  | txRecovery
  | raiseTxThreshold
  | attach
  | openDev
  | closeDev
  | suspend (wol : BitVec 16)
  | resume
  | setTunable (id : BitVec 16)
  | setMtu
  | detach
  | readStat (id : BitVec 16)
  | dmaTxFrame
  | dmaTxSuspend
  | dmaTxUnderflow
  | dmaTxJabber
  | dmaTxStopFault
  | dmaRxFrame
  | dmaRxNoDesc
  | dmaRxOverflow
  | dmaRxStopFault
  | dmaFatalBusError
deriving DecidableEq, Repr

end Sys2Proof
end

