-- ==== Sys2Proof/WellFormed.lean ====
section
/-! DEFINITION. Which instruction terms have an encoding: the id of SET_TUNABLE and of READ_STAT is part of
the command word and bounded (30_encoding.md R141, R428, R434). Every other operand takes every value of its
field; an index outside the ring is an ERROR of the operation, not of the word (R142). -/

namespace Sys2Proof

/-- The largest legal SET_TUNABLE id (R428). -/
def maxTunableId : Nat := 8

/-- The largest legal READ_STAT id (R434). -/
def maxCounterId : Nat := 18

/-- The term is one a legal word encodes (R141). -/
def Instr.wellFormed : Instr → Bool
  | .setTunable id => id.toNat ≤ maxTunableId
  | .readStat id => id.toNat ≤ maxCounterId
  | _ => true

end Sys2Proof
end

