-- ==== Sys2Proof/Decode.lean ====
section
/-! DEFINITION. The decoder of command words and agent-step codes (30_encoding.md R139 to R141), total on any
bytes and rejecting by name, and after it the encoder written from the same table. -/

namespace Sys2Proof

/-- Why a word is not an instruction (R141). -/
inductive DecodeError where
  /-- Fewer than four bytes: a command word is 32 bits (R120). -/
  | truncated
  /-- OPC is 0x00 or a value R140 does not list. -/
  | unknownOpcode (opc : BitVec 8)
  /-- Bits 22:16 are not 0. -/
  | reservedBits
  /-- RING violates the ring column of R140. -/
  | ringNotAllowed
  /-- IDX is not 0 where the table says 0. -/
  | indexNotZero
  /-- SET_TUNABLE with IDX > 8. -/
  | tunableId
  /-- READ_STAT with IDX > 18. -/
  | counterId
deriving DecidableEq, Repr

/-- The fields of a command word (R139). -/
structure Fields where
  opc  : BitVec 8
  ring : Bool
  rsvd : BitVec 7
  idx  : BitVec 16
deriving DecidableEq, Repr

/-- Field extraction: OPC[31:24], RING[23], reserved[22:16], IDX[15:0] (R139). -/
def fieldsOf (w : Word) : Fields where
  opc := w.extractLsb' 24 8
  ring := w.getLsbD 23
  rsvd := w.extractLsb' 16 7
  idx := w.extractLsb' 0 16

/-- The ring a RING bit names (R139). -/
def ringOf (b : Bool) : RingSel := if b then .rx else .tx

/-- A word whose bits 22:16 must be 0. -/
def whenReservedZero (f : Fields) (k : Except DecodeError Instr) : Except DecodeError Instr :=
  if f.rsvd = 0 then k else .error .reservedBits

/-- Ring column B, IDX column 0. -/
def decodeRing (f : Fields) (mk : RingSel → Instr) : Except DecodeError Instr :=
  whenReservedZero f (if f.idx = 0 then .ok (mk (ringOf f.ring)) else .error .indexNotZero)

/-- Ring column B, IDX column a slot. -/
def decodeRingIdx (f : Fields) (mk : RingSel → BitVec 16 → Instr) : Except DecodeError Instr :=
  whenReservedZero f (.ok (mk (ringOf f.ring) f.idx))

/-- Ring column T or a dash (RING must be 0), IDX an operand. -/
def decodeZeroRingIdx (f : Fields) (mk : BitVec 16 → Instr) : Except DecodeError Instr :=
  whenReservedZero f (if f.ring then .error .ringNotAllowed else .ok (mk f.idx))

/-- Ring column R (RING must be 1), IDX an operand. -/
def decodeRxIdx (f : Fields) (mk : BitVec 16 → Instr) : Except DecodeError Instr :=
  whenReservedZero f (if f.ring then .ok (mk f.idx) else .error .ringNotAllowed)

/-- Ring column a dash, IDX column 0: the whole word below OPC is 0. -/
def decodePlain (f : Fields) (i : Instr) : Except DecodeError Instr :=
  whenReservedZero f
    (if f.ring then .error .ringNotAllowed else if f.idx = 0 then .ok i else .error .indexNotZero)

/-- The id operand of SET_TUNABLE and READ_STAT is bounded (R141, R428, R434). -/
def decodeBounded (f : Fields) (bound : Nat) (e : DecodeError) (mk : BitVec 16 → Instr) :
    Except DecodeError Instr :=
  whenReservedZero f
    (if f.ring then .error .ringNotAllowed else if f.idx.toNat ≤ bound then .ok (mk f.idx) else .error e)

/-- The opcode map of R140. An agent-step code is bits 31:24 alone (the table's mask is 0xFF000000), so its
low 24 bits are not looked at. -/
def decodeFields (f : Fields) : Except DecodeError Instr :=
  match f.opc.toNat with
  | 0x01 => decodeRing f .initDescChain
  | 0x02 => decodeRingIdx f .getOwn
  | 0x03 => decodeRingIdx f .setOwn
  | 0x04 => decodeZeroRingIdx f .getTxLen
  | 0x05 => decodeRxIdx f .rxStatus
  | 0x06 => decodePlain f .dmaMode
  | 0x07 => decodePlain f .setMacAddr
  | 0x08 => decodePlain f .setFilter
  | 0x09 => decodeRxIdx f .rxCoalEnable
  | 0x0A => decodeRxIdx f .rxCoalDisable
  | 0x0B => decodePlain f .readIrqStatus
  | 0x0C => decodePlain f .clearIrqStatus
  | 0x0D => decodeZeroRingIdx f .setWol
  | 0x0E => decodeRing f .dmaStart
  | 0x0F => decodeRing f .dmaStop
  | 0x10 => decodePlain f .irqEnable
  | 0x11 => decodePlain f .adjustLink
  | 0x12 => decodePlain f .irqDisable
  | 0x13 => decodePlain f .readLink
  | 0x14 => decodeRing f .pollDemand
  | 0x20 => decodeRing f .allocate
  | 0x21 => decodeZeroRingIdx f .submit
  | 0x22 => decodeZeroRingIdx f .reclaim
  | 0x23 => decodeRxIdx f .refill
  | 0x24 => decodeRing f .avail
  | 0x30 => decodePlain f .transmit
  | 0x31 => decodePlain f .txReclaim
  | 0x32 => decodePlain f .watchdogExpire
  | 0x40 => decodeZeroRingIdx f .poll
  | 0x50 => decodePlain f .isr
  | 0x51 => decodePlain f .txRecovery
  | 0x52 => decodePlain f .raiseTxThreshold
  | 0x60 => decodePlain f .attach
  | 0x61 => decodePlain f .openDev
  | 0x62 => decodePlain f .closeDev
  | 0x63 => decodeZeroRingIdx f .suspend
  | 0x64 => decodePlain f .resume
  | 0x65 => decodeBounded f maxTunableId .tunableId .setTunable
  | 0x66 => decodePlain f .setMtu
  | 0x67 => decodePlain f .detach
  | 0x68 => decodeBounded f maxCounterId .counterId .readStat
  | 0x80 => .ok .dmaTxFrame
  | 0x81 => .ok .dmaTxSuspend
  | 0x82 => .ok .dmaTxUnderflow
  | 0x83 => .ok .dmaTxJabber
  | 0x84 => .ok .dmaTxStopFault
  | 0x85 => .ok .dmaRxFrame
  | 0x86 => .ok .dmaRxNoDesc
  | 0x87 => .ok .dmaRxOverflow
  | 0x88 => .ok .dmaRxStopFault
  | 0x89 => .ok .dmaFatalBusError
  | _ => .error (.unknownOpcode f.opc)

/-- The instruction a 32-bit word names, command or agent step (R139, R140). -/
def decodeWord (w : Word) : Except DecodeError Instr := decodeFields (fieldsOf w)

/-- The 32-bit word four bytes hold in `DESC_ENDIAN` order (R82). -/
def joinBytes (e : Endian) (b0 b1 b2 b3 : Byte) : Word :=
  match e with
  | .le => b3 ++ b2 ++ b1 ++ b0
  | .be => b0 ++ b1 ++ b2 ++ b3

/-- The four bytes of a 32-bit word in `DESC_ENDIAN` order, lowest address first (R82). -/
def splitWord (e : Endian) (w : Word) : List Byte :=
  let bytes := [w.extractLsb' 0 8, w.extractLsb' 8 8, w.extractLsb' 16 8, w.extractLsb' 24 8]
  match e with
  | .le => bytes
  | .be => bytes.reverse

/-- Decoding from bytes: the instruction and the bytes after it, or the reason there is none. -/
def decodeBytes (e : Endian) : List Byte → Except DecodeError (Instr × List Byte)
  | b0 :: b1 :: b2 :: b3 :: rest => (decodeWord (joinBytes e b0 b1 b2 b3)).map (·, rest)
  | _ => .error .truncated

/-- The instruction the decoder reads from a word whose bits are numbered as spec/opcode_table.json numbers
them, every bit above `nbits` being 0. The bytes are laid out little-endian, the default of `DESC_ENDIAN`. -/
def decodeTableWord (nbits w : Nat) : Option Instr :=
  match decodeBytes .le (splitWord .le (BitVec.ofNat 32 (w % 2 ^ nbits))) with
  | .ok (i, _) => some i
  | .error _ => none

/-- An operation that can be issued through CMD. An agent-step code is not (R140, R141). -/
def Instr.isCommand : Instr → Bool
  | .dmaTxFrame | .dmaTxSuspend | .dmaTxUnderflow | .dmaTxJabber | .dmaTxStopFault => false
  | .dmaRxFrame | .dmaRxNoDesc | .dmaRxOverflow | .dmaRxStopFault | .dmaFatalBusError => false
  | _ => true

/-- The RING bit that names a ring (R139). -/
def ringBit (r : RingSel) : BitVec 1 :=
  match r with
  | .tx => 0
  | .rx => 1

/-- The command word with given fields, its bits 22:16 being 0 (R139). -/
def commandWord (opc : BitVec 8) (ring : BitVec 1) (idx : BitVec 16) : Word := opc ++ ring ++ 0#7 ++ idx

/-- The word of an instruction, from the opcode map of R140. -/
def encode : Instr → Word
  | .initDescChain r => commandWord 0x01 (ringBit r) 0
  | .getOwn r i => commandWord 0x02 (ringBit r) i
  | .setOwn r i => commandWord 0x03 (ringBit r) i
  | .getTxLen i => commandWord 0x04 0 i
  | .rxStatus i => commandWord 0x05 1 i
  | .dmaMode => commandWord 0x06 0 0
  | .setMacAddr => commandWord 0x07 0 0
  | .setFilter => commandWord 0x08 0 0
  | .rxCoalEnable i => commandWord 0x09 1 i
  | .rxCoalDisable i => commandWord 0x0A 1 i
  | .readIrqStatus => commandWord 0x0B 0 0
  | .clearIrqStatus => commandWord 0x0C 0 0
  | .setWol mode => commandWord 0x0D 0 mode
  | .dmaStart r => commandWord 0x0E (ringBit r) 0
  | .dmaStop r => commandWord 0x0F (ringBit r) 0
  | .irqEnable => commandWord 0x10 0 0
  | .adjustLink => commandWord 0x11 0 0
  | .irqDisable => commandWord 0x12 0 0
  | .readLink => commandWord 0x13 0 0
  | .pollDemand r => commandWord 0x14 (ringBit r) 0
  | .allocate r => commandWord 0x20 (ringBit r) 0
  | .submit i => commandWord 0x21 0 i
  | .reclaim i => commandWord 0x22 0 i
  | .refill i => commandWord 0x23 1 i
  | .avail r => commandWord 0x24 (ringBit r) 0
  | .transmit => commandWord 0x30 0 0
  | .txReclaim => commandWord 0x31 0 0
  | .watchdogExpire => commandWord 0x32 0 0
  | .poll budget => commandWord 0x40 0 budget
  | .isr => commandWord 0x50 0 0
  | .txRecovery => commandWord 0x51 0 0
  | .raiseTxThreshold => commandWord 0x52 0 0
  | .attach => commandWord 0x60 0 0
  | .openDev => commandWord 0x61 0 0
  | .closeDev => commandWord 0x62 0 0
  | .suspend wol => commandWord 0x63 0 wol
  | .resume => commandWord 0x64 0 0
  | .setTunable id => commandWord 0x65 0 id
  | .setMtu => commandWord 0x66 0 0
  | .detach => commandWord 0x67 0 0
  | .readStat id => commandWord 0x68 0 id
  | .dmaTxFrame => commandWord 0x80 0 0
  | .dmaTxSuspend => commandWord 0x81 0 0
  | .dmaTxUnderflow => commandWord 0x82 0 0
  | .dmaTxJabber => commandWord 0x83 0 0
  | .dmaTxStopFault => commandWord 0x84 0 0
  | .dmaRxFrame => commandWord 0x85 0 0
  | .dmaRxNoDesc => commandWord 0x86 0 0
  | .dmaRxOverflow => commandWord 0x87 0 0
  | .dmaRxStopFault => commandWord 0x88 0 0
  | .dmaFatalBusError => commandWord 0x89 0 0

end Sys2Proof
end

