-- ==== Sys2Proof/Machine/State.lean ====
section
/-! DEFINITION. The state of the block, whole and as plain data (10_state.md, 20_memory.md), the environment's
pending inputs and the outputs already given, and the state after reset (70_reset_and_hazards.md R481). -/

namespace Sys2Proof.Machine

open Sys2Proof

/-- Shared memory: (address, byte) pairs, addresses strictly rising, no entry equal to what an unlisted address
reads as, which is 0 (log 2). -/
abbrev Memory := List Host.Cell

/-- The four model faults (R450), each with its recorded address. They are raised into `State.fault`; every later
step of the machine answers with the one recorded. -/
inductive Fault where
  /-- Software wrote a descriptor it sees with OWN = 1, or read its des1..des3 or a byte of its buffer, or touched a
  device-owned byte (R84, R95). Raised by the software accesses of commands, agents and the host. Safe: the
  spec names it. -/
  | ownViolation (addr : Word)
  /-- Software published OWN = 1 while an earlier write to the same descriptor or its buffer was pending (R91).
  Raised by descriptor writes. Safe: the spec names it. -/
  | missingFence (addr : Word)
  /-- A DMA agent accessed a byte outside every allocated region (R81, R330). Safe: the spec names it. -/
  | dmaOutOfBounds (addr : Word)
  /-- A CSR access was not 32-bit or not 4-byte aligned (R83). Raised by the host's CSR accesses. Safe: the spec
  names it. -/
  | badCsrAccess (off : Word)
deriving DecidableEq, Repr

/-- Transitions the spec does not admit (R451). -/
inductive Refusal where
  /-- An instruction with no meaning in this model yet. No arm answers with it now. Safe. -/
  | notModelled (mnemonic : String)
  /-- A software access outside every allocated region (R81, R451): raised by the host's memory accesses and by
  TRANSMIT reading its packet record. Safe. -/
  | softwareOutsideRegions (addr : Word)
  /-- A buffer handed to SUBMIT, REFILL or TRANSMIT overlaps a device-owned range (93_implementation_defined.md
  item 9: no rule defines a second `map`). Safe. -/
  | mapOfDeviceOwned (addr : Word)
  /-- A host access that is not one whole descriptor word but touches a descriptor (R85). Safe. -/
  | notOneDescriptorWord (addr : Word)
deriving DecidableEq, Repr

/-- A DMA process state; values 3..7 of the 3-bit code never occur (R51). -/
inductive ProcState where
  | stopped
  | running
  | suspended
deriving DecidableEq, Repr

/-- The registers of the CSR map (R36). -/
inductive Csr where
  | dmaCtrl
  | dmaTxThresh
  | dmaStatus
  | dmaIer
  | txDescBase
  | rxDescBase
  | txPollDemand
  | rxPollDemand
  | macConfig
  | macFlow
  | macAddrHi
  | macAddrLo
  | mcHashHi
  | mcHashLo
  | frameFilter
  | pmt
  | curTxDesc
  | curRxDesc
  | hwFeature
  | cmd
  | arg0
  | arg1
  | arg2
  | arg3
  | result
  | result1
deriving DecidableEq, Repr

/-- The stored part of the CSR file (R36 to R50). DMA_STATUS keeps its source latches here; its summaries are
derived (R38) and its TS/RS fields are `Dma.ts` and `Dma.rs`. TX_DESC_BASE and RX_DESC_BASE are the rings' `base`
(R32). CUR_TX_DESC, CUR_RX_DESC and HW_FEATURE are derived (R48, R49); TX_POLL_DEMAND, RX_POLL_DEMAND and CMD store nothing (R43, R50). -/
structure Csrs where
  dmaCtrl     : Word
  dmaTxThresh : Word
  statusSrc   : Word
  dmaIer      : Word
  macConfig   : Word
  macFlow     : Word
  macAddrHi   : Word
  macAddrLo   : Word
  mcHashHi    : Word
  mcHashLo    : Word
  frameFilter : Word
  pmt         : Word
  arg0        : Word
  arg1        : Word
  arg2        : Word
  arg3        : Word
  result      : Word
  result1     : Word
deriving DecidableEq, Repr

/-- The two DMA processes: state and descriptor pointer (R51 to R54). -/
structure Dma where
  ts    : ProcState
  rs    : ProcState
  txIdx : Nat
  rxIdx : Nat
deriving DecidableEq, Repr

/-- One ring (R32, R33, R59): whether it is allocated, N(r), base(r), the two cursors and the coalescing counter. base(r) is
the value of the ring's base register, TX_DESC_BASE or RX_DESC_BASE, which is kept here and nowhere else (R32, R42, log 37).
An unallocated ring has `n = 0` (log 5). -/
structure Ring where
  allocated : Bool
  n         : Nat
  base      : Word
  sub       : Word
  comp      : Word
  coalCnt   : Word
deriving DecidableEq, Repr

/-- One TX buffer slot (R34, R169). -/
structure TxSlot where
  addr : Option Word
  len  : Nat
  pkt  : Option Word
  pub  : Bool
deriving DecidableEq, Repr

/-- One RX buffer slot (R34, R169). -/
structure RxSlot where
  buf  : Option Word
  addr : Option Word
  pub  : Bool
deriving DecidableEq, Repr

/-- The empty TX slot. -/
def TxSlot.empty : TxSlot := { addr := none, len := 0, pkt := none, pub := false }

/-- The empty RX slot. -/
def RxSlot.empty : RxSlot := { buf := none, addr := none, pub := false }

/-- The values fixed at OPEN for the open session (R57, R416). N_TX and N_RX are `Ring.n`. -/
structure Effective where
  bufSz  : Nat
  txCoal : Nat
  rxCoal : Nat
  mtu    : Nat
deriving DecidableEq, Repr

/-- The enable bits SUSPEND saves (R55, R424). -/
structure SavedCtrl where
  st : Bool
  sr : Bool
  te : Bool
  re : Bool
deriving DecidableEq, Repr

/-- Lifecycle and scheduling flags (R55) and what ATTACH selects (R410). -/
structure Dev where
  attached         : Bool
  ifup             : Bool
  suspended        : Bool
  fullShutdown     : Bool
  rxPollScheduled  : Bool
  txReclaimPending : Bool
  txQueueStopped   : Bool
  savedCtrl        : SavedCtrl
  ops              : Variant
  csumCap          : Bool
deriving DecidableEq, Repr

/-- Link speed: 0, 10, 100 or 1000 (R58). -/
inductive Speed where
  | none
  | s10
  | s100
  | s1000
deriving DecidableEq, Repr

/-- Duplex mode (R58). -/
inductive Duplex where
  | half
  | full
deriving DecidableEq, Repr

/-- The link mirror (R58). -/
structure Link where
  up     : Bool
  speed  : Speed
  duplex : Duplex
deriving DecidableEq, Repr

/-- The tunables t_* (R57). -/
structure Tunables where
  nTx      : Nat
  nRx      : Nat
  bufSz    : Nat
  tc       : Nat
  flowCtrl : Nat
  pause    : Nat
  txCoal   : Nat
  rxCoal   : Nat
  watchdog : Nat
  mtu      : Nat
deriving DecidableEq, Repr

/-- The statistics counters (R56). -/
structure Stats where
  txUnderflow      : Counter
  txJabber         : Counter
  rxOverflow       : Counter
  rxBufUnav        : Counter
  txProcessStopped : Counter
  rxProcessStopped : Counter
  fatalBusError    : Counter
  txPackets        : Counter
  txBytes          : Counter
  txErrors         : Counter
  rxPackets        : Counter
  rxBytes          : Counter
  rxErrors         : Counter
  rxDropped        : Counter
  rxAllocFail      : Counter
  txBusy           : Counter
  txTimeout        : Counter
  txRecovery       : Counter
  rxCsumOk         : Counter
deriving DecidableEq, Repr

/-- One entry of the software write buffer `wbuf` (R90). -/
structure Pending where
  addr  : Word
  bytes : List Byte
deriving DecidableEq, Repr

/-- A device-owned range (R84): `len` bytes at CPU address `cpu`, which the DMA agents reach at `dma`. -/
structure Mark where
  dma : Word
  cpu : Word
  len : Nat
deriving DecidableEq, Repr

/-- A buffer region: taken from the pool by `alloc`, or the upper layer's (R81). -/
inductive Owner where
  | pool
  | upper
deriving DecidableEq, Repr

/-- An allocated buffer region (R81). The ring arrays are regions too, computed from the rings. -/
structure Region where
  base  : Word
  len   : Nat
  owner : Owner
deriving DecidableEq, Repr

/-- The wire's checksum verdict on an arriving frame (R340). -/
inductive Verdict where
  | notIp
  | good
  | bad
deriving DecidableEq, Repr

/-- A frame the WIRE offers (R340), with the four bytes of its frame check sequence. -/
structure WireFrame where
  bytes  : List Byte
  fcs    : BitVec 32
  crcErr : Bool
  csum   : Verdict
deriving DecidableEq, Repr

/-- The checksum stamp of a delivered frame (R304). -/
inductive Stamp where
  | verified
  | none
deriving DecidableEq, Repr

/-- What the block hands out: a frame to the wire (R332), a received frame to the upper layer (R303), a sent packet
back to it (R222). -/
inductive Output where
  | emit (bytes : List Byte)
  | deliver (buf : Word) (len : Nat) (stamp : Stamp)
  | release (pkt : Word)
deriving DecidableEq, Repr

/-- Which step the environment lets happen next (R3, R89, R90, R445): an access of the host (CALLER), a turn of a
software agent, a turn of a DMA agent named by its step code, the write buffer making one entry visible, or the
upper layer bringing or taking back a buffer. -/
inductive Event where
  | csrWrite (width : Nat) (off : BitVec 8) (v : Word)
  | csrRead (width : Nat) (off : BitVec 8)
  | memWrite (a v : Word)
  | memRead (a : Word)
  | fence
  | drain (k : Nat)
  | isr
  | txReclaim
  | poll (budget : BitVec 16)
  | watchdog
  | agentStep (code : Word)
  | supply (a : Word) (bytes : List Byte)
  | withdraw (a : Word)
deriving DecidableEq, Repr

/-- The whole state (R30). `schedule`, `wire` and `allocAnswers` are the environment's choices still to come,
`draws` counts the open values taken from Config, `outputs` lists what was handed out, oldest first, and
`busData` is what the last `rd` or `mr` returned (the assembler's `$`, R144). -/
structure State where
  params       : Params
  csr          : Csrs
  dma          : Dma
  tx           : Ring
  rx           : Ring
  txSlots      : List TxSlot
  rxSlots      : List RxSlot
  eff          : Effective
  dev          : Dev
  link         : Link
  tun          : Tunables
  stats        : Stats
  fault        : Option Fault
  mem          : Memory
  wbuf         : List Pending
  marks        : List Mark
  regions      : List Region
  schedule     : List Event
  wire         : List WireFrame
  allocAnswers : List (Option Word)
  draws        : Nat
  outputs      : List Output
  busData      : Word
deriving DecidableEq, Repr

/-- All 19 counters at 0 (R56, R481). -/
def Stats.zero : Stats where
  txUnderflow := 0
  txJabber := 0
  rxOverflow := 0
  rxBufUnav := 0
  txProcessStopped := 0
  rxProcessStopped := 0
  fatalBusError := 0
  txPackets := 0
  txBytes := 0
  txErrors := 0
  rxPackets := 0
  rxBytes := 0
  rxErrors := 0
  rxDropped := 0
  rxAllocFail := 0
  txBusy := 0
  txTimeout := 0
  txRecovery := 0
  rxCsumOk := 0

/-- A ring that is not allocated, as reset leaves it (R481): its base register and its cursors 0, its size unused. -/
def Ring.none : Ring := { allocated := false, n := 0, base := 0, sub := 0, comp := 0, coalCnt := 0 }

/-- The CSR file after reset (R481): all 0 but PBL = 8, TC = 64, and PS = 1 on a MAC100 (R44). -/
def Csrs.reset (p : Params) : Csrs where
  dmaCtrl := 0x0000_0800
  dmaTxThresh := 0x0000_0040
  statusSrc := 0
  dmaIer := 0
  macConfig := match p.variant with | .mac100 => 0x0000_0010 | .gmac => 0
  macFlow := 0
  macAddrHi := 0
  macAddrLo := 0
  mcHashHi := 0
  mcHashLo := 0
  frameFilter := 0
  pmt := 0
  arg0 := 0
  arg1 := 0
  arg2 := 0
  arg3 := 0
  result := 0
  result1 := 0

/-- The state right after power-on reset on a platform with parameters `p` (R480, R481). The tunables and the
effective values, which R481 leaves unspecified, hold 0 and the defaults of R8 (log 3, log 4); `ops` and
`csumCap`, which ATTACH sets, hold `mac100` and false (log 4). -/
def State.resetWith (p : Params) : State where
  params := p
  csr := Csrs.reset p
  dma := { ts := .stopped, rs := .stopped, txIdx := 0, rxIdx := 0 }
  tx := Ring.none
  rx := Ring.none
  txSlots := []
  rxSlots := []
  eff := { bufSz := 1536, txCoal := 1, rxCoal := 1, mtu := 1500 }
  dev :=
    { attached := false, ifup := false, suspended := false, fullShutdown := false, rxPollScheduled := false,
      txReclaimPending := false, txQueueStopped := false,
      savedCtrl := { st := false, sr := false, te := false, re := false }, ops := .mac100, csumCap := false }
  link := { up := false, speed := .none, duplex := .half }
  tun :=
    { nTx := 0, nRx := 0, bufSz := 0, tc := 0, flowCtrl := 0, pause := 0, txCoal := 0, rxCoal := 0,
      watchdog := 0, mtu := 0 }
  stats := Stats.zero
  fault := Option.none
  mem := []
  wbuf := []
  marks := []
  regions := []
  schedule := []
  wire := []
  allocAnswers := []
  draws := 0
  outputs := []
  busData := 0

/-- The machine right after reset, on the platform `Params.default` (R481, log 1). -/
def State.reset : State := State.resetWith Params.default

end Sys2Proof.Machine
end

