-- ==== Sys2Proof/Machine/Operands.lean ====
section
/-! DEFINITION. Operand forms: bit fields, the descriptor words of 30_encoding.md R122 to R128, the packet record of
R135 with its segmentation (42_transmit.md R261), and the values the tunables may take (46_lifecycle.md
R416, R428). -/

namespace Sys2Proof.Machine

open Sys2Proof

/-- Bit `i` of a word (R10). -/
def bit (v : Word) (i : Nat) : Bool := v.getLsbD i

/-- The unsigned field of `width` bits from bit `lo` up (R10). -/
def bitsAt (v : Word) (lo width : Nat) : Nat := (v >>> lo).toNat % 2 ^ width

/-- The word with only bit `i` set. -/
def oneBit (i : Nat) : Word := 1#32 <<< i

/-- `v` with bit `i` set or cleared. -/
def putBit (v : Word) (i : Nat) (b : Bool) : Word := if b then v ||| oneBit i else v &&& ~~~(oneBit i)

/-- A Boolean as a bit at position `i`. -/
def bitIf (b : Bool) (i : Nat) : Word := if b then oneBit i else 0

/-- A count as a word. -/
def natWord (n : Nat) : Word := BitVec.ofNat 32 n

/-- IDX zero-extended (R142). -/
def slotIdx (i : BitVec 16) : Nat := i.toNat

/-! ### Cursors (R33, R227) -/

/-- `idx(c, N) = c mod N`. -/
def idx (c : Word) (n : Nat) : Nat := c.toNat % n

/-- `inflight(r) = sub - comp`, modulo 2^32. -/
def Ring.inflight (r : Ring) : Nat := (r.sub - r.comp).toNat

/-- `avail(r) = N - inflight(r) - 1`. -/
def Ring.avail (r : Ring) : Nat := r.n - r.inflight - 1

/-- Slot `i` lies in the in-flight window (R169). -/
def Ring.inWindow (r : Ring) (i : Nat) : Bool := (i + r.n - idx r.comp r.n) % r.n < r.inflight

/-! ### Descriptor words -/

/-- The published des0 of either ring: OWN = 1 and nothing else (R122, R126). -/
def ownWord : Word := 0x8000_0000

/-- The OWN bit of a des0 (R121). -/
def ownOf (des0 : Word) : Bool := bit des0 31

/-- End of ring, bit 27 of des1 (R123, R128). -/
def erOf (des1 : Word) : Bool := bit des1 27

/-- IC, bit 31 of a TX des1 (R123). -/
def icOf (des1 : Word) : Bool := bit des1 31

/-- LS, bit 30 of a TX des1 (R123). -/
def lsOf (des1 : Word) : Bool := bit des1 30

/-- FS, bit 29 of a TX des1 (R123). -/
def fsOf (des1 : Word) : Bool := bit des1 29

/-- CSUM, bit 28 of a TX des1 (R123). -/
def csumOf (des1 : Word) : Bool := bit des1 28

/-- DIC, bit 26 of an RX des1 (R128). -/
def dicOf (des1 : Word) : Bool := bit des1 26

/-- BS1, bits 12:0 of des1 (R123, R128). -/
def bs1Of (des1 : Word) : Nat := bitsAt des1 0 13

/-- BS2, bits 25:13 of des1 (R123, R128). -/
def bs2Of (des1 : Word) : Nat := bitsAt des1 13 13

/-- BS1 + BS2: the byte count of a TX descriptor (R173), the capacity of an RX one (R342). -/
def sizesOf (des1 : Word) : Nat := bs1Of des1 + bs2Of des1

/-- A TX des1 with BS2 = 0 (R123, R124). -/
def txDes1 (ic ls fs csum er : Bool) (len : Nat) : Word :=
  bitIf ic 31 ||| bitIf ls 30 ||| bitIf fs 29 ||| bitIf csum 28 ||| bitIf er 27 ||| natWord (len % 2 ^ 13)

/-- An RX des1 with BS2 = 0 (R128). -/
def rxDes1 (er dic : Bool) (size : Nat) : Word := bitIf er 27 ||| bitIf dic 26 ||| natWord (size % 2 ^ 13)

/-- FL, bits 29:16 of an RX des0 (R126). -/
def flOf (des0 : Word) : Nat := bitsAt des0 16 14

/-- ES, bit 15 of des0 (R122, R126). -/
def esOf (des0 : Word) : Bool := bit des0 15

/-- The des0 with which DMA_TX closes an aborted frame: ES with UF (R334). -/
def underflowStatus : Word := 0x0000_8002

/-- The des0 with which DMA_TX closes a frame cut off by jabber: ES with JT (R335). -/
def jabberStatus : Word := 0x0000_C000

/-- The des0 with which DMA_RX closes a descriptor: OWN = 0, FS = LS = 1, ES = DE or CE (R126, R342). -/
def rxStatusWord (fl : Nat) (de ce cse csv : Bool) : Word :=
  natWord (fl % 2 ^ 14) <<< 16 ||| bitIf (de || ce) 15 ||| bitIf de 14 ||| oneBit 9 ||| oneBit 8 |||
    bitIf cse 7 ||| bitIf ce 1 ||| bitIf csv 0

/-! ### Packet record (R135) and segmentation (R261) -/

/-- A packet record as TRANSMIT reads it. -/
structure Packet where
  headAddr : Word
  headLen  : Nat
  nrFrags  : Nat
  csumReq  : Bool
  reserved : Nat
  handle   : Word
  frags    : List (Word × Nat)
deriving DecidableEq, Repr

/-- One segment: CPU address and length. -/
abbrev Segment := Word × Nat

/-- `tx_segments(p)` (R261): the packet's segments, or none for ERROR. -/
def txSegments (p : Params) (k : Packet) : Option (List Segment) :=
  let cap := p.txBufCap.val
  if k.reserved ≠ 0 ∨ k.nrFrags > p.maxFrags ∨ k.headLen = 0 then none
  else if k.headLen > 2 * cap then none
  else if k.frags.any (fun f => f.2 = 0 ∨ f.2 > cap) then none
  else
    let head := [(k.headAddr, min k.headLen cap)]
    let split := if k.headLen > cap then [(k.headAddr + natWord cap, k.headLen - cap)] else []
    some (head ++ split ++ k.frags)

/-! ### Tunables (R416, R428) -/

/-- A legal ring size: a power of two in 4..1024 (R8, R32). -/
def ringSizeLegal (n : Nat) : Bool := [4, 8, 16, 32, 64, 128, 256, 512, 1024].contains n

/-- A legal TX threshold (R8, R41). -/
def thresholdLegal (n : Nat) : Bool := [64, 128, 192, 256].contains n

/-- A legal coalescing count for a ring of `n` (R8). -/
def coalLegal (n v : Nat) : Bool := 1 ≤ v ∧ v ≤ min 256 (n - 1)

/-- The largest legal MTU (R430, R416). -/
def mtuLimit : Variant → Nat
  | .mac100 => 1500
  | .gmac => 9000

/-- A legal MTU (R430, R416). -/
def mtuLegal (v : Variant) (m : Nat) : Bool := 46 ≤ m ∧ m ≤ mtuLimit v

/-- A legal buffer size (R8). -/
def bufSzLegal (n : Nat) : Bool := 64 ≤ n ∧ n ≤ 8191

/-- A legal watchdog duration (R8). -/
def watchdogLegal (n : Nat) : Bool := 1 ≤ n ∧ n ≤ 2 ^ 31 - 1

/-- `v` if it is legal, else the default (R416). -/
def clampTo (legal : Bool) (v dflt : Nat) : Nat := if legal then v else dflt

/-- The tunables after the clamping of OPEN, in the order of R416: the coalescing limits use the ring sizes
already clamped. -/
def Tunables.clamped (v : Variant) (t : Tunables) : Tunables :=
  let nTx := clampTo (ringSizeLegal t.nTx) t.nTx 128
  let nRx := clampTo (ringSizeLegal t.nRx) t.nRx 128
  { nTx := nTx
    nRx := nRx
    bufSz := clampTo (bufSzLegal t.bufSz) t.bufSz 1536
    tc := clampTo (thresholdLegal t.tc) t.tc 64
    flowCtrl := clampTo (t.flowCtrl ≤ 3) t.flowCtrl 3
    pause := clampTo (t.pause ≤ 0xFFFF) t.pause 0xFFFF
    txCoal := clampTo (coalLegal nTx t.txCoal) t.txCoal 1
    rxCoal := clampTo (coalLegal nRx t.rxCoal) t.rxCoal 1
    watchdog := clampTo (watchdogLegal t.watchdog) t.watchdog 5000
    mtu := clampTo (mtuLegal v t.mtu) t.mtu 1500 }

/-- The platform's tunables, which ATTACH installs (R57, R410). -/
def Tunables.platform (p : Params) : Tunables where
  nTx := p.nTx
  nRx := p.nRx
  bufSz := p.bufSz
  tc := p.tc
  flowCtrl := p.flowCtrl
  pause := p.pause
  txCoal := p.txCoal
  rxCoal := p.rxCoal
  watchdog := p.watchdog
  mtu := p.mtu

/-- SET_TUNABLE's table (R428): the tunables with id `id` set to `v`, or none where `v` is not legal for it. -/
def Tunables.set (t : Tunables) (id v : Nat) : Option Tunables :=
  match id with
  | 0 => if ringSizeLegal v then some { t with nTx := v } else none
  | 1 => if ringSizeLegal v then some { t with nRx := v } else none
  | 2 => if bufSzLegal v then some { t with bufSz := v } else none
  | 3 => if thresholdLegal v then some { t with tc := v } else none
  | 4 => if v ≤ 3 then some { t with flowCtrl := v } else none
  | 5 => if v ≤ 0xFFFF then some { t with pause := v } else none
  | 6 => if coalLegal t.nTx v then some { t with txCoal := v } else none
  | 7 => if coalLegal t.nRx v then some { t with rxCoal := v } else none
  | 8 => if watchdogLegal v then some { t with watchdog := v } else none
  | _ => none

/-- READ_STAT's table (R434): the counter with a given id. -/
def Stats.counter (c : Stats) (id : Nat) : Counter :=
  match id with
  | 0 => c.txUnderflow
  | 1 => c.txJabber
  | 2 => c.rxOverflow
  | 3 => c.rxBufUnav
  | 4 => c.txProcessStopped
  | 5 => c.rxProcessStopped
  | 6 => c.fatalBusError
  | 7 => c.txPackets
  | 8 => c.txBytes
  | 9 => c.txErrors
  | 10 => c.rxPackets
  | 11 => c.rxBytes
  | 12 => c.rxErrors
  | 13 => c.rxDropped
  | 14 => c.rxAllocFail
  | 15 => c.txBusy
  | 16 => c.txTimeout
  | 17 => c.txRecovery
  | 18 => c.rxCsumOk
  | _ => 0

/-- The speed as READ_LINK returns it (R58, R188). -/
def Speed.word : Speed → Word
  | .none => 0
  | .s10 => 10
  | .s100 => 100
  | .s1000 => 1000

/-- The speed ADJUST_LINK accepts for ARG1: 10 or 100, and 1000 on a GMAC (R186). -/
def speedOfArg (v : Variant) (a : Word) : Option Speed :=
  if a = 10 then some .s10
  else if a = 100 then some .s100
  else if a = 1000 ∧ v = .gmac then some .s1000
  else none

end Sys2Proof.Machine
end

