-- ==== Sys2Proof/Machine/Flags.lean ====
section
/-! DEFINITION. Status flags: the DMA_STATUS source bits, masks and derived bits (10_state.md R38, R371), the
interrupt output (R40), and the RX classification (30_encoding.md R127). -/

namespace Sys2Proof.Machine

open Sys2Proof

/-- A DMA_STATUS source bit (R38, R442). -/
inductive Source where
  | ti
  | tps
  | tjt
  | ovf
  | unf
  | ri
  | ru
  | rps
  | fbi
deriving DecidableEq, Repr

/-- The bit position of a source in DMA_STATUS and of its enable in DMA_IER (R38, R39). -/
def Source.pos : Source → Nat
  | .ti => 0
  | .tps => 1
  | .tjt => 3
  | .ovf => 4
  | .unf => 5
  | .ri => 6
  | .ru => 7
  | .rps => 8
  | .fbi => 13

/-- NORMAL_MASK: bits 0 and 6 (R38, R371). -/
def normalMask : Word := 0x0000_0041

/-- ABNORMAL_MASK: bits 1, 3, 4, 5, 7, 8 and 13 (R38, R371). -/
def abnormalMask : Word := 0x0000_21BA

/-- SRC_MASK, the source bits (R370, R371). -/
def srcMask : Word := 0x0000_21FB

/-- IER_OPEN, which is also every implemented bit of DMA_IER (R39). -/
def ierMask : Word := 0x0001_A1FB

/-- RIE, bit 6 of DMA_IER (R39). -/
def riePos : Nat := 6

/-- The process-state code of TS and RS (R51). -/
def ProcState.code : ProcState → Word
  | .stopped => 0
  | .running => 1
  | .suspended => 2

/-- AIS (R38). -/
def aisOf (src : Word) : Bool := src &&& abnormalMask ≠ 0

/-- NIS (R38). -/
def nisOf (src : Word) : Bool := src &&& normalMask ≠ 0

/-- DMA_STATUS as it reads (R38). -/
def statusWord (src : Word) (ts rs : ProcState) : Word :=
  src ||| bitIf (aisOf src) 15 ||| bitIf (nisOf src) 16 ||| rs.code <<< 17 ||| ts.code <<< 20

/-- The interrupt output `irq_mac`, a level (R40). -/
def State.irqMac (s : State) : Bool :=
  (bit s.csr.dmaIer 16 && (s.csr.statusSrc &&& s.csr.dmaIer &&& normalMask) ≠ 0) ||
    (bit s.csr.dmaIer 15 && (s.csr.statusSrc &&& s.csr.dmaIer &&& abnormalMask) ≠ 0)

/-- MAC_CONFIG.IPC (R44: bit 8). -/
abbrev State.ipc (s : State) : Bool := bit s.csr.macConfig 8

/-- The RX classes (R127). -/
inductive RxClass where
  | good
  | csumUnnecessary
  | csumNone
  | discard
deriving DecidableEq, Repr

/-- `classify(s)` (R127), with MAC_CONFIG.IPC, which CSUM_UNNECESSARY also needs by the ruling R127 cites (D29,
log 22). -/
def classify (ipc : Bool) (s : Word) : RxClass :=
  if bit s 15 || !bit s 9 || !bit s 8 then .discard
  else if bit s 7 then .csumNone
  else if bit s 0 && ipc then .csumUnnecessary
  else .good

/-- The class codes (R127). -/
def RxClass.code : RxClass → Word
  | .good => 0
  | .csumUnnecessary => 1
  | .csumNone => 2
  | .discard => 3

/-- `stamp(c)` (R304). -/
def stampOf (c : RxClass) : Stamp := if c = .csumUnnecessary then .verified else .none

/-- `v` with the process-start, store-and-forward, PBL and CMD_ERR fields of DMA_CTRL legal (R37): PBL is WARL
to 8, CMD_ERR is write-1-to-clear over its old value, reserved bits read 0. -/
def legalDmaCtrl (old v : Word) : Word :=
  let pbl := bitsAt v 8 6
  let legal := [1, 2, 4, 8, 16, 32].contains pbl
  (v &&& (0xF : Word)) ||| natWord (if legal then pbl else 8) <<< 8 ||| bitIf (bit old 31 && !bit v 31) 31

/-- The TC that DMA_TX_THRESH reads back after a write of `v` (R41). -/
def legalThresh (v : Word) : Word := natWord (max 64 (min 256 (64 * (bitsAt v 0 9 / 64))))

/-- MAC_CONFIG after a write of `v` (R44): PS reads 1 on a MAC100, IPC reads 0 without checksum offload. -/
def legalMacConfig (p : Params) (v : Word) : Word :=
  let ps := match p.variant with | .mac100 => true | .gmac => bit v 4
  (v &&& 0xF) ||| bitIf ps 4 ||| bitIf (p.csumOffload && bit v 8) 8

/-- HW_FEATURE, hardwired (R49). -/
def hwFeature (p : Params) : Word := bitIf (p.variant = .gmac) 0 ||| bitIf p.csumOffload 1

end Sys2Proof.Machine
end

