-- ==== Sys2Proof/Machine/Ops.lean ====
section
/-! DEFINITION. The named operations over memory and registers that every meaning is written with: shared memory, the
software write buffer and its checks (20_memory.md), the CSR file (10_state.md R36 to R50), mapping and
allocation (R84, D33), DMA accesses (R81, R330), and raising a model fault (60_exceptions.md R450), which is
this block's only exception: there is no handler, so nothing returns from it (R446, R447). -/

namespace Sys2Proof.Machine

open Sys2Proof

/-! ### Model faults (R60, R450) -/

/-- `raise FAULT(kind, info)`: the state's `fault` becomes the first fault raised (R450). -/
def raise (f : Fault) (s : State) : State :=
  match s.fault with
  | none => { s with fault := some f }
  | some _ => s

/-- Raise a fault if a check found one. -/
def raiseIf (f : Option Fault) (s : State) : State :=
  match f with
  | none => s
  | some g => raise g s

/-- The end of an atomic step that began in `s` and computed `t`: where it raised a fault, only the fault remains
(log 6). -/
def settle (s t : State) : State :=
  match t.fault with
  | none => t
  | some f => { s with fault := some f }

/-! ### Shared memory (R80, R82) -/

/-- The byte at an address; an address the list does not hold reads 0 (log 2). -/
def memRead : Memory → Nat → Byte
  | [], _ => 0
  | (k', b') :: m, k => if k = k' then b' else memRead m k

/-- Write one byte, keeping the list strictly rising and free of zero entries. -/
def memWrite : Memory → Nat → Byte → Memory
  | [], k, b => if b = 0 then [] else [(k, b)]
  | (k', b') :: m, k, b =>
    if k < k' then (if b = 0 then (k', b') :: m else (k, b) :: (k', b') :: m)
    else if k = k' then (if b = 0 then m else (k, b) :: m)
    else (k', b') :: memWrite m k b

/-- Every key of the list lies above `lo`. -/
def memAbove (lo : Nat) : Memory → Bool
  | [] => true
  | (k, _) :: m => lo < k && memAbove lo m

/-- The canonical form: addresses strictly rising and below 4 GiB, no entry 0. -/
def Memory.wf : Memory → Bool
  | [] => true
  | (k, b) :: m => k < 2 ^ 32 && b ≠ 0 && memAbove k m && Memory.wf m

/-- Write a run of bytes from address `a` up, addresses modulo 2^32 (log 7). -/
def memWriteBytes (m : Memory) (a : Word) : List Byte → Memory
  | [] => m
  | b :: bs => memWrite (memWriteBytes m (a + 1) bs) a.toNat b

/-- `a` lies in the `len` bytes from `base` up, addresses modulo 2^32. -/
def inSpan (base : Word) (len : Nat) (a : Word) : Bool := (a - base).toNat < len

/-- Two nonempty byte ranges share a byte. -/
def spansMeet (a : Word) (la : Nat) (b : Word) (lb : Nat) : Bool :=
  la ≠ 0 && lb ≠ 0 && ((b - a).toNat < la || (a - b).toNat < lb)

/-! ### The software write buffer (R90, R92) -/

/-- `DESC_FENCE()`: every entry of `wbuf` becomes visible, in order (R92). -/
def descFence (s : State) : State :=
  { s with mem := s.wbuf.foldl (fun m e => memWriteBytes m e.addr e.bytes) s.mem, wbuf := [] }

/-- A software write to shared memory enters `wbuf` (R90). -/
def pushWrite (a : Word) (bytes : List Byte) (s : State) : State :=
  { s with wbuf := s.wbuf ++ [{ addr := a, bytes := bytes }] }

/-- Make entry `k` of `wbuf` visible before the others (R90). -/
def drainOne (k : Nat) (s : State) : State :=
  match s.wbuf[k]? with
  | none => s
  | some e => { s with mem := memWriteBytes s.mem e.addr e.bytes, wbuf := s.wbuf.eraseIdx k }

/-- The byte software sees: memory, forwarded from its own pending writes, the latest first (R90). -/
def swByte (s : State) (a : Word) : Byte :=
  s.wbuf.foldl (fun acc e => if inSpan e.addr e.bytes.length a then e.bytes.getD (a - e.addr).toNat 0 else acc)
    (memRead s.mem a.toNat)

/-- The word software sees, in `DESC_ENDIAN` order (R82). -/
def swWord (s : State) (a : Word) : Word :=
  joinBytes s.params.endian (swByte s a) (swByte s (a + 1)) (swByte s (a + 2)) (swByte s (a + 3))

/-- The `len` bytes software sees from `a` up. -/
def swBytes (s : State) (a : Word) (len : Nat) : List Byte := (List.range len).map fun k => swByte s (a + natWord k)

/-! ### Rings and slots (R32 to R34, R169) -/

/-- The ring a RING operand names. -/
def State.ring (s : State) (r : RingSel) : Ring :=
  match r with
  | .tx => s.tx
  | .rx => s.rx

/-- Replace one ring's software state. -/
def State.setRing (s : State) (r : RingSel) (g : Ring) : State :=
  match r with
  | .tx => { s with tx := g }
  | .rx => { s with rx := g }

/-- TS or RS (R51). -/
def State.proc (s : State) (r : RingSel) : ProcState :=
  match r with
  | .tx => s.dma.ts
  | .rx => s.dma.rs

/-- TX slot `i`. -/
def State.txSlot (s : State) (i : Nat) : TxSlot := s.txSlots.getD i TxSlot.empty

/-- RX slot `i`. -/
def State.rxSlot (s : State) (i : Nat) : RxSlot := s.rxSlots.getD i RxSlot.empty

/-- Replace TX slot `i`. -/
def State.setTxSlot (s : State) (i : Nat) (x : TxSlot) : State := { s with txSlots := s.txSlots.set i x }

/-- Replace RX slot `i`. -/
def State.setRxSlot (s : State) (i : Nat) (x : RxSlot) : State := { s with rxSlots := s.rxSlots.set i x }

/-- The publication flag of a slot (R169). -/
def State.pub (s : State) (r : RingSel) (i : Nat) : Bool :=
  match r with
  | .tx => (s.txSlot i).pub
  | .rx => (s.rxSlot i).pub

/-- Set the publication flag of a slot (R169). -/
def State.setPub (s : State) (r : RingSel) (i : Nat) (b : Bool) : State :=
  match r with
  | .tx => s.setTxSlot i { s.txSlot i with pub := b }
  | .rx => s.setRxSlot i { s.rxSlot i with pub := b }

/-- A slot is staged: in the in-flight window and not published (R169). -/
def State.staged (s : State) (r : RingSel) (i : Nat) : Bool := (s.ring r).inWindow i && !s.pub r i

/-- The address lies in the ring's descriptor array, `16 * N(r)` bytes at `base(r)` (R81). -/
def Ring.holds (g : Ring) (a : Word) : Bool := g.allocated && inSpan g.base (16 * g.n) a

/-- The address of word `k` of descriptor `i` (R11): `base(r) + 16 * i`, where base(r) is the ring's base register (R32). -/
def State.descAddr (s : State) (r : RingSel) (i k : Nat) : Word := (s.ring r).base + natWord (16 * i + 4 * k)

/-- Word `k` of descriptor `i` as software sees it. -/
def State.descWord (s : State) (r : RingSel) (i k : Nat) : Word := swWord s (s.descAddr r i k)

/-- The OWN bit of descriptor `i` as software sees it (R95). -/
def State.ownSeen (s : State) (r : RingSel) (i : Nat) : Bool := ownOf (s.descWord r i 0)

/-! ### Regions, marks and mapping (R81, R84) -/

/-- The byte lies in a buffer region (R81). -/
def State.inBuffer (s : State) (a : Word) : Bool := s.regions.any fun g => inSpan g.base g.len a

/-- The byte lies in an allocated region: a ring array or a buffer region (R81). -/
def State.inRegion (s : State) (a : Word) : Bool := s.tx.holds a || s.rx.holds a || s.inBuffer a

/-- The byte is device-owned (R84). -/
def State.marked (s : State) (a : Word) : Bool := s.marks.any fun m => inSpan m.cpu m.len a

/-- The range shares a byte with a device-owned range. -/
def State.meetsMark (s : State) (a : Word) (len : Nat) : Bool := s.marks.any fun m => spansMeet m.cpu m.len a len

/-- `DMA_MAP` (R8, R84, D32): the first window that holds the address, else the identity (log 18). -/
def dmaMapOf (p : Params) (a : Word) : Word :=
  match p.dmaMap.find? fun w => inSpan w.cpu w.len a with
  | some w => w.dma + (a - w.cpu)
  | none => a

/-- The CPU addresses whose `DMA_MAP` image is `d` (R80, R88). -/
def dmaPreimages (p : Params) (d : Word) : List Word :=
  ((p.dmaMap.filter fun w => inSpan w.dma w.len d).map (fun w => w.cpu + (d - w.dma)) ++ [d]).filter
    fun c => dmaMapOf p c = d

/-- A buffer handed over with a packet is an allocated region from then on (R81). -/
def addRegion (a : Word) (len : Nat) (s : State) : State :=
  if s.regions.any fun g => (a - g.base).toNat + len ≤ g.len then s
  else { s with regions := s.regions ++ [{ base := a, len := len, owner := .upper }] }

/-- `map(buf, len)`: a DESC_FENCE, and the bytes become device-owned (R84). -/
def mapBuf (cpu : Word) (len : Nat) (s : State) : State :=
  let t := addRegion cpu len (descFence s)
  { t with marks := t.marks ++ [{ dma := dmaMapOf s.params cpu, cpu := cpu, len := len }] }

/-- What is left of a device-owned range after `unmap(addr, len)`. -/
def cutMark (addr : Word) (len : Nat) (m : Mark) : List Mark :=
  let before := (m.dma - addr).toNat
  let after := (addr - m.dma).toNat
  if before < len then
    let k := len - before
    if k < m.len then [{ dma := m.dma + natWord k, cpu := m.cpu + natWord k, len := m.len - k }] else []
  else if after < m.len then
    let k := after + len
    { m with len := after } ::
      (if k < m.len then [{ dma := m.dma + natWord k, cpu := m.cpu + natWord k, len := m.len - k }] else [])
  else [m]

/-- `unmap(addr, len)` of a DMA address clears the device-owned mark of its bytes (R84). -/
def unmapBuf (addr : Word) (len : Nat) (s : State) : State :=
  { s with marks := s.marks.flatMap (cutMark addr len) }

/-- `unmap(addr, len)` of a slot's buffer, if the slot holds an address (R170, R222, R303). -/
def unmapIf (addr : Option Word) (len : Nat) (s : State) : State :=
  match addr with
  | some a => unmapBuf a len s
  | none => s

/-- Hand something out (R11). -/
def output (o : Output) (s : State) : State := { s with outputs := s.outputs ++ [o] }

/-- `release(pkt)` if the slot holds a packet (R222). -/
def releasePkt (pkt : Option Word) (s : State) : State :=
  match pkt with
  | none => s
  | some p => output (.release p) s

/-! ### Allocation (R11, D33) -/

/-- The next answer of the allocation oracle: the environment's, or an open value. -/
def drawAnswer (s : State) : Option Word × State :=
  match s.allocAnswers with
  | x :: rest => (x, { s with allocAnswers := rest })
  | [] => (Config.allocAnswer s.draws, { s with draws := s.draws + 1 })

/-- The range shares a byte with a ring's descriptor array. -/
def State.meetsArray (s : State) (a : Word) (len : Nat) : Bool :=
  s.tx.allocated && spansMeet s.tx.base (16 * s.tx.n) a len || s.rx.allocated && spansMeet s.rx.base (16 * s.rx.n) a len

/-- An address at which `len` fresh bytes with a given alignment can lie (R83, D33): apart from every region and every
device-owned byte, and with its `DMA_MAP` image apart from the descriptor arrays, which the DMA agents reach at their own
addresses (log 8, log 18). -/
def State.fresh (s : State) (align : Nat) (a : Word) (len : Nat) : Bool :=
  a.toNat % align = 0 && a.toNat + len ≤ 2 ^ 32 && !s.meetsArray a len && !s.meetsArray (dmaMapOf s.params a) len &&
    !(s.regions.any fun g => spansMeet g.base g.len a len) && !s.meetsMark a len

/-- An oracle draw for `len` bytes: a fresh aligned address, or none for FAIL. An answer that is not a fresh
aligned region counts as FAIL (log 8). -/
def drawFresh (align len : Nat) (s : State) : Option Word × State :=
  let d := drawAnswer s
  match d.1 with
  | some a => (if d.2.fresh align a len then some a else none, d.2)
  | none => (none, d.2)

/-- `alloc(len)`: a fresh 4-byte-aligned buffer, which becomes a region, or none for FAIL (R11, R83). -/
def allocBuf (len : Nat) (s : State) : Option Word × State :=
  let d := drawFresh 4 len s
  match d.1 with
  | some a => (some a, { d.2 with regions := d.2.regions ++ [{ base := a, len := len, owner := .pool }] })
  | none => (none, d.2)

/-- `free(buf)` (R11): the first region that starts at `buf` is no longer allocated, whoever owns it; a buffer that starts no
region, being inside a larger one, ends none (log 24). -/
def freeBuf (buf : Word) (s : State) : State := { s with regions := s.regions.eraseP fun g => g.base = buf }

/-- A delivered buffer belongs to the upper layer from then on (R303). -/
def giveToUpper (buf : Word) (s : State) : State :=
  { s with regions := s.regions.map fun g => if g.base = buf then { g with owner := .upper } else g }

/-! ### Checks of software accesses (R84, R91, R95) -/

/-- The ring, index and byte offset of the descriptor that holds an address. -/
def State.descAt (s : State) (a : Word) : Option (RingSel × Nat × Nat) :=
  if s.tx.holds a then some (.tx, (a - s.tx.base).toNat / 16, (a - s.tx.base).toNat % 16)
  else if s.rx.holds a then some (.rx, (a - s.rx.base).toNat / 16, (a - s.rx.base).toNat % 16)
  else none

/-- The address DMA uses for a CPU byte: its own in a descriptor array, which the base registers name unmapped (R220);
through its device-owned range; else `DMA_MAP` (R80, R84, log 18). -/
def State.dmaImage (s : State) (a : Word) : Word :=
  if s.tx.holds a || s.rx.holds a then a
  else
    match s.marks.find? fun m => inSpan m.cpu m.len a with
    | some m => m.dma + (a - m.cpu)
    | none => dmaMapOf s.params a

/-- The DMA address lies in a buffer that descriptor `i` addresses, as software sees the descriptor (R91, R95). -/
def State.descAddresses (s : State) (r : RingSel) (i : Nat) (d : Word) : Bool :=
  let d1 := s.descWord r i 1
  inSpan (s.descWord r i 2) (bs1Of d1) d || (bs2Of d1 ≠ 0 && inSpan (s.descWord r i 3) (bs2Of d1) d)

/-- The CPU byte lies in a buffer that a hardware-owned descriptor addresses (R95). -/
def State.hardwareBuffer (s : State) (a : Word) : Bool :=
  [RingSel.tx, RingSel.rx].any fun r =>
    (s.ring r).allocated && (List.range (s.ring r).n).any fun i =>
      s.ownSeen r i && s.descAddresses r i (s.dmaImage a)

/-- The byte is the hardware's: device-owned (R84), or in a buffer that a hardware-owned descriptor addresses. Software may
neither read it (R95) nor write it (R493: "any write"; R95 itself lists only the reads, log 36). -/
def State.deviceByte (s : State) (a : Word) : Bool := s.marked a || s.hardwareBuffer a

/-- The first byte of a range that is the hardware's, as the fault it raises (R84, R95, R493). -/
def State.deviceFault (s : State) (a : Word) (len : Nat) : Option Fault :=
  (((List.range len).map fun k => a + natWord k).find? s.deviceByte).map .ownViolation

/-- Software may not read this byte (R84, R95): it is the hardware's, or in des1..des3 of a hardware-owned descriptor. -/
def State.readForbidden (s : State) (a : Word) : Bool :=
  s.deviceByte a ||
    (match s.descAt a with
     | some (r, i, off) => 4 ≤ off && s.ownSeen r i
     | none => false)

/-- Software may not write this byte (R84, R95, R493): it is the hardware's, or in a hardware-owned descriptor. -/
def State.writeForbidden (s : State) (a : Word) : Bool :=
  s.deviceByte a ||
    (match s.descAt a with
     | some (r, i, _) => s.ownSeen r i
     | none => false)

/-- The fault a software read of `len` bytes raises, at the first byte it may not read (log 9). -/
def State.readFault (s : State) (a : Word) (len : Nat) : Option Fault :=
  (((List.range len).map fun k => a + natWord k).find? s.readForbidden).map .ownViolation

/-- The fault a software write of `len` bytes raises, at the first byte it may not write (log 9). -/
def State.writeFault (s : State) (a : Word) (len : Nat) : Option Fault :=
  (((List.range len).map fun k => a + natWord k).find? s.writeForbidden).map .ownViolation

/-- Among the pending writes `w` is one to another word of descriptor `i` than des0, or to a byte of a buffer it addresses
(R91). -/
def State.pendingFor (s : State) (w : List Pending) (r : RingSel) (i : Nat) : Bool :=
  w.any fun e => (List.range e.bytes.length).any fun k =>
    let c := e.addr + natWord k
    (inSpan (s.descAddr r i 0) 16 c && !inSpan (s.descAddr r i 0) 4 c) || s.descAddresses r i (s.dmaImage c)

/-- `wbuf` holds a write to another word of descriptor `i`, or to a byte of a buffer it addresses (R91). -/
def State.unfenced (s : State) (r : RingSel) (i : Nat) : Bool := s.pendingFor s.wbuf r i

/-! ### Descriptor words (R85, R91, R95, R96) -/

/-- The check of a software read of word `k` of descriptor `i`: des0 may be read whoever owns the descriptor, but no byte
that is the hardware's (R84, R95). -/
def readDesc (r : RingSel) (i k : Nat) (s : State) : State :=
  let a := s.descAddr r i k
  match s.deviceFault a 4 with
  | some f => raise f s
  | none => if k ≠ 0 && s.ownSeen r i then raise (.ownViolation a) s else s

/-- A software write of word `k` of descriptor `i`. Writing OWN = 1 publishes the slot (R91, R95, R169, R493). OWN_VIOLATION is
looked for before MISSING_FENCE, the model's choice (log 9). -/
def writeDesc (r : RingSel) (i k : Nat) (v : Word) (s : State) : State :=
  let a := s.descAddr r i k
  match s.deviceFault a 4 with
  | some f => raise f s
  | none =>
    if s.ownSeen r i then raise (.ownViolation a) s
    else if k = 0 && ownOf v then
      if s.unfenced r i then raise (.missingFence a) s
      else (pushWrite a (splitWord s.params.endian v) s).setPub r i true
    else pushWrite a (splitWord s.params.endian v) s

/-- The software write that leads from `s` to `t` sets OWN of descriptor `i` from 0 to 1 (R91, R169). -/
def published (s t : State) (r : RingSel) (i : Nat) : Bool := !s.ownSeen r i && t.ownSeen r i

/-- The fault of a software write from `s` to `t` that sets an OWN bit from 0 to 1 while `s` holds pending writes that the
descriptor, as the write leaves it, waits for (R91); of several such descriptors, the first of the TX ring, else of the RX ring
(log 9). -/
def ownFault (s t : State) : Option Fault :=
  [RingSel.tx, RingSel.rx].findSome? fun r =>
    ((List.range (s.ring r).n).find? fun i => published s t r i && t.pendingFor s.wbuf r i).map fun i =>
      .missingFence (s.descAddr r i 0)

/-- The publication flags after a software write from `s` to `t` (R169). -/
def publishSlots (s t : State) : State :=
  { t with
    txSlots := t.txSlots.mapIdx fun i x => { x with pub := x.pub || published s t .tx i }
    rxSlots := t.rxSlots.mapIdx fun i x => { x with pub := x.pub || published s t .rx i } }

/-- A software write of a run of bytes, as one entry of `wbuf` (R90, log 39): no byte may be the hardware's or in a hardware-owned
descriptor (R84, R95, R493), and a descriptor whose OWN bit it sets from 0 to 1 is published as by a write of its des0
(R91, R169). -/
def writeRun (a : Word) (bytes : List Byte) (s : State) : State :=
  let t := pushWrite a bytes s
  raiseIf (ownFault s t) (raiseIf (s.writeFault a bytes.length) (publishSlots s t))

/-- The fence and the OWN = 1 write that end a submission (R91, R172). -/
def publish (r : RingSel) (i : Nat) (s : State) : State := writeDesc r i 0 ownWord (descFence s)

/-- A teardown write, allowed whatever hardware owns because the ring's DMA process is STOPPED (R96). -/
def wipeDesc (r : RingSel) (i k : Nat) (v : Word) (s : State) : State :=
  pushWrite (s.descAddr r i k) (splitWord s.params.endian v) s

/-! ### CSR file (R36 to R50)

`storeX` is the register's own write rule; `wrX` is a software write, which an implicit DESC_FENCE precedes
(R92, D56). -/

/-- The process state after a write that changes its start bit (R52, R53). -/
def procAfter (p : ProcState) (old new : Bool) : ProcState :=
  match old, new with
  | false, true => .running
  | true, false => .stopped
  | _, _ => p

/-- DMA_CTRL (R37, R52, R53). -/
def storeDmaCtrl (v : Word) (s : State) : State :=
  { s with
    csr := { s.csr with dmaCtrl := legalDmaCtrl s.csr.dmaCtrl v }
    dma := { s.dma with
      ts := procAfter s.dma.ts (bit s.csr.dmaCtrl 0) (bit v 0)
      rs := procAfter s.dma.rs (bit s.csr.dmaCtrl 1) (bit v 1) } }

/-- DMA_TX_THRESH (R41). -/
def storeThresh (v : Word) (s : State) : State := { s with csr := { s.csr with dmaTxThresh := legalThresh v } }

/-- DMA_STATUS: write 1 to clear the source bits (R38). -/
def storeStatus (v : Word) (s : State) : State :=
  { s with csr := { s.csr with statusSrc := s.csr.statusSrc &&& ~~~v } }

/-- DMA_IER (R39). -/
def storeIer (v : Word) (s : State) : State := { s with csr := { s.csr with dmaIer := v &&& ierMask } }

/-- TX_DESC_BASE (R42), which is base(TX): the descriptors, and the region that holds them (R81), lie where it says from then
on (R32, log 37). -/
def storeTxBase (v : Word) (s : State) : State :=
  if s.dma.ts = .stopped then
    { s with tx := { s.tx with base := v &&& 0xFFFF_FFF0 }, dma := { s.dma with txIdx := 0 } }
  else s

/-- RX_DESC_BASE (R42), which is base(RX), likewise (R32, log 37). -/
def storeRxBase (v : Word) (s : State) : State :=
  if s.dma.rs = .stopped then
    { s with rx := { s.rx with base := v &&& 0xFFFF_FFF0 }, dma := { s.dma with rxIdx := 0 } }
  else s

/-- A poll demand resumes a suspended process (R43). -/
def resumed (p : ProcState) : ProcState := if p = .suspended then .running else p

/-- TX_POLL_DEMAND (R43). -/
def storeTxPoll (s : State) : State := { s with dma := { s.dma with ts := resumed s.dma.ts } }

/-- RX_POLL_DEMAND (R43). -/
def storeRxPoll (s : State) : State := { s with dma := { s.dma with rs := resumed s.dma.rs } }

/-- MAC_CONFIG (R44). -/
def storeMacConfig (v : Word) (s : State) : State :=
  { s with csr := { s.csr with macConfig := legalMacConfig s.params v } }

/-- MAC_FLOW (R45). -/
def storeMacFlow (v : Word) (s : State) : State := { s with csr := { s.csr with macFlow := v &&& 0xFFFF_0003 } }

/-- MAC_ADDR_HI (R46). -/
def storeMacAddrHi (v : Word) (s : State) : State := { s with csr := { s.csr with macAddrHi := v &&& 0xFFFF } }

/-- MAC_ADDR_LO (R46). -/
def storeMacAddrLo (v : Word) (s : State) : State := { s with csr := { s.csr with macAddrLo := v } }

/-- MC_HASH_HI (R46). -/
def storeHashHi (v : Word) (s : State) : State := { s with csr := { s.csr with mcHashHi := v } }

/-- MC_HASH_LO (R46). -/
def storeHashLo (v : Word) (s : State) : State := { s with csr := { s.csr with mcHashLo := v } }

/-- FRAME_FILTER (R46). -/
def storeFilter (v : Word) (s : State) : State := { s with csr := { s.csr with frameFilter := v &&& 7 } }

/-- PMT (R47). -/
def storePmt (v : Word) (s : State) : State := { s with csr := { s.csr with pmt := v &&& 7 } }

/-- A CSR write by its register (R31, R36). Read-only registers ignore it. CMD is not here: a write of CMD
issues a command (R50). -/
def storeCsr (c : Csr) (v : Word) (s : State) : State :=
  match c with
  | .dmaCtrl => storeDmaCtrl v s
  | .dmaTxThresh => storeThresh v s
  | .dmaStatus => storeStatus v s
  | .dmaIer => storeIer v s
  | .txDescBase => storeTxBase v s
  | .rxDescBase => storeRxBase v s
  | .txPollDemand => storeTxPoll s
  | .rxPollDemand => storeRxPoll s
  | .macConfig => storeMacConfig v s
  | .macFlow => storeMacFlow v s
  | .macAddrHi => storeMacAddrHi v s
  | .macAddrLo => storeMacAddrLo v s
  | .mcHashHi => storeHashHi v s
  | .mcHashLo => storeHashLo v s
  | .frameFilter => storeFilter v s
  | .pmt => storePmt v s
  | .arg0 => { s with csr := { s.csr with arg0 := v } }
  | .arg1 => { s with csr := { s.csr with arg1 := v } }
  | .arg2 => { s with csr := { s.csr with arg2 := v } }
  | .arg3 => { s with csr := { s.csr with arg3 := v } }
  | .curTxDesc | .curRxDesc | .hwFeature | .cmd | .result | .result1 => s

/-- A CSR read by its register (R31, R36): write-only registers read 0. -/
def readCsr (s : State) (c : Csr) : Word :=
  match c with
  | .dmaCtrl => s.csr.dmaCtrl
  | .dmaTxThresh => s.csr.dmaTxThresh
  | .dmaStatus => statusWord s.csr.statusSrc s.dma.ts s.dma.rs
  | .dmaIer => s.csr.dmaIer
  | .txDescBase => s.tx.base
  | .rxDescBase => s.rx.base
  | .txPollDemand | .rxPollDemand | .cmd => 0
  | .macConfig => s.csr.macConfig
  | .macFlow => s.csr.macFlow
  | .macAddrHi => s.csr.macAddrHi
  | .macAddrLo => s.csr.macAddrLo
  | .mcHashHi => s.csr.mcHashHi
  | .mcHashLo => s.csr.mcHashLo
  | .frameFilter => s.csr.frameFilter
  | .pmt => s.csr.pmt
  | .curTxDesc => s.tx.base + natWord (16 * s.dma.txIdx)
  | .curRxDesc => s.rx.base + natWord (16 * s.dma.rxIdx)
  | .hwFeature => hwFeature s.params
  | .arg0 => s.csr.arg0
  | .arg1 => s.csr.arg1
  | .arg2 => s.csr.arg2
  | .arg3 => s.csr.arg3
  | .result => s.csr.result
  | .result1 => s.csr.result1

/-- The DMA half of the CSR map of R36: offset from BASE and register. -/
def dmaCsrMap : List (Nat × Csr) :=
  [(0x000, .dmaCtrl), (0x004, .dmaTxThresh), (0x008, .dmaStatus), (0x00C, .dmaIer), (0x010, .txDescBase),
   (0x014, .rxDescBase), (0x018, .txPollDemand), (0x01C, .rxPollDemand)]

/-- The MAC and command half of the CSR map of R36. -/
def macCsrMap : List (Nat × Csr) :=
  [(0x028, .macConfig), (0x02C, .macFlow), (0x030, .macAddrHi), (0x034, .macAddrLo), (0x038, .mcHashHi),
   (0x03C, .mcHashLo), (0x040, .frameFilter), (0x044, .pmt), (0x048, .curTxDesc), (0x04C, .curRxDesc),
   (0x050, .hwFeature), (0x060, .cmd), (0x064, .arg0), (0x068, .arg1), (0x06C, .arg2), (0x070, .arg3),
   (0x074, .result), (0x078, .result1)]

/-- The CSR map of R36. -/
def csrMap : List (Nat × Csr) := dmaCsrMap ++ macCsrMap

/-- The register at an offset; an offset R36 does not list is reserved (D8). -/
def csrAt (off : Nat) : Option Csr := csrMap.lookup off

/-- Software writes DMA_CTRL, its CMD_ERR bit written 0 and so kept (R37, R175). -/
def wrDmaCtrl (v : Word) (s : State) : State := storeDmaCtrl (putBit v 31 false) (descFence s)

/-- Software writes DMA_TX_THRESH. -/
def wrThresh (v : Word) (s : State) : State := storeThresh v (descFence s)

/-- Software writes DMA_STATUS. -/
def wrStatus (v : Word) (s : State) : State := storeStatus v (descFence s)

/-- Software writes DMA_IER. -/
def wrIer (v : Word) (s : State) : State := storeIer v (descFence s)

/-- Software writes a ring's base register. -/
def wrBase (r : RingSel) (v : Word) (s : State) : State :=
  match r with
  | .tx => storeTxBase v (descFence s)
  | .rx => storeRxBase v (descFence s)

/-- Software writes a ring's poll demand register. -/
def wrPoll (r : RingSel) (s : State) : State :=
  match r with
  | .tx => storeTxPoll (descFence s)
  | .rx => storeRxPoll (descFence s)

/-- Software writes MAC_CONFIG. -/
def wrMacConfig (v : Word) (s : State) : State := storeMacConfig v (descFence s)

/-- Software writes MAC_FLOW. -/
def wrMacFlow (v : Word) (s : State) : State := storeMacFlow v (descFence s)

/-- Software writes PMT. -/
def wrPmt (v : Word) (s : State) : State := storePmt v (descFence s)

/-- The start bit of a ring in DMA_CTRL: ST or SR (R37). -/
def startBit : RingSel → Nat
  | .tx => 0
  | .rx => 1

/-- `csr[DMA_CTRL].ST <- b` or `.SR <- b`. -/
def wrStart (r : RingSel) (b : Bool) (s : State) : State := wrDmaCtrl (putBit s.csr.dmaCtrl (startBit r) b) s

/-- `csr[MAC_CONFIG].TE <- b` or `.RE <- b` (R44: bits 0 and 1). -/
def wrMacEnable (r : RingSel) (b : Bool) (s : State) : State := wrMacConfig (putBit s.csr.macConfig (startBit r) b) s

/-! ### Results (R12, R50, R143) -/

/-- What an operation hands back to its caller (R12): the state, RESULT's value, and RESULT1's where its rule
gives one. -/
structure Ret where
  st   : State
  res  : Word
  res1 : Option Word := none

/-- Result code OK / ACCEPTED (R143). -/
def codeOk : Word := 0

/-- Result code BUSY (R143). -/
def codeBusy : Word := 1

/-- Result code ERROR (R143). -/
def codeError : Word := 2

/-- Result code ERR_ILLEGAL (R141). -/
def codeIllegal : Word := 0xFFFF_FFFF

/-- The operation returns ERROR and changes nothing (R441). -/
def failed (s : State) : Ret := { st := s, res := codeError }

/-- The operation returns OK. -/
def done (s : State) : Ret := { st := s, res := codeOk }

/-- A command issued through CMD ends: its outermost rule writes RESULT, and RESULT1 where it names one
(R12, R50, D65). -/
def finish (s : State) (x : Ret) : State :=
  settle s { x.st with csr := { x.st.csr with result := x.res, result1 := x.res1.getD x.st.csr.result1 } }

/-- A command ends in a next state. -/
def complete (s : State) (x : Ret) : Host.Outcome State Fault Refusal := .next (finish s x)

/-- The `attached` check that the operations of files 40 and 41 begin with (R143). -/
def whenAttached (s : State) (x : Ret) : Ret := if s.dev.attached then x else failed s

/-- An illegal command word (R141): RESULT is ERR_ILLEGAL, DMA_CTRL.CMD_ERR is set, nothing else changes. -/
def illegalCommand (s : State) : State :=
  { s with csr := { s.csr with result := codeIllegal, dmaCtrl := putBit s.csr.dmaCtrl 31 true } }

/-- The illegal command as an operation's return (R428, R434). -/
def illegalRet (s : State) : Ret :=
  { st := { s with csr := { s.csr with dmaCtrl := putBit s.csr.dmaCtrl 31 true } }, res := codeIllegal }

/-! ### The DMA agents' accesses (R81, R330) -/

/-- `latch(BIT)` (R11, R38). -/
def latch (b : Source) (s : State) : State :=
  { s with csr := { s.csr with statusSrc := s.csr.statusSrc ||| oneBit b.pos } }

/-- Latch a source only if a condition holds. -/
def latchIf (c : Bool) (b : Source) (s : State) : State := if c then latch b s else s

/-- The memory cell a DMA address reaches: a ring array, at its own address; an allocated byte of a device-owned range, through
its mapping; or the byte of a buffer region whose `DMA_MAP` image the address is; none where it lies outside every allocated
region, device-owned or not (R80, R81, R88, log 18). -/
def State.dmaCell (s : State) (d : Word) : Option Nat :=
  if s.tx.holds d || s.rx.holds d then some d.toNat
  else
    match s.marks.find? fun m => inSpan m.dma m.len d && s.inRegion (m.cpu + (d - m.dma)) with
    | some m => some (m.cpu + (d - m.dma)).toNat
    | none => ((dmaPreimages s.params d).find? s.inBuffer).map (·.toNat)

/-- The first byte of a DMA access that lies outside every allocated region (R81). -/
def State.dmaOutside (s : State) (d : Word) (len : Nat) : Option Word :=
  ((List.range len).map fun k => d + natWord k).find? fun x => (s.dmaCell x).isNone

/-- The byte a DMA agent reads: memory as it stands, never `wbuf` (R330). -/
def State.dmaByte (s : State) (d : Word) : Byte :=
  match s.dmaCell d with
  | some k => memRead s.mem k
  | none => 0

/-- The descriptor word a DMA agent reads (R82). -/
def State.dmaWord (s : State) (d : Word) : Word :=
  joinBytes s.params.endian (s.dmaByte d) (s.dmaByte (d + 1)) (s.dmaByte (d + 2)) (s.dmaByte (d + 3))

/-- The `len` bytes a DMA agent reads from `d` up. -/
def State.dmaBytes (s : State) (d : Word) (len : Nat) : List Byte :=
  (List.range len).map fun k => s.dmaByte (d + natWord k)

/-- A DMA agent writes bytes from `d` up. -/
def dmaWrite (d : Word) : List Byte → State → State
  | [], s => s
  | b :: bs, s =>
    let t := dmaWrite (d + 1) bs s
    match s.dmaCell d with
    | some k => { t with mem := memWrite t.mem k b }
    | none => t

/-- The ring base register a DMA agent reads (R330), which is base(r) (R32). -/
def State.dmaBase (s : State) (r : RingSel) : Word := (s.ring r).base

/-- The DMA address of word `k` of descriptor `j`, from the ring's base register (R330). -/
def State.dmaDesc (s : State) (r : RingSel) (j k : Nat) : Word := s.dmaBase r + natWord (16 * j + 4 * k)

/-- The index after descriptor `j`: 0 if its ER is set, else `j + 1` (R54, R125, log 10). -/
def State.nextIdx (s : State) (r : RingSel) (j : Nat) : Nat := if erOf (s.dmaWord (s.dmaDesc r j 1)) then 0 else j + 1

/-- DMA closes descriptor `j`: it writes des0, with OWN = 0 (R122, R126). -/
def closeDesc (r : RingSel) (j : Nat) (v : Word) (s : State) : State :=
  dmaWrite (s.dmaDesc r j 0) (splitWord s.params.endian v) s

/-- The DMA agents may take steps: no fault, not powered down (R330, R47). -/
def State.dmaAwake (s : State) : Bool := s.fault.isNone && !bit s.csr.pmt 0

end Sys2Proof.Machine
end

