-- ==== Sys2Proof/Machine/OpsTable.lean ====
section
/-! DEFINITION. The MAC/DMA operations table (40_ops_table.md): the operations as their callers perform them, and the
meaning of each as a command issued through CMD. -/

namespace Sys2Proof.Machine

open Sys2Proof

/-- A slot operation returns ERROR where its IDX is not a slot of its ring (R142). -/
def withSlot (r : RingSel) (i : BitVec 16) (s : State) (f : Nat → Ret) : Ret :=
  if slotIdx i < (s.ring r).n then f (slotIdx i) else failed s

/-- What INIT_DESC_CHAIN releases of one slot (R170). -/
def releaseSlot (r : RingSel) (i : Nat) (s : State) : State :=
  match r with
  | .tx =>
    let x := s.txSlot i
    (releasePkt x.pkt (unmapIf x.addr x.len s)).setTxSlot i TxSlot.empty
  | .rx =>
    let x := s.rxSlot i
    let t := match x.buf with | some b => freeBuf b (unmapIf x.addr s.eff.bufSz s) | none => s
    t.setRxSlot i RxSlot.empty

/-- One turn of INIT_DESC_CHAIN's loop: slot `i` released and emptied, its descriptor rewritten with ER on the
last (R129, R170). -/
def initSlot (r : RingSel) (i : Nat) (s : State) : State :=
  let last := i + 1 = (s.ring r).n
  let t := releaseSlot r i s
  wipeDesc r i 1 (bitIf last 27) (wipeDesc r i 3 0 (wipeDesc r i 2 0 (wipeDesc r i 0 0 t)))

/-- INIT_DESC_CHAIN (R170). -/
def initChain (r : RingSel) (s : State) : Ret :=
  let g := s.ring r
  if !g.allocated || s.proc r ≠ .stopped then failed s
  else
    let t := descFence ((List.range g.n).foldl (fun u i => initSlot r i u) s)
    done (wrBase r g.base (t.setRing r { t.ring r with sub := 0, comp := 0, coalCnt := 0 }))

/-- DMA_START's effect (R183). -/
def dmaStart (r : RingSel) (s : State) : State := wrStart r true (wrMacEnable r true s)

/-- DMA_STOP's effect (R184). -/
def dmaStop (r : RingSel) (s : State) : State := wrMacEnable r false (wrStart r false s)

/-- DMA_MODE with its operands (R175). -/
def dmaMode (pbl : Word) (tsf rsf : Bool) (tc : Word) (s : State) : State :=
  let c := s.csr.dmaCtrl
  let base := (c &&& (0x8000_0003 : Word)) ||| bitIf tsf 2 ||| bitIf rsf 3 ||| natWord (bitsAt pbl 0 6) <<< 8
  wrThresh tc (wrDmaCtrl base s)

/-- Write des1 of a software-owned RX descriptor with DIC set or cleared (R178, R179). -/
def setDic (i : Nat) (b : Bool) (s : State) : Ret :=
  let t := readDesc .rx i 0 s
  if s.ownSeen .rx i then failed t
  else
    let u := readDesc .rx i 1 t
    done (writeDesc .rx i 1 (putBit (s.descWord .rx i 1) 26 b) u)

/-- INIT_DESC_CHAIN (R170). -/
def execInitDescChain (r : RingSel) (s : State) : Host.Outcome State Fault Refusal :=
  complete s (whenAttached s (initChain r s))

/-- GET_OWN (R171). -/
def execGetOwn (r : RingSel) (i : BitVec 16) (s : State) : Host.Outcome State Fault Refusal :=
  complete s (whenAttached s (withSlot r i s fun k =>
    { st := readDesc r k 0 s, res := bitIf (s.ownSeen r k) 0 }))

/-- SET_OWN (R172): only a staged slot with OWN = 0 is handed over. OWN is read only of a staged slot (R441). -/
def execSetOwn (r : RingSel) (i : BitVec 16) (s : State) : Host.Outcome State Fault Refusal :=
  complete s (whenAttached s (withSlot r i s fun k =>
    if !s.staged r k then failed s
    else
      let t := readDesc r k 0 s
      if s.ownSeen r k then failed t else done (publish r k t)))

/-- GET_TX_LEN (R173). -/
def execGetTxLen (i : BitVec 16) (s : State) : Host.Outcome State Fault Refusal :=
  complete s (whenAttached s (withSlot .tx i s fun k =>
    let t := readDesc .tx k 0 s
    if s.ownSeen .tx k then failed t
    else { st := readDesc .tx k 1 t, res := natWord (sizesOf (s.descWord .tx k 1)) }))

/-- RX_STATUS (R174). -/
def execRxStatus (i : BitVec 16) (s : State) : Host.Outcome State Fault Refusal :=
  complete s (whenAttached s (withSlot .rx i s fun k =>
    let t := readDesc .rx k 0 s
    if s.ownSeen .rx k || !s.pub .rx k then failed t
    else
      let d := s.descWord .rx k 0
      { st := t, res := (classify s.ipc d).code, res1 := some (natWord (flOf d)) }))

/-- DMA_MODE (R175): PBL in ARG0, TSF and RSF in ARG1, TC in ARG2. -/
def execDmaMode (s : State) : Host.Outcome State Fault Refusal :=
  complete s (whenAttached s (done (dmaMode s.csr.arg0 (bit s.csr.arg1 0) (bit s.csr.arg1 1) s.csr.arg2 s)))

/-- SET_MAC_ADDR (R176). -/
def execSetMacAddr (s : State) : Host.Outcome State Fault Refusal :=
  complete s (whenAttached s (done (storeMacAddrHi (s.csr.arg1 &&& 0xFFFF) (storeMacAddrLo s.csr.arg0 (descFence s)))))

/-- SET_FILTER (R177). -/
def execSetFilter (s : State) : Host.Outcome State Fault Refusal :=
  complete s (whenAttached s (done
    (storeHashHi s.csr.arg2 (storeHashLo s.csr.arg1 (storeFilter (s.csr.arg0 &&& 7) (descFence s))))))

/-- RX_COAL_ENABLE (R178). -/
def execRxCoalEnable (i : BitVec 16) (s : State) : Host.Outcome State Fault Refusal :=
  complete s (whenAttached s (withSlot .rx i s fun k => setDic k true s))

/-- RX_COAL_DISABLE (R179). -/
def execRxCoalDisable (i : BitVec 16) (s : State) : Host.Outcome State Fault Refusal :=
  complete s (whenAttached s (withSlot .rx i s fun k => setDic k false s))

/-- READ_IRQ_STATUS (R180). -/
def execReadIrqStatus (s : State) : Host.Outcome State Fault Refusal :=
  complete s (whenAttached s { st := s, res := readCsr s .dmaStatus })

/-- CLEAR_IRQ_STATUS (R181). -/
def execClearIrqStatus (s : State) : Host.Outcome State Fault Refusal :=
  complete s (whenAttached s (done (wrStatus s.csr.arg0 s)))

/-- SET_WOL (R182): IDX[1:0] arms the wake sources, IDX[15:2] must be 0. -/
def execSetWol (mode : BitVec 16) (s : State) : Host.Outcome State Fault Refusal :=
  complete s (whenAttached s
    (if mode.toNat / 4 ≠ 0 then failed s
     else done (wrPmt (putBit (putBit s.csr.pmt 1 (mode.getLsbD 0)) 2 (mode.getLsbD 1)) s)))

/-- DMA_START (R183). -/
def execDmaStart (r : RingSel) (s : State) : Host.Outcome State Fault Refusal :=
  complete s (whenAttached s (done (dmaStart r s)))

/-- DMA_STOP (R184). -/
def execDmaStop (r : RingSel) (s : State) : Host.Outcome State Fault Refusal :=
  complete s (whenAttached s (done (dmaStop r s)))

/-- IRQ_ENABLE (R185). -/
def execIrqEnable (s : State) : Host.Outcome State Fault Refusal :=
  complete s (whenAttached s (done (wrIer (s.csr.dmaIer ||| (s.csr.arg0 &&& ierMask)) s)))

/-- ADJUST_LINK with its operands (R186). -/
def adjustLink (up : Bool) (speedArg : Word) (full : Bool) (s : State) : Ret :=
  if !up then done { s with link := { s.link with up := false, speed := .none } }
  else
    match speedOfArg s.params.variant speedArg with
    | none => failed s
    | some sp =>
      let dm := putBit s.csr.macConfig 2 full
      let ps := match s.params.variant with | .gmac => putBit dm 4 (sp ≠ .s1000) | .mac100 => dm
      let t := { s with link := { up := true, speed := sp, duplex := if full then .full else .half } }
      done (wrMacConfig (putBit ps 3 (sp = .s100)) t)

/-- ADJUST_LINK (R186). -/
def execAdjustLink (s : State) : Host.Outcome State Fault Refusal :=
  complete s (whenAttached s (adjustLink (bit s.csr.arg0 0) s.csr.arg1 (bit s.csr.arg2 0) s))

/-- IRQ_DISABLE (R187). -/
def execIrqDisable (s : State) : Host.Outcome State Fault Refusal :=
  complete s (whenAttached s (done (wrIer (s.csr.dmaIer &&& ~~~s.csr.arg0) s)))

/-- READ_LINK (R188). -/
def execReadLink (s : State) : Host.Outcome State Fault Refusal :=
  complete s (whenAttached s
    { st := s, res := bitIf (s.link.duplex = .full) 1 ||| bitIf s.link.up 0, res1 := some s.link.speed.word })

/-- POLL_DEMAND (R189). -/
def execPollDemand (r : RingSel) (s : State) : Host.Outcome State Fault Refusal :=
  complete s (whenAttached s (done (wrPoll r s)))

end Sys2Proof.Machine
end

