-- ==== Sys2Proof/Machine/RingOps.lean ====
section
/-! DEFINITION. The descriptor ring and buffer pool operations (41_ring_ops.md). -/

namespace Sys2Proof.Machine

open Sys2Proof

/-- All slots of a ring of `n`, empty (R220). -/
def emptySlots (r : RingSel) (n : Nat) (s : State) : State :=
  match r with
  | .tx => { s with txSlots := List.replicate n TxSlot.empty }
  | .rx => { s with rxSlots := List.replicate n RxSlot.empty }

/-- ALLOCATE of a ring of `n` descriptors (R220). base(r) is set by the write of the base register (R32). Its zeroing of the fresh region is not checked as a software write: a
hardware-owned descriptor that addresses the region raises no fault (log 41). -/
def allocate (r : RingSel) (n : Nat) (s : State) : Ret :=
  if (s.ring r).allocated || s.proc r ≠ .stopped || !ringSizeLegal n then failed s
  else
    let d := drawFresh 16 (16 * n) s
    match d.1 with
    | none => failed d.2
    | some m =>
      let zeroed := pushWrite m (List.replicate (16 * n) 0) d.2
      let g := { zeroed.ring r with allocated := true, n := n, sub := 0, comp := 0 }
      let t := emptySlots r n (zeroed.setRing r g)
      { st := wrBase r m t, res := codeOk, res1 := some m }

/-- `free_ring(base(r))`: the ring is unallocated (R11, R420); its base register keeps its value. -/
def freeRing (r : RingSel) (s : State) : State :=
  emptySlots r 0 (s.setRing r { s.ring r with allocated := false, n := 0 })

/-- Write des2, des3 and des1 of TX descriptor `i`, its ER preserved (R125, R221, R260). -/
def writeTxFields (i : Nat) (a : Word) (ic ls fs csum : Bool) (len : Nat) (s : State) : State :=
  let t := readDesc .tx i 1 s
  let er := erOf (s.descWord .tx i 1)
  writeDesc .tx i 1 (txDes1 ic ls fs csum er len) (writeDesc .tx i 3 0 (writeDesc .tx i 2 a t))

/-- Map a segment, bind it to TX slot `i` and write its descriptor, unpublished; the submission cursor moves on
(R221, R260). -/
def stageTx (i : Nat) (cpu : Word) (len : Nat) (pkt : Option Word) (ic ls fs csum : Bool) (s : State) : State :=
  let a := dmaMapOf s.params cpu
  let t := (mapBuf cpu len s).setTxSlot i { addr := some a, len := len, pkt := pkt, pub := false }
  let u := writeTxFields i a ic ls fs csum len t
  { u with tx := { u.tx with sub := u.tx.sub + 1 } }

/-- SUBMIT past its preconditions and admission (R221): the flags are ARG2[3:0] = IC, LS, FS, CSUM, and ARG2[4]
publishes. -/
def submitAt (i : Nat) (cpu : Word) (len : Nat) (flags handle : Word) (s : State) : State :=
  let pkt := if handle = 0 then none else some handle
  let t := stageTx i cpu len pkt (bit flags 3) (bit flags 2) (bit flags 1) (bit flags 0) s
  if bit flags 4 then publish .tx i t else t

/-- SUBMIT's preconditions (R221). -/
def submitAllowed (i : Nat) (len flags : Word) (s : State) : Bool :=
  s.tx.allocated && i = idx s.tx.sub s.tx.n && 1 ≤ len.toNat && len.toNat ≤ 8191 && flags >>> 5 = 0

/-- One more BUSY (R221, R262). -/
def countBusy (s : State) : State := { s with stats := { s.stats with txBusy := s.stats.txBusy + 1 } }

/-- The counters RECLAIM changes for a descriptor with status `d0`, control `d1` and `n` bytes (R222, D50). -/
def reclaimStats (d0 d1 : Word) (n : Nat) (c : Stats) : Stats :=
  if esOf d0 then (if lsOf d1 then { c with txErrors := c.txErrors + 1 } else c)
  else
    let b := { c with txBytes := c.txBytes + BitVec.ofNat 64 n }
    if lsOf d1 then { b with txPackets := b.txPackets + 1 } else b

/-- The body of RECLAIM at slot `i` (R222). -/
def reclaimBody (i : Nat) (s : State) : Ret :=
  let d0 := s.descWord .tx i 0
  let d1 := s.descWord .tx i 1
  let n := sizesOf d1
  let x := s.txSlot i
  let t := readDesc .tx i 1 (readDesc .tx i 0 s)
  let u := { t with stats := reclaimStats d0 d1 n t.stats }
  let w := (releasePkt x.pkt (unmapIf x.addr x.len u)).setTxSlot i TxSlot.empty
  let y := writeDesc .tx i 0 0 (writeDesc .tx i 2 0 (writeDesc .tx i 1 (d1 &&& oneBit 27) w))
  { st := { y with tx := { y.tx with comp := y.tx.comp + 1 } }, res := d0, res1 := some (natWord n) }

/-- The descriptor of TX slot `i` is completed: software sees OWN = 0, and the slot was published (R222, R270). -/
def State.completed (s : State) (i : Nat) : Bool := !s.ownSeen .tx i && (s.txSlot i).pub

/-- RECLAIM of slot `i` (R222): its preconditions in order, so OWN is read only of the slot at the completion cursor of a ring
that is not empty (R441). -/
def reclaimAt (i : Nat) (s : State) : Ret :=
  if i ≠ idx s.tx.comp s.tx.n || s.tx.inflight = 0 then failed s
  else if s.completed i then reclaimBody i s
  else failed (readDesc .tx i 0 s)

/-- Arm RX slot `i`, which holds its buffer: count for coalescing, write the descriptor, publish, move the cursor
(R223). -/
def armRx (i : Nat) (s : State) : State :=
  let cnt := s.rx.coalCnt + 1
  let dic : Bool := cnt.toNat < s.eff.rxCoal
  let t := { s with rx := { s.rx with coalCnt := if dic then cnt else 0 } }
  let u := readDesc .rx i 1 t
  let er := erOf (t.descWord .rx i 1)
  let a := ((t.rxSlot i).addr).getD 0
  let v := writeDesc .rx i 1 (rxDes1 er dic t.eff.bufSz) (writeDesc .rx i 3 0 (writeDesc .rx i 2 a u))
  let w := publish .rx i v
  { w with rx := { w.rx with sub := w.rx.sub + 1 } }

/-- Bind buffer `b` to RX slot `i` (R223). -/
def bindRx (i : Nat) (b : Word) (s : State) : State :=
  (mapBuf b s.eff.bufSz s).setRxSlot i { s.rxSlot i with buf := some b, addr := some (dmaMapOf s.params b) }

/-- The body of REFILL at slot `i` with ARG0 = 0: a kept buffer is used again, else one is allocated (R223). -/
def refillAlloc (i : Nat) (s : State) : Ret :=
  if s.rx.n - 1 ≤ s.rx.inflight then { st := s, res := codeBusy }
  else
    match (s.rxSlot i).buf with
    | some _ => done (armRx i s)
    | none =>
      let d := allocBuf s.eff.bufSz s
      match d.1 with
      | some b => done (armRx i (bindRx i b d.2))
      | none => failed { d.2 with stats := { d.2.stats with rxAllocFail := d.2.stats.rxAllocFail + 1 } }

/-- The body of REFILL at slot `i` with a buffer of the caller's, in the order of R223's pseudocode: a full ring answers BUSY
(R230) before a slot that keeps its buffer answers ERROR (log 38). -/
def refillGiven (i : Nat) (b : Word) (s : State) : Ret :=
  if s.rx.n - 1 ≤ s.rx.inflight then { st := s, res := codeBusy }
  else
    match (s.rxSlot i).buf with
    | some _ => failed s
    | none => done (armRx i (bindRx i b s))

/-- REFILL's preconditions (R223). -/
def refillAllowed (i : Nat) (s : State) : Bool := s.rx.allocated && i = idx s.rx.sub s.rx.n

/-- REFILL would map a buffer of the caller's that is device-owned already (93_implementation_defined.md item 9). -/
def refillOverlaps (i : Nat) (b : Word) (s : State) : Bool :=
  b ≠ 0 && s.rx.inflight < s.rx.n - 1 && (s.rxSlot i).buf.isNone && s.meetsMark b s.eff.bufSz

/-- ALLOCATE (R220): N in ARG0. -/
def execAllocate (r : RingSel) (s : State) : Host.Outcome State Fault Refusal :=
  complete s (whenAttached s (allocate r s.csr.arg0.toNat s))

/-- SUBMIT (R221). A buffer that is device-owned already is refused (93_implementation_defined.md item 9). -/
def execSubmit (i : BitVec 16) (s : State) : Host.Outcome State Fault Refusal :=
  let k := slotIdx i
  let len := s.csr.arg1.toNat
  if !s.dev.attached || !(k < s.tx.n) || !submitAllowed k s.csr.arg1 s.csr.arg2 s then complete s (failed s)
  else if s.tx.avail < 1 then complete s { st := countBusy s, res := codeBusy }
  else if s.meetsMark s.csr.arg0 len then .refused (.mapOfDeviceOwned s.csr.arg0)
  else complete s (done (submitAt k s.csr.arg0 len s.csr.arg2 s.csr.arg3 s))

/-- RECLAIM (R222). -/
def execReclaim (i : BitVec 16) (s : State) : Host.Outcome State Fault Refusal :=
  complete s (whenAttached s (withSlot .tx i s fun k => reclaimAt k s))

/-- REFILL (R223). A buffer that is device-owned already is refused (93_implementation_defined.md item 9). -/
def execRefill (i : BitVec 16) (s : State) : Host.Outcome State Fault Refusal :=
  let k := slotIdx i
  let b := s.csr.arg0
  if !s.dev.attached || !(k < s.rx.n) || !refillAllowed k s then complete s (failed s)
  else if refillOverlaps k b s then .refused (.mapOfDeviceOwned b)
  else complete s (if b = 0 then refillAlloc k s else refillGiven k b s)

/-- AVAIL (R224). -/
def execAvail (r : RingSel) (s : State) : Host.Outcome State Fault Refusal :=
  let g := s.ring r
  complete s (whenAttached s
    (if g.allocated then { st := s, res := natWord g.n - (g.sub - g.comp) - 1, res1 := some (g.sub - g.comp) }
     else failed s))

end Sys2Proof.Machine
end

