-- ==== Sys2Proof/Machine/Dispatcher.lean ====
section
/-! DEFINITION. The interrupt-coalescing dispatcher and TX recovery (45_dispatcher.md). -/

namespace Sys2Proof.Machine

open Sys2Proof

/-- One counter's increment if its source is in the snapshot (R372). -/
def plusIf (c : Counter) (v : Word) (b : Source) : Counter := if bit v b.pos then c + 1 else c

/-- The abnormal sources of a snapshot, each counted once (R372). -/
def countAbnormal (v : Word) (c : Stats) : Stats :=
  { c with
    txUnderflow := plusIf c.txUnderflow v .unf
    txJabber := plusIf c.txJabber v .tjt
    rxOverflow := plusIf c.rxOverflow v .ovf
    rxBufUnav := plusIf c.rxBufUnav v .ru
    txProcessStopped := plusIf c.txProcessStopped v .tps
    rxProcessStopped := plusIf c.rxProcessStopped v .rps
    fatalBusError := plusIf c.fatalBusError v .fbi }

/-- RAISE_TX_THRESHOLD (R378): in threshold mode, 64 more up to 256, kept as the tunable. -/
def raiseThreshold (s : State) : Ret :=
  let tc := bitsAt s.csr.dmaTxThresh 0 9
  let t :=
    if !bit s.csr.dmaCtrl 2 && tc < 256 then
      let u := wrThresh (natWord (tc + 64)) s
      { u with tun := { u.tun with tc := tc + 64 } }
    else s
  { st := t, res := natWord (bitsAt t.csr.dmaTxThresh 0 9) }

/-- After a recovery the queue is open again, and the recovery is counted (R381). -/
def recovered (s : State) : State :=
  { s with
    dev := { s.dev with txQueueStopped := false }
    stats := { s.stats with txRecovery := s.stats.txRecovery + 1 } }

/-- Do `f` only if a condition holds. -/
def applyIf (c : Bool) (f : State → State) (s : State) : State := if c then f s else s

/-- TX_RECOVERY (R381): stop TX, release and reset the ring, restart TX if the interface is up. -/
def txRecovery (s : State) : Ret :=
  if !s.dev.attached || !s.tx.allocated then failed s
  else
    let t := recovered (initChain .tx (dmaStop .tx s)).st
    done (applyIf (t.dev.ifup && !t.dev.suspended) (dmaStart .tx) t)

/-- RI in the snapshot masks RIE and schedules a poll (R376). -/
def scheduleRxPoll (s : State) : State :=
  let t := wrIer (putBit s.csr.dmaIer riePos false) s
  { t with dev := { t.dev with rxPollScheduled := true } }

/-- The abnormal sources of a snapshot are counted (R372). -/
def countSources (v : Word) (s : State) : State := { s with stats := countAbnormal v s.stats }

/-- TI in the snapshot schedules reclamation (R379). -/
def scheduleReclaim (s : State) : State := { s with dev := { s.dev with txReclaimPending := true } }

/-- One dispatcher run, in the order of R370: snapshot, clear, count, threshold, RI, TI, at most one recovery. -/
def isrRun (s : State) : Ret :=
  let v := s.csr.statusSrc &&& srcMask
  let counted := countSources v (wrStatus v s)
  let raised := applyIf (bit v Source.unf.pos) (fun u => (raiseThreshold u).st) counted
  let polled := applyIf (bit v Source.ri.pos) scheduleRxPoll raised
  let reclaiming := applyIf (bit v Source.ti.pos) scheduleReclaim polled
  { st := applyIf (bit v Source.tps.pos || bit v Source.fbi.pos) (fun u => (txRecovery u).st) reclaiming, res := v }

/-- ISR as a command: issuable while `attached` (R370). -/
def execIsr (s : State) : Host.Outcome State Fault Refusal := complete s (whenAttached s (isrRun s))

/-- TX_RECOVERY (R381). -/
def execTxRecovery (s : State) : Host.Outcome State Fault Refusal := complete s (txRecovery s)

/-- RAISE_TX_THRESHOLD: issuable while `attached` (R378). -/
def execRaiseTxThreshold (s : State) : Host.Outcome State Fault Refusal :=
  complete s (whenAttached s (raiseThreshold s))

end Sys2Proof.Machine
end

