-- ==== Sys2Proof/Machine/Transmit.lean ====
section
/-! DEFINITION. The transmit path, reclamation and the watchdog (42_transmit.md). -/

namespace Sys2Proof.Machine

open Sys2Proof

/-- The interface accepts packets and polls: `ifup` and not `suspended` (R260, R300). -/
def State.operational (s : State) : Bool := s.dev.ifup && !s.dev.suspended

/-- Word `k` of the packet record at `a`, as software sees it (R135). -/
def recordWord (s : State) (a : Word) (k : Nat) : Word := swWord s (a + natWord (4 * k))

/-- NR_FRAGS of the record (R135: word 2, bits 15:0). -/
def recordFrags (s : State) (a : Word) : Nat := bitsAt (recordWord s a 2) 0 16

/-- How many fragments TRANSMIT reads: none of a record with more than MAX_FRAGS (log 11). -/
def fragsRead (s : State) (a : Word) : Nat :=
  if recordFrags s a ≤ s.params.maxFrags then recordFrags s a else 0

/-- The bytes of the record that TRANSMIT reads. -/
def recordLen (s : State) (a : Word) : Nat := 16 + 8 * fragsRead s a

/-- The packet record at `a` (R135). -/
def readRecord (s : State) (a : Word) : Packet where
  headAddr := recordWord s a 0
  headLen := (recordWord s a 1).toNat
  nrFrags := recordFrags s a
  csumReq := bit (recordWord s a 2) 16
  reserved := bitsAt (recordWord s a 2) 17 15
  handle := recordWord s a 3
  frags := (List.range (fragsRead s a)).map fun k =>
    (recordWord s a (4 + 2 * k), (recordWord s a (5 + 2 * k)).toNat)

/-- The first byte of a range that lies outside every allocated region (R81). -/
def State.outside (s : State) (a : Word) (len : Nat) : Option Word :=
  ((List.range len).map fun k => a + natWord k).find? fun x => !s.inRegion x

/-- Hardware inserts the checksum (R263). -/
def csumInHardware (s : State) (k : Packet) : Bool := k.csumReq && s.params.csumOffload && bit s.csr.macConfig 8

/-- The bytes of a packet, segment after segment, as software sees them. -/
def packetBytes (s : State) (segs : List Segment) : List Byte := segs.flatMap fun g => swBytes s g.1 g.2

/-- Write a packet's bytes back to its segments, each as one byte run, also where a segment overlaps a descriptor array (log 39).
A byte the function gave no value for keeps the old one (log 12). -/
def writePacket (new : List Byte) : List Segment → State → State
  | [], s => s
  | (a, len) :: rest, s =>
    let bytes := (List.range len).map fun k => new.getD k (swByte s (a + natWord k))
    writePacket (new.drop len) rest (writeRun a bytes s)

/-- The fault of reading a packet's bytes (R84, R95). -/
def packetReadFault (s : State) (segs : List Segment) : Option Fault :=
  segs.findSome? fun g => s.readFault g.1 g.2

/-- `SW_CSUM` applied in place before any segment is mapped, where the packet asks for a checksum that hardware
does not insert (R263, D57). -/
def softwareCsum (k : Packet) (segs : List Segment) (s : State) : State :=
  if k.csumReq && !csumInHardware s k then
    writePacket (Config.swCsum (packetBytes s segs)) segs (raiseIf (packetReadFault s segs) s)
  else s

/-- A segment that is device-owned already, or that an earlier segment of the packet overlaps
(93_implementation_defined.md item 9). -/
def segmentsOverlap (s : State) : List Segment → Option Word
  | [] => none
  | (a, len) :: rest =>
    if s.meetsMark a len || rest.any fun g => spansMeet a len g.1 g.2 then some a else segmentsOverlap s rest

/-- The coalescing decision of an accepted packet of `n` segments (R266): the new counter, and IC. -/
def coalesce (limit : Nat) (cnt : Word) (n : Nat) : Word × Bool :=
  let c := cnt + natWord n
  if c.toNat < limit then (c, false) else (0, true)

/-- TRANSMIT's loop (R260, R265): each segment is staged in order, every one but the first published as soon as
it is written. `k` counts the segments already done. -/
def stageSegments (csum ic : Bool) (handle : Word) : List Segment → Nat → State → State
  | [], _, s => s
  | (ca, len) :: rest, k, s =>
    let i := idx s.tx.sub s.tx.n
    let last := rest.isEmpty
    let t := stageTx i ca len (if last then some handle else none) (last && ic) last (k = 0) csum s
    stageSegments csum ic handle rest (k + 1) (if k = 0 then t else publish .tx i t)

/-- TRANSMIT of an admitted packet (R260): coalescing, the loop, the first descriptor published last, the kick. -/
def sendSegments (k : Packet) (csum : Bool) (segs : List Segment) (s : State) : State :=
  let first := idx s.tx.sub s.tx.n
  let c := coalesce s.eff.txCoal s.tx.coalCnt segs.length
  let t := { s with tx := { s.tx with coalCnt := c.1 } }
  wrPoll .tx (publish .tx first (stageSegments csum c.2 k.handle segs 0 t))

/-- BUSY (R262): the queue is stopped and `tx_busy` counts. -/
def rejectBusy (s : State) : Ret :=
  let t := countBusy s
  { st := { t with dev := { t.dev with txQueueStopped := true } }, res := codeBusy }

/-- A packet record error (R260). -/
def rejectRecord (s : State) : Ret := failed { s with stats := { s.stats with txErrors := s.stats.txErrors + 1 } }

/-- TRANSMIT past the record's segmentation (R260). -/
def transmitSegments (s : State) (k : Packet) (segs : List Segment) : Host.Outcome State Fault Refusal :=
  if s.tx.avail < segs.length then complete s (rejectBusy s)
  else
    let t := softwareCsum k segs s
    match t.fault, segmentsOverlap t segs with
    | none, some a => .refused (.mapOfDeviceOwned a)
    | _, _ => complete s (done (sendSegments k (csumInHardware s k) segs t))

/-- TRANSMIT (R260): the packet record is at ARG0, which is 4-byte aligned (R135, log 11). A record that reaches outside every
region is refused before its hardware-owned bytes, NR_FRAGS among them, raise a fault (log 43). -/
def execTransmit (s : State) : Host.Outcome State Fault Refusal :=
  let a := s.csr.arg0
  if !s.dev.attached || !s.operational || a.toNat % 4 ≠ 0 then complete s (failed s)
  else
    match s.outside a (recordLen s a) with
    | some x => .refused (.softwareOutsideRegions x)
    | none =>
      match s.readFault a (recordLen s a) with
      | some f => .next (raise f s)
      | none =>
        match txSegments s.params (readRecord s a) with
        | none => complete s (rejectRecord s)
        | some segs => transmitSegments s (readRecord s a) segs

/-- TX_RECLAIM's loop (R270): at most `fuel` completed descriptors, in ring order, and how many. -/
def reclaimLoop : Nat → State → Nat × State
  | 0, s => (0, s)
  | fuel + 1, s =>
    let i := idx s.tx.comp s.tx.n
    let t := readDesc .tx i 0 s
    if s.completed i then
      let r := reclaimLoop fuel (reclaimBody i t).st
      (r.1 + 1, r.2)
    else (0, t)

/-- The wake rule (R271): TX_WAKE_THRESH is N_TX / 4. -/
def wakeQueue (s : State) : State :=
  if s.dev.txQueueStopped && s.tx.n / 4 < s.tx.avail then { s with dev := { s.dev with txQueueStopped := false } }
  else s

/-- TX_RECLAIM, the step (R270): the flag is cleared whatever follows. The loop ends when `tx_comp` reaches `tx_sub`, after
`sub - comp` turns at most; on an unallocated ring there is nothing to reclaim (log 14). -/
def reclaimRun (s : State) : Ret :=
  let t := { s with dev := { s.dev with txReclaimPending := false } }
  if s.tx.allocated then
    let r := reclaimLoop s.tx.inflight t
    { st := wakeQueue r.2, res := natWord r.1 }
  else { st := t, res := 0 }

/-- TX_RECLAIM as a command: issuable while `attached` and the TX ring is allocated (R270). -/
def txReclaim (s : State) : Ret := if !s.dev.attached || !s.tx.allocated then failed s else reclaimRun s

/-- TX_RECLAIM (R270). -/
def execTxReclaim (s : State) : Host.Outcome State Fault Refusal := complete s (txReclaim s)

/-- The watchdog step (R276). -/
def watchdogStep (s : State) : Ret :=
  done (txRecovery { s with stats := { s.stats with txTimeout := s.stats.txTimeout + 1 } }).st

/-- WATCHDOG_EXPIRE: issuable while `ifup` (R276). -/
def execWatchdogExpire (s : State) : Host.Outcome State Fault Refusal :=
  complete s (if s.dev.attached && s.dev.ifup then watchdogStep s else failed s)

end Sys2Proof.Machine
end

