-- ==== Sys2Proof/Machine/Receive.lean ====
section
/-! DEFINITION. The receive path: the poll, its refill pass and its rearm (43_receive.md). -/

namespace Sys2Proof.Machine

open Sys2Proof

/-- Discarding the frame at a slot: counted, its buffer kept (R302). -/
def discardFrame (s : State) : State := { s with stats := { s.stats with rxErrors := s.stats.rxErrors + 1 } }

/-- The delivered length of a frame with reported length `fl`, and the draws used: `fl - 4`, or an open value
where the status reports fewer than the 4 bytes of the check sequence (R303, log 21). -/
def deliveredLen (fl draws : Nat) : Nat × Nat :=
  if 4 ≤ fl then (fl - 4, draws) else (Config.shortFrameLength draws, draws + 1)

/-- Delivering the frame at slot `i` with class `c` (R303); the slot is left with no buffer and address 0. -/
def deliverFrame (i fl : Nat) (c : RxClass) (s : State) : State :=
  let x := s.rxSlot i
  let d := deliveredLen fl s.draws
  let t := unmapIf x.addr s.eff.bufSz s
  let u := match x.buf with | some b => giveToUpper b (output (.deliver b d.1 (stampOf c)) t) | none => t
  let n := u.stats
  let v :=
    { u with
      draws := d.2
      stats :=
        { n with
          rxPackets := n.rxPackets + 1
          rxBytes := n.rxBytes + BitVec.ofNat 64 d.1
          rxCsumOk := if c = RxClass.csumUnnecessary then n.rxCsumOk + 1 else n.rxCsumOk } }
  v.setRxSlot i { x with buf := none, addr := some 0 }

/-- What POLL does with the frame at the completion cursor (R300): discard or deliver, then take the slot back. -/
def takeFrame (i : Nat) (status : Word) (s : State) : State :=
  let c := classify s.ipc status
  let t := (if c = RxClass.discard then discardFrame s else deliverFrame i (flOf status) c s).setPub .rx i false
  { t with rx := { t.rx with comp := t.rx.comp + 1 } }

/-- POLL's loop (R300, R301): at most `fuel` frames, in ring order, and how many. -/
def pollLoop : Nat → State → Nat × State
  | 0, s => (0, s)
  | fuel + 1, s =>
    let i := idx s.rx.comp s.rx.n
    let t := readDesc .rx i 0 s
    if s.ownSeen .rx i then (0, t)
    else
      let r := pollLoop fuel (takeFrame i (s.descWord .rx i 0) t)
      (r.1 + 1, r.2)

/-- At most `fuel` refills at the submission cursor with ARG0 = 0, stopping at the first that is not OK
(R305, R412); whether all were OK. -/
def refillMany : Nat → State → Bool × State
  | 0, s => (true, s)
  | fuel + 1, s =>
    let r := refillAlloc (idx s.rx.sub s.rx.n) s
    if r.res = codeOk then refillMany fuel r.st else (false, r.st)

/-- The refill pass (R305): one turn for each slot short of N_RX - 1 in flight. -/
def refillPass (s : State) : State := (refillMany (s.rx.n - 1 - s.rx.inflight) s).2

/-- The rearm (R309). -/
def rearm (s : State) : State :=
  let t := { s with dev := { s.dev with rxPollScheduled := false } }
  wrIer (putBit t.csr.dmaIer riePos true) t

/-- POLL with budget `b` (R300). The loop ends when `rx_comp` reaches `rx_sub`, after `sub - comp` turns at most. -/
def pollRun (b : Nat) (s : State) : Ret :=
  if !s.operational then { st := s, res := 0 }
  else
    let r := pollLoop (min b s.rx.inflight) s
    let t := refillPass r.2
    { st := if r.1 < b then rearm t else t, res := natWord r.1 }

/-- POLL (R300): not `ifup` or `suspended` returns 0, not ERROR (R143). -/
def execPoll (budget : BitVec 16) (s : State) : Host.Outcome State Fault Refusal :=
  complete s (pollRun budget.toNat s)

end Sys2Proof.Machine
end

