-- ==== Sys2Proof/Machine/DmaEngine.lean ====
section
/-! DEFINITION. The DMA engine's agents (44_dma_engine.md). A turn given to an agent whose step is not enabled passes:
nothing changes (log 13). -/

namespace Sys2Proof.Machine

open Sys2Proof

/-- The TX chain at the DMA pointer (R333), or the address at which reading it leaves every region (R330). -/
inductive Chain where
  | ready (js : List Nat)
  | incomplete
  | malformed
  | outside (a : Word)
deriving DecidableEq, Repr

/-- The walk of R333 from descriptor `j`, `seen` (newest first) being the descriptors before it and `fuel` how many may
still be visited. -/
def walkChain (s : State) (j0 : Nat) : Nat → Nat → List Nat → Chain
  | 0, _, _ => .malformed
  | fuel + 1, j, seen =>
    match s.dmaOutside (s.dmaDesc .tx j 0) 4 with
    | some a => .outside a
    | none =>
      if !ownOf (s.dmaWord (s.dmaDesc .tx j 0)) then .incomplete
      else
        match s.dmaOutside (s.dmaDesc .tx j 1) 4 with
        | some a => .outside a
        | none =>
          let d1 := s.dmaWord (s.dmaDesc .tx j 1)
          if fsOf d1 ≠ seen.isEmpty then .malformed
          else if lsOf d1 then .ready (j :: seen).reverse
          else
            let n := s.nextIdx .tx j
            if n = j0 then .malformed else walkChain s j0 fuel n (j :: seen)

/-- The chain at `dma_tx_idx` (R333); a walk past 1024 descriptors is malformed. -/
def State.txChain (s : State) : Chain := walkChain s s.dma.txIdx 1024 s.dma.txIdx []

/-- The buffer ranges of a frame, in chain order: BS1 bytes at des2, then BS2 bytes at des3, which is read only
where BS2 is not 0 (R124, R333). -/
def frameSpans (s : State) (js : List Nat) : List (Word × Nat) :=
  js.flatMap fun j =>
    let d1 := s.dmaWord (s.dmaDesc .tx j 1)
    let first := (s.dmaWord (s.dmaDesc .tx j 2), bs1Of d1)
    if bs2Of d1 = 0 then [first] else [first, (s.dmaWord (s.dmaDesc .tx j 3), bs2Of d1)]

/-- The first byte outside every region among the buffer addresses descriptor `j` makes an agent read: des2, and des3
where BS2 is not 0 (R124, R330). -/
def State.addressesOutside (s : State) (r : RingSel) (j : Nat) : Option Word :=
  (s.dmaOutside (s.dmaDesc r j 2) 4).orElse fun _ =>
    if bs2Of (s.dmaWord (s.dmaDesc r j 1)) = 0 then none else s.dmaOutside (s.dmaDesc r j 3) 4

/-- The first byte outside every region that reading a frame meets (R330). -/
def frameOutside (s : State) (js : List Nat) : Option Word :=
  (js.findSome? fun j => s.addressesOutside .tx j).orElse fun _ =>
    (frameSpans s js).findSome? fun g => s.dmaOutside g.1 g.2

/-- The frame's bytes (R333). -/
def frameBytes (s : State) (js : List Nat) : List Byte := (frameSpans s js).flatMap fun g => s.dmaBytes g.1 g.2

/-- The frame asks for checksum insertion: CSUM of its first descriptor and IPC (R333). -/
def csumInserted (s : State) (js : List Nat) : Bool :=
  csumOf (s.dmaWord (s.dmaDesc .tx (js.headD 0) 1)) && bit s.csr.macConfig 8

/-- What goes to the wire (R332). -/
def wireFrame (s : State) (js : List Nat) : List Byte :=
  if csumInserted s js then Config.hwCsum (frameBytes s js) else frameBytes s js

/-- DMA_TX closes a frame: des0 of every descriptor, TI if the last one asked for it, the pointer past it
(R332, R334, R335). -/
def closeFrame (js : List Nat) (status : Word) (s : State) : State :=
  let k := js.getLastD 0
  let ic := icOf (s.dmaWord (s.dmaDesc .tx k 1))
  let next := s.nextIdx .tx k
  let t := latchIf ic .ti (js.foldl (fun u j => closeDesc .tx j status u) s)
  { t with dma := { t.dma with txIdx := next } }

/-- DMA_TX may look at its chain: awake and RUNNING (R330, R331). -/
def State.txRunning (s : State) : Bool := s.dmaAwake && s.dma.ts = .running

/-- DMA_TX may send: RUNNING and TE = 1 (R332). -/
def State.txEnabled (s : State) : Bool := s.txRunning && bit s.csr.macConfig 0

/-- The frame at the pointer, where the chain is READY (R332); an address outside every region where reading the
chain leaves memory. -/
def withReadyChain (s : State) (k : List Nat → State) : Host.Outcome State Fault Refusal :=
  match s.txChain with
  | .ready js => .next (settle s (k js))
  | .outside a => .next (raise (.dmaOutOfBounds a) s)
  | .incomplete | .malformed => .next s

/-- DMA_TX_FRAME (R332). -/
def execDmaTxFrame (s : State) : Host.Outcome State Fault Refusal :=
  if !s.txEnabled then .next s
  else withReadyChain s fun js =>
    match frameOutside s js with
    | some a => raise (.dmaOutOfBounds a) s
    | none => closeFrame js 0 (output (.emit (wireFrame s js)) s)

/-- DMA_TX is SUSPENDED from then on (R331, R334). -/
def suspendTx (s : State) : State := { s with dma := { s.dma with ts := .suspended } }

/-- DMA_TX_SUSPEND (R331). -/
def execDmaTxSuspend (s : State) : Host.Outcome State Fault Refusal :=
  if !s.txRunning then .next s
  else
    match s.txChain with
    | .incomplete => .next (suspendTx s)
    | .outside a => .next (raise (.dmaOutOfBounds a) s)
    | .ready _ | .malformed => .next s

/-- DMA_TX_UNDERFLOW (R334): only in threshold mode, TSF = 0. It reads no buffer, so a buffer outside every region raises no
fault (log 40). -/
def execDmaTxUnderflow (s : State) : Host.Outcome State Fault Refusal :=
  if !s.txEnabled || bit s.csr.dmaCtrl 2 then .next s
  else withReadyChain s fun js => suspendTx (latch .unf (closeFrame js underflowStatus s))

/-- DMA_TX_JABBER (R335): an arbitrary prefix of the frame, or nothing, reaches the wire. The whole frame is read, so a buffer
byte outside every region faults even past the prefix (log 40). -/
def execDmaTxJabber (s : State) : Host.Outcome State Fault Refusal :=
  if !s.txEnabled then .next s
  else withReadyChain s fun js =>
    match frameOutside s js with
    | some a => raise (.dmaOutOfBounds a) s
    | none =>
      let cut := (wireFrame s js).take (Config.jabberPrefix s.draws)
      latch .tjt (closeFrame js jabberStatus (output (.emit cut) { s with draws := s.draws + 1 }))

/-- A fault stop of one process: STOPPED, and its start bit cleared (R52, R53). -/
def faultStop (r : RingSel) (s : State) : State :=
  match r with
  | .tx =>
    { s with dma := { s.dma with ts := .stopped }, csr := { s.csr with dmaCtrl := putBit s.csr.dmaCtrl 0 false } }
  | .rx =>
    { s with dma := { s.dma with rs := .stopped }, csr := { s.csr with dmaCtrl := putBit s.csr.dmaCtrl 1 false } }

/-- DMA_TX_STOP_FAULT (R345). -/
def execDmaTxStopFault (s : State) : Host.Outcome State Fault Refusal :=
  if s.dmaAwake && s.dma.ts ≠ .stopped then .next (latch .tps (faultStop .tx s)) else .next s

/-- DMA_RX_STOP_FAULT (R346). -/
def execDmaRxStopFault (s : State) : Host.Outcome State Fault Refusal :=
  if s.dmaAwake && s.dma.rs ≠ .stopped then .next (latch .rps (faultStop .rx s)) else .next s

/-- DMA_FATAL_BUS_ERROR (R347). -/
def execDmaFatalBusError (s : State) : Host.Outcome State Fault Refusal :=
  if s.dmaAwake && (s.dma.ts ≠ .stopped || s.dma.rs ≠ .stopped) then
    let t := latch .fbi (faultStop .tx s)
    .next (if s.params.fbeStopsRx then faultStop .rx t else t)
  else .next s

/-- The frame the WIRE offers next: 1 to 16379 data bytes (R340). -/
def State.arrival (s : State) : Option WireFrame :=
  match s.wire with
  | f :: _ => if 1 ≤ f.bytes.length ∧ f.bytes.length ≤ 16379 then some f else none
  | [] => none

/-- The offered frame is no longer on offer. -/
def takeArrival (s : State) : State := { s with wire := s.wire.drop 1 }

/-- The receiver is off: RE = 0, RS = STOPPED, or powered down. An arriving frame is then lost (R340). -/
def State.rxDeaf (s : State) : Bool := !bit s.csr.macConfig 1 || s.dma.rs = .stopped || bit s.csr.pmt 0

/-- The arrival of a frame (R340): lost while the receiver is off; otherwise `k` is done with it if the
descriptor at `dma_rx_idx` has the wanted OWN bit, and the step is not enabled if it has not. -/
def onArrival (s : State) (own : Bool) (k : WireFrame → State → State) : Host.Outcome State Fault Refusal :=
  match s.fault, s.arrival with
  | none, some f =>
    if s.rxDeaf then .next (takeArrival s)
    else
      match s.dmaOutside (s.dmaDesc .rx s.dma.rxIdx 0) 4 with
      | some a => .next (raise (.dmaOutOfBounds a) s)
      | none =>
        if ownOf (s.dmaWord (s.dmaDesc .rx s.dma.rxIdx 0)) = own then .next (settle s (k f (takeArrival s)))
        else .next s
  | _, _ => .next s

/-- A frame is dropped for want of a descriptor: counted, and DMA_RX is SUSPENDED (R341). -/
def dropFrame (s : State) : State :=
  { s with
    dma := { s.dma with rs := .suspended }
    stats := { s.stats with rxDropped := s.stats.rxDropped + 1 } }

/-- DMA_RX_NO_DESC (R341). -/
def execDmaRxNoDesc (s : State) : Host.Outcome State Fault Refusal :=
  onArrival s false fun _ t => dropFrame (latch .ru t)

/-- The bytes of a frame with its check sequence (R342). -/
def frameWithFcs (f : WireFrame) : List Byte := f.bytes ++ splitWord .le f.fcs

/-- Where a received frame of `w` bytes goes: BS1 bytes at des2, then the rest at des3 (R342). -/
def receiveSpans (s : State) (j w : Nat) : List (Word × Nat) :=
  let b1 := min w (bs1Of (s.dmaWord (s.dmaDesc .rx j 1)))
  let first := (s.dmaWord (s.dmaDesc .rx j 2), b1)
  if w ≤ b1 then [first] else [first, (s.dmaWord (s.dmaDesc .rx j 3), w - b1)]

/-- The first byte outside every region among the descriptor words and buffer bytes a reception needs (R330). -/
def receiveOutside (s : State) (j w : Nat) : Option Word :=
  (s.dmaOutside (s.dmaDesc .rx j 1) 4).orElse fun _ =>
    (s.addressesOutside .rx j).orElse fun _ => (receiveSpans s j w).findSome? fun g =>
      s.dmaOutside g.1 g.2

/-- Write the received bytes into their ranges. -/
def writeReceived (bytes : List Byte) : List (Word × Nat) → State → State
  | [], s => s
  | (a, n) :: rest, s => writeReceived (bytes.drop n) rest (dmaWrite a (bytes.take n) s)

/-- DMA_RX_FRAME of a frame at descriptor `j` (R342). A buffer byte that lies in a descriptor array is written like any other,
before des0, the model's choice (log 44). -/
def receiveFrame (j : Nat) (f : WireFrame) (s : State) : State :=
  let d1 := s.dmaWord (s.dmaDesc .rx j 1)
  let total := f.bytes.length + 4
  let cap := sizesOf d1
  let w := min total cap
  match receiveOutside s j w with
  | some a => raise (.dmaOutOfBounds a) s
  | none =>
    let ipc := bit s.csr.macConfig 8
    let status := rxStatusWord w (cap < total) f.crcErr (ipc && f.csum = .bad) (ipc && f.csum = .good)
    let next := if erOf d1 then 0 else j + 1
    let t := closeDesc .rx j status (writeReceived (frameWithFcs f) (receiveSpans s j w) s)
    let u := latchIf (!dicOf d1) .ri t
    { u with dma := { u.dma with rs := .running, rxIdx := next } }

/-- DMA_RX_FRAME (R342). -/
def execDmaRxFrame (s : State) : Host.Outcome State Fault Refusal :=
  onArrival s true fun f t => receiveFrame t.dma.rxIdx f t

/-- DMA_RX_OVERFLOW (R344). -/
def execDmaRxOverflow (s : State) : Host.Outcome State Fault Refusal := onArrival s true fun _ t => latch .ovf t

end Sys2Proof.Machine
end

