-- ==== Sys2Proof/Machine/Lifecycle.lean ====
section
/-! DEFINITION. Device lifecycle, tunables and statistics (46_lifecycle.md). -/

namespace Sys2Proof.Machine

open Sys2Proof

/-- ATTACH's effect (R410). -/
def attachDev (s : State) : State :=
  let hw := hwFeature s.params
  { s with
    dev := { s.dev with
      attached := true
      ifup := false
      suspended := false
      fullShutdown := false
      rxPollScheduled := false
      txReclaimPending := false
      txQueueStopped := false
      ops := if bit hw 0 then .gmac else .mac100
      csumCap := bit hw 1 }
    stats := Stats.zero
    tun := Tunables.platform s.params
    link := { up := false, speed := .none, duplex := .half } }

/-- The clamping of OPEN: written back to the tunables, and fixed as the session's values (R57, R416). An OPEN that fails later
leaves both so (R412, R413, log 42). -/
def clampTunables (s : State) : State :=
  let t := s.tun.clamped s.params.variant
  { s with tun := t, eff := { bufSz := t.bufSz, txCoal := t.txCoal, rxCoal := t.rxCoal, mtu := t.mtu } }

/-- `free_ring` of a ring if it is allocated. -/
def freeIfAllocated (r : RingSel) (s : State) : State := if (s.ring r).allocated then freeRing r s else s

/-- OPEN's abort (R413): ST = SR = 0, the RX buffers freed, each allocated ring freed, ERROR, `ifup` false
(log 14). -/
def abortOpen (s : State) : Ret :=
  let t := wrDmaCtrl (putBit (putBit s.csr.dmaCtrl 0 false) 1 false) s
  let u := (initChain .rx t).st
  let v := freeIfAllocated .rx (freeIfAllocated .tx u)
  failed { v with dev := { v.dev with ifup := false } }

/-- MAC_FLOW as OPEN writes it: TFE is FLOW_CTRL[1], RFE is FLOW_CTRL[0], PT is PAUSE (R45, R412). -/
def flowWord (t : Tunables) : Word :=
  bitIf (t.flowCtrl.testBit 1) 0 ||| bitIf (t.flowCtrl.testBit 0) 1 ||| natWord t.pause <<< 16

/-- OPEN past the allocation of its rings and RX buffers (R412). -/
def startSession (s : State) : State :=
  let s1 := dmaMode (natWord s.params.pbl.val) false false (natWord s.tun.tc) s
  let s2 := wrMacFlow (flowWord s.tun) s1
  let s3 := wrMacConfig (putBit s2.csr.macConfig 8 s2.dev.csumCap) s2
  let s4 := wrStatus srcMask s3
  let s5 := { s4 with
    dev := { s4.dev with rxPollScheduled := false, txReclaimPending := false, txQueueStopped := false } }
  let s6 := dmaStart .rx (dmaStart .tx (wrIer ierMask s5))
  { s6 with dev := { s6.dev with ifup := true } }

/-- OPEN past its preconditions (R412): the two rings, their chains, N_RX - 1 RX buffers, then the session. -/
def openRun (s : State) : Ret :=
  let c := clampTunables s
  let a := allocate .tx c.tun.nTx c
  if a.res ≠ codeOk then abortOpen a.st
  else
    let b := allocate .rx c.tun.nRx a.st
    if b.res ≠ codeOk then abortOpen b.st
    else
      let i := (initChain .rx (initChain .tx b.st).st).st
      let f := refillMany (i.rx.n - 1) i
      if f.1 then done (startSession f.2) else abortOpen f.2

/-- OPEN with its precondition: attached, not `ifup`, not `suspended` (R412). -/
def openSession (s : State) : Ret :=
  if s.dev.attached && !s.dev.ifup && !s.dev.suspended then openRun s else failed s

/-- Steps 3 and 4 of CLOSE (R420): buffers released, both rings freed. -/
def drainAndFree (s : State) : State := freeRing .rx (freeRing .tx (initChain .rx (initChain .tx s).st).st)

/-- Quiesce (R421): interrupts disabled, deferred work cancelled, polling disabled. -/
def quiesce (s : State) : State :=
  let t := wrIer 0 s
  { t with dev := { t.dev with txReclaimPending := false, rxPollScheduled := false } }

/-- CLOSE past its preconditions (R420). -/
def closeRun (s : State) : State :=
  let a := quiesce s
  let b := { a with dev := { a.dev with ifup := false } }
  let c := wrStatus srcMask (drainAndFree (dmaStop .rx (dmaStop .tx b)))
  { c with dev := { c.dev with txQueueStopped := false } }

/-- The enable bits SUSPEND saves (R55, R424). -/
def enablesOf (s : State) : SavedCtrl where
  st := bit s.csr.dmaCtrl 0
  sr := bit s.csr.dmaCtrl 1
  te := bit s.csr.macConfig 0
  re := bit s.csr.macConfig 1

/-- SUSPEND past its preconditions (R424). -/
def suspendRun (wol : Bool) (s : State) : State :=
  let a := quiesce s
  let b := dmaStop .rx (dmaStop .tx { a with dev := { a.dev with savedCtrl := enablesOf a } })
  if wol then
    let c := wrPmt (putBit b.csr.pmt 0 true) b
    { c with dev := { c.dev with fullShutdown := false, suspended := true } }
  else
    let c := drainAndFree b
    { c with dev := { c.dev with ifup := false, fullShutdown := true, suspended := true } }

/-- RESUME of a device whose rings were kept (R425): the saved enables are restored. -/
def restoreRun (s : State) : State :=
  let a := wrPmt (putBit s.csr.pmt 0 false) s
  let v := a.dev.savedCtrl
  let b := wrMacConfig (putBit (putBit a.csr.macConfig 0 v.te) 1 v.re) a
  wrIer ierMask (wrDmaCtrl (putBit (putBit b.csr.dmaCtrl 0 v.st) 1 v.sr) b)

/-- RESUME past its precondition (R425). -/
def resumeRun (s : State) : Ret :=
  let t := { s with dev := { s.dev with suspended := false } }
  if t.dev.fullShutdown then openSession { t with dev := { t.dev with fullShutdown := false } }
  else done (restoreRun t)

/-- ATTACH (R410). -/
def execAttach (s : State) : Host.Outcome State Fault Refusal :=
  complete s (if s.dev.attached then failed s else done (attachDev s))

/-- OPEN (R412). -/
def execOpenDev (s : State) : Host.Outcome State Fault Refusal :=
  complete s (openSession s)

/-- CLOSE (R420). -/
def execCloseDev (s : State) : Host.Outcome State Fault Refusal :=
  complete s (if s.dev.attached && s.dev.ifup && !s.dev.suspended then done (closeRun s) else failed s)

/-- SUSPEND (R424): IDX[0] arms wake-on-LAN, IDX[15:1] must be 0. -/
def execSuspend (wol : BitVec 16) (s : State) : Host.Outcome State Fault Refusal :=
  complete s
    (if s.dev.attached && s.dev.ifup && !s.dev.suspended && wol.toNat / 2 = 0 then done (suspendRun (wol.getLsbD 0) s)
     else failed s)

/-- RESUME (R425). -/
def execResume (s : State) : Host.Outcome State Fault Refusal :=
  complete s (if s.dev.attached && s.dev.suspended then resumeRun s else failed s)

/-- SET_TUNABLE (R428). An id above 8 is an illegal command word. -/
def execSetTunable (id : BitVec 16) (s : State) : Host.Outcome State Fault Refusal :=
  complete s
    (if maxTunableId < id.toNat then illegalRet s
     else whenAttached s
      (match s.tun.set id.toNat s.csr.arg0.toNat with
       | some t => done { s with tun := t }
       | none => failed s))

/-- SET_MTU (R430). -/
def execSetMtu (s : State) : Host.Outcome State Fault Refusal :=
  let m := s.csr.arg0.toNat
  complete s
    (if s.dev.attached && !s.dev.ifup && mtuLegal s.params.variant m then
      done { s with tun := { s.tun with mtu := m } }
     else failed s)

/-- DETACH (R432). -/
def execDetach (s : State) : Host.Outcome State Fault Refusal :=
  complete s
    (if s.dev.attached && !s.dev.ifup && !s.dev.suspended then
      done { s with dev := { s.dev with attached := false } }
     else failed s)

/-- READ_STAT (R434). An id above 18 is an illegal command word. -/
def execReadStat (id : BitVec 16) (s : State) : Host.Outcome State Fault Refusal :=
  complete s
    (if maxCounterId < id.toNat then illegalRet s
     else whenAttached s
      (let v := s.stats.counter id.toNat
       { st := s, res := v.setWidth 32, res1 := some ((v >>> 32).setWidth 32) }))

end Sys2Proof.Machine
end

