-- ==== Sys2Proof/Machine/Dispatch.lean ====
section
/-! DEFINITION. The dispatch: one arm per constructor of Instr, each a direct call of its meaning. -/

namespace Sys2Proof.Machine

open Sys2Proof

/-- What an instruction does in a state. A command runs as issued through CMD; an agent step is a turn of its agent. -/
def exec (i : Instr) (s : State) : Host.Outcome State Fault Refusal :=
  match i with
  | .initDescChain r => Sys2Proof.Machine.execInitDescChain r s
  | .getOwn r n => Sys2Proof.Machine.execGetOwn r n s
  | .setOwn r n => Sys2Proof.Machine.execSetOwn r n s
  | .getTxLen n => Sys2Proof.Machine.execGetTxLen n s
  | .rxStatus n => Sys2Proof.Machine.execRxStatus n s
  | .dmaMode => Sys2Proof.Machine.execDmaMode s
  | .setMacAddr => Sys2Proof.Machine.execSetMacAddr s
  | .setFilter => Sys2Proof.Machine.execSetFilter s
  | .rxCoalEnable n => Sys2Proof.Machine.execRxCoalEnable n s
  | .rxCoalDisable n => Sys2Proof.Machine.execRxCoalDisable n s
  | .readIrqStatus => Sys2Proof.Machine.execReadIrqStatus s
  | .clearIrqStatus => Sys2Proof.Machine.execClearIrqStatus s
  | .setWol mode => Sys2Proof.Machine.execSetWol mode s
  | .dmaStart r => Sys2Proof.Machine.execDmaStart r s
  | .dmaStop r => Sys2Proof.Machine.execDmaStop r s
  | .irqEnable => Sys2Proof.Machine.execIrqEnable s
  | .adjustLink => Sys2Proof.Machine.execAdjustLink s
  | .irqDisable => Sys2Proof.Machine.execIrqDisable s
  | .readLink => Sys2Proof.Machine.execReadLink s
  | .pollDemand r => Sys2Proof.Machine.execPollDemand r s
  | .allocate r => Sys2Proof.Machine.execAllocate r s
  | .submit n => Sys2Proof.Machine.execSubmit n s
  | .reclaim n => Sys2Proof.Machine.execReclaim n s
  | .refill n => Sys2Proof.Machine.execRefill n s
  | .avail r => Sys2Proof.Machine.execAvail r s
  | .transmit => Sys2Proof.Machine.execTransmit s
  | .txReclaim => Sys2Proof.Machine.execTxReclaim s
  | .watchdogExpire => Sys2Proof.Machine.execWatchdogExpire s
  | .poll budget => Sys2Proof.Machine.execPoll budget s
  | .isr => Sys2Proof.Machine.execIsr s
  | .txRecovery => Sys2Proof.Machine.execTxRecovery s
  | .raiseTxThreshold => Sys2Proof.Machine.execRaiseTxThreshold s
  | .attach => Sys2Proof.Machine.execAttach s
  | .openDev => Sys2Proof.Machine.execOpenDev s
  | .closeDev => Sys2Proof.Machine.execCloseDev s
  | .suspend wol => Sys2Proof.Machine.execSuspend wol s
  | .resume => Sys2Proof.Machine.execResume s
  | .setTunable id => Sys2Proof.Machine.execSetTunable id s
  | .setMtu => Sys2Proof.Machine.execSetMtu s
  | .detach => Sys2Proof.Machine.execDetach s
  | .readStat id => Sys2Proof.Machine.execReadStat id s
  | .dmaTxFrame => Sys2Proof.Machine.execDmaTxFrame s
  | .dmaTxSuspend => Sys2Proof.Machine.execDmaTxSuspend s
  | .dmaTxUnderflow => Sys2Proof.Machine.execDmaTxUnderflow s
  | .dmaTxJabber => Sys2Proof.Machine.execDmaTxJabber s
  | .dmaTxStopFault => Sys2Proof.Machine.execDmaTxStopFault s
  | .dmaRxFrame => Sys2Proof.Machine.execDmaRxFrame s
  | .dmaRxNoDesc => Sys2Proof.Machine.execDmaRxNoDesc s
  | .dmaRxOverflow => Sys2Proof.Machine.execDmaRxOverflow s
  | .dmaRxStopFault => Sys2Proof.Machine.execDmaRxStopFault s
  | .dmaFatalBusError => Sys2Proof.Machine.execDmaFatalBusError s

end Sys2Proof.Machine
end

