-- ==== Sys2Proof/Machine/Events.lean ====
section
/-! DEFINITION. What one entry of the schedule does: the host's CSR and memory accesses (10_state.md R31, 20_memory.md
R80 to R95), the turns of the software agents (60_exceptions.md R460) and of the DMA agents, and the
environment's own moves. -/

namespace Sys2Proof.Machine

open Sys2Proof

/-- A CSR access is legal: 32 bits, 4-byte aligned (R83). -/
def csrAccessLegal (width : Nat) (off : BitVec 8) : Bool := width = 4 && off.toNat % 4 = 0

/-- A write of CMD (R50): the command the word encodes, run as one step; any other word is illegal, an agent-step
code among them (R141). -/
def issueCommand (w : Word) (s : State) : Host.Outcome State Fault Refusal :=
  match decodeWord w with
  | .ok i => if i.isCommand then exec i s else .next (illegalCommand s)
  | .error _ => .next (illegalCommand s)

/-- `wr`: a software CSR write, which an implicit DESC_FENCE precedes (R92). A reserved offset ignores it (D8). -/
def hostCsrWrite (width : Nat) (off : BitVec 8) (v : Word) (s : State) : Host.Outcome State Fault Refusal :=
  if !csrAccessLegal width off then .next (raise (.badCsrAccess (off.setWidth 32)) s)
  else
    match csrAt off.toNat with
    | some .cmd => issueCommand v (descFence s)
    | some c => .next (storeCsr c v (descFence s))
    | none => .next (descFence s)

/-- `rd`: a software CSR read; a reserved offset reads 0 (R36, D8). -/
def hostCsrRead (width : Nat) (off : BitVec 8) (s : State) : Host.Outcome State Fault Refusal :=
  if !csrAccessLegal width off then .next (raise (.badCsrAccess (off.setWidth 32)) s)
  else .next { s with busData := match csrAt off.toNat with | some c => readCsr s c | none => 0 }

/-- Some byte of the word at `a` lies in a descriptor. -/
def touchesDesc (s : State) (a : Word) : Bool :=
  (List.range 4).any fun k => (s.descAt (a + natWord k)).isSome

/-- `mw`: a software write of a 32-bit word (R90, R144). Descriptors are written as whole words (R85). A
word that reaches outside every region is refused, whoever owns its other bytes (log 43). -/
def hostMemWrite (a v : Word) (s : State) : Host.Outcome State Fault Refusal :=
  match s.outside a 4 with
  | some x => .refused (.softwareOutsideRegions x)
  | none =>
    if touchesDesc s a then
      match s.descAt a with
      | some (r, i, off) =>
        if off % 4 = 0 then .next (writeDesc r i (off / 4) v s) else .refused (.notOneDescriptorWord a)
      | none => .refused (.notOneDescriptorWord a)
    else
      match s.writeFault a 4 with
      | some f => .next (raise f s)
      | none => .next (pushWrite a (splitWord s.params.endian v) s)

/-- `mr`: a software read of a 32-bit word (R90, R144). A word that reaches outside every region is refused, whoever owns its
other bytes (log 43). -/
def hostMemRead (a : Word) (s : State) : Host.Outcome State Fault Refusal :=
  match s.outside a 4 with
  | some x => .refused (.softwareOutsideRegions x)
  | none =>
    if touchesDesc s a && (match s.descAt a with | some (_, _, off) => off % 4 ≠ 0 | none => true) then
      .refused (.notOneDescriptorWord a)
    else
      match s.readFault a 4 with
      | some f => .next (raise f s)
      | none => .next { s with busData := swWord s a }

/-- A step of a software agent that is not issued through CMD: it writes neither RESULT nor RESULT1 (R12, D65);
a turn given to an agent that is not enabled passes (log 13). -/
def agentTurn (enabled : Bool) (x : State → Ret) (s : State) : Host.Outcome State Fault Refusal :=
  .next (if enabled then settle s (x s).st else s)

/-- The ISR agent's enabling (R40, R370). -/
def State.isrEnabled (s : State) : Bool := s.irqMac && s.operational

/-- The POLL agent's enabling, with a budget in 1..65535 (R307). -/
def State.pollEnabled (s : State) (budget : BitVec 16) : Bool :=
  s.dev.rxPollScheduled && s.operational && 1 ≤ budget.toNat

/-- The WATCHDOG agent's enabling (R275). -/
def State.watchdogEnabled (s : State) : Bool := s.operational && s.tx.sub ≠ s.tx.comp

/-- A turn of a DMA agent, named by its step code (R140); a word that is no step code gives no turn. -/
def dmaTurn (code : Word) (s : State) : Host.Outcome State Fault Refusal :=
  match decodeWord code with
  | .ok i => if i.isCommand then .next s else exec i s
  | .error _ => .next s

/-- The upper layer brings a buffer with its contents, written and fenced (R81, 95_test_vectors.md S0). A range that is
not free is no such buffer, and nothing changes. An empty buffer is accepted, as a region of no bytes (the model's choice,
log 26). -/
def supplyBuffer (a : Word) (bytes : List Byte) (s : State) : State :=
  let t := descFence s
  if s.fresh 1 a bytes.length then
    { t with
      mem := memWriteBytes t.mem a bytes
      regions := t.regions ++ [{ base := a, len := bytes.length, owner := .upper }] }
  else s

/-- The upper layer takes back a buffer of its own that is not device-owned. -/
def withdrawBuffer (a : Word) (s : State) : State :=
  { s with regions := s.regions.eraseP fun g => g.base = a && g.owner = .upper && !s.meetsMark g.base g.len }

/-- One entry of the schedule. -/
def runEvent (e : Event) (s : State) : Host.Outcome State Fault Refusal :=
  match e with
  | .csrWrite width off v => hostCsrWrite width off v s
  | .csrRead width off => hostCsrRead width off s
  | .memWrite a v => hostMemWrite a v s
  | .memRead a => hostMemRead a s
  | .fence => .next (descFence s)
  | .drain k => .next (drainOne k s)
  | .isr => agentTurn s.isrEnabled isrRun s
  | .txReclaim => agentTurn s.dev.txReclaimPending reclaimRun s
  | .poll b => agentTurn (s.pollEnabled b) (pollRun b.toNat) s
  | .watchdog => agentTurn s.watchdogEnabled watchdogStep s
  | .agentStep code => dmaTurn code s
  | .supply a bytes => .next (supplyBuffer a bytes s)
  | .withdraw a => .next (withdrawBuffer a s)

/-- The offset of CMD in the CSR window (R36). -/
def cmdOffset : BitVec 8 := 0x60

/-- The schedule entry that makes a word of the opcode table run: a write of CMD, or the turn an agent-step code
names (R140). -/
def entryOf (w : Word) : Event :=
  match decodeWord w with
  | .ok i => if i.isCommand then .csrWrite 4 cmdOffset w else .agentStep w
  | .error _ => .csrWrite 4 cmdOffset w

end Sys2Proof.Machine
end

