-- ==== Sys2Proof/Machine/Step.lean ====
section
/-! DEFINITION. One step of the machine: the next entry of the schedule, and nothing after a model fault. -/

namespace Sys2Proof.Machine

open Sys2Proof

/-- One atomic step (R89, R330). After a model fault no agent takes a step (R60, R450): the machine answers with
the fault recorded. With nothing scheduled no step is taken (R480, log 15). -/
def step (s : State) : Host.Outcome State Fault Refusal :=
  match s.fault with
  | some f => .fault f
  | none =>
    match s.schedule with
    | [] => .next s
    | e :: rest => runEvent e { s with schedule := rest }

/-- `s` with the word of an opcode-table row next on the schedule: a command as a write of CMD, an agent-step code as
a turn of its agent (log 16). -/
def State.withFetchWord (s : State) (nbits w : Nat) : State :=
  { s with schedule := entryOf (BitVec.ofNat 32 (w % 2 ^ nbits)) :: s.schedule }

end Sys2Proof.Machine
end

