-- ==== Sys2Proof/Safety.lean ====
section
/-! DEFINITION. What a safe run is, the invariants of the block that claims use as premises, and the words claims are
said in: what software sees of memory, and which command words the opcode map of R140 lists. -/

namespace Sys2Proof.Machine

open Sys2Proof

/-- The machine may go on from here: no model fault is recorded (R60). -/
def State.sound (s : State) : Prop := s.fault = none

/-- A run of `k` steps is safe: none of them answers with a fault or a refusal, and none records a fault
(R450: a claim "no run faults" is about the program). -/
def safeRun : Nat → State → Prop
  | 0, s => s.sound
  | k + 1, s => s.sound ∧ ∃ t, step s = .next t ∧ safeRun k t

/-! ### Fair runs (R307, R348, R377) -/

/-- What the environment chooses at one step: whose turn it is (R445), the frames the WIRE offers then (R340), and the allocation
oracle's next answers (R11). -/
structure Choice where
  event   : Event
  wire    : List WireFrame
  answers : List (Option Word)
deriving DecidableEq, Repr

/-- The state in which the step of a choice is taken. -/
def State.under (s : State) (c : Choice) : State :=
  { s with schedule := [c.event], wire := c.wire, allocAnswers := c.answers }

/-- The states `s` and the environment's choices `e` make up a run without end: each state is the last one after the step the
environment chose. Frames go on arriving as it chooses, without bound (R340, R348). -/
def runOf (s : Nat → State) (e : Nat → Choice) : Prop := ∀ k, step ((s k).under (e k)) = .next (s (k + 1))

/-- The RECLAIM agent has an enabled step (R270). -/
def State.reclaimEnabled (s : State) : Bool := s.dev.txReclaimPending

/-- The POLL agent has an enabled step (R307). -/
def State.pollReady (s : State) : Bool := s.dev.rxPollScheduled && s.operational

/-- DMA_TX_FRAME is enabled (R332). -/
def State.frameEnabled (s : State) : Bool := s.txEnabled && (match s.txChain with | .ready _ => true | _ => false)

/-- DMA_TX_SUSPEND is enabled (R331). -/
def State.suspendEnabled (s : State) : Bool := s.txRunning && s.txChain = .incomplete

/-- The environment's choice is the POLL agent's turn, with a budget in 1..65535 (R307). -/
def Event.isPoll : Event → Bool
  | .poll b => 1 ≤ b.toNat
  | _ => false

/-- The environment's choice is the turn of a DMA agent's step `i` (R140). -/
def Event.isStep (e : Event) (i : Instr) : Bool :=
  match e with
  | .agentStep w => decodeWord w = .ok i
  | _ => false

/-- The environment's choice sends the frame at the DMA pointer, or takes one of the oracle's alternatives, of which an
underflow needs TSF = 0 (R332, R334, R335). -/
def Event.takesFrame (e : Event) (s : State) : Bool :=
  e.isStep .dmaTxFrame || e.isStep .dmaTxJabber || e.isStep .dmaTxUnderflow && !bit s.csr.dmaCtrl 2

/-- A step that stays enabled is eventually taken. -/
def eventually (s : Nat → State) (enabled : State → Bool) (taken : Nat → Bool) : Prop :=
  ∀ k, (∀ j, k ≤ j → enabled (s j) = true) → ∃ j, k ≤ j ∧ taken j = true

/-- A fair run: POLL (R307), TX_RECLAIM (R377), DMA_TX_FRAME or one of its alternatives, and DMA_TX_SUSPEND (R348) are
eventually taken where they stay enabled. The oracle's other steps, the watchdog's and the wire's carry no fairness. -/
structure fairRun (s : Nat → State) (e : Nat → Choice) : Prop where
  run : runOf s e
  poll : eventually s State.pollReady fun k => (e k).event.isPoll
  reclaim : eventually s State.reclaimEnabled fun k => (e k).event = .txReclaim
  frame : eventually s State.frameEnabled fun k => (e k).event.takesFrame (s k)
  suspend : eventually s State.suspendEnabled fun k => (e k).event.isStep .dmaTxSuspend

/-! ### Invariants -/

/-- Memory is in canonical form and no pending write has been lost track of: the form every memory operation
keeps (R80). -/
def State.memLegal (s : State) : Prop := Memory.wf s.mem = true

/-- Every register of the CSR file reads as its rule says it can (R31, R61, R37 to R47): reserved bits are 0 and WARL fields
are legal. The base registers are the rings' (`State.regsLegal`). -/
structure Csrs.legal (p : Params) (c : Csrs) : Prop where
  dmaCtrl : c.dmaCtrl &&& 0x7FFF_C0F0 = 0
  pbl : bitsAt c.dmaCtrl 8 6 ∈ [1, 2, 4, 8, 16, 32]
  thresh : c.dmaTxThresh = 64 ∨ c.dmaTxThresh = 128 ∨ c.dmaTxThresh = 192 ∨ c.dmaTxThresh = 256
  source : c.statusSrc &&& ~~~srcMask = 0
  enables : c.dmaIer &&& ~~~ierMask = 0
  macConfig : c.macConfig &&& 0xFFFF_FEE0 = 0
  portSelect : p.variant = .mac100 → bit c.macConfig 4 = true
  offload : p.csumOffload = false → bit c.macConfig 8 = false
  macFlow : c.macFlow &&& 0x0000_FFFC = 0
  macAddrHi : c.macAddrHi &&& 0xFFFF_0000 = 0
  frameFilter : c.frameFilter &&& 0xFFFF_FFF8 = 0
  pmt : c.pmt &&& 0xFFFF_FFF8 = 0

/-- A DMA process is STOPPED exactly while its start bit is 0 (R52, R53). -/
structure State.startBitsLegal (s : State) : Prop where
  tx : bit s.csr.dmaCtrl 0 = false ↔ s.dma.ts = .stopped
  rx : bit s.csr.dmaCtrl 1 = false ↔ s.dma.rs = .stopped

/-- The registers and the DMA processes are in a state their rules admit; the low four bits of a base register are 0 (R42). -/
structure State.regsLegal (s : State) : Prop where
  csr : Csrs.legal s.params s.csr
  start : s.startBitsLegal
  bases : s.tx.base &&& 0xF = 0 ∧ s.rx.base &&& 0xF = 0

/-- A ring with `slots` buffer slots (R32, R33, R228 (a)): its size is legal, its array is 16-byte aligned, it has one slot for
each descriptor, and at most N - 1 descriptors are in flight. -/
structure Ring.legal (g : Ring) (slots : Nat) : Prop where
  size : g.allocated = true → ringSizeLegal g.n = true
  aligned : g.allocated = true → g.base.toNat % 16 = 0
  slots : g.allocated = true → slots = g.n
  window : g.allocated = true → g.inflight ≤ g.n - 1
  unused : g.allocated = false → g.n = 0

/-- Both rings are legal (R32, R228 (a)). -/
structure State.ringsShaped (s : State) : Prop where
  tx : s.tx.legal s.txSlots.length
  rx : s.rx.legal s.rxSlots.length

/-- Both rings are legal, and their arrays share no byte: each was fresh when it was allocated (R220, D33). A host write of a base
register moves an array (R32, R42) and nothing checks its new place against the other (log 37). -/
structure State.ringsLegal (s : State) : Prop extends shaped : s.ringsShaped where
  apart : ∀ a, s.tx.holds a = true → s.rx.holds a = false

/-- The ring arrays lie inside the address space, as ALLOCATE puts them (R220). -/
def State.ringsInSpace (s : State) : Prop :=
  ∀ r, (s.ring r).allocated = true → (s.ring r).base.toNat + 16 * (s.ring r).n ≤ 2 ^ 32

/-- The entry is a host write of a base register (R42). -/
def Event.writesBase : Event → Bool
  | .csrWrite _ off _ => off = 0x10 || off = 0x14
  | _ => false

/-- The next step is a host write of a base register (R42). -/
def State.baseWritten (s : State) : Bool := s.schedule.head?.any Event.writesBase

/-- The lifecycle flags agree with one another and with the rings (R55, R412, R420, R424, R432): only an attached
device is up or suspended, an interface that is up has both rings, and a full shutdown is a suspension with the
interface down. -/
structure State.sessionLegal (s : State) : Prop where
  attached : s.dev.ifup = true ∨ s.dev.suspended = true → s.dev.attached = true
  rings : s.dev.ifup = true → s.tx.allocated = true ∧ s.rx.allocated = true
  shutdown : s.dev.fullShutdown = true → s.dev.suspended = true ∧ s.dev.ifup = false

/-! ### What software sees -/

/-- Software sees every byte of shared memory unchanged. -/
def sameBytes (s t : State) : Prop := ∀ a, swByte t a = swByte s a

/-- Software sees every byte unchanged outside the 16 bytes of descriptor `i` of ring `r`. -/
def sameBytesButDesc (s t : State) (r : RingSel) (i : Nat) : Prop :=
  ∀ a, inSpan (s.descAddr r i 0) 16 a = false → swByte t a = swByte s a

/-- Software sees every byte unchanged outside the descriptor array of ring `r`. -/
def sameBytesButRing (s t : State) (r : RingSel) : Prop := ∀ a, (s.ring r).holds a = false → swByte t a = swByte s a

/-- No byte of the ring's descriptor array is the hardware's: neither a mapped buffer nor a buffer that a hardware-owned
descriptor addresses overlaps the array (R84, R95). -/
def State.arrayClear (s : State) (r : RingSel) : Prop := ∀ a, (s.ring r).holds a = true → s.deviceByte a = false

/-- No byte of the ring's descriptor array lies in the `len` bytes from `a` up. -/
def State.arrayApart (s : State) (r : RingSel) (a : Word) (len : Nat) : Prop :=
  ∀ x, (s.ring r).holds x = true → inSpan a len x = false

/-- No byte of the ring's descriptor array lies in the `len` bytes of the buffer at CPU address `a`, nor in the DMA addresses of
its bytes. -/
def State.bufferApart (s : State) (r : RingSel) (a : Word) (len : Nat) : Prop :=
  s.arrayApart r a len ∧ s.arrayApart r (dmaMapOf s.params a) len

/-- No byte of descriptor `i` is the hardware's (R84, R95). -/
def State.descClear (s : State) (r : RingSel) (i : Nat) : Prop :=
  ∀ a, inSpan (s.descAddr r i 0) 16 a = true → s.deviceByte a = false

/-- Descriptor `i` is one of the ring's, software owns it, and no byte of it is the hardware's: what a software access to
it needs (R84, R95). -/
structure State.softDesc (s : State) (r : RingSel) (i : Nat) : Prop where
  slot : i < (s.ring r).n
  own : s.ownSeen r i = false
  clear : s.descClear r i

/-- The CPU byte lies in a buffer that descriptor `i` addresses, as software sees the descriptor: BS1 bytes from des2 up, and BS2
from des3 up where BS2 is not 0 (R91, R95, R124). -/
def State.inBufferOf (s : State) (r : RingSel) (i : Nat) (a : Word) : Prop :=
  let b1 := bitsAt (s.descWord r i 1) 0 13
  let b2 := bitsAt (s.descWord r i 1) 13 13
  inSpan (s.descWord r i 2) b1 (s.dmaImage a) = true ∨ b2 ≠ 0 ∧ inSpan (s.descWord r i 3) b2 (s.dmaImage a) = true

/-- The byte is the hardware's: device-owned (R84), or in a buffer that a hardware-owned descriptor addresses (R95). -/
def State.hardwareOwns (s : State) (a : Word) : Prop :=
  s.marked a = true ∨ ∃ r i, (s.ring r).allocated = true ∧ i < (s.ring r).n ∧ s.ownSeen r i = true ∧ s.inBufferOf r i a

/-- One of the pending writes `w` is to another word of descriptor `i` than des0, or to a byte of a buffer it addresses (R91). -/
def State.writePendingIn (s : State) (w : List Pending) (r : RingSel) (i : Nat) : Prop :=
  ∃ e ∈ w, ∃ b < e.bytes.length,
    let off := (e.addr + natWord b - s.descAddr r i 0).toNat
    4 ≤ off ∧ off < 16 ∨ s.inBufferOf r i (e.addr + natWord b)

/-- A write is pending to another word of descriptor `i`, or to a byte of a buffer it addresses (R91). -/
def State.writePending (s : State) (r : RingSel) (i : Nat) : Prop := s.writePendingIn s.wbuf r i

/-- `u` is `s` after a fence (R92): nothing is pending, what was pending is in memory, software sees every byte as
before, and nothing else has changed. -/
structure fenced (s u : State) : Prop where
  rest : u = { s with mem := u.mem, wbuf := [] }
  bytes : sameBytes s u

/-- The device-owned ranges left when a slot's buffer is unmapped, if the slot holds one (R84). -/
def withoutBuffer (marks : List Mark) (addr : Option Word) (len : Nat) : List Mark :=
  match addr with
  | some a => marks.flatMap (cutMark a len)
  | none => marks

/-- The buffer regions left when `buf` goes back to the pool, if a slot holds one (R11). -/
def withoutRegion (regions : List Region) (buf : Option Word) : List Region :=
  match buf with
  | some b => regions.eraseP fun g => g.base = b
  | none => regions

/-- The buffer regions when `buf`, if a slot holds one, belongs to the upper layer (R303). -/
def givenAway (regions : List Region) (buf : Option Word) : List Region :=
  match buf with
  | some b => regions.map fun g => if g.base = b then { g with owner := .upper } else g
  | none => regions

/-- The RX coalescing counter after one more refill (R223). -/
def coalNext (limit : Nat) (c : Word) : Word := if (c + 1).toNat < limit then c + 1 else 0

/-- `t` is `s` after INIT_DESC_CHAIN of ring `r` (R129, R170): every descriptor is zero but for ER on the last, the cursors,
the coalescing counter and the slots are empty, the base register is as it was and the DMA pointer 0, every held
packet is released in slot order and every held buffer unmapped (and, on RX, freed), all of it is in memory, and no byte
outside the ring, no other register and no other state changes. -/
structure chainEmptied (s t : State) (r : RingSel) : Prop where
  bytes : sameBytesButRing s t r
  words : ∀ i < (s.ring r).n, ∀ k < 4,
    t.descWord r i k = if k = 1 ∧ i = (s.ring r).n - 1 then 0x0800_0000 else 0
  rest :
    t = { s with
      dma := { s.dma with
        txIdx := if r = .tx then 0 else s.dma.txIdx
        rxIdx := if r = .rx then 0 else s.dma.rxIdx }
      tx := if r = .tx then { s.tx with sub := 0, comp := 0, coalCnt := 0 } else s.tx
      rx := if r = .rx then { s.rx with sub := 0, comp := 0, coalCnt := 0 } else s.rx
      txSlots := if r = .tx then List.replicate s.tx.n TxSlot.empty else s.txSlots
      rxSlots := if r = .rx then List.replicate s.rx.n RxSlot.empty else s.rxSlots
      outputs := if r = .tx then s.outputs ++ (s.txSlots.filterMap (·.pkt)).map .release else s.outputs
      regions := if r = .tx then s.regions else s.rxSlots.foldl (fun g x => withoutRegion g x.buf) s.regions
      marks :=
        if r = .tx then s.txSlots.foldl (fun m x => withoutBuffer m x.addr x.len) s.marks
        else s.rxSlots.foldl (fun m x => if x.buf.isSome then withoutBuffer m x.addr s.eff.bufSz else m) s.marks
      mem := t.mem
      wbuf := [] }

/-- The allocation oracle's next answers give OPEN all it draws (R11, R412): a TX array, an RX array and one buffer for each
RX descriptor but one, all aligned, fresh and apart from one another, the `DMA_MAP` images of the later apart from the arrays
before them (log 8); `rest` is what the oracle answers later. -/
structure State.openGranted (s : State) (c : Tunables) (mTx mRx : Word) (bufs : List Word) (rest : List (Option Word)) :
    Prop where
  answers : s.allocAnswers = some mTx :: some mRx :: (bufs.map some ++ rest)
  count : bufs.length + 1 = c.nRx
  tx : s.fresh 16 mTx (16 * c.nTx) = true
  rx : s.fresh 16 mRx (16 * c.nRx) = true
  buffers : ∀ b ∈ bufs, s.fresh 4 b c.bufSz = true
  image : spansMeet mTx (16 * c.nTx) (dmaMapOf s.params mRx) (16 * c.nRx) = false
  images : ∀ b ∈ bufs, spansMeet mTx (16 * c.nTx) (dmaMapOf s.params b) c.bufSz = false ∧
    spansMeet mRx (16 * c.nRx) (dmaMapOf s.params b) c.bufSz = false
  apart : ((mTx, 16 * c.nTx) :: (mRx, 16 * c.nRx) :: bufs.map fun b => (b, c.bufSz)).Pairwise
    fun x y => spansMeet x.1 x.2 y.1 y.2 = false

/-- The answer the allocation oracle gives `j` draws from here: the environment's, or an open value (R11). -/
def State.answer (s : State) (j : Nat) : Option Word :=
  s.allocAnswers.getD j (Config.allocAnswer (s.draws + (j - s.allocAnswers.length)))

/-- The state with the buffers `bs` allocated and mapped one after the other (R223). -/
def State.withBuffers (s : State) (bs : List Word) : State :=
  { s with
    marks := s.marks ++ bs.map fun b => { dma := dmaMapOf s.params b, cpu := b, len := s.eff.bufSz }
    regions := s.regions ++ bs.map fun b => { base := b, len := s.eff.bufSz, owner := .pool } }

/-- The oracle's next answers give refills the buffers `new` in order, each fresh where it is given, and, if one more refill
`failed`, FAIL or no fresh buffer after them (R11, R223, log 8). -/
structure State.refillsWith (s : State) (new : List Word) (failed : Bool) : Prop where
  given : ∀ j b, new[j]? = some b →
    s.answer j = some b ∧ (s.withBuffers (new.take j)).fresh 4 b s.eff.bufSz = true
  refused : failed = true → ∀ b, s.answer new.length = some b → (s.withBuffers new).fresh 4 b s.eff.bufSz = false

/-! ### What the DMA agents see (R330, R333) -/

/-- Word `k` of descriptor `j` of ring `r`, as its DMA agent reads it (R330). -/
def State.dmaDescWord (s : State) (r : RingSel) (j k : Nat) : Word := s.dmaWord (s.dmaDesc r j k)

/-- The four bytes of word `k` of descriptor `j` lie in memory (R81, R330). -/
def State.dmaInside (s : State) (r : RingSel) (j k : Nat) : Prop := s.dmaOutside (s.dmaDesc r j k) 4 = none

/-- Descriptor `j` belongs to a TX frame: DMA owns it, its FS says whether it is the frame's first, its LS whether it is the
last (R333). -/
structure State.inFrame (s : State) (j : Nat) (first last : Bool) : Prop where
  inside : s.dmaInside .tx j 0 ∧ s.dmaInside .tx j 1
  own : bit (s.dmaDescWord .tx j 0) 31 = true
  fs : bit (s.dmaDescWord .tx j 1) 29 = first
  ls : bit (s.dmaDescWord .tx j 1) 30 = last

/-- The index after `j`: 0 if its ER is set, else `j + 1` (R333). -/
def State.chainNext (s : State) (r : RingSel) (j : Nat) : Nat := if bit (s.dmaDescWord r j 1) 27 then 0 else j + 1

/-- The descriptors `js` follow one another and make up one whole frame (R333, READY). -/
def State.wholeFrame (s : State) (first : Bool) : List Nat → Prop
  | [] => False
  | [j] => s.inFrame j first true
  | j :: k :: rest => s.inFrame j first false ∧ k = s.chainNext .tx j ∧ s.wholeFrame false (k :: rest)

/-- The descriptors `js` follow one another, and software still owns the last, which no LS precedes
(R333, INCOMPLETE). -/
def State.partFrame (s : State) (first : Bool) : List Nat → Prop
  | [] => False
  | [j] => s.dmaInside .tx j 0 ∧ bit (s.dmaDescWord .tx j 0) 31 = false
  | j :: k :: rest => s.inFrame j first false ∧ k = s.chainNext .tx j ∧ s.partFrame false (k :: rest)

/-- The chain at `dma_tx_idx` is READY, and `js` are its descriptors (R333). -/
structure State.chainReady (s : State) (js : List Nat) : Prop where
  start : js.head? = some s.dma.txIdx
  short : js.length ≤ 1024
  frame : s.wholeFrame true js

/-- The chain at `dma_tx_idx` is INCOMPLETE, and `js` are the descriptors read (R333). -/
structure State.chainIncomplete (s : State) (js : List Nat) : Prop where
  start : js.head? = some s.dma.txIdx
  short : js.length ≤ 1024
  frame : s.partFrame true js

/-- The descriptors `js` follow one another from `j0` on, and the last is the malformation: DMA owns it, and its FS is wrong, or it
leads back to `j0` without LS (R333). -/
def State.brokenFrame (s : State) (j0 : Nat) (first : Bool) : List Nat → Prop
  | [] => False
  | [j] => (s.dmaInside .tx j 0 ∧ s.dmaInside .tx j 1) ∧ bit (s.dmaDescWord .tx j 0) 31 = true ∧
      (bit (s.dmaDescWord .tx j 1) 29 ≠ first ∨ bit (s.dmaDescWord .tx j 1) 30 = false ∧ s.chainNext .tx j = j0)
  | j :: k :: rest => s.inFrame j first false ∧ k = s.chainNext .tx j ∧ s.brokenFrame j0 false (k :: rest)

/-- The descriptors `js` follow one another, and none of them has LS (R333). -/
def State.endlessFrame (s : State) (first : Bool) : List Nat → Prop
  | [] => False
  | [j] => s.inFrame j first false
  | j :: k :: rest => s.inFrame j first false ∧ k = s.chainNext .tx j ∧ s.endlessFrame false (k :: rest)

/-- The chain at `dma_tx_idx` is MALFORMED, and `js` are the descriptors read: one of them is wrong, or 1024 of them have no LS
(R333). -/
structure State.chainMalformed (s : State) (js : List Nat) : Prop where
  start : js.head? = some s.dma.txIdx
  short : js.length ≤ 1024
  frame : s.brokenFrame s.dma.txIdx true js ∨ js.length = 1024 ∧ s.endlessFrame true js

/-- The descriptors `js` follow one another, and reading the last leaves every region: its des0 at `x`, or, where DMA owns it, its
des1 (R81, R330). -/
def State.leavingFrame (s : State) (first : Bool) (x : Word) : List Nat → Prop
  | [] => False
  | [j] => s.dmaOutside (s.dmaDesc .tx j 0) 4 = some x ∨
      s.dmaInside .tx j 0 ∧ bit (s.dmaDescWord .tx j 0) 31 = true ∧ s.dmaOutside (s.dmaDesc .tx j 1) 4 = some x
  | j :: k :: rest => s.inFrame j first false ∧ k = s.chainNext .tx j ∧ s.leavingFrame false x (k :: rest)

/-- Reading the chain at `dma_tx_idx` leaves every region at `x`, and `js` are the descriptors up to the one outside, as after
software cleared the ER bit (R81, R229, R330). -/
structure State.chainOutside (s : State) (js : List Nat) (x : Word) : Prop where
  start : js.head? = some s.dma.txIdx
  short : js.length ≤ 1024
  frame : s.leavingFrame true x js

/-- The bytes of the frame in the descriptors `js`: of each, BS1 bytes from des2, then BS2 bytes from des3 (R333). -/
def State.chainBytes (s : State) (js : List Nat) : List Byte :=
  js.flatMap fun j =>
    s.dmaBytes (s.dmaDescWord .tx j 2) (bitsAt (s.dmaDescWord .tx j 1) 0 13) ++
      s.dmaBytes (s.dmaDescWord .tx j 3) (bitsAt (s.dmaDescWord .tx j 1) 13 13)

/-- `t`'s memory is that of `s` with des0 of the TX descriptors `js` written as `v`: each reads as `v` where they lie in
the ring's array, and no byte of memory outside them changes (R330). -/
structure chainClosed (s t : State) (js : List Nat) (v : Word) : Prop where
  words : (∀ j ∈ js, ∀ b < 4, s.tx.holds (s.dmaDesc .tx j 0 + natWord b) = true) →
    ∀ j ∈ js, t.dmaDescWord .tx j 0 = v
  others : ∀ x : Nat, (∀ j ∈ js, ∀ b < 4, s.dmaCell (s.dmaDesc .tx j 0 + natWord b) ≠ some x) →
    memRead t.mem x = memRead s.mem x

/-! ### The opcode map of R140 -/

/-- Which RING values R140 allows: TX only, RX only, both, or RING 0 because the operation names no ring. -/
inductive RingColumn where
  | txOnly
  | rxOnly
  | both
  | unused
deriving DecidableEq, Repr

/-- What R140 says of IDX: it must be 0, it is an operand, or it is an id with a largest legal value (R141). -/
inductive IdxColumn where
  | zero
  | operand
  | upTo (bound : Nat)
deriving DecidableEq, Repr

/-- One row of R140: OPC, the ring column, the IDX column. -/
abbrev CommandRow := Nat × RingColumn × IdxColumn

/-- The rows of 40_ops_table.md (R140). -/
def opsTableRows : List CommandRow :=
  [(0x01, .both, .zero), (0x02, .both, .operand), (0x03, .both, .operand), (0x04, .txOnly, .operand),
   (0x05, .rxOnly, .operand), (0x06, .unused, .zero), (0x07, .unused, .zero), (0x08, .unused, .zero),
   (0x09, .rxOnly, .operand), (0x0A, .rxOnly, .operand), (0x0B, .unused, .zero), (0x0C, .unused, .zero),
   (0x0D, .unused, .operand), (0x0E, .both, .zero), (0x0F, .both, .zero), (0x10, .unused, .zero),
   (0x11, .unused, .zero), (0x12, .unused, .zero), (0x13, .unused, .zero), (0x14, .both, .zero)]

/-- The rows of 41_ring_ops.md to 45_dispatcher.md (R140). -/
def pathRows : List CommandRow :=
  [(0x20, .both, .zero), (0x21, .txOnly, .operand), (0x22, .txOnly, .operand), (0x23, .rxOnly, .operand),
   (0x24, .both, .zero), (0x30, .unused, .zero), (0x31, .unused, .zero), (0x32, .unused, .zero),
   (0x40, .unused, .operand), (0x50, .unused, .zero), (0x51, .unused, .zero), (0x52, .unused, .zero)]

/-- The rows of 46_lifecycle.md (R140, R141). -/
def lifecycleRows : List CommandRow :=
  [(0x60, .unused, .zero), (0x61, .unused, .zero), (0x62, .unused, .zero), (0x63, .unused, .operand),
   (0x64, .unused, .zero), (0x65, .unused, .upTo 8), (0x66, .unused, .zero), (0x67, .unused, .zero),
   (0x68, .unused, .upTo 18)]

/-- The command rows of R140. -/
def commandTable : List CommandRow := opsTableRows ++ pathRows ++ lifecycleRows

/-- The ring column admits a RING bit. -/
def RingColumn.admits (c : RingColumn) (ring : Bool) : Bool :=
  match c with
  | .txOnly | .unused => !ring
  | .rxOnly => ring
  | .both => true

/-- The IDX column admits an IDX. -/
def IdxColumn.admits (c : IdxColumn) (i : Nat) : Bool :=
  match c with
  | .zero => i == 0
  | .operand => true
  | .upTo bound => i ≤ bound

/-- The command word is legal (R141): its OPC has a row, bits 22:16 are 0, and RING and IDX are what the row admits. -/
def legalCommandWord (w : Word) : Bool :=
  bitsAt w 16 7 == 0 && commandTable.any fun row =>
    row.1 == bitsAt w 24 8 && row.2.1.admits (bit w 23) && row.2.2.admits (bitsAt w 0 16)

end Sys2Proof.Machine
end

