-- ==== Sys2Proof/Certificates/Slice0/Obligations.lean ====
section
/-! DEFINITION. The statements for the provers, one definition each, in the order of spec/ (30_encoding.md first, then the state,
the host, the commands and the agents). Where a statement rests on a choice of the model, its docstring names the log
entry. -/

open Sys2Proof Sys2Proof.Machine

/-! ### Encoding and the command interface (30_encoding.md) -/

/-- Decoding the word of a well-formed instruction gives the instruction back, with every operand at every value, from a
word and from the bytes that hold it in either byte order (R82, R139, R140). -/
def Obligations.DecodeOfEncode : Prop :=
  ∀ (i : Instr) (e : Endian) (rest : List Byte), i.wellFormed = true →
    decodeWord (encode i) = .ok i ∧ decodeBytes e (splitWord e (encode i) ++ rest) = .ok (i, rest)

/-- What the decoder answers is well formed, and the word is the instruction's own: all of it for a command, the step
code in bits 31:24 for an agent step (R139 to R141). -/
def Obligations.DecodedWordIsEncoded : Prop :=
  ∀ (w : Word) (i : Instr), decodeWord w = .ok i →
    i.wellFormed = true ∧ (i.isCommand = true → encode i = w) ∧
      (i.isCommand = false → bitsAt (encode i) 24 8 = bitsAt w 24 8)

/-- The words of R145 and of R300's example, and one of each other family, written out from R139 and R140. -/
def Obligations.SpecWordsDecode : Prop :=
  decodeWord 0x2100_0005 = .ok (.submit 5) ∧ decodeWord 0x4000_0040 = .ok (.poll 64) ∧
    decodeWord 0x2380_0003 = .ok (.refill 3) ∧ decodeWord 0x0100_0000 = .ok (.initDescChain .tx) ∧
    decodeWord 0x0280_000A = .ok (.getOwn .rx 10) ∧ decodeWord 0x3000_0000 = .ok .transmit ∧
    decodeWord 0x5000_0000 = .ok .isr ∧ decodeWord 0x6500_0008 = .ok (.setTunable 8) ∧
    decodeWord 0x6800_0012 = .ok (.readStat 18) ∧ decodeWord 0x8900_0000 = .ok .dmaFatalBusError

/-- R141: a word that is not legal, whatever it is and in whatever state it is issued, writes ERR_ILLEGAL to RESULT and
sets DMA_CTRL.CMD_ERR, and changes nothing else; a legal word is the word of a command, which is what runs. -/
def Obligations.IllegalWordsChangeOnlyResult : Prop :=
  ∀ (w : Word) (s : State),
    (legalCommandWord w = false →
      issueCommand w s =
        .next { s with csr := { s.csr with result := 0xFFFF_FFFF, dmaCtrl := s.csr.dmaCtrl ||| 0x8000_0000 } }) ∧
    (legalCommandWord w = true →
      ∃ i : Instr, i.isCommand = true ∧ i.wellFormed = true ∧ encode i = w ∧ issueCommand w s = exec i s)

/-- The word of a well-formed instruction runs as that instruction. Where the next entry of the schedule is a write of
CMD with a command's word, the step is `exec` of the command after the implicit fence of a CSR write (R50, R92);
where it is the turn of a DMA agent with a step code, the step is `exec` of the agent's step. `withFetchWord` makes
the word the next entry (log 16). -/
def Obligations.StepRunsTheDecodedInstruction : Prop :=
  ∀ (i : Instr) (s : State) (rest : List Event), s.sound → i.wellFormed = true →
    (i.isCommand = true →
      step { s with schedule := .csrWrite 4 0x60 (encode i) :: rest } =
        exec i (descFence { s with schedule := rest })) ∧
    (i.isCommand = false →
      step { s with schedule := .agentStep (encode i) :: rest } = exec i { s with schedule := rest }) ∧
    step (s.withFetchWord 32 (encode i).toNat) = exec i (if i.isCommand then descFence s else s)

/-- R60: the fault recorded is the first one raised, and once it is recorded no step is taken: the machine answers with
it. -/
def Obligations.FaultIsStickyAndEndsTheRun : Prop :=
  ∀ (s : State) (f g : Fault),
    (s.fault = none → (raise f s).fault = some f) ∧
      (s.fault = some f → (raise g s).fault = some f ∧ step s = .fault f)

/-- A step that raises a model fault leaves nothing but the fault (the model's choice, log 6), beside the schedule entry
taken and, for a CSR write, the implicit fence of R92. -/
def Obligations.FaultingStepChangesOnlyTheFault : Prop :=
  ∀ (s t : State) (f : Fault), s.sound → step s = .next t → t.fault = some f →
    ∃ u, (u = s ∨ u = descFence s) ∧ t = { u with schedule := s.schedule.drop 1, fault := some f }

/-! ### Descriptor words (30_encoding.md R122 to R128) -/

/-- The words the block writes into descriptors hold each field at the bits the layout gives it, with reserved bits 0: TX des1
(R123, R124), RX des1 (R128) and the RX status word (R126). -/
def Obligations.DescriptorWords : Prop :=
  (∀ (ic ls fs csum er : Bool) (n : Nat), n ≤ 8191 →
    let d := txDes1 ic ls fs csum er n
    bit d 31 = ic ∧ bit d 30 = ls ∧ bit d 29 = fs ∧ bit d 28 = csum ∧ bit d 27 = er ∧ bit d 26 = false ∧
      bitsAt d 13 13 = 0 ∧ bitsAt d 0 13 = n) ∧
  (∀ (er dic : Bool) (n : Nat), n ≤ 8191 →
    let d := rxDes1 er dic n
    bitsAt d 28 4 = 0 ∧ bit d 27 = er ∧ bit d 26 = dic ∧ bitsAt d 13 13 = 0 ∧ bitsAt d 0 13 = n) ∧
  ∀ (de ce cse csv : Bool) (n : Nat), n ≤ 16383 →
    let d := rxStatusWord n de ce cse csv
    bit d 31 = false ∧ bit d 30 = false ∧ bitsAt d 16 14 = n ∧ bit d 15 = (de || ce) ∧ bit d 14 = de ∧
      bitsAt d 10 4 = 0 ∧ bit d 9 = true ∧ bit d 8 = true ∧ bit d 7 = cse ∧ bitsAt d 2 5 = 0 ∧ bit d 1 = ce ∧
      bit d 0 = csv

/-! ### State, reset and invariants (10_state.md, 70_reset_and_hazards.md) -/

/-- R481: every CSR as it reads after reset, and every other piece of state the rule gives a value for. -/
def Obligations.ResetValues : Prop :=
  ∀ p : Params,
    let s := State.resetWith p
    (readCsr s .dmaCtrl = 0x0000_0800 ∧ readCsr s .dmaTxThresh = 0x0000_0040 ∧ readCsr s .dmaStatus = 0 ∧
      readCsr s .dmaIer = 0 ∧ readCsr s .txDescBase = 0 ∧ readCsr s .rxDescBase = 0 ∧
      readCsr s .txPollDemand = 0 ∧ readCsr s .rxPollDemand = 0 ∧
      readCsr s .macConfig = (if p.variant = .mac100 then 0x10 else 0) ∧ readCsr s .macFlow = 0 ∧
      readCsr s .macAddrHi = 0 ∧ readCsr s .macAddrLo = 0 ∧ readCsr s .mcHashHi = 0 ∧ readCsr s .mcHashLo = 0 ∧
      readCsr s .frameFilter = 0 ∧ readCsr s .pmt = 0 ∧ readCsr s .curTxDesc = 0 ∧ readCsr s .curRxDesc = 0 ∧
      bit (readCsr s .hwFeature) 0 = decide (p.variant = .gmac) ∧ bit (readCsr s .hwFeature) 1 = p.csumOffload ∧
      readCsr s .cmd = 0 ∧ readCsr s .arg0 = 0 ∧ readCsr s .arg1 = 0 ∧ readCsr s .arg2 = 0 ∧
      readCsr s .arg3 = 0 ∧ readCsr s .result = 0 ∧ readCsr s .result1 = 0) ∧
    (s.dma.ts = .stopped ∧ s.dma.rs = .stopped ∧ s.dma.txIdx = 0 ∧ s.dma.rxIdx = 0 ∧ s.irqMac = false) ∧
    (s.dev.attached = false ∧ s.dev.ifup = false ∧ s.dev.suspended = false ∧ s.dev.fullShutdown = false ∧
      s.dev.rxPollScheduled = false ∧ s.dev.txReclaimPending = false ∧ s.dev.txQueueStopped = false ∧
      s.dev.savedCtrl = { st := false, sr := false, te := false, re := false }) ∧
    (s.stats = Stats.zero ∧ s.link = { up := false, speed := .none, duplex := .half } ∧ s.fault = none) ∧
    (s.tx.allocated = false ∧ s.rx.allocated = false ∧ s.tx.sub = 0 ∧ s.tx.comp = 0 ∧ s.rx.sub = 0 ∧
      s.rx.comp = 0 ∧ s.tx.coalCnt = 0 ∧ s.rx.coalCnt = 0 ∧ s.txSlots = [] ∧ s.rxSlots = []) ∧
    s.wbuf = [] ∧ s.marks = [] ∧ s.regions = []

/-- The state after reset meets every invariant the other statements assume, on every platform. -/
def Obligations.ResetMeetsTheInvariants : Prop :=
  ∀ p : Params,
    (State.resetWith p).sound ∧ (State.resetWith p).memLegal ∧ (State.resetWith p).regsLegal ∧
      (State.resetWith p).ringsLegal ∧ (State.resetWith p).ringsInSpace ∧ (State.resetWith p).sessionLegal

/-- From every state in which the registers are legal, every step leaves them legal: reserved bits read 0, WARL fields
hold a legal value, and a DMA process is STOPPED exactly while its start bit is 0 (R31, R37 to R47, R52, R53). -/
def Obligations.StepKeepsTheRegistersLegal : Prop :=
  ∀ s t : State, s.regsLegal → step s = .next t → t.regsLegal

/-- From every state in which they hold, every step keeps the ring invariant of R228 (a) with the shape of R32 (a legal
size, an aligned array, one slot for each descriptor), and the agreement of the lifecycle flags with one another and with the
rings (R55). Every step but a host write of a base register, and such a write where it moves no allocated ring's array, also keeps
the two arrays apart, as they were allocated (R220, D33), and inside the address space (base(r) is the register: R32, log 37). -/
def Obligations.StepKeepsTheRingsLegal : Prop :=
  ∀ s t : State, s.ringsShaped → s.sessionLegal → step s = .next t →
    t.ringsShaped ∧ t.sessionLegal ∧
      ((s.baseWritten = false ∨ ∀ r, (s.ring r).allocated = true → (t.ring r).base = (s.ring r).base) →
        (s.ringsLegal → t.ringsLegal) ∧ (s.ringsInSpace → t.ringsInSpace))

/-- From every state whose memory is in canonical form, every step leaves it in canonical form (R80; the form is the
model's own, log 2). -/
def Obligations.StepKeepsMemoryCanonical : Prop :=
  ∀ s t : State, s.memLegal → step s = .next t → t.memLegal

/-- No instruction changes ARG0..ARG3, the parameters, the schedule or the host's last read; a DMA agent's step writes neither
RESULT nor RESULT1 (R12, R50). A turn of the ISR, POLL or WATCHDOG agent that is enabled has the effect of its command but
leaves RESULT and RESULT1 (R12, R40, R275, R307, R370); a turn of any software agent that is not enabled passes (the model's
reading, log 13). The RECLAIM agent's enabled turn is in TxReclaimCommand. -/
def Obligations.ArgumentsAndResultsKept : Prop :=
  (∀ (i : Instr) (s t : State), exec i s = .next t →
    (t.csr.arg0 = s.csr.arg0 ∧ t.csr.arg1 = s.csr.arg1 ∧ t.csr.arg2 = s.csr.arg2 ∧ t.csr.arg3 = s.csr.arg3) ∧
      t.params = s.params ∧ t.schedule = s.schedule ∧ t.busData = s.busData ∧
      (i.isCommand = false → t.csr.result = s.csr.result ∧ t.csr.result1 = s.csr.result1)) ∧
  (∀ (s t : State) (e : Event), (e = .isr ∨ e = .txReclaim ∨ (∃ b, e = .poll b) ∨ e = .watchdog) →
    runEvent e s = .next t → t.csr.result = s.csr.result ∧ t.csr.result1 = s.csr.result1) ∧
  ∀ (s : State) (b : BitVec 16), s.sessionLegal →
    let up := s.dev.ifup = true ∧ s.dev.suspended = false
    let turn := fun (enabled : Prop) (e : Event) (i : Instr) =>
      (enabled → ∃ u, exec i s = .next u ∧ runEvent e s =
        .next { u with csr := { u.csr with result := s.csr.result, result1 := s.csr.result1 } }) ∧
      (¬ enabled → runEvent e s = .next s)
    turn (s.irqMac = true ∧ up) .isr .isr ∧
    turn (s.dev.rxPollScheduled = true ∧ up ∧ 1 ≤ b.toNat) (.poll b) (.poll b) ∧
    turn (up ∧ s.tx.sub ≠ s.tx.comp) .watchdog .watchdogExpire ∧
    (s.dev.txReclaimPending = false → runEvent .txReclaim s = .next s)

/-- Before ATTACH and after DETACH, every command but ATTACH and POLL answers ERROR and changes nothing else, whatever its
operands (R143, R432). POLL answers 0: the model's reading of R143 and R300 (DEDUCED, log 30), where R432 has every command
but ATTACH answer ERROR. A slot index that is not below N(r) makes every slot command answer ERROR and change nothing else
(R142). -/
def Obligations.CommandsThatMayNotRun : Prop :=
  (∀ (i : Instr) (s : State), s.sound → s.sessionLegal → s.dev.attached = false → i.isCommand = true →
    i.wellFormed = true → i ≠ .attach →
    exec i s = .next { s with csr := { s.csr with result := (match i with | .poll _ => 0 | _ => 2) } }) ∧
  ∀ (s : State) (i : BitVec 16) (c : Instr) (r : RingSel), s.sound → (s.ring r).n ≤ i.toNat →
    (c = .getOwn r i ∨ c = .setOwn r i ∨
      (r = .tx ∧ (c = .getTxLen i ∨ c = .submit i ∨ c = .reclaim i)) ∨
      (r = .rx ∧ (c = .rxStatus i ∨ c = .rxCoalEnable i ∨ c = .rxCoalDisable i ∨ c = .refill i))) →
    exec c s = .next { s with csr := { s.csr with result := 2 } }

/-! ### Host accesses to the registers (10_state.md R36 to R50) -/

/-- A write of DMA_CTRL: ST, SR, TSF and RSF take the written bits, PBL takes a legal value or 8, CMD_ERR is cleared by a
1, reserved bits read 0, and a change of a start bit starts or stops its process (R37, R52, R53). -/
def Obligations.WriteOfDmaCtrl : Prop :=
  ∀ (s : State) (v : Word), s.memLegal →
    ∃ (u : State) (c : Word), fenced s u ∧
      hostCsrWrite 4 0x00 v s =
        .next { u with
          csr := { s.csr with dmaCtrl := c }
          dma := { s.dma with
            ts := if bit s.csr.dmaCtrl 0 = false ∧ bit v 0 = true then .running
              else if bit s.csr.dmaCtrl 0 = true ∧ bit v 0 = false then .stopped else s.dma.ts
            rs := if bit s.csr.dmaCtrl 1 = false ∧ bit v 1 = true then .running
              else if bit s.csr.dmaCtrl 1 = true ∧ bit v 1 = false then .stopped else s.dma.rs } } ∧
      (∀ k < 4, bit c k = bit v k) ∧
      bitsAt c 8 6 = (if bitsAt v 8 6 ∈ [1, 2, 4, 8, 16, 32] then bitsAt v 8 6 else 8) ∧
      bit c 31 = (bit s.csr.dmaCtrl 31 && !bit v 31) ∧ c &&& 0x7FFF_C0F0 = 0

/-- R42: a write of a ring's base register takes effect, with its low four bits 0, only while the ring's DMA process is
STOPPED, and then also sets the process's descriptor pointer to 0; at any other time it is ignored. Both registers
are 0 after reset. -/
def Obligations.WriteOfABaseRegister : Prop :=
  (∀ (s : State) (v : Word), s.memLegal → ∃ u, fenced s u ∧
    hostCsrWrite 4 0x10 v s =
      .next (if s.dma.ts = .stopped then
        { u with tx := { s.tx with base := v &&& 0xFFFF_FFF0 }, dma := { s.dma with txIdx := 0 } } else u) ∧
    hostCsrWrite 4 0x14 v s =
      .next (if s.dma.rs = .stopped then
        { u with rx := { s.rx with base := v &&& 0xFFFF_FFF0 }, dma := { s.dma with rxIdx := 0 } } else u)) ∧
  ∀ p, readCsr (State.resetWith p) .txDescBase = 0 ∧ readCsr (State.resetWith p) .rxDescBase = 0

/-- R43: a write of any value to a poll demand register makes a SUSPENDED process RUNNING and has no other effect; the
registers read 0. -/
def Obligations.WriteOfAPollDemand : Prop :=
  ∀ (s : State) (v : Word), s.memLegal → (∃ u, fenced s u ∧
    hostCsrWrite 4 0x18 v s =
      .next { u with dma := { s.dma with ts := if s.dma.ts = .suspended then .running else s.dma.ts } } ∧
    hostCsrWrite 4 0x1C v s =
      .next { u with dma := { s.dma with rs := if s.dma.rs = .suspended then .running else s.dma.rs } }) ∧
    readCsr s .txPollDemand = 0 ∧ readCsr s .rxPollDemand = 0

/-- DMA_STATUS: a written 1 clears a source bit and nothing else; it reads the source latches, AIS and NIS derived from
them, and the two process states (R38, R51). -/
def Obligations.StatusRegister : Prop :=
  ∀ (s : State) (v : Word), s.memLegal → s.regsLegal →
    (∃ u, fenced s u ∧
      hostCsrWrite 4 0x08 v s = .next { u with csr := { s.csr with statusSrc := s.csr.statusSrc &&& ~~~v } }) ∧
    (∀ b : Source, bit (readCsr s .dmaStatus) b.pos = bit s.csr.statusSrc b.pos) ∧
    (bit (readCsr s .dmaStatus) 15 = true ↔ ∃ b : Source, b ≠ .ti ∧ b ≠ .ri ∧ bit s.csr.statusSrc b.pos = true) ∧
    (bit (readCsr s .dmaStatus) 16 = true ↔ ∃ b : Source, (b = .ti ∨ b = .ri) ∧ bit s.csr.statusSrc b.pos = true) ∧
    bitsAt (readCsr s .dmaStatus) 17 3 = (match s.dma.rs with | .stopped => 0 | .running => 1 | .suspended => 2) ∧
    bitsAt (readCsr s .dmaStatus) 20 3 = (match s.dma.ts with | .stopped => 0 | .running => 1 | .suspended => 2) ∧
    bitsAt (readCsr s .dmaStatus) 23 9 = 0

/-- Writes of the registers that only store: DMA_TX_THRESH and MAC_CONFIG to a legal value, the others with their
reserved bits 0 (R39, R41, R44 to R47, R50). -/
def Obligations.WritesOfThePlainRegisters : Prop :=
  ∀ (s : State) (v : Word), s.memLegal → ∃ u, fenced s u ∧
    hostCsrWrite 4 0x04 v s = .next { u with csr := { s.csr with
      dmaTxThresh := natWord (max 64 (min 256 (64 * (bitsAt v 0 9 / 64)))) } } ∧
    hostCsrWrite 4 0x0C v s = .next { u with csr := { s.csr with dmaIer := v &&& 0x0001_A1FB } } ∧
    (∃ c : Word, hostCsrWrite 4 0x28 v s = .next { u with csr := { s.csr with macConfig := c } } ∧
      (∀ k < 4, bit c k = bit v k) ∧ bit c 4 = (decide (s.params.variant = .mac100) || bit v 4) ∧
      bit c 8 = (s.params.csumOffload && bit v 8) ∧ c &&& 0xFFFF_FEE0 = 0) ∧
    hostCsrWrite 4 0x2C v s = .next { u with csr := { s.csr with macFlow := v &&& 0xFFFF_0003 } } ∧
    hostCsrWrite 4 0x30 v s = .next { u with csr := { s.csr with macAddrHi := v &&& 0x0000_FFFF } } ∧
    hostCsrWrite 4 0x34 v s = .next { u with csr := { s.csr with macAddrLo := v } } ∧
    hostCsrWrite 4 0x38 v s = .next { u with csr := { s.csr with mcHashHi := v } } ∧
    hostCsrWrite 4 0x3C v s = .next { u with csr := { s.csr with mcHashLo := v } } ∧
    hostCsrWrite 4 0x40 v s = .next { u with csr := { s.csr with frameFilter := v &&& 7 } } ∧
    hostCsrWrite 4 0x44 v s = .next { u with csr := { s.csr with pmt := v &&& 7 } } ∧
    hostCsrWrite 4 0x64 v s = .next { u with csr := { s.csr with arg0 := v } } ∧
    hostCsrWrite 4 0x68 v s = .next { u with csr := { s.csr with arg1 := v } } ∧
    hostCsrWrite 4 0x6C v s = .next { u with csr := { s.csr with arg2 := v } } ∧
    hostCsrWrite 4 0x70 v s = .next { u with csr := { s.csr with arg3 := v } }

/-- A CSR read returns the register at its offset, or 0 for a write-only register or a reserved offset, and has no side effect; a
write of a read-only register or of a reserved offset changes no register. HW_FEATURE says the generation and the checksum
offload, and CUR_TX_DESC and CUR_RX_DESC follow the DMA pointers (R31, R36, R48 to R50, R86; DMA_STATUS's bits are in
StatusRegister). Descriptor i of a ring lies 16 i bytes above what its base register reads, for software and for the DMA agents
alike (R32, R330). -/
def Obligations.ReadsAndIgnoredWrites : Prop :=
  ∀ (s : State) (v : Word), s.memLegal →
    let reads := fun (off : BitVec 8) (w : Word) => hostCsrRead 4 off s = .next { s with busData := w }
    let reserved := fun off : BitVec 8 => off ∈ [0x20, 0x24, 0x54, 0x58, 0x5C] ∨ 0x7C ≤ off.toNat
    reads 0x00 s.csr.dmaCtrl ∧ reads 0x04 s.csr.dmaTxThresh ∧ reads 0x08 (readCsr s .dmaStatus) ∧
    reads 0x0C s.csr.dmaIer ∧ reads 0x10 s.tx.base ∧ reads 0x14 s.rx.base ∧
    reads 0x18 0 ∧ reads 0x1C 0 ∧
    reads 0x28 s.csr.macConfig ∧ reads 0x2C s.csr.macFlow ∧ reads 0x30 s.csr.macAddrHi ∧ reads 0x34 s.csr.macAddrLo ∧
    reads 0x38 s.csr.mcHashHi ∧ reads 0x3C s.csr.mcHashLo ∧ reads 0x40 s.csr.frameFilter ∧ reads 0x44 s.csr.pmt ∧
    reads 0x48 (s.tx.base + natWord (16 * s.dma.txIdx)) ∧
    reads 0x4C (s.rx.base + natWord (16 * s.dma.rxIdx)) ∧
    (∃ f, reads 0x50 f ∧ bit f 0 = decide (s.params.variant = .gmac) ∧ bit f 1 = s.params.csumOffload ∧
      f &&& 0xFFFF_FFFC = 0) ∧
    reads 0x60 0 ∧ reads 0x64 s.csr.arg0 ∧ reads 0x68 s.csr.arg1 ∧ reads 0x6C s.csr.arg2 ∧ reads 0x70 s.csr.arg3 ∧
    reads 0x74 s.csr.result ∧ reads 0x78 s.csr.result1 ∧
    (∀ (r : RingSel) (i k : Nat), ∃ b, reads (if r = .tx then 0x10 else 0x14) b ∧
      s.descAddr r i k = b + natWord (16 * i + 4 * k) ∧ s.dmaDesc r i k = b + natWord (16 * i + 4 * k)) ∧
    ∀ off : BitVec 8, off.toNat % 4 = 0 →
      (reserved off → reads off 0) ∧
      (reserved off ∨ off ∈ [0x48, 0x4C, 0x50, 0x74, 0x78] → ∃ u, fenced s u ∧ hostCsrWrite 4 off v s = .next u)

/-- A CSR access that is not 32 bits wide, or not at a multiple of 4, raises BAD_CSR_ACCESS (R83) and changes nothing else (the
model's choice, log 6). A host access outside every allocated region is refused (R81, R451), also where another of its bytes is the
hardware's (the model's choice, log 43), and so is one that touches a
descriptor but is not one of its words: R85 gives it no effect, and refusing it is the model's choice (log 34). -/
def Obligations.HostAccessesThatStop : Prop :=
  (∀ (s : State) (width : Nat) (off : BitVec 8) (v : Word), s.sound → width ≠ 4 ∨ off.toNat % 4 ≠ 0 →
    hostCsrWrite width off v s = .next { s with fault := some (.badCsrAccess (off.setWidth 32)) } ∧
      hostCsrRead width off s = .next { s with fault := some (.badCsrAccess (off.setWidth 32)) }) ∧
  ∀ (s : State) (a v : Word),
    (∀ x, s.outside a 4 = some x →
      hostMemWrite a v s = .refused (.softwareOutsideRegions x) ∧
        hostMemRead a s = .refused (.softwareOutsideRegions x)) ∧
    (s.outside a 4 = none → touchesDesc s a = true →
      (∀ r i off, s.descAt a = some (r, i, off) → off % 4 ≠ 0) →
      hostMemWrite a v s = .refused (.notOneDescriptorWord a) ∧
        hostMemRead a s = .refused (.notOneDescriptorWord a))

/-- R40: the interrupt line is up exactly when NIE and some latched and enabled normal source, or AIE and some latched
and enabled abnormal source; the ISR agent may run exactly when the line is up and the interface is open and not
suspended. -/
def Obligations.InterruptLine : Prop :=
  ∀ s : State,
    (s.irqMac = true ↔
      (bit s.csr.dmaIer 16 = true ∧
        ∃ b : Source, (b = .ti ∨ b = .ri) ∧ bit s.csr.statusSrc b.pos = true ∧ bit s.csr.dmaIer b.pos = true) ∨
      (bit s.csr.dmaIer 15 = true ∧
        ∃ b : Source, b ≠ .ti ∧ b ≠ .ri ∧ bit s.csr.statusSrc b.pos = true ∧ bit s.csr.dmaIer b.pos = true)) ∧
    (s.isrEnabled = true ↔ s.irqMac = true ∧ s.dev.ifup = true ∧ s.dev.suspended = false)

/-! ### Host accesses to shared memory (20_memory.md R81 to R95) -/

/-- A host access to a word of no descriptor. Where a byte of it is device-owned, or lies in a buffer that a hardware-owned
descriptor addresses, a read or a write raises OWN_VIOLATION at the first such byte (R84, R95; the write of a buffer byte is
R493's, log 36; that byte, and nothing else changing, are the model's choices, log 9 and log 6). Elsewhere a read returns the
word software sees, and a write enters the write buffer: software sees the word at once, memory, which the DMA agents read, is
unchanged, and so is every other byte; the host reads the word back. The byte at a word's lowest address holds its bits 7:0 where
`DESC_ENDIAN` is little-endian, and its bits 31:24 where it is big-endian. A fence makes every pending write visible and changes
no byte that software sees; making one entry visible performs that write in memory and removes the entry (R82, R90, R92). -/
def Obligations.HostBufferWrite : Prop :=
  (∀ (s : State), s.memLegal →
    fenced s (descFence s) ∧ (∀ a : Word, memRead (descFence s).mem a.toNat = swByte s a) ∧
    ∀ (k : Nat) (e : Pending), s.wbuf[k]? = some e →
      (drainOne k s).wbuf = s.wbuf.eraseIdx k ∧
      ∀ a : Word, memRead (drainOne k s).mem a.toNat =
        if inSpan e.addr e.bytes.length a then e.bytes.getD (a - e.addr).toNat 0 else memRead s.mem a.toNat) ∧
  (∀ (s : State) (a : Word), ∀ k < 4, swByte s (a + natWord k) =
    (swWord s a >>> (8 * if s.params.endian = .le then k else 3 - k)).setWidth 8) ∧
  ∀ (s : State) (a v : Word), s.sound → s.ringsLegal → s.outside a 4 = none → touchesDesc s a = false →
    (∀ k < 4, s.hardwareOwns (a + natWord k) → (∀ j < k, ¬ s.hardwareOwns (a + natWord j)) →
      hostMemWrite a v s = .next { s with fault := some (.ownViolation (a + natWord k)) } ∧
        hostMemRead a s = .next { s with fault := some (.ownViolation (a + natWord k)) }) ∧
    ((∀ k < 4, ¬ s.hardwareOwns (a + natWord k)) →
      hostMemRead a s = .next { s with busData := swWord s a } ∧
      ∃ t, hostMemWrite a v s = .next t ∧ t = { s with wbuf := t.wbuf } ∧ swWord t a = v ∧
        (∀ k < 4, swByte t (a + natWord k) = (v >>> (8 * if s.params.endian = .le then k else 3 - k)).setWidth 8) ∧
        (∀ x : Word, inSpan a 4 x = false → swByte t x = swByte s x) ∧
        hostMemRead a t = .next { t with busData := v })

/-- A host write of word `k` of a descriptor. OWN_VIOLATION at a byte that is the hardware's (R84, R95), else where the descriptor
is hardware-owned (R95). Setting OWN while a write to another word of the descriptor, or to a byte of a buffer it addresses, is
pending: MISSING_FENCE; where none is, no fault (R91). Otherwise the word is written and nothing else, and setting OWN
publishes the slot (R169; that a host write does too is the model's reading, DEDUCED, log 25). Which address an OWN_VIOLATION
records, and that nothing but the fault changes, are the model's choices (log 9, log 6); that a write to a byte of a buffer which a
hardware-owned descriptor addresses faults is R493's, where R95 lists only the reads (DEDUCED, log 36). -/
def Obligations.HostDescriptorWrite : Prop :=
  ∀ (s : State) (r : RingSel) (i k : Nat) (v : Word), s.sound → s.ringsLegal → i < (s.ring r).n → k < 4 →
    let a := s.descAddr r i k
    let sets := k = 0 ∧ bit v 31 = true
    (∀ b < 4, s.hardwareOwns (a + natWord b) → (∀ j < b, ¬ s.hardwareOwns (a + natWord j)) →
      hostMemWrite a v s = .next { s with fault := some (.ownViolation (a + natWord b)) }) ∧
    ((∀ b < 4, ¬ s.hardwareOwns (a + natWord b)) →
      (s.ownSeen r i = true → hostMemWrite a v s = .next { s with fault := some (.ownViolation a) }) ∧
      (s.ownSeen r i = false → sets → s.writePending r i →
        hostMemWrite a v s = .next { s with fault := some (.missingFence a) }) ∧
      (s.ownSeen r i = false → ¬ (sets ∧ s.writePending r i) →
        ∃ t, hostMemWrite a v s = .next t ∧ sameBytesButDesc s t r i ∧
          (∀ l < 4, t.descWord r i l = if l = k then v else s.descWord r i l) ∧
          (sets → t = { s.setPub r i true with wbuf := t.wbuf }) ∧ (¬ sets → t = { s with wbuf := t.wbuf })))

/-- A host read of word `k` of a descriptor. Of des1 to des3 of a hardware-owned descriptor: OWN_VIOLATION. Of any other word,
des0 of a hardware-owned descriptor included: OWN_VIOLATION where a byte of it is device-owned or lies in a buffer that a
hardware-owned descriptor addresses, else the word is returned and nothing else changes (R84, R95). That the first such byte is
the one recorded, and that nothing but the fault changes, are the model's choices (log 9, log 6). -/
def Obligations.HostDescriptorRead : Prop :=
  ∀ (s : State) (r : RingSel) (i k : Nat), s.sound → s.ringsLegal → i < (s.ring r).n → k < 4 →
    let a := s.descAddr r i k
    (k ≠ 0 → s.ownSeen r i = true → hostMemRead a s = .next { s with fault := some (.ownViolation a) }) ∧
    (k = 0 ∨ s.ownSeen r i = false →
      (∀ b < 4, s.hardwareOwns (a + natWord b) → (∀ j < b, ¬ s.hardwareOwns (a + natWord j)) →
        hostMemRead a s = .next { s with fault := some (.ownViolation (a + natWord b)) }) ∧
      ((∀ b < 4, ¬ s.hardwareOwns (a + natWord b)) →
        hostMemRead a s = .next { s with busData := s.descWord r i k }))

/-! ### The operations table: register commands (40_ops_table.md)

Each of these commands writes CSRs, so it fences (R92): `u` is the state after the fence. -/

/-- SET_MAC_ADDR and SET_FILTER: the address and filter registers take the operands, the unused operand bits are ignored, and
nothing else changes (R176, R177). SET_WOL: IDX[0] and IDX[1] set or clear the two wake enables and PWRDWN is kept; a
nonzero IDX[15:2] is an ERROR that changes nothing (R182). -/
def Obligations.FilterAndWakeCommands : Prop :=
  (∀ s : State, s.sound → s.memLegal → s.dev.attached = true → ∃ u, fenced s u ∧
    exec .setMacAddr s = .next { u with
      csr := { s.csr with macAddrLo := s.csr.arg0, macAddrHi := s.csr.arg1 &&& 0x0000_FFFF, result := 0 } } ∧
    exec .setFilter s = .next { u with
      csr := { s.csr with frameFilter := s.csr.arg0 &&& 7, mcHashLo := s.csr.arg1, mcHashHi := s.csr.arg2,
                          result := 0 } }) ∧
  ∀ (s : State) (mode : BitVec 16), s.sound → s.memLegal → s.regsLegal → s.dev.attached = true →
    (mode.toNat < 4 → ∃ u p, fenced s u ∧
      exec (.setWol mode) s = .next { u with csr := { s.csr with pmt := p, result := 0 } } ∧
      bit p 0 = bit s.csr.pmt 0 ∧ bit p 1 = mode.getLsbD 0 ∧ bit p 2 = mode.getLsbD 1 ∧ p &&& 0xFFFF_FFF8 = 0) ∧
    (4 ≤ mode.toNat → exec (.setWol mode) s = .next { s with csr := { s.csr with result := 2 } })

/-- READ_IRQ_STATUS returns DMA_STATUS and clears nothing; CLEAR_IRQ_STATUS clears exactly the source bits its mask
names; IRQ_ENABLE and IRQ_DISABLE set and clear enable bits, reserved ones never (R180, R181, R185, R187). -/
def Obligations.InterruptCommands : Prop :=
  ∀ s : State, s.sound → s.memLegal → s.regsLegal → s.dev.attached = true → ∃ u, fenced s u ∧
    exec .readIrqStatus s = .next { s with csr := { s.csr with result := readCsr s .dmaStatus } } ∧
    exec .clearIrqStatus s = .next { u with
      csr := { s.csr with statusSrc := s.csr.statusSrc &&& ~~~s.csr.arg0, result := 0 } } ∧
    exec .irqEnable s = .next { u with
      csr := { s.csr with dmaIer := s.csr.dmaIer ||| (s.csr.arg0 &&& 0x0001_A1FB), result := 0 } } ∧
    exec .irqDisable s = .next { u with
      csr := { s.csr with dmaIer := s.csr.dmaIer &&& ~~~s.csr.arg0, result := 0 } }

/-- DMA_START sets the ring's MAC enable and its start bit, so a STOPPED process becomes RUNNING and another is left as it was;
DMA_STOP clears both, the process is STOPPED at once, and no status bit is latched (R183, R184). POLL_DEMAND makes the ring's
SUSPENDED process RUNNING and changes no other process (R189, R43). -/
def Obligations.DmaProcessCommands : Prop :=
  (∀ s : State, s.sound → s.memLegal → s.regsLegal → s.dev.attached = true → ∃ u, fenced s u ∧
    exec (.dmaStart .tx) s = .next { u with
      csr := { s.csr with
        dmaCtrl := s.csr.dmaCtrl ||| 1, macConfig := s.csr.macConfig ||| 1, result := 0 }
      dma := { s.dma with ts := if s.dma.ts = .stopped then .running else s.dma.ts } } ∧
    exec (.dmaStart .rx) s = .next { u with
      csr := { s.csr with
        dmaCtrl := s.csr.dmaCtrl ||| 2, macConfig := s.csr.macConfig ||| 2, result := 0 }
      dma := { s.dma with rs := if s.dma.rs = .stopped then .running else s.dma.rs } } ∧
    exec (.dmaStop .tx) s = .next { u with
      csr := { s.csr with
        dmaCtrl := s.csr.dmaCtrl &&& ~~~1, macConfig := s.csr.macConfig &&& ~~~1, result := 0 }
      dma := { s.dma with ts := .stopped } } ∧
    exec (.dmaStop .rx) s = .next { u with
      csr := { s.csr with
        dmaCtrl := s.csr.dmaCtrl &&& ~~~2, macConfig := s.csr.macConfig &&& ~~~2, result := 0 }
      dma := { s.dma with rs := .stopped } }) ∧
  ∀ s : State, s.sound → s.memLegal → s.dev.attached = true → ∃ u, fenced s u ∧
    exec (.pollDemand .tx) s = .next { u with
      csr := { s.csr with result := 0 }
      dma := { s.dma with ts := if s.dma.ts = .suspended then .running else s.dma.ts } } ∧
    exec (.pollDemand .rx) s = .next { u with
      csr := { s.csr with result := 0 }
      dma := { s.dma with rs := if s.dma.rs = .suspended then .running else s.dma.rs } }

/-- DMA_MODE: PBL takes a legal burst length or 8, TSF and RSF their operand bits, TC its legal value; ST, SR and CMD_ERR
are preserved, and so are both processes (R175). -/
def Obligations.DmaModeCommand : Prop :=
  ∀ s : State, s.sound → s.memLegal → s.regsLegal → s.dev.attached = true → ∃ u c, fenced s u ∧
    exec .dmaMode s = .next { u with
      csr := { s.csr with
        dmaCtrl := c
        dmaTxThresh := natWord (max 64 (min 256 (64 * (bitsAt s.csr.arg2 0 9 / 64))))
        result := 0 } } ∧
    bit c 0 = bit s.csr.dmaCtrl 0 ∧ bit c 1 = bit s.csr.dmaCtrl 1 ∧ bit c 31 = bit s.csr.dmaCtrl 31 ∧
    bit c 2 = bit s.csr.arg1 0 ∧ bit c 3 = bit s.csr.arg1 1 ∧ c &&& 0x7FFF_C0F0 = 0 ∧
    bitsAt c 8 6 =
      (if bitsAt s.csr.arg0 0 6 ∈ [1, 2, 4, 8, 16, 32] then bitsAt s.csr.arg0 0 6 else 8)

/-- ADJUST_LINK and READ_LINK. Link down: the mirror only. An unsupported speed: ERROR and no change. Otherwise the
mirror and MAC_CONFIG's DM, FES and, on a GMAC, PS follow the operands. READ_LINK returns the mirror (R186, R188). -/
def Obligations.LinkCommands : Prop :=
  ∀ s : State, s.sound → s.memLegal → s.regsLegal → s.dev.attached = true →
    (bit s.csr.arg0 0 = false →
      exec .adjustLink s = .next { s with
        csr := { s.csr with result := 0 }
        link := { s.link with up := false, speed := .none } }) ∧
    (bit s.csr.arg0 0 = true →
      ¬ (s.csr.arg1 = 10 ∨ s.csr.arg1 = 100 ∨ s.csr.arg1 = 1000 ∧ s.params.variant = .gmac) →
      exec .adjustLink s = .next { s with csr := { s.csr with result := 2 } }) ∧
    (bit s.csr.arg0 0 = true →
      (s.csr.arg1 = 10 ∨ s.csr.arg1 = 100 ∨ s.csr.arg1 = 1000 ∧ s.params.variant = .gmac) →
      ∃ u m speed, fenced s u ∧ speed.word = s.csr.arg1 ∧
        exec .adjustLink s = .next { u with
          csr := { s.csr with macConfig := m, result := 0 }
          link := { up := true, speed := speed, duplex := if bit s.csr.arg2 0 then .full else .half } } ∧
        ∀ k < 32, bit m k =
          if k = 2 then bit s.csr.arg2 0
          else if k = 3 then decide (s.csr.arg1 = 100)
          else if k = 4 ∧ s.params.variant = .gmac then decide (s.csr.arg1 ≠ 1000)
          else bit s.csr.macConfig k) ∧
    exec .readLink s = .next { s with csr := { s.csr with
      result := (match s.link.duplex, s.link.up with
        | .half, false => 0 | .half, true => 1 | .full, false => 2 | .full, true => 3)
      result1 := (match s.link.speed with | .none => 0 | .s10 => 10 | .s100 => 100 | .s1000 => 1000) } }

/-! ### The operations table: descriptors (40_ops_table.md) -/

/-- GET_OWN, GET_TX_LEN, RX_STATUS and AVAIL: the value each returns, its ERROR cases, and that each changes nothing but
RESULT and RESULT1 (R127 with D29, which it cites, R171, R173, R174, R224). -/
def Obligations.DescriptorQueries : Prop :=
  ∀ (s : State) (r : RingSel) (i : BitVec 16), s.sound → s.dev.attached = true →
    (i.toNat < (s.ring r).n → s.descClear r i.toNat →
      exec (.getOwn r i) s = .next { s with
        csr := { s.csr with result := if s.ownSeen r i.toNat then 1 else 0 } }) ∧
    (i.toNat < s.tx.n → s.descClear .tx i.toNat →
      exec (.getTxLen i) s = .next (if s.ownSeen .tx i.toNat then
        { s with csr := { s.csr with result := 2 } }
      else
        { s with csr := { s.csr with
          result := natWord (bitsAt (s.descWord .tx i.toNat 1) 0 13 + bitsAt (s.descWord .tx i.toNat 1) 13 13) } })) ∧
    (i.toNat < s.rx.n → s.descClear .rx i.toNat →
      exec (.rxStatus i) s = .next (if s.ownSeen .rx i.toNat ∨ (s.rxSlot i.toNat).pub = false then
        { s with csr := { s.csr with result := 2 } }
      else
        let d := s.descWord .rx i.toNat 0
        { s with csr := { s.csr with
          result :=
            if bit d 15 ∨ bit d 9 = false ∨ bit d 8 = false then 3 else if bit d 7 then 2
            else if bit d 0 ∧ bit s.csr.macConfig 8 then 1 else 0
          result1 := natWord (bitsAt d 16 14) } })) ∧
    exec (.avail r) s = .next (if (s.ring r).allocated then
      { s with csr := { s.csr with
        result := natWord (s.ring r).n - ((s.ring r).sub - (s.ring r).comp) - 1
        result1 := (s.ring r).sub - (s.ring r).comp } }
    else { s with csr := { s.csr with result := 2 } })

/-- SET_OWN: a staged descriptor with OWN = 0 gets OWN = 1 and its slot is published; every earlier write is in memory
before that, no other byte changes, and nothing else changes. Any other slot is an ERROR that changes nothing; of a slot that
is not staged the descriptor is not read (R91, R169, R172, R441). -/
def Obligations.SetOwnCommand : Prop :=
  ∀ (s : State) (r : RingSel) (i : BitVec 16), s.sound → s.memLegal → s.ringsLegal → s.dev.attached = true →
    i.toNat < (s.ring r).n →
    (s.staged r i.toNat = false → exec (.setOwn r i) s = .next { s with csr := { s.csr with result := 2 } }) ∧
    (s.staged r i.toNat = true → s.descClear r i.toNat →
      (s.ownSeen r i.toNat = true → exec (.setOwn r i) s = .next { s with csr := { s.csr with result := 2 } }) ∧
      (s.ownSeen r i.toNat = false →
        ∃ t, exec (.setOwn r i) s = .next t ∧ sameBytesButDesc s t r i.toNat ∧
          (∀ k < 4, t.descWord r i.toNat k = if k = 0 then 0x8000_0000 else s.descWord r i.toNat k) ∧
          (∀ a : Word, memRead t.mem a.toNat = swByte s a) ∧
          t = { s.setPub r i.toNat true with
            csr := { s.csr with result := 0 }
            mem := t.mem
            wbuf := [{ addr := s.descAddr r i.toNat 0, bytes := splitWord s.params.endian 0x8000_0000 }] }))

/-- RX_COAL_ENABLE and RX_COAL_DISABLE set and clear DIC in des1 of a software-owned descriptor, keep its other bits and
words, and change nothing else; a hardware-owned descriptor is an ERROR (R178, R179). -/
def Obligations.ReceiveCoalescingCommands : Prop :=
  ∀ (s : State) (i : BitVec 16) (b : Bool), s.sound → s.memLegal → s.ringsLegal → s.dev.attached = true →
    i.toNat < s.rx.n → s.descClear .rx i.toNat →
    (s.ownSeen .rx i.toNat = false →
      ∃ t, exec (if b then .rxCoalEnable i else .rxCoalDisable i) s = .next t ∧ sameBytesButDesc s t .rx i.toNat ∧
        (∀ k < 4, k ≠ 1 → t.descWord .rx i.toNat k = s.descWord .rx i.toNat k) ∧
        (∀ k < 32, bit (t.descWord .rx i.toNat 1) k = if k = 26 then b else bit (s.descWord .rx i.toNat 1) k) ∧
        t = { s with csr := { s.csr with result := 0 }, wbuf := t.wbuf }) ∧
    (s.ownSeen .rx i.toNat = true →
      exec (if b then .rxCoalEnable i else .rxCoalDisable i) s =
        .next { s with csr := { s.csr with result := 2 } })

/-- `unmap` clears the device-owned mark of exactly the bytes it names, found by their DMA addresses, and leaves every other byte
marked with its DMA address, and nothing else changes (R84). `map` fences and marks exactly the buffer's bytes, from the DMA
address `DMA_MAP` gives the first (R84; the bytes after it follow, log 18). -/
def Obligations.MapAndUnmap : Prop :=
  ∀ (s : State) (a : Word) (len : Nat), s.memLegal →
    ((∀ m ∈ s.marks, m.len + len ≤ 2 ^ 32) →
      (∀ d : Word, ((unmapBuf a len s).marks.any fun x => inSpan x.dma x.len d) =
        ((s.marks.any fun x => inSpan x.dma x.len d) && !inSpan a len d)) ∧
      (∀ c d : Word, ((unmapBuf a len s).marks.any fun x => inSpan x.cpu x.len c && decide (x.dma + (c - x.cpu) = d)) =
        ((s.marks.any fun x => inSpan x.cpu x.len c && decide (x.dma + (c - x.cpu) = d)) && !inSpan a len d))) ∧
    unmapBuf a len s = { s with marks := (unmapBuf a len s).marks } ∧
    (∃ u, fenced s u ∧ mapBuf a len s = { u with
      regions := (mapBuf a len s).regions
      marks := s.marks ++ [{ dma := dmaMapOf s.params a, cpu := a, len := len }] }) ∧
    (∀ c : Word, (mapBuf a len s).marked c = (s.marked c || inSpan a len c))

/-- INIT_DESC_CHAIN on an allocated ring whose DMA process is stopped empties the chain, whoever owns its descriptors, and
changes nothing else; otherwise it is an ERROR that changes nothing (R96, R125, R129, R170). Which buffer regions the `free` of an
RX buffer ends (the first that starts at the buffer, whoever owns it, or none) is the model's choice (log 24). -/
def Obligations.InitDescChainCommand : Prop :=
  ∀ (s : State) (r : RingSel), s.sound → s.memLegal → s.ringsLegal → s.dev.attached = true →
    ((s.ring r).allocated = true → s.proc r = .stopped →
      ∃ t, chainEmptied s t r ∧ exec (.initDescChain r) s = .next { t with csr := { t.csr with result := 0 } }) ∧
    ((s.ring r).allocated = false ∨ s.proc r ≠ .stopped →
      exec (.initDescChain r) s = .next { s with csr := { s.csr with result := 2 } })

/-! ### The ring operations (41_ring_ops.md) -/

/-- ALLOCATE. On a ring that is allocated, whose DMA process runs, or of an illegal size: ERROR. An oracle answer that is
FAIL or not a fresh aligned region (log 8): ERROR. Otherwise the region is zeroed, in memory, and becomes the ring's
array, with empty slots, cursors 0 and the base register and DMA pointer at its start; no other byte and nothing else
changes (R220, R32, R42). That the zeroing raises no fault, even where a hardware-owned descriptor addresses the region, is the
model's choice (log 41). -/
def Obligations.AllocateCommand : Prop :=
  ∀ (s : State) (r : RingSel), s.sound → s.memLegal → s.dev.attached = true →
    let n := s.csr.arg0.toNat
    let d := drawAnswer s
    ((s.ring r).allocated = true ∨ s.proc r ≠ .stopped ∨ n ∉ [4, 8, 16, 32, 64, 128, 256, 512, 1024] →
      exec (.allocate r) s = .next { s with csr := { s.csr with result := 2 } }) ∧
    ((s.ring r).allocated = false → s.proc r = .stopped → n ∈ [4, 8, 16, 32, 64, 128, 256, 512, 1024] →
      (d.1 = none ∨ (∃ m, d.1 = some m ∧ s.fresh 16 m (16 * n) = false) →
        exec (.allocate r) s = .next { s with
          csr := { s.csr with result := 2 }
          allocAnswers := d.2.allocAnswers
          draws := d.2.draws }) ∧
      ∀ m, d.1 = some m → s.fresh 16 m (16 * n) = true →
        ∃ t, exec (.allocate r) s = .next t ∧
          (∀ a : Word, memRead t.mem a.toNat = if inSpan m (16 * n) a then 0 else swByte s a) ∧
          t = { s with
            csr := { s.csr with
              result := 0
              result1 := m }
            dma := { s.dma with
              txIdx := if r = .tx then 0 else s.dma.txIdx
              rxIdx := if r = .rx then 0 else s.dma.rxIdx }
            tx := if r = .tx then { s.tx with allocated := true, n := n, base := m, sub := 0, comp := 0 } else s.tx
            rx := if r = .rx then { s.rx with allocated := true, n := n, base := m, sub := 0, comp := 0 } else s.rx
            txSlots := if r = .tx then List.replicate n TxSlot.empty else s.txSlots
            rxSlots := if r = .rx then List.replicate n RxSlot.empty else s.rxSlots
            allocAnswers := d.2.allocAnswers
            draws := d.2.draws
            mem := t.mem
            wbuf := [] })

/-- SUBMIT at the submission cursor of a ring with a free slot: the buffer is mapped, the slot and the descriptor are
written, ER kept, the cursor moves on; with ARG2[4] the slot is published, every other write in memory first. Nothing
else changes (R84, R91, R123, R221). That a mapped buffer's DMA addresses are consecutive, and that the buffer is an allocated
region from then on, are the model's (log 18, log 24). -/
def Obligations.SubmitCommand : Prop :=
  ∀ (s : State) (i : BitVec 16), s.sound → s.memLegal → s.ringsLegal → s.dev.attached = true →
    s.tx.allocated = true → i.toNat = idx s.tx.sub s.tx.n → 1 ≤ s.csr.arg1.toNat → s.csr.arg1.toNat ≤ 8191 →
    s.csr.arg2 >>> 5 = 0 → 1 ≤ s.tx.avail → s.meetsMark s.csr.arg0 s.csr.arg1.toNat = false →
    s.softDesc .tx i.toNat → s.arrayApart .tx s.csr.arg0 s.csr.arg1.toNat →
    ∃ t, exec (.submit i) s = .next t ∧ sameBytesButDesc s t .tx i.toNat ∧
      t.descWord .tx i.toNat 0 = (if bit s.csr.arg2 4 then 0x8000_0000 else s.descWord .tx i.toNat 0) ∧
      t.descWord .tx i.toNat 1 = txDes1 (bit s.csr.arg2 3) (bit s.csr.arg2 2) (bit s.csr.arg2 1) (bit s.csr.arg2 0)
        (bit (s.descWord .tx i.toNat 1) 27) s.csr.arg1.toNat ∧
      t.descWord .tx i.toNat 2 = dmaMapOf s.params s.csr.arg0 ∧ t.descWord .tx i.toNat 3 = 0 ∧
      (∀ a, inSpan (s.descAddr .tx i.toNat 0) 16 a = false → memRead t.mem a.toNat = swByte s a) ∧
      (bit s.csr.arg2 4 = true → ∀ a, inSpan (s.descAddr .tx i.toNat 0) 4 a = false →
        memRead t.mem a.toNat = swByte t a) ∧
      t = { s with
        csr := { s.csr with result := 0 }
        tx := { s.tx with sub := s.tx.sub + 1 }
        txSlots := s.txSlots.set i.toNat {
          addr := some (dmaMapOf s.params s.csr.arg0), len := s.csr.arg1.toNat,
          pkt := if s.csr.arg3 = 0 then none else some s.csr.arg3, pub := bit s.csr.arg2 4 }
        marks := s.marks ++ [{ dma := dmaMapOf s.params s.csr.arg0, cpu := s.csr.arg0, len := s.csr.arg1.toNat }]
        regions := (mapBuf s.csr.arg0 s.csr.arg1.toNat s).regions
        mem := t.mem
        wbuf := t.wbuf }

/-- SUBMIT and REFILL that do not run. Off the cursor, on an unallocated ring, or with a bad length or flags: ERROR. On a full
ring: BUSY, which SUBMIT counts; that REFILL answers so also for a slot that kept its buffer is the order of R223's pseudocode, and
how R441 is read beside it is the model's reading (log 38). REFILL with a buffer for a slot that kept its own, on a ring that is
not full: ERROR. When the oracle answers FAIL, or no fresh buffer (which the model counts as FAIL, log 8): ERROR and the failure
counter. Of a buffer that is device-owned already: refused by name (the model's choice, log 17). None of them changes anything
else (R221, R223, R230). -/
def Obligations.RejectedRingOperations : Prop :=
  (∀ (s : State) (i : BitVec 16), s.sound → s.ringsLegal → s.dev.attached = true →
    (s.tx.allocated = false ∨ i.toNat ≠ idx s.tx.sub s.tx.n ∨ s.csr.arg1.toNat = 0 ∨ 8191 < s.csr.arg1.toNat ∨
        s.csr.arg2 >>> 5 ≠ 0 →
      exec (.submit i) s = .next { s with csr := { s.csr with result := 2 } }) ∧
    (s.tx.allocated = true → i.toNat = idx s.tx.sub s.tx.n → 1 ≤ s.csr.arg1.toNat → s.csr.arg1.toNat ≤ 8191 →
      s.csr.arg2 >>> 5 = 0 →
      (s.tx.avail = 0 →
        exec (.submit i) s = .next { s with
          csr := { s.csr with result := 1 }, stats := { s.stats with txBusy := s.stats.txBusy + 1 } }) ∧
      (1 ≤ s.tx.avail → s.meetsMark s.csr.arg0 s.csr.arg1.toNat = true →
        exec (.submit i) s = .refused (.mapOfDeviceOwned s.csr.arg0)))) ∧
  ∀ (s : State) (i : BitVec 16), s.sound → s.ringsLegal → s.dev.attached = true →
    (s.rx.allocated = false ∨ i.toNat ≠ idx s.rx.sub s.rx.n →
      exec (.refill i) s = .next { s with csr := { s.csr with result := 2 } }) ∧
    (s.rx.allocated = true → i.toNat = idx s.rx.sub s.rx.n →
      (s.rx.n - 1 ≤ s.rx.inflight → exec (.refill i) s = .next { s with csr := { s.csr with result := 1 } }) ∧
      (s.rx.inflight < s.rx.n - 1 → (s.rxSlot i.toNat).buf.isSome = true → s.csr.arg0 ≠ 0 →
        exec (.refill i) s = .next { s with csr := { s.csr with result := 2 } }) ∧
      (s.rx.inflight < s.rx.n - 1 → (s.rxSlot i.toNat).buf = none → s.csr.arg0 = 0 →
        (allocBuf s.eff.bufSz s).1 = none →
        exec (.refill i) s = .next { (allocBuf s.eff.bufSz s).2 with
          csr := { s.csr with result := 2 }
          stats := { s.stats with rxAllocFail := s.stats.rxAllocFail + 1 } }) ∧
      (s.rx.inflight < s.rx.n - 1 → (s.rxSlot i.toNat).buf = none → s.csr.arg0 ≠ 0 →
        s.meetsMark s.csr.arg0 s.eff.bufSz = true →
        exec (.refill i) s = .refused (.mapOfDeviceOwned s.csr.arg0)))

/-- RECLAIM of the completed descriptor at the completion cursor: status and length are returned, counted by R222, the
buffer unmapped, the packet released, slot and descriptor cleared but for ER, and the cursor moves on; nothing else
changes. Anywhere else it is an ERROR that changes nothing; off the cursor, or on an empty ring, the descriptor is not read
(R222, R225, R441). -/
def Obligations.ReclaimCommand : Prop :=
  ∀ (s : State) (i : BitVec 16), s.sound → s.memLegal → s.ringsLegal → s.dev.attached = true →
    i.toNat < s.tx.n →
    (i.toNat ≠ idx s.tx.comp s.tx.n ∨ s.tx.inflight = 0 →
      exec (.reclaim i) s = .next { s with csr := { s.csr with result := 2 } }) ∧
    (i.toNat = idx s.tx.comp s.tx.n → 0 < s.tx.inflight → s.descClear .tx i.toNat →
      (s.ownSeen .tx i.toNat = true ∨ (s.txSlot i.toNat).pub = false →
        exec (.reclaim i) s = .next { s with csr := { s.csr with result := 2 } }) ∧
      (s.ownSeen .tx i.toNat = false → (s.txSlot i.toNat).pub = true →
        let d0 := s.descWord .tx i.toNat 0
        let d1 := s.descWord .tx i.toNat 1
        let n := bitsAt d1 0 13 + bitsAt d1 13 13
        ∃ t, exec (.reclaim i) s = .next t ∧ sameBytesButDesc s t .tx i.toNat ∧
          (∀ k < 4, t.descWord .tx i.toNat k =
            if k = 1 then d1 &&& 0x0800_0000 else if k = 3 then s.descWord .tx i.toNat 3 else 0) ∧
          t = { s with
            csr := { s.csr with result := d0, result1 := natWord n }
            tx := { s.tx with comp := s.tx.comp + 1 }
            txSlots := s.txSlots.set i.toNat TxSlot.empty
            stats := { s.stats with
              txBytes := if bit d0 15 then s.stats.txBytes else s.stats.txBytes + BitVec.ofNat 64 n
              txPackets := if bit d0 15 = false ∧ bit d1 30 = true then s.stats.txPackets + 1 else s.stats.txPackets
              txErrors := if bit d0 15 = true ∧ bit d1 30 = true then s.stats.txErrors + 1 else s.stats.txErrors }
            marks := withoutBuffer s.marks (s.txSlot i.toNat).addr (s.txSlot i.toNat).len
            outputs := s.outputs ++ (match (s.txSlot i.toNat).pkt with | some p => [.release p] | none => [])
            wbuf := t.wbuf }))

/-- REFILL at the submission cursor of a ring that is not full arms the slot: a kept buffer is used again; an empty slot
takes the caller's buffer, or one the oracle gives, which is mapped. The descriptor holds the buffer, BUF_SZ, ER as
before and DIC by the coalescing count, and is published last, every other write in memory first (R91, R128, R223). That a mapped buffer's
DMA addresses are consecutive, and that a caller's buffer is an allocated region from then on, are the model's (log 18, log 24). -/
def Obligations.RefillCommand : Prop :=
  ∀ (s : State) (i : BitVec 16), s.sound → s.memLegal → s.ringsLegal → s.dev.attached = true →
    s.rx.allocated = true → i.toNat = idx s.rx.sub s.rx.n → s.rx.inflight < s.rx.n - 1 → s.softDesc .rx i.toNat →
    ∀ (a : Word) (u : State),
      -- the slot keeps its buffer, mapped at `a`
      ((s.rxSlot i.toNat).buf.isSome = true ∧ s.csr.arg0 = 0 ∧ (s.rxSlot i.toNat).addr.getD 0 = a ∧ u = s ∨
      -- or it is empty, and the caller gives a buffer
        (s.rxSlot i.toNat).buf = none ∧ s.csr.arg0 ≠ 0 ∧ s.meetsMark s.csr.arg0 s.eff.bufSz = false ∧
          s.arrayApart .rx s.csr.arg0 s.eff.bufSz ∧ a = dmaMapOf s.params s.csr.arg0 ∧
          u = (mapBuf s.csr.arg0 s.eff.bufSz s).setRxSlot i.toNat
            { s.rxSlot i.toNat with buf := some s.csr.arg0, addr := some a } ∨
      -- or it is empty, and the oracle gives one
        (∃ b, (s.rxSlot i.toNat).buf = none ∧ s.csr.arg0 = 0 ∧ (allocBuf s.eff.bufSz s).1 = some b ∧
          a = dmaMapOf s.params b ∧
          u = (mapBuf b s.eff.bufSz (allocBuf s.eff.bufSz s).2).setRxSlot i.toNat
            { s.rxSlot i.toNat with buf := some b, addr := some a })) →
      ∃ t, exec (.refill i) s = .next t ∧ sameBytesButDesc s t .rx i.toNat ∧
        (∀ k < 4, t.descWord .rx i.toNat k =
          if k = 0 then 0x8000_0000
          else if k = 1 then rxDes1 (bit (s.descWord .rx i.toNat 1) 27)
            (decide ((s.rx.coalCnt + 1).toNat < s.eff.rxCoal)) s.eff.bufSz
          else if k = 2 then a else 0) ∧
        (∀ x, inSpan (s.descAddr .rx i.toNat 0) 4 x = false → memRead t.mem x.toNat = swByte t x) ∧
        t = { u.setPub .rx i.toNat true with
          csr := { s.csr with result := 0 }
          rx := { s.rx with
            sub := s.rx.sub + 1
            coalCnt := if (s.rx.coalCnt + 1).toNat < s.eff.rxCoal then s.rx.coalCnt + 1 else 0 }
          mem := t.mem
          wbuf := t.wbuf }

/-! ### Transmit (42_transmit.md) -/

/-- The packet record, word by word as software sees it: head address, head length and handle are words 0, 1 and 3; NR_FRAGS,
CSUM_REQ and the reserved bits are bits 15:0, 16 and 31:17 of word 2; fragment i of at most MAX_FRAGS is words 4 + 2i and 5 + 2i,
the last of the record (R135). Segmentation: ERROR exactly in the four cases of R261; otherwise the head comes first, split in two
where it exceeds TX_BUF_CAP, then the fragments in record order. The lengths add up to the packet's, each is at least 1 and at most
TX_BUF_CAP, and the second half of a split head starts where the first ends (R261, R264). -/
def Obligations.PacketSegmentation : Prop :=
  (∀ (s : State) (a : Word),
    let w := fun j : Nat => swWord s (a + natWord (4 * j))
    let k := readRecord s a
    k.headAddr = w 0 ∧ k.headLen = (w 1).toNat ∧ k.handle = w 3 ∧
    k.nrFrags = (w 2).toNat % 2 ^ 16 ∧ k.csumReq = (w 2).getLsbD 16 ∧ k.reserved = (w 2).toNat / 2 ^ 17 ∧
    (k.nrFrags ≤ s.params.maxFrags → recordLen s a = 16 + 8 * k.nrFrags ∧ k.frags.length = k.nrFrags ∧
      ∀ i < k.nrFrags, k.frags[i]? = some (w (4 + 2 * i), (w (5 + 2 * i)).toNat))) ∧
  ∀ (p : Params) (k : Packet),
    (txSegments p k = none ↔
      k.reserved ≠ 0 ∨ k.nrFrags > p.maxFrags ∨ k.headLen = 0 ∨ k.headLen > 2 * p.txBufCap.val ∨
        ∃ f ∈ k.frags, f.2 = 0 ∨ f.2 > p.txBufCap.val) ∧
    ∀ segs, txSegments p k = some segs →
      (k.headLen ≤ p.txBufCap.val → segs = (k.headAddr, k.headLen) :: k.frags) ∧
      (p.txBufCap.val < k.headLen →
        segs = (k.headAddr, p.txBufCap.val) ::
          (k.headAddr + natWord p.txBufCap.val, k.headLen - p.txBufCap.val) :: k.frags) ∧
      (segs.map (·.2)).sum = k.headLen + (k.frags.map (·.2)).sum ∧
      ∀ g ∈ segs, 1 ≤ g.2 ∧ g.2 ≤ p.txBufCap.val

/-- TRANSMIT that does not send. Interface down or suspended, or an unaligned record (log 11): ERROR and no change. A record that
reaches outside every region: refused by name (R451), before its other bytes are looked at (the model's choice, log 43); of a
record with NR_FRAGS above MAX_FRAGS only the first 16 bytes count, no fragment being read (the model's choice, log 11). A record
software may not read: OWN_VIOLATION, with the address of log 9 and nothing else changed (log 6; both the model's choices). A bad
record: ERROR and `tx_errors`. Too few slots: BUSY, `tx_busy`, and the queue is stopped. Packet bytes that `SW_CSUM` may not read or
write: that fault, and nothing else changed (log 6). Segments that overlap one another, or a device-owned range, are refused by
name (log 17), where no `SW_CSUM` is due (R230, R260, R262). -/
def Obligations.TransmitRejected : Prop :=
  ∀ s : State, s.sound → s.dev.attached = true →
    let a := s.csr.arg0
    ((s.dev.ifup = false ∨ s.dev.suspended = true ∨ a.toNat % 4 ≠ 0) →
      exec .transmit s = .next { s with csr := { s.csr with result := 2 } }) ∧
    (s.params.maxFrags < (readRecord s a).nrFrags → recordLen s a = 16 ∧ (readRecord s a).frags = []) ∧
    (s.dev.ifup = true → s.dev.suspended = false → a.toNat % 4 = 0 →
      (∀ x, s.outside a (recordLen s a) = some x → exec .transmit s = .refused (.softwareOutsideRegions x)) ∧
      (s.outside a (recordLen s a) = none →
        (∀ f, s.readFault a (recordLen s a) = some f → exec .transmit s = .next { s with fault := some f }) ∧
        (s.readFault a (recordLen s a) = none →
          (txSegments s.params (readRecord s a) = none →
            exec .transmit s = .next { s with
              csr := { s.csr with result := 2 }, stats := { s.stats with txErrors := s.stats.txErrors + 1 } }) ∧
          ∀ segs, txSegments s.params (readRecord s a) = some segs →
            (s.tx.avail < segs.length →
              exec .transmit s = .next { s with
                csr := { s.csr with result := 1 }
                stats := { s.stats with txBusy := s.stats.txBusy + 1 }
                dev := { s.dev with txQueueStopped := true } }) ∧
            (segs.length ≤ s.tx.avail → ∀ f, (softwareCsum (readRecord s a) segs s).fault = some f →
              exec .transmit s = .next { s with fault := some f }) ∧
            (segs.length ≤ s.tx.avail →
              (readRecord s a).csumReq = false ∨ s.params.csumOffload = true ∧ bit s.csr.macConfig 8 = true →
              ∀ x, segmentsOverlap s segs = some x → exec .transmit s = .refused (.mapOfDeviceOwned x)))))

/-- TRANSMIT that sends a packet of n segments: segment j is mapped and described at slot `tx_sub + j`, FS on the first, LS,
the handle and the coalescing decision's IC on the last, ER kept, and every one is published; the cursor moves on by
n, a SUSPENDED DMA_TX resumes, and all of it is in memory. A checksum hardware does not insert is applied to the
segments' bytes first, which publishes a slot of the RX ring if it sets that descriptor's OWN (R169; log 25, log 39). No other
descriptor, slot, byte or state changes (R260, R263, R265, R266). That a segment's DMA addresses are consecutive, and that it is an
allocated region from then on, are the model's (log 18, log 24). -/
def Obligations.TransmitAccepted : Prop :=
  ∀ (s : State) (segs : List Segment), s.sound → s.memLegal → s.ringsLegal → s.sessionLegal →
    s.dev.ifup = true → s.dev.suspended = false →
    let a := s.csr.arg0
    let k := readRecord s a
    let c := softwareCsum k segs s
    let csum := k.csumReq && s.params.csumOffload && bit s.csr.macConfig 8
    let cnt := s.tx.coalCnt + natWord segs.length
    let slot := fun j : Nat => idx (s.tx.sub + natWord j) s.tx.n
    a.toNat % 4 = 0 → s.outside a (recordLen s a) = none → s.readFault a (recordLen s a) = none →
    txSegments s.params k = some segs → segs.length ≤ s.tx.avail →
    (∀ j < segs.length, c.softDesc .tx (slot j)) → (∀ g ∈ segs, s.bufferApart .tx g.1 g.2) →
    c.fault = none → segmentsOverlap c segs = none →
    ∃ t, exec .transmit s = .next t ∧
      (k.csumReq = false ∨ csum = true → c = s) ∧
      (∀ x, (∀ g ∈ segs, inSpan g.1 g.2 x = false) → swByte c x = swByte s x) ∧
      sameBytesButRing c t .tx ∧
      (∀ j (hj : j < segs.length),
        (t.descWord .tx (slot j) 0 = 0x8000_0000 ∧
          t.descWord .tx (slot j) 1 = txDes1
            (decide (j + 1 = segs.length) && decide (s.eff.txCoal ≤ cnt.toNat)) (decide (j + 1 = segs.length))
            (decide (j = 0)) csum (bit (s.descWord .tx (slot j) 1) 27) segs[j].2 ∧
          t.descWord .tx (slot j) 2 = dmaMapOf s.params segs[j].1 ∧ t.descWord .tx (slot j) 3 = 0) ∧
        t.txSlot (slot j) = {
          addr := some (dmaMapOf s.params segs[j].1), len := segs[j].2,
          pkt := if j + 1 = segs.length then some k.handle else none, pub := true }) ∧
      (∀ i < s.tx.n, (∀ j < segs.length, i ≠ slot j) →
        (∀ w < 4, t.descWord .tx i w = s.descWord .tx i w) ∧ t.txSlot i = s.txSlot i) ∧
      t.rxSlots.length = s.rxSlots.length ∧
      (∀ i < s.rx.n, t.rxSlot i =
        { s.rxSlot i with pub := (s.rxSlot i).pub || (!s.ownSeen .rx i && c.ownSeen .rx i) }) ∧
      t = { s with
        csr := { s.csr with result := 0 }
        dma := { s.dma with ts := if s.dma.ts = .suspended then .running else s.dma.ts }
        tx := { s.tx with
          sub := s.tx.sub + natWord segs.length
          coalCnt := if cnt.toNat < s.eff.txCoal then cnt else 0 }
        txSlots := t.txSlots
        rxSlots := t.rxSlots
        marks := s.marks ++ segs.map fun g => { dma := dmaMapOf s.params g.1, cpu := g.1, len := g.2 }
        regions := (segs.foldl (fun u g => addRegion g.1 g.2 u) s).regions
        mem := t.mem
        wbuf := [] }

/-- `SW_CSUM` in place, where a packet asks for a checksum that hardware does not insert: it is applied to the bytes of the
segments, one after the other, and what it gives, `new`, goes back to them (R263, R11). Byte j of `new` goes to byte j of the
packet, in whichever segment that lies, and a byte it gives none for is kept (log 12); no other byte changes, and of the rest of the
machine only the published flags of slots whose OWN bit the bytes set (R169). Of a segment that software may not write: the fault
of R84 and R95. Where a segment sets the OWN bit of a descriptor, another word of which or a byte of whose buffer has a write pending:
MISSING_FENCE, and none otherwise (R91). Segments that software may write and that lie apart from both arrays raise none. That each
segment is one software write, which may lie over a descriptor array, and which of several early descriptors is recorded, are the
model's (log 39, log 9). -/
def Obligations.SoftwareChecksumInPlace : Prop :=
  ∀ (s : State) (segs : List Segment), s.ringsLegal → (∀ g ∈ segs, g.2 ≤ 8191) →
    segs.Pairwise (fun x y => spansMeet x.1 x.2 y.1 y.2 = false) →
    (∀ k : Packet, k.csumReq = true → (s.params.csumOffload = false ∨ bit s.csr.macConfig 8 = false) →
      (∀ g ∈ segs, s.readFault g.1 g.2 = none) →
      softwareCsum k segs s = writePacket (Config.swCsum (segs.flatMap fun g => swBytes s g.1 g.2)) segs s) ∧
    ∀ new : List Byte,
      let before := fun j : Nat => ((segs.take j).map (·.2)).sum
      let c := writePacket new segs s
      let sets := fun r i => i < (s.ring r).n ∧ s.ownSeen r i = false ∧ c.ownSeen r i = true
      (∀ j (h : j < segs.length), ∀ b < segs[j].2,
        swByte c (segs[j].1 + natWord b) = new.getD (before j + b) (swByte s (segs[j].1 + natWord b))) ∧
      (∀ x, (∀ g ∈ segs, inSpan g.1 g.2 x = false) → swByte c x = swByte s x) ∧
      c = { s with fault := c.fault, wbuf := c.wbuf, txSlots := c.txSlots, rxSlots := c.rxSlots } ∧
      (c.fault = none →
        (∀ i < s.tx.n, c.txSlot i =
          { s.txSlot i with pub := (s.txSlot i).pub || (!s.ownSeen .tx i && c.ownSeen .tx i) }) ∧
        ∀ i < s.rx.n, c.rxSlot i =
          { s.rxSlot i with pub := (s.rxSlot i).pub || (!s.ownSeen .rx i && c.ownSeen .rx i) }) ∧
      (s.sound → (∀ g ∈ segs, s.writeFault g.1 g.2 = none ∧ ∀ r, s.arrayApart r g.1 g.2) → c.fault = none) ∧
      (∀ a len, segs = [(a, len)] → s.sound →
        (∀ f, s.writeFault a len = some f → c.fault = some f) ∧
        (s.writeFault a len = none →
          ((∀ r i, sets r i → ¬ c.writePendingIn s.wbuf r i) → c.fault = none) ∧
          ((∃ r i, sets r i ∧ c.writePendingIn s.wbuf r i) →
            ∃ r i, sets r i ∧ c.writePendingIn s.wbuf r i ∧ c.fault = some (.missingFence (s.descAddr r i 0)))))

/-! ### Reclamation and recovery (42_transmit.md, 45_dispatcher.md) -/

/-- TX_RECLAIM consumes, in ring order, the completed descriptors from the completion cursor on, and stops at the first
that is not completed: each is counted, its buffer unmapped, its packet released, its slot and descriptor cleared but for
ER. It returns how many, clears the pending flag, and opens the queue again when more than N_TX / 4 slots are free.
Nothing else changes. On an unallocated ring it is an ERROR. A turn of the RECLAIM agent, enabled by the pending flag alone, does
the same but leaves RESULT; on an unallocated ring it only clears the flag (the model's reading, log 14) (R12, R222, R270,
R271). -/
def Obligations.TxReclaimCommand : Prop :=
  ∀ s : State, s.sound → s.ringsLegal →
    let slot := fun j : Nat => idx (s.tx.comp + natWord j) s.tx.n
    let d0 := fun j => s.descWord .tx (slot j) 0
    let d1 := fun j => s.descWord .tx (slot j) 1
    let finished := fun j => s.ownSeen .tx (slot j) = false ∧ (s.txSlot (slot j)).pub = true
    (s.tx.allocated = false →
      (s.dev.attached = true → exec .txReclaim s = .next { s with csr := { s.csr with result := 2 } }) ∧
      (s.dev.txReclaimPending = true →
        runEvent .txReclaim s = .next { s with dev := { s.dev with txReclaimPending := false } })) ∧
    (s.tx.allocated = true → s.arrayClear .tx →
      ∃ t m, (s.dev.attached = true →
          exec .txReclaim s = .next { t with csr := { s.csr with result := natWord m } }) ∧
        (s.dev.txReclaimPending = true → runEvent .txReclaim s = .next t) ∧ m ≤ s.tx.inflight ∧ (∀ j < m, finished j) ∧
        (m < s.tx.inflight → ¬ finished m) ∧ sameBytesButRing s t .tx ∧
        (∀ j < m, t.txSlot (slot j) = TxSlot.empty ∧ ∀ k < 4, t.descWord .tx (slot j) k =
          if k = 1 then d1 j &&& 0x0800_0000 else if k = 3 then s.descWord .tx (slot j) 3 else 0) ∧
        (∀ i < s.tx.n, (∀ j < m, i ≠ slot j) →
          t.txSlot i = s.txSlot i ∧ ∀ k < 4, t.descWord .tx i k = s.descWord .tx i k) ∧
        t = { s with
          tx := { s.tx with comp := s.tx.comp + natWord m }
          txSlots := t.txSlots
          stats := { s.stats with
            txBytes := s.stats.txBytes + BitVec.ofNat 64
              (((List.range m).filter fun j => !bit (d0 j) 15).map fun j =>
                bitsAt (d1 j) 0 13 + bitsAt (d1 j) 13 13).sum
            txPackets := s.stats.txPackets + BitVec.ofNat 64
              ((List.range m).countP fun j => !bit (d0 j) 15 && bit (d1 j) 30)
            txErrors := s.stats.txErrors + BitVec.ofNat 64
              ((List.range m).countP fun j => bit (d0 j) 15 && bit (d1 j) 30) }
          dev := { s.dev with
            txReclaimPending := false
            txQueueStopped :=
              s.dev.txQueueStopped && !decide (s.tx.n / 4 < s.tx.n - (s.tx.inflight - m) - 1) }
          marks := (List.range m).foldl
            (fun g j => withoutBuffer g (s.txSlot (slot j)).addr (s.txSlot (slot j)).len) s.marks
          outputs := s.outputs ++ ((List.range m).filterMap fun j => (s.txSlot (slot j)).pkt).map .release
          wbuf := t.wbuf })

/-- TX_RECOVERY: TX is stopped, the chain emptied, the queue opened, the recovery counted, and TX restarted if the interface
is up and not suspended; nothing else changes. WATCHDOG_EXPIRE does the same while the interface is up and counts a
timeout. Without a ring, or with the interface down, each is an ERROR (R276, R381, R382). -/
def Obligations.RecoveryCommands : Prop :=
  ∀ s : State, s.sound → s.memLegal → s.ringsLegal → s.regsLegal → s.dev.attached = true →
    let c := { s.csr with
      dmaCtrl := putBit s.csr.dmaCtrl 0 false, macConfig := putBit s.csr.macConfig 0 false }
    let on := s.dev.ifup && !s.dev.suspended
    let recovers := fun (i : Instr) (timeouts : Counter) =>
      ∃ t, chainEmptied { s with csr := c, dma := { s.dma with ts := .stopped } } t .tx ∧
        exec i s = .next { t with
          csr := { t.csr with
            dmaCtrl := putBit s.csr.dmaCtrl 0 on
            macConfig := putBit s.csr.macConfig 0 on
            result := 0 }
          dma := { t.dma with ts := if on then .running else .stopped }
          dev := { s.dev with txQueueStopped := false }
          stats := { s.stats with
            txRecovery := s.stats.txRecovery + 1, txTimeout := s.stats.txTimeout + timeouts } }
    (s.tx.allocated = true → recovers .txRecovery 0) ∧
    (s.tx.allocated = false → exec .txRecovery s = .next { s with csr := { s.csr with result := 2 } }) ∧
    (s.tx.allocated = true → s.dev.ifup = true → recovers .watchdogExpire 1) ∧
    (s.dev.ifup = false → exec .watchdogExpire s = .next { s with csr := { s.csr with result := 2 } })

/-! ### The DMA engine (44_dma_engine.md) -/

/-- DMA_TX_FRAME of a READY chain: the frame's bytes, or HW_CSUM of them where the first descriptor asks and IPC is 1, go to
the wire; every descriptor is closed with 0, TI is latched where the last one asks, the pointer moves past it, and
nothing else changes. A buffer outside every region faults instead (R81, R330, R332, R333); which byte is recorded, and that
nothing but the fault changes, are the model's choices (log 9, log 6). -/
def Obligations.DmaTxFrameStep : Prop :=
  ∀ (s : State) (js : List Nat), s.sound → s.memLegal → bit s.csr.pmt 0 = false → s.dma.ts = .running →
    bit s.csr.macConfig 0 = true → s.chainReady js →
    let last := js.getLastD 0
    let bytes := s.chainBytes js
    (frameOutside s js = none →
      ∃ t, exec .dmaTxFrame s = .next t ∧ chainClosed s t js 0 ∧
        t = { s with
          csr := { s.csr with
            statusSrc := if bit (s.dmaDescWord .tx last 1) 31 then s.csr.statusSrc ||| 1 else s.csr.statusSrc }
          dma := { s.dma with txIdx := s.chainNext .tx last }
          outputs := s.outputs ++ [.emit
            (if bit (s.dmaDescWord .tx s.dma.txIdx 1) 28 && bit s.csr.macConfig 8 then Config.hwCsum bytes else bytes)]
          mem := t.mem }) ∧
    ∀ x, frameOutside s js = some x →
      exec .dmaTxFrame s = .next { s with fault := some (.dmaOutOfBounds x) }

/-- DMA_TX_UNDERFLOW, with TSF = 0: nothing is emitted, every descriptor is closed with ES and UF, UNF is latched, and DMA_TX
is SUSPENDED. DMA_TX_JABBER: some prefix of the frame is emitted, every descriptor is closed with ES and JT, TJT is
latched, and DMA_TX stays RUNNING. Each latches TI where the last descriptor asks and moves the pointer past it, and
nothing else changes but the count of open values drawn (R334, R335; the open length of the prefix and its draw are log 20's). An
underflow reads no buffer, so that one outside every region does not matter, and a jabber reads the whole frame, so that a byte
outside faults instead: both are the model's choices (log 40), and so are the byte recorded and that nothing but the fault changes
(log 9, log 6). -/
def Obligations.DmaTxAbortedFrames : Prop :=
  ∀ (s : State) (js : List Nat), s.sound → s.memLegal → bit s.csr.pmt 0 = false → s.dma.ts = .running →
    bit s.csr.macConfig 0 = true → s.chainReady js →
    let last := js.getLastD 0
    let bytes := s.chainBytes js
    let src := if bit (s.dmaDescWord .tx last 1) 31 then s.csr.statusSrc ||| 1 else s.csr.statusSrc
    (bit s.csr.dmaCtrl 2 = false →
      ∃ t, exec .dmaTxUnderflow s = .next t ∧ chainClosed s t js 0x0000_8002 ∧
        t = { s with
          csr := { s.csr with statusSrc := src ||| 0x20 }
          dma := { s.dma with ts := .suspended, txIdx := s.chainNext .tx last }
          mem := t.mem }) ∧
    (frameOutside s js = none →
      ∃ t n, exec .dmaTxJabber s = .next t ∧ chainClosed s t js 0x0000_C000 ∧
        t = { s with
          csr := { s.csr with statusSrc := src ||| 8 }
          dma := { s.dma with txIdx := s.chainNext .tx last }
          draws := s.draws + 1
          outputs := s.outputs ++ [.emit
            ((if bit (s.dmaDescWord .tx s.dma.txIdx 1) 28 && bit s.csr.macConfig 8 then Config.hwCsum bytes
              else bytes).take n)]
          mem := t.mem }) ∧
    ∀ x, frameOutside s js = some x →
      exec .dmaTxJabber s = .next { s with fault := some (.dmaOutOfBounds x) }

/-- DMA_TX_SUSPEND of an INCOMPLETE chain: DMA_TX is SUSPENDED, and nothing else changes. DMA_TX_STOP_FAULT latches TPS, stops
DMA_TX and clears ST; DMA_RX_STOP_FAULT latches RPS, stops DMA_RX and clears SR; DMA_FATAL_BUS_ERROR latches FBI and stops
DMA_TX, and DMA_RX with it where the platform says so; no descriptor is written (R331, R345 to R347). A step that is not
enabled passes (the model's reading, log 13): DMA_TX not RUNNING, a chain of another kind (of a MALFORMED one only the stop
fault and the bus error are left, R337), TE = 0, TSF = 1 for an underflow, powered down, or a stop fault of a process that is
STOPPED (R330 to R335, R337, R345 to R347). Where reading the chain leaves every region, at a descriptor past the array once
software cleared ER, the step that reads it faults (R81, R229); which byte is recorded, that nothing but the fault changes, and that
each step named in the event reads the whole chain first, are the model's choices (log 9, log 6, log 13). -/
def Obligations.DmaTxWaitsAndStopFaults : Prop :=
  (∀ (s : State) (js : List Nat), s.sound → bit s.csr.pmt 0 = false → s.dma.ts = .running →
    (s.chainIncomplete js →
      exec .dmaTxSuspend s = .next { s with dma := { s.dma with ts := .suspended } } ∧
        ∀ i ∈ [Instr.dmaTxFrame, .dmaTxUnderflow, .dmaTxJabber], exec i s = .next s) ∧
    (s.chainReady js → exec .dmaTxSuspend s = .next s) ∧
    (s.chainMalformed js →
      ∀ i ∈ [Instr.dmaTxFrame, .dmaTxSuspend, .dmaTxUnderflow, .dmaTxJabber], exec i s = .next s) ∧
    (∀ x, s.chainOutside js x →
      let wild : State := { s with fault := some (.dmaOutOfBounds x) }
      exec .dmaTxSuspend s = .next wild ∧
        (bit s.csr.macConfig 0 = true →
          exec .dmaTxFrame s = .next wild ∧ exec .dmaTxJabber s = .next wild ∧
            (bit s.csr.dmaCtrl 2 = false → exec .dmaTxUnderflow s = .next wild))) ∧
    (bit s.csr.macConfig 0 = false →
      ∀ i ∈ [Instr.dmaTxFrame, .dmaTxUnderflow, .dmaTxJabber], exec i s = .next s) ∧
    (bit s.csr.dmaCtrl 2 = true → exec .dmaTxUnderflow s = .next s)) ∧
  ∀ s : State, s.sound →
    (bit s.csr.pmt 0 = false →
      (s.dma.ts ≠ .stopped → exec .dmaTxStopFault s = .next { s with
        csr := { s.csr with statusSrc := s.csr.statusSrc ||| 2, dmaCtrl := putBit s.csr.dmaCtrl 0 false }
        dma := { s.dma with ts := .stopped } }) ∧
      (s.dma.rs ≠ .stopped → exec .dmaRxStopFault s = .next { s with
        csr := { s.csr with statusSrc := s.csr.statusSrc ||| 0x100, dmaCtrl := putBit s.csr.dmaCtrl 1 false }
        dma := { s.dma with rs := .stopped } }) ∧
      (s.dma.ts ≠ .stopped ∨ s.dma.rs ≠ .stopped → exec .dmaFatalBusError s = .next { s with
        csr := { s.csr with
          statusSrc := s.csr.statusSrc ||| 0x2000
          dmaCtrl := if s.params.fbeStopsRx then putBit (putBit s.csr.dmaCtrl 0 false) 1 false
            else putBit s.csr.dmaCtrl 0 false }
        dma := { s.dma with ts := .stopped, rs := if s.params.fbeStopsRx then .stopped else s.dma.rs } })) ∧
    (s.dma.ts ≠ .running →
      ∀ i ∈ [Instr.dmaTxFrame, .dmaTxSuspend, .dmaTxUnderflow, .dmaTxJabber], exec i s = .next s) ∧
    (s.dma.ts = .stopped → exec .dmaTxStopFault s = .next s) ∧
    (s.dma.rs = .stopped → exec .dmaRxStopFault s = .next s) ∧
    (s.dma.ts = .stopped → s.dma.rs = .stopped → exec .dmaFatalBusError s = .next s) ∧
    (bit s.csr.pmt 0 = true →
      ∀ i ∈ [Instr.dmaTxFrame, .dmaTxSuspend, .dmaTxUnderflow, .dmaTxJabber, .dmaTxStopFault, .dmaRxStopFault,
        .dmaFatalBusError], exec i s = .next s)

/-- DMA_RX_FRAME of an offered frame at a descriptor DMA owns: the first min(F, BS1 + BS2) of the F bytes of the frame and its
check sequence go to des2 and then des3; des0 gets the status word of R342 with OWN = 0; RI is latched unless DIC; DMA_RX is
RUNNING and its pointer moves on. No other byte and nothing else changes. A byte outside every region faults instead
(R81, R330, R342); which byte is recorded, that nothing but the fault changes, the bytes of the check sequence, and that a byte
whose address lies in a descriptor array is written there are the model's choices (log 9, log 6, log 19, log 44). -/
def Obligations.DmaRxFrameStep : Prop :=
  ∀ (s : State) (f : WireFrame) (rest : List WireFrame), s.sound → s.memLegal → s.wire = f :: rest →
    1 ≤ f.bytes.length → f.bytes.length ≤ 16379 → bit s.csr.macConfig 1 = true → s.dma.rs ≠ .stopped →
    bit s.csr.pmt 0 = false →
    let j := s.dma.rxIdx
    let d := fun k => s.dmaDescWord .rx j k
    let total := f.bytes.length + 4
    let cap := bitsAt (d 1) 0 13 + bitsAt (d 1) 13 13
    let w := min total cap
    let first := min w (bitsAt (d 1) 0 13)
    let ipc := bit s.csr.macConfig 8
    let data := fun k : Nat => if k < first then d 2 + natWord k else d 3 + natWord (k - first)
    let cells := ((List.range w).map data ++ (List.range 4).map fun b => s.dmaDesc .rx j 0 + natWord b).map s.dmaCell
    s.dmaInside .rx j 0 → bit (d 0) 31 = true →
    (receiveOutside s j w = none →
      ∃ t, exec .dmaRxFrame s = .next t ∧
        (cells.Nodup →
          t.dmaDescWord .rx j 0 =
            rxStatusWord w (decide (cap < total)) f.crcErr (ipc && f.csum = .bad) (ipc && f.csum = .good) ∧
          ∀ k < w, t.dmaByte (data k) = (f.bytes ++ splitWord .le f.fcs).getD k 0) ∧
        (∀ x, some x ∉ cells → memRead t.mem x = memRead s.mem x) ∧
        t = { s with
          csr := { s.csr with statusSrc := if bit (d 1) 26 then s.csr.statusSrc else s.csr.statusSrc ||| 0x40 }
          dma := { s.dma with rs := .running, rxIdx := s.chainNext .rx j }
          wire := rest
          mem := t.mem }) ∧
    ∀ x, receiveOutside s j w = some x →
      exec .dmaRxFrame s = .next { s with fault := some (.dmaOutOfBounds x) }

/-- The frames DMA_RX does not take. With the receiver off, an offered frame is lost and nothing else changes. With it on,
DMA_RX_NO_DESC drops the frame where software owns the descriptor: RU is latched, the drop counted, DMA_RX SUSPENDED;
DMA_RX_OVERFLOW drops it where DMA owns the descriptor: only OVF is latched. Each passes where OWN is not what it needs
(log 13) (R340, R341, R344). A descriptor whose des0 lies outside every region faults the step that reads it, DMA_RX_FRAME with them
(R81, R330); the byte recorded, and that nothing but the fault changes, are the model's choices (log 9, log 6). -/
def Obligations.DmaRxLostFrames : Prop :=
  ∀ (s : State) (f : WireFrame) (rest : List WireFrame), s.sound → s.wire = f :: rest →
    1 ≤ f.bytes.length → f.bytes.length ≤ 16379 →
    let off := bit s.csr.macConfig 1 = false ∨ s.dma.rs = .stopped ∨ bit s.csr.pmt 0 = true
    let own := bit (s.dmaDescWord .rx s.dma.rxIdx 0) 31
    (off → ∀ i ∈ [Instr.dmaRxFrame, .dmaRxNoDesc, .dmaRxOverflow], exec i s = .next { s with wire := rest }) ∧
    (¬ off → ∀ x, s.dmaOutside (s.dmaDesc .rx s.dma.rxIdx 0) 4 = some x →
      ∀ i ∈ [Instr.dmaRxFrame, .dmaRxNoDesc, .dmaRxOverflow],
        exec i s = .next { s with fault := some (.dmaOutOfBounds x) }) ∧
    (¬ off → s.dmaInside .rx s.dma.rxIdx 0 →
      (own = false →
        exec .dmaRxNoDesc s = .next { s with
          csr := { s.csr with statusSrc := s.csr.statusSrc ||| 0x80 }
          dma := { s.dma with rs := .suspended }
          stats := { s.stats with rxDropped := s.stats.rxDropped + 1 }
          wire := rest } ∧
        ∀ i ∈ [Instr.dmaRxFrame, .dmaRxOverflow], exec i s = .next s) ∧
      (own = true →
        exec .dmaRxOverflow s = .next { s with
          csr := { s.csr with statusSrc := s.csr.statusSrc ||| 0x10 }
          wire := rest } ∧
        exec .dmaRxNoDesc s = .next s))

/-! ### The receive path (43_receive.md) -/

/-- POLL while the interface is up. It takes, in ring order, the frames software owns from the completion cursor on, at most
`budget` of them: a DISCARD is counted and keeps its buffer; any other is counted, unmapped, trimmed of the 4 bytes of the
check sequence (log 21 where the status reports fewer) and delivered with its stamp. It then refills from the submission
cursor on: a kept buffer is used again, an empty slot takes the allocation oracle's next answer, which is mapped, and the first
answer that is FAIL or not fresh (log 8) is counted and ends the pass; else all but one slot are in flight. Only with budget
left over does it clear the scheduled poll and set RIE. What the DMA agents see of it: all of it is in memory after a pass with
budget left over, all but the last refilled descriptor's des0 after another that refilled, and a pass that did neither changes
neither memory nor the write buffer (R91, R93). No other descriptor, slot, byte or state changes. With the interface
down it returns 0 and changes nothing (R127 with D29, R143, R300 to R306, R309, R223, R11). That a mapped buffer's DMA addresses
are consecutive, and which regions are a delivered buffer's, are the model's (log 18, log 24). -/
def Obligations.PollCommand : Prop :=
  ∀ (s : State) (budget : BitVec 16), s.sound → s.memLegal → s.ringsLegal → s.regsLegal → s.sessionLegal →
    ((s.dev.ifup = false ∨ s.dev.suspended = true) →
      exec (.poll budget) s = .next { s with csr := { s.csr with result := 0 } }) ∧
    (s.dev.ifup = true → s.dev.suspended = false → s.arrayClear .rx →
      -- the buffers the slots hold lie apart from the array
      (∀ i < s.rx.n, ∀ b, (s.rxSlot i).buf = some b →
        s.arrayApart .rx ((s.rxSlot i).addr.getD 0) s.eff.bufSz) →
      -- slots outside the in-flight window are software-owned (R228)
      (∀ i < s.rx.n, s.rx.inWindow i = false → s.ownSeen .rx i = false) →
      let taken := fun j : Nat => idx (s.rx.comp + natWord j) s.rx.n
      let filled := fun j : Nat => idx (s.rx.sub + natWord j) s.rx.n
      let status := fun j => s.descWord .rx (taken j) 0
      let cls := fun j => classify s.ipc (status j)
      let good := fun j => cls j ≠ .discard
      let slot := fun j => s.rxSlot (taken j)
      ∃ (t : State) (m k : Nat) (len : Nat → Nat) (failed : Bool) (new : List Word), exec (.poll budget) s = .next t ∧
        -- the frames taken
        m ≤ budget.toNat ∧ m ≤ s.rx.inflight ∧ (∀ j < m, s.ownSeen .rx (taken j) = false) ∧
        (m < budget.toNat → m < s.rx.inflight → s.ownSeen .rx (taken m) = true) ∧
        (∀ j < m, good j → 4 ≤ bitsAt (status j) 16 14 → len j = bitsAt (status j) 16 14 - 4) ∧
        -- `u` is the state the refills find: a slot that kept its buffer keeps it, and `empty` says which hold none
        let u : State := { s with
          marks := (List.range m).foldl
            (fun g j => if good j then withoutBuffer g (slot j).addr s.eff.bufSz else g) s.marks
          regions := (List.range m).foldl (fun g j => if good j then givenAway g (slot j).buf else g) s.regions
          draws := s.draws + (List.range m).countP fun j => decide (good j ∧ bitsAt (status j) 16 14 < 4) }
        let empty := fun j => (s.rxSlot (filled j)).buf = none ∨ ∃ l < m, filled j = taken l ∧ good l
        let given := fun j : Nat => (List.range j).countP fun i => decide (empty i)
        -- the slots refilled, and the buffers the oracle gave them, in order
        k ≤ s.rx.n - 1 - (s.rx.inflight - m) ∧ (failed = false → k = s.rx.n - 1 - (s.rx.inflight - m)) ∧
        (failed = true → k < s.rx.n - 1 - (s.rx.inflight - m) ∧ empty k) ∧ u.refillsWith new failed ∧
        new.length = given k ∧
        (∀ j < k, empty j → ∃ b, new[given j]? = some b ∧
          t.rxSlot (filled j) = { buf := some b, addr := some (dmaMapOf s.params b), pub := true }) ∧
        (∀ j < k, ¬ empty j → t.rxSlot (filled j) = { s.rxSlot (filled j) with pub := true }) ∧
        (∀ j < k,
          t.descWord .rx (filled j) 0 = 0x8000_0000 ∧
          t.descWord .rx (filled j) 1 = rxDes1 (bit (s.descWord .rx (filled j) 1) 27)
            (decide (((coalNext s.eff.rxCoal)^[j] s.rx.coalCnt + 1).toNat < s.eff.rxCoal)) s.eff.bufSz ∧
          t.descWord .rx (filled j) 2 = (t.rxSlot (filled j)).addr.getD 0 ∧ t.descWord .rx (filled j) 3 = 0) ∧
        -- the slots taken and not refilled, and the others
        (∀ i < s.rx.n, (∀ j < k, i ≠ filled j) →
          (∀ w < 4, t.descWord .rx i w = s.descWord .rx i w) ∧
          ((∀ j < m, i ≠ taken j) → t.rxSlot i = s.rxSlot i) ∧
          ∀ j < m, i = taken j → t.rxSlot i =
            if good j then { buf := none, addr := some 0, pub := false } else { slot j with pub := false }) ∧
        sameBytesButRing s t .rx ∧
        -- what the DMA agents see
        (m < budget.toNat → ∀ x : Word, memRead t.mem x.toNat = swByte t x) ∧
        (∀ j, k = j + 1 → ∀ x : Word, inSpan (s.descAddr .rx (filled j) 0) 4 x = false →
          memRead t.mem x.toNat = swByte t x) ∧
        (k = 0 → ¬ m < budget.toNat → t.mem = s.mem ∧ t.wbuf = s.wbuf) ∧
        t = { s with
          csr := { s.csr with
            dmaIer := if m < budget.toNat then putBit s.csr.dmaIer 6 true else s.csr.dmaIer
            result := natWord m }
          rx := { s.rx with
            comp := s.rx.comp + natWord m
            sub := s.rx.sub + natWord k
            coalCnt := (coalNext s.eff.rxCoal)^[k] s.rx.coalCnt }
          rxSlots := t.rxSlots
          dev := { s.dev with rxPollScheduled := s.dev.rxPollScheduled && !decide (m < budget.toNat) }
          stats := { s.stats with
            rxErrors := s.stats.rxErrors + BitVec.ofNat 64 ((List.range m).countP fun j => !decide (good j))
            rxPackets := s.stats.rxPackets + BitVec.ofNat 64 ((List.range m).countP fun j => decide (good j))
            rxBytes := s.stats.rxBytes +
              BitVec.ofNat 64 (((List.range m).filter fun j => decide (good j)).map len).sum
            rxCsumOk := s.stats.rxCsumOk + BitVec.ofNat 64
              ((List.range m).countP fun j => decide (cls j = .csumUnnecessary))
            rxAllocFail := if failed then s.stats.rxAllocFail + 1 else s.stats.rxAllocFail }
          outputs := s.outputs ++ (List.range m).filterMap fun j =>
            if good j then (slot j).buf.map fun b => .deliver b (len j) (stampOf (cls j)) else none
          marks := (u.withBuffers new).marks
          regions := (u.withBuffers new).regions
          allocAnswers := s.allocAnswers.drop (new.length + failed.toNat)
          draws := u.draws + (new.length + failed.toNat - s.allocAnswers.length)
          mem := t.mem
          wbuf := t.wbuf })

/-! ### The dispatcher (45_dispatcher.md) -/

/-- RAISE_TX_THRESHOLD: in threshold mode and below the ceiling of 256, TC and the tunable go up by 64; at the ceiling, or in
store-and-forward mode, nothing changes; TC is returned (R378). ISR: the source bits are returned and cleared; each abnormal
one is counted once; UNF raises the threshold the same way; RI masks RIE and schedules a poll; TI schedules reclamation; TPS
or FBI runs one TX recovery, which needs a ring. Nothing else changes (R370 to R372, R376 to R379, R381). -/
def Obligations.IsrAndThresholdCommands : Prop :=
  (∀ s : State, s.sound → s.memLegal → s.regsLegal → s.dev.attached = true →
    let tc := s.csr.dmaTxThresh.toNat
    (bit s.csr.dmaCtrl 2 = false → tc < 256 →
      ∃ u, fenced s u ∧ exec .raiseTxThreshold s = .next { u with
        csr := { s.csr with dmaTxThresh := natWord (tc + 64), result := natWord (tc + 64) }
        tun := { s.tun with tc := tc + 64 } }) ∧
    (bit s.csr.dmaCtrl 2 = true ∨ tc = 256 →
      exec .raiseTxThreshold s = .next { s with csr := { s.csr with result := natWord tc } })) ∧
  ∀ s : State, s.sound → s.memLegal → s.ringsLegal → s.regsLegal → s.dev.attached = true →
    let v := s.csr.statusSrc
    let tc := s.csr.dmaTxThresh.toNat
    let raises := bit v 5 && !bit s.csr.dmaCtrl 2 && decide (tc < 256)
    let count := fun (c : Counter) (i : Nat) => if bit v i then c + 1 else c
    let s1 : State := { s with
      csr := { s.csr with
        statusSrc := 0
        dmaTxThresh := if raises then natWord (tc + 64) else s.csr.dmaTxThresh
        dmaIer := if bit v 6 then putBit s.csr.dmaIer 6 false else s.csr.dmaIer }
      tun := { s.tun with tc := if raises then tc + 64 else s.tun.tc }
      dev := { s.dev with
        rxPollScheduled := s.dev.rxPollScheduled || bit v 6
        txReclaimPending := s.dev.txReclaimPending || bit v 0 }
      stats := { s.stats with
        txUnderflow := count s.stats.txUnderflow 5
        txJabber := count s.stats.txJabber 3
        rxOverflow := count s.stats.rxOverflow 4
        rxBufUnav := count s.stats.rxBufUnav 7
        txProcessStopped := count s.stats.txProcessStopped 1
        rxProcessStopped := count s.stats.rxProcessStopped 8
        fatalBusError := count s.stats.fatalBusError 13 } }
    let on := s.dev.ifup && !s.dev.suspended
    ((bit v 1 = false ∧ bit v 13 = false) ∨ s.tx.allocated = false →
      ∃ u, fenced s1 u ∧ exec .isr s = .next { u with csr := { s1.csr with result := v } }) ∧
    ((bit v 1 = true ∨ bit v 13 = true) → s.tx.allocated = true →
      ∃ t, chainEmptied { s1 with
            csr := { s1.csr with
              dmaCtrl := putBit s.csr.dmaCtrl 0 false, macConfig := putBit s.csr.macConfig 0 false }
            dma := { s.dma with ts := .stopped } } t .tx ∧
        exec .isr s = .next { t with
          csr := { t.csr with
            dmaCtrl := putBit s.csr.dmaCtrl 0 on
            macConfig := putBit s.csr.macConfig 0 on
            result := v }
          dma := { t.dma with ts := if on then .running else .stopped }
          dev := { s1.dev with txQueueStopped := false }
          stats := { s1.stats with txRecovery := s.stats.txRecovery + 1 } })

/-! ### Lifecycle (46_lifecycle.md) -/

/-- ATTACH of a device that is not attached selects the operations by HW_FEATURE, clears every counter, installs the
platform's tunables, and resets the link mirror and the flags; on an attached one it is an ERROR. DETACH clears `attached`
of a device that is neither up nor suspended; otherwise it is an ERROR. No register but RESULT and nothing else changes
(R49, R410, R432). -/
def Obligations.AttachAndDetach : Prop :=
  ∀ s : State, s.sound →
    (s.dev.attached = false → exec .attach s = .next { s with
      csr := { s.csr with result := 0 }
      dev := {
        attached := true, ifup := false, suspended := false, fullShutdown := false, rxPollScheduled := false,
        txReclaimPending := false, txQueueStopped := false, savedCtrl := s.dev.savedCtrl,
        ops := s.params.variant, csumCap := s.params.csumOffload }
      stats := Stats.zero
      tun := {
        nTx := s.params.nTx, nRx := s.params.nRx, bufSz := s.params.bufSz, tc := s.params.tc,
        flowCtrl := s.params.flowCtrl, pause := s.params.pause, txCoal := s.params.txCoal,
        rxCoal := s.params.rxCoal, watchdog := s.params.watchdog, mtu := s.params.mtu }
      link := { up := false, speed := .none, duplex := .half } }) ∧
    (s.dev.attached = true → exec .attach s = .next { s with csr := { s.csr with result := 2 } }) ∧
    (s.dev.attached = true → s.dev.ifup = false → s.dev.suspended = false → exec .detach s = .next { s with
      csr := { s.csr with result := 0 }
      dev := { s.dev with attached := false } }) ∧
    ((s.dev.attached = false ∨ s.dev.ifup = true ∨ s.dev.suspended = true) →
      exec .detach s = .next { s with csr := { s.csr with result := 2 } })

/-- SET_TUNABLE and SET_MTU store a legal value in the tunable they name and return an ERROR on any other, with nothing else
changed; READ_STAT returns the low and high half of the counter it names. An id with no entry is an illegal command
(R141, R428, R430, R434). -/
def Obligations.TunablesAndStatistics : Prop :=
  ∀ (s : State) (id : BitVec 16), s.sound → s.dev.attached = true →
    let v := s.csr.arg0.toNat
    let ring := v ∈ [4, 8, 16, 32, 64, 128, 256, 512, 1024]
    let sets := fun (k : Nat) (legal : Prop) (t : Tunables) => id.toNat = k →
      (legal → exec (.setTunable id) s = .next { s with csr := { s.csr with result := 0 }, tun := t }) ∧
      (¬ legal → exec (.setTunable id) s = .next { s with csr := { s.csr with result := 2 } })
    let reads := fun (k : Nat) (c : Counter) => id.toNat = k →
      exec (.readStat id) s = .next { s with csr := { s.csr with
        result := c.extractLsb' 0 32, result1 := c.extractLsb' 32 32 } }
    let n := s.stats
    sets 0 ring { s.tun with nTx := v } ∧ sets 1 ring { s.tun with nRx := v } ∧
    sets 2 (64 ≤ v ∧ v ≤ 8191) { s.tun with bufSz := v } ∧
    sets 3 (v ∈ [64, 128, 192, 256]) { s.tun with tc := v } ∧
    sets 4 (v ≤ 3) { s.tun with flowCtrl := v } ∧
    sets 5 (v ≤ 0xFFFF) { s.tun with pause := v } ∧
    sets 6 (1 ≤ v ∧ v ≤ min 256 (s.tun.nTx - 1)) { s.tun with txCoal := v } ∧
    sets 7 (1 ≤ v ∧ v ≤ min 256 (s.tun.nRx - 1)) { s.tun with rxCoal := v } ∧
    sets 8 (1 ≤ v ∧ v ≤ 2 ^ 31 - 1) { s.tun with watchdog := v } ∧
    (8 < id.toNat → exec (.setTunable id) s =
      .next { s with csr := { s.csr with result := 0xFFFF_FFFF, dmaCtrl := putBit s.csr.dmaCtrl 31 true } }) ∧
    ((s.dev.ifup = false ∧ 46 ≤ v ∧ v ≤ if s.params.variant = .gmac then 9000 else 1500) →
      exec .setMtu s = .next { s with csr := { s.csr with result := 0 }, tun := { s.tun with mtu := v } }) ∧
    (¬ (s.dev.ifup = false ∧ 46 ≤ v ∧ v ≤ if s.params.variant = .gmac then 9000 else 1500) →
      exec .setMtu s = .next { s with csr := { s.csr with result := 2 } }) ∧
    reads 0 n.txUnderflow ∧ reads 1 n.txJabber ∧ reads 2 n.rxOverflow ∧ reads 3 n.rxBufUnav ∧
    reads 4 n.txProcessStopped ∧ reads 5 n.rxProcessStopped ∧ reads 6 n.fatalBusError ∧ reads 7 n.txPackets ∧
    reads 8 n.txBytes ∧ reads 9 n.txErrors ∧ reads 10 n.rxPackets ∧ reads 11 n.rxBytes ∧ reads 12 n.rxErrors ∧
    reads 13 n.rxDropped ∧ reads 14 n.rxAllocFail ∧ reads 15 n.txBusy ∧ reads 16 n.txTimeout ∧
    reads 17 n.txRecovery ∧ reads 18 n.rxCsumOk ∧
    (18 < id.toNat → exec (.readStat id) s =
      .next { s with csr := { s.csr with result := 0xFFFF_FFFF, dmaCtrl := putBit s.csr.dmaCtrl 31 true } })

/-- CLOSE of an interface that is up and not suspended: interrupts and deferred work off, both DMA processes stopped, then
both chains emptied, both rings freed, and the status sources cleared (R420, R421). That a freed ring has N = 0 and no
slots is the model's choice (log 5): R481 leaves N of such a ring unspecified. So is which buffer regions the `free` of an
RX buffer ends (log 24). -/
def Obligations.CloseCommand : Prop :=
  ∀ s : State, s.sound → s.memLegal → s.ringsLegal → s.regsLegal → s.sessionLegal → s.dev.attached = true →
    (s.dev.ifup = true → s.dev.suspended = false →
      ∃ a b, chainEmptied { s with
            csr := { s.csr with
              dmaIer := 0
              dmaCtrl := putBit (putBit s.csr.dmaCtrl 0 false) 1 false
              macConfig := putBit (putBit s.csr.macConfig 0 false) 1 false }
            dma := { s.dma with ts := .stopped, rs := .stopped } } a .tx ∧
        chainEmptied a b .rx ∧
        exec .closeDev s = .next { b with
          csr := { b.csr with statusSrc := 0, result := 0 }
          tx := { b.tx with allocated := false, n := 0 }
          rx := { b.rx with allocated := false, n := 0 }
          txSlots := []
          rxSlots := []
          dev := { s.dev with
            ifup := false, rxPollScheduled := false, txReclaimPending := false, txQueueStopped := false } }) ∧
    ((s.dev.ifup = false ∨ s.dev.suspended = true) →
      exec .closeDev s = .next { s with csr := { s.csr with result := 2 } })

/-- SUSPEND saves the enables and stops both DMA processes with interrupts and deferred work off; with `wol` it powers down
and keeps the rings, without it empties and frees them as CLOSE does. RESUME of kept rings powers up, restores the
enables, which starts the saved processes, and enables interrupts. Nothing else changes (R52, R53, R421, R424, R425). That a
freed ring has N = 0 and no slots is the model's choice (log 5): R481 leaves N of such a ring unspecified. So is
which buffer regions the `free` of an RX buffer ends (log 24). -/
def Obligations.SuspendAndResume : Prop :=
  ∀ (s : State) (wol : BitVec 16), s.sound → s.memLegal → s.ringsLegal → s.regsLegal → s.sessionLegal →
    s.dev.attached = true →
    let saved : SavedCtrl := {
      st := bit s.csr.dmaCtrl 0, sr := bit s.csr.dmaCtrl 1, te := bit s.csr.macConfig 0, re := bit s.csr.macConfig 1 }
    let stopped : Csrs := { s.csr with
      dmaIer := 0
      dmaCtrl := putBit (putBit s.csr.dmaCtrl 0 false) 1 false
      macConfig := putBit (putBit s.csr.macConfig 0 false) 1 false }
    let dma := { s.dma with ts := .stopped, rs := .stopped }
    let dev := { s.dev with
      suspended := true, rxPollScheduled := false, txReclaimPending := false, savedCtrl := saved }
    (s.dev.ifup = true → s.dev.suspended = false → wol = 1 →
      ∃ u, fenced s u ∧ exec (.suspend wol) s = .next { u with
        csr := { stopped with pmt := putBit s.csr.pmt 0 true, result := 0 }
        dma := dma
        dev := { dev with fullShutdown := false } }) ∧
    (s.dev.ifup = true → s.dev.suspended = false → wol = 0 →
      ∃ a b, chainEmptied { s with csr := stopped, dma := dma } a .tx ∧ chainEmptied a b .rx ∧
        exec (.suspend wol) s = .next { b with
          csr := { b.csr with result := 0 }
          tx := { b.tx with allocated := false, n := 0 }
          rx := { b.rx with allocated := false, n := 0 }
          txSlots := []
          rxSlots := []
          dev := { dev with ifup := false, fullShutdown := true } }) ∧
    ((s.dev.ifup = false ∨ s.dev.suspended = true ∨ 1 < wol.toNat) →
      exec (.suspend wol) s = .next { s with csr := { s.csr with result := 2 } }) ∧
    (s.dev.suspended = true → s.dev.fullShutdown = false →
      ∃ u, fenced s u ∧ exec .resume s = .next { u with
        csr := { s.csr with
          pmt := putBit s.csr.pmt 0 false
          macConfig := putBit (putBit s.csr.macConfig 0 s.dev.savedCtrl.te) 1 s.dev.savedCtrl.re
          dmaCtrl := putBit (putBit s.csr.dmaCtrl 0 s.dev.savedCtrl.st) 1 s.dev.savedCtrl.sr
          dmaIer := 0x0001_A1FB
          result := 0 }
        dma := { s.dma with
          ts := if s.dev.savedCtrl.st then (if s.dma.ts = .stopped then .running else s.dma.ts) else .stopped
          rs := if s.dev.savedCtrl.sr then (if s.dma.rs = .stopped then .running else s.dma.rs) else .stopped }
        dev := { s.dev with suspended := false } }) ∧
    (s.dev.suspended = false → exec .resume s = .next { s with csr := { s.csr with result := 2 } })

/-! ### OPEN (46_lifecycle.md) -/

/-- OPEN of an attached, closed device with unallocated rings, where the oracle grants every draw (log 8): each tunable outside
its legal set is replaced by its default; the two arrays are the rings', TX empty, RX with N_RX - 1 armed buffers, DIC clear
on every RX_COAL-th; mode, flow control, IPC, cleared status and IER_OPEN are in the registers; both processes run; `ifup`
is set. Nothing else changes. A device that is up or suspended: ERROR (R412, R416). That a mapped buffer's DMA addresses are
consecutive, and that zeroing an array raises no fault, are the model's (log 18, log 41). -/
def Obligations.OpenCommand : Prop :=
  ∀ s : State, s.sound → s.memLegal → s.ringsLegal → s.regsLegal → s.dev.attached = true →
    let sizes := [4, 8, 16, 32, 64, 128, 256, 512, 1024]
    let g := s.tun
    let nTx := if g.nTx ∈ sizes then g.nTx else 128
    let nRx := if g.nRx ∈ sizes then g.nRx else 128
    let mtuMax := if s.params.variant = .gmac then 9000 else 1500
    let c : Tunables := {
      nTx := nTx
      nRx := nRx
      bufSz := if 64 ≤ g.bufSz ∧ g.bufSz ≤ 8191 then g.bufSz else 1536
      tc := if g.tc ∈ [64, 128, 192, 256] then g.tc else 64
      flowCtrl := if g.flowCtrl ≤ 3 then g.flowCtrl else 3
      pause := if g.pause ≤ 0xFFFF then g.pause else 0xFFFF
      txCoal := if 1 ≤ g.txCoal ∧ g.txCoal ≤ min 256 (nTx - 1) then g.txCoal else 1
      rxCoal := if 1 ≤ g.rxCoal ∧ g.rxCoal ≤ min 256 (nRx - 1) then g.rxCoal else 1
      watchdog := if 1 ≤ g.watchdog ∧ g.watchdog ≤ 2 ^ 31 - 1 then g.watchdog else 5000
      mtu := if 46 ≤ g.mtu ∧ g.mtu ≤ mtuMax then g.mtu else 1500 }
    (s.dev.ifup = false → s.dev.suspended = false → s.tx.allocated = false → s.rx.allocated = false →
      s.dma.ts = .stopped → s.dma.rs = .stopped →
      ∀ mTx mRx bufs rest, s.openGranted c mTx mRx bufs rest →
      ∃ t, exec .openDev s = .next t ∧
        (∀ a, inSpan mTx (16 * nTx) a = false → inSpan mRx (16 * nRx) a = false → swByte t a = swByte s a) ∧
        (∀ i < nTx, ∀ k < 4, t.descWord .tx i k = if k = 1 ∧ i = nTx - 1 then 0x0800_0000 else 0) ∧
        (∀ i < nRx, ∀ k < 4, t.descWord .rx i k =
          if i = nRx - 1 then (if k = 1 then 0x0800_0000 else 0)
          else if k = 0 then 0x8000_0000
          else if k = 1 then rxDes1 false (decide ((i + 1) % c.rxCoal ≠ 0)) c.bufSz
          else if k = 2 then dmaMapOf s.params (bufs.getD i 0) else 0) ∧
        t = { s with
          csr := { s.csr with
            dmaCtrl := (s.csr.dmaCtrl &&& (0x8000_0000 : Word)) ||| natWord s.params.pbl.val <<< 8 ||| (3 : Word)
            dmaTxThresh := natWord c.tc
            statusSrc := 0
            dmaIer := 0x0001_A1FB
            macConfig := putBit (putBit (putBit s.csr.macConfig 8 (s.dev.csumCap && s.params.csumOffload)) 0 true) 1 true
            macFlow := bitIf (c.flowCtrl.testBit 1) 0 ||| bitIf (c.flowCtrl.testBit 0) 1 ||| natWord c.pause <<< 16
            result := 0 }
          dma := { ts := .running, rs := .running, txIdx := 0, rxIdx := 0 }
          tx := { allocated := true, n := nTx, base := mTx, sub := 0, comp := 0, coalCnt := 0 }
          rx := { allocated := true, n := nRx, base := mRx, sub := natWord (nRx - 1), comp := 0,
                  coalCnt := natWord ((nRx - 1) % c.rxCoal) }
          txSlots := List.replicate nTx { addr := none, len := 0, pkt := none, pub := false }
          rxSlots :=
            (bufs.map fun b => { buf := some b, addr := some (dmaMapOf s.params b), pub := true }) ++
              [{ buf := none, addr := none, pub := false }]
          eff := { bufSz := c.bufSz, txCoal := c.txCoal, rxCoal := c.rxCoal, mtu := c.mtu }
          dev := { s.dev with
            ifup := true, rxPollScheduled := false, txReclaimPending := false, txQueueStopped := false }
          tun := c
          mem := t.mem
          wbuf := []
          marks := s.marks ++ bufs.map fun b => { dma := dmaMapOf s.params b, cpu := b, len := c.bufSz }
          regions := s.regions ++ bufs.map fun b => { base := b, len := c.bufSz, owner := .pool }
          allocAnswers := rest }) ∧
    ((s.dev.ifup = true ∨ s.dev.suspended = true) →
      exec .openDev s = .next { s with csr := { s.csr with result := 2 } })

/-- OPEN of an attached, closed device either succeeds with both rings allocated and both DMA processes running, or it returns
ERROR with `ifup` false, ST = SR = 0, both processes stopped and no ring left allocated (log 14), the tunables clamped and written
back as R416 says (that a failed OPEN leaves them so is the model's reading, log 42), and the counters changed at most in
`rx_alloc_fail`; the first answer FAIL is such an ERROR. RESUME of a device whose rings were freed is that OPEN (R412, R413, R416,
R425). That zeroing an array raises no fault is the model's choice (log 41). -/
def Obligations.OpenOutcomes : Prop :=
  ∀ s : State, s.sound → s.memLegal → s.ringsLegal → s.regsLegal → s.dev.attached = true →
    (s.dev.ifup = false → s.dev.suspended = false → ∃ t, exec .openDev s = .next t ∧ t.fault = none ∧
      ((t.csr.result = 0 ∧ t.dev = { s.dev with
            ifup := true, rxPollScheduled := false, txReclaimPending := false, txQueueStopped := false } ∧
          t.tx.allocated = true ∧ t.rx.allocated = true ∧ t.dma.ts = .running ∧ t.dma.rs = .running ∧
          t.stats = s.stats) ∨
        (t.csr.result = 2 ∧ t.dev = s.dev ∧ bit t.csr.dmaCtrl 0 = false ∧ bit t.csr.dmaCtrl 1 = false ∧
          t.dma.ts = .stopped ∧ t.dma.rs = .stopped ∧ t.tx.allocated = false ∧ t.rx.allocated = false ∧
          t.csr.macConfig = s.csr.macConfig ∧ t.csr.macFlow = s.csr.macFlow ∧ t.csr.dmaIer = s.csr.dmaIer ∧
          t.csr.statusSrc = s.csr.statusSrc ∧ t.csr.dmaTxThresh = s.csr.dmaTxThresh ∧
          t.tun = s.tun.clamped s.params.variant ∧
          t.eff = { bufSz := t.tun.bufSz, txCoal := t.tun.txCoal, rxCoal := t.tun.rxCoal, mtu := t.tun.mtu } ∧
          (t.stats = s.stats ∨ t.stats = { s.stats with rxAllocFail := s.stats.rxAllocFail + 1 }))) ∧
      ((drawAnswer s).1 = none → t.csr.result = 2)) ∧
    (s.dev.suspended = true → s.dev.fullShutdown = true → s.dev.ifup = false →
      exec .resume s = exec .openDev { s with dev := { s.dev with suspended := false, fullShutdown := false } })
end

