-- ==== Sys2Proof/Laws/Flags.lean ====
section
/-! SUPPORT. Bit fields, and what each register's write rule makes of any value written to it (10_state.md R37 to
R47). -/

namespace Sys2Proof.Machine

open Sys2Proof

/-! ### Single bits -/

theorem bit_or (a b : Word) (i : Nat) : bit (a ||| b) i = (bit a i || bit b i) := BitVec.getLsbD_or

theorem bit_and (a b : Word) (i : Nat) : bit (a &&& b) i = (bit a i && bit b i) := BitVec.getLsbD_and

theorem bit_oneBit {i : Nat} (hi : i < 32) (j : Nat) : bit (oneBit i) j = decide (i = j) := by
  simp only [bit, oneBit, BitVec.getLsbD_shiftLeft, BitVec.getLsbD_one]
  by_cases h : i = j
  · subst h
    simp [hi]
  · by_cases h2 : j < i
    · simp [h, h2]
    · simp [h, show ¬ j - i = 0 by omega]

theorem bit_of_le {i : Nat} (v : Word) (hi : 32 ≤ i) : bit v i = false := BitVec.getLsbD_of_ge v i hi

theorem bit_putBit (v : Word) {i : Nat} (hi : i < 32) (j : Nat) (b : Bool) :
    bit (putBit v i b) j = if i = j then b else bit v j := by
  by_cases hj : j < 32
  · cases b
    · rw [show putBit v i false = v &&& ~~~oneBit i from rfl, bit_and,
        show bit (~~~oneBit i) j = !bit (oneBit i) j by simp only [bit, BitVec.getLsbD_not, hj]; rfl, bit_oneBit hi]
      by_cases h : i = j <;> simp [h]
    · rw [show putBit v i true = v ||| oneBit i from rfl, bit_or, bit_oneBit hi]
      by_cases h : i = j <;> simp [h]
  · rw [bit_of_le _ (by omega), bit_of_le _ (by omega), if_neg (by omega)]

theorem word_ext {a b : Word} (h : ∀ i < 32, bit a i = bit b i) : a = b := BitVec.eq_of_getLsbD_eq h

/-- Setting a bit to the value it has changes nothing. -/
theorem putBit_self (v : Word) {i : Nat} (hi : i < 32) : putBit v i (bit v i) = v :=
  word_ext fun j _ => by
    rw [bit_putBit v hi]
    split
    · rename_i h
      rw [h]
    · rfl

/-! ### Masks -/

theorem and_disjoint (v : Word) {a b : Word} (h : a &&& b = 0) : v &&& a &&& b = 0 := by
  rw [BitVec.and_assoc, h, show (0 : Word) = 0#32 from rfl, BitVec.and_zero]

theorem or_and_zero {a b m : Word} (ha : a &&& m = 0) (hb : b &&& m = 0) : (a ||| b) &&& m = 0 := by
  rw [BitVec.and_comm, BitVec.and_or_distrib_left, BitVec.and_comm m a, BitVec.and_comm m b, ha, hb]
  rfl

theorem and_and_zero {a m : Word} (b : Word) (ha : a &&& m = 0) : a &&& b &&& m = 0 := by
  rw [BitVec.and_assoc, BitVec.and_comm b m, ← BitVec.and_assoc, ha, show (0 : Word) = 0#32 from rfl, BitVec.zero_and]

theorem bitIf_and_zero (b : Bool) {i : Nat} {m : Word} (h : oneBit i &&& m = 0) : bitIf b i &&& m = 0 := by
  cases b
  · exact BitVec.zero_and
  · exact h

theorem bit_bitIf (b : Bool) {i : Nat} (hi : i < 32) (j : Nat) : bit (bitIf b i) j = (b && decide (i = j)) := by
  cases b
  · simp [bitIf, bit]
  · simp [bitIf, bit_oneBit hi]

/-! ### DMA_CTRL (R37) -/

theorem pbl_legal (v : Word) : ∃ p ∈ [1, 2, 4, 8, 16, 32],
    natWord (if [1, 2, 4, 8, 16, 32].contains (bitsAt v 8 6) then bitsAt v 8 6 else 8) = natWord p := by
  split
  · rename_i h
    exact ⟨_, by simpa using h, rfl⟩
  · exact ⟨8, by simp, rfl⟩

theorem bitsAt_or_low (a c : Word) : bitsAt ((a &&& 0xF) ||| c) 8 6 = bitsAt c 8 6 := by
  have h : (a &&& 0xF) >>> 8 = 0#32 := by
    rw [BitVec.ushiftRight_and_distrib, show (0xF : Word) >>> 8 = 0#32 by decide, BitVec.and_zero]
  rw [bitsAt, bitsAt, BitVec.ushiftRight_or_distrib, h, BitVec.zero_or]

theorem legalDmaCtrl_spec (old v : Word) :
    legalDmaCtrl old v &&& 0x7FFF_C0F0 = 0 ∧ bitsAt (legalDmaCtrl old v) 8 6 ∈ [1, 2, 4, 8, 16, 32] ∧
      bit (legalDmaCtrl old v) 0 = bit v 0 ∧ bit (legalDmaCtrl old v) 1 = bit v 1 := by
  obtain ⟨p, hp, he⟩ := pbl_legal v
  simp only [legalDmaCtrl, he, BitVec.or_assoc]
  refine ⟨or_and_zero (and_disjoint v (by decide)) ?_, ?_, ?_, ?_⟩
  · fin_cases hp <;> cases (bit old 31 && !bit v 31) <;> decide
  · rw [bitsAt_or_low]
    fin_cases hp <;> cases (bit old 31 && !bit v 31) <;> decide
  all_goals
    rw [bit_or, bit_and]
    fin_cases hp <;> cases (bit old 31 && !bit v 31) <;> simp [bit, natWord, bitIf, oneBit]

/-- Setting or clearing CMD_ERR leaves the rest of DMA_CTRL. -/
theorem putBit31_spec (c : Word) (b : Bool) (h : c &&& 0x7FFF_C0F0 = 0) :
    putBit c 31 b &&& 0x7FFF_C0F0 = 0 ∧ bitsAt (putBit c 31 b) 8 6 = bitsAt c 8 6 := by
  constructor
  · cases b
    · exact and_and_zero _ h
    · exact or_and_zero h (by decide)
  · have key : ∀ x : Word, (x >>> 8).toNat % 2 ^ 6 = (x >>> 8 &&& 0x3F).toNat := fun x => by
      rw [BitVec.toNat_and]
      exact (Nat.and_two_pow_sub_one_eq_mod _ 6).symm
    rw [bitsAt, bitsAt, key, key]
    congr 1
    apply BitVec.eq_of_getLsbD_eq
    intro i hi
    have hb := bit_putBit c (i := 31) (by decide) (8 + i) b
    simp only [bit] at hb
    simp only [BitVec.getLsbD_and, BitVec.getLsbD_ushiftRight, hb]
    by_cases h6 : i < 6
    · rw [if_neg (by omega)]
    · have : BitVec.getLsbD (0x3F : Word) i = false := by
        have : i = 6 ∨ i = 7 ∨ 8 ≤ i := by omega
        rcases this with rfl | rfl | h8
        · decide
        · decide
        · have h32 := hi
          clear hb h6
          interval_cases i <;> decide
      rw [this, Bool.and_false, Bool.and_false]

/-! ### DMA_TX_THRESH (R41) -/

theorem legalThresh_spec (v : Word) :
    legalThresh v = 64 ∨ legalThresh v = 128 ∨ legalThresh v = 192 ∨ legalThresh v = 256 := by
  have h : bitsAt v 0 9 / 64 < 8 := by
    have : bitsAt v 0 9 < 2 ^ 9 := Nat.mod_lt _ (by decide)
    omega
  unfold legalThresh
  generalize bitsAt v 0 9 / 64 = q at h
  interval_cases q <;> decide

/-! ### MAC_CONFIG (R44) -/

theorem legalMacConfig_spec (p : Params) (v : Word) :
    legalMacConfig p v &&& 0xFFFF_FEE0 = 0 ∧ (p.variant = .mac100 → bit (legalMacConfig p v) 4 = true) ∧
      (p.csumOffload = false → bit (legalMacConfig p v) 8 = false) := by
  refine ⟨?_, ?_, ?_⟩
  · exact or_and_zero (or_and_zero (and_disjoint v (by decide)) (bitIf_and_zero _ (by decide)))
      (bitIf_and_zero _ (by decide))
  · intro h
    simp [legalMacConfig, h, bit_or, bit_bitIf]
  · intro h
    simp [legalMacConfig, h, bit_or, bit_and, bit_bitIf]
    exact fun _ => by decide

/-! ### Source bits -/

theorem oneBit_source (b : Source) : oneBit b.pos &&& ~~~srcMask = 0 := by cases b <;> decide

end Sys2Proof.Machine
end

