-- ==== Sys2Proof/Laws/Memory.lean ====
section
/-! SUPPORT. Shared memory and the software write buffer: the canonical form is kept, a read after a write, and what a
fence leaves (20_memory.md R80, R82, R90, R92). -/

namespace Sys2Proof.Machine

open Sys2Proof

/-! ### One byte -/

theorem memAbove_mono {lo lo' : Nat} (h : lo' ≤ lo) : ∀ {m : Memory}, memAbove lo m = true → memAbove lo' m = true
  | [], _ => rfl
  | (k, b) :: m, hm => by
    simp only [memAbove, Bool.and_eq_true, decide_eq_true_eq] at hm ⊢
    exact ⟨by omega, memAbove_mono h hm.2⟩

theorem memRead_of_above {lo k : Nat} (h : k ≤ lo) : ∀ {m : Memory}, memAbove lo m = true → memRead m k = 0
  | [], _ => rfl
  | (k', b) :: m, hm => by
    simp only [memAbove, Bool.and_eq_true, decide_eq_true_eq] at hm
    simp only [memRead]
    rw [if_neg (by omega), memRead_of_above h hm.2]

theorem memAbove_memWrite {lo k : Nat} (h : lo < k) (b : Byte) :
    ∀ {m : Memory}, memAbove lo m = true → memAbove lo (memWrite m k b) = true
  | [], _ => by simp only [memWrite]; split <;> simp [memAbove, h]
  | (k', b') :: m, hm => by
    have hm' := hm
    simp only [memAbove, Bool.and_eq_true, decide_eq_true_eq] at hm
    simp only [memWrite]
    split
    · split
      · exact hm'
      · simp [memAbove, h, hm.1, hm.2]
    · split
      · split
        · exact hm.2
        · simp [memAbove, h, hm.2]
      · simp [memAbove, hm.1, memAbove_memWrite h b hm.2]

theorem Memory.wf_cons {k : Nat} {b : Byte} {m : Memory} :
    Memory.wf ((k, b) :: m) = true ↔ k < 2 ^ 32 ∧ b ≠ 0 ∧ memAbove k m = true ∧ Memory.wf m = true := by
  simp [Memory.wf, and_assoc]

/-- Writing a byte keeps the canonical form. -/
theorem memWrite_wf {k : Nat} (hk : k < 2 ^ 32) (b : Byte) :
    ∀ {m : Memory}, Memory.wf m = true → Memory.wf (memWrite m k b) = true
  | [], _ => by
    simp only [memWrite]
    split
    · rfl
    · rename_i hb
      exact Memory.wf_cons.2 ⟨hk, hb, rfl, rfl⟩
  | (k', b') :: m, hm => by
    have hm' := hm
    rw [Memory.wf_cons] at hm
    obtain ⟨h1, h2, h3, h4⟩ := hm
    simp only [memWrite]
    split
    · rename_i hlt
      split
      · exact hm'
      · rename_i hb
        exact Memory.wf_cons.2 ⟨hk, hb, by simp [memAbove, hlt, memAbove_mono (Nat.le_of_lt hlt) h3], hm'⟩
    · split
      · rename_i heq
        subst heq
        split
        · exact h4
        · rename_i hb
          exact Memory.wf_cons.2 ⟨hk, hb, h3, h4⟩
      · exact Memory.wf_cons.2 ⟨h1, h2, memAbove_memWrite (by omega) b h3, memWrite_wf hk b h4⟩

/-- A byte written reads back; every other byte reads as before. -/
theorem memRead_memWrite (j k : Nat) (b : Byte) :
    ∀ {m : Memory}, Memory.wf m = true → memRead (memWrite m k b) j = if j = k then b else memRead m j
  | [], _ => by
    simp only [memWrite]
    split <;> simp_all [memRead]
  | (k', b') :: m, hm => by
    obtain ⟨h1, h2, h3, h4⟩ := Memory.wf_cons.1 hm
    have habove : ∀ {i}, i ≤ k' → memRead m i = 0 := fun h => memRead_of_above h h3
    simp only [memWrite]
    split
    · rename_i hlt
      split
      · rename_i hb
        subst hb
        by_cases hj : j = k
        · subst hj
          rw [if_pos rfl]
          simp only [memRead]
          rw [if_neg (by omega), habove (by omega)]
        · rw [if_neg hj]
      · simp only [memRead]
    · split
      · rename_i heq
        subst heq
        split
        · rename_i hb
          subst hb
          by_cases hj : j = k
          · subst hj
            rw [if_pos rfl, habove (Nat.le_refl _)]
          · rw [if_neg hj]
            simp only [memRead]
            rw [if_neg hj]
        · simp only [memRead]
          split <;> rfl
      · rename_i hne hne'
        simp only [memRead]
        by_cases hj : j = k'
        · subst hj
          rw [if_pos rfl, if_pos rfl, if_neg (by omega)]
        · rw [if_neg hj, if_neg hj, memRead_memWrite j k b h4]

/-! ### Runs of bytes -/

theorem memWriteBytes_wf (bs : List Byte) (m : Memory) (a : Word) (h : Memory.wf m = true) :
    Memory.wf (memWriteBytes m a bs) = true := by
  induction bs generalizing a with
  | nil => exact h
  | cons b bs ih => exact memWrite_wf a.isLt b (ih _)

theorem word_one_toNat : (1 : Word).toNat = 1 := rfl

theorem sub_succ_toNat {x a : Word} (hx : x ≠ a) : (x - a).toNat = (x - (a + 1)).toNat + 1 := by
  have h1 : x.toNat ≠ a.toNat := fun h => hx (BitVec.eq_of_toNat_eq h)
  simp only [BitVec.toNat_sub, BitVec.toNat_add, word_one_toNat]
  omega

theorem inSpan_succ (a x : Word) (n : Nat) : inSpan a (n + 1) x = (decide (x = a) || inSpan (a + 1) n x) := by
  rw [Bool.eq_iff_iff]
  simp only [inSpan, Bool.or_eq_true, decide_eq_true_eq]
  by_cases hx : x = a
  · subst hx
    simp
  · rw [sub_succ_toNat hx]
    simp [hx]

/-- A run of bytes written reads back; every other byte reads as before. -/
theorem memRead_memWriteBytes (bs : List Byte) (m : Memory) (a x : Word) (h : Memory.wf m = true) :
    memRead (memWriteBytes m a bs) x.toNat =
      if inSpan a bs.length x then bs.getD (x - a).toNat 0 else memRead m x.toNat := by
  induction bs generalizing a with
  | nil => simp [memWriteBytes, inSpan]
  | cons b bs ih =>
    rw [memWriteBytes, memRead_memWrite _ _ _ (memWriteBytes_wf bs m (a + 1) h), ih]
    by_cases hx : x = a
    · subst hx
      simp [inSpan]
    · have hn : x.toNat ≠ a.toNat := fun h => hx (BitVec.eq_of_toNat_eq h)
      rw [if_neg hn, List.length_cons, inSpan_succ, sub_succ_toNat hx]
      simp [hx]

/-! ### The write buffer and the fence -/

/-- What the pending writes `es` make of a byte whose memory value is `b`. -/
theorem forward_eq_memRead (es : List Pending) (m : Memory) (a : Word) (h : Memory.wf m = true) :
    memRead (es.foldl (fun m e => memWriteBytes m e.addr e.bytes) m) a.toNat =
        es.foldl (fun acc e => if inSpan e.addr e.bytes.length a then e.bytes.getD (a - e.addr).toNat 0 else acc)
          (memRead m a.toNat) ∧
      Memory.wf (es.foldl (fun m e => memWriteBytes m e.addr e.bytes) m) = true := by
  induction es generalizing m with
  | nil => exact ⟨rfl, h⟩
  | cons e es ih =>
    have := ih (memWriteBytes m e.addr e.bytes) (memWriteBytes_wf _ _ _ h)
    simp only [List.foldl_cons]
    rw [← memRead_memWriteBytes _ _ _ _ h]
    exact this

/-- A fence makes memory hold what software saw (R92). -/
theorem descFence_memRead {s : State} (h : Memory.wf s.mem = true) (a : Word) :
    memRead (descFence s).mem a.toNat = swByte s a :=
  (forward_eq_memRead s.wbuf s.mem a h).1

theorem descFence_wf {s : State} (h : Memory.wf s.mem = true) : Memory.wf (descFence s).mem = true :=
  (forward_eq_memRead s.wbuf s.mem 0 h).2

/-- A fence leaves every byte as software sees it. -/
theorem swByte_descFence {s : State} (h : Memory.wf s.mem = true) (a : Word) :
    swByte (descFence s) a = swByte s a :=
  descFence_memRead h a

theorem swWord_descFence {s : State} (h : Memory.wf s.mem = true) (a : Word) :
    swWord (descFence s) a = swWord s a := by
  simp only [swWord, swByte_descFence h]
  rfl

/-- Software sees its own pending write (R90). -/
theorem swByte_pushWrite (a : Word) (bs : List Byte) (s : State) (x : Word) :
    swByte (pushWrite a bs s) x = if inSpan a bs.length x then bs.getD (x - a).toNat 0 else swByte s x := by
  simp [swByte, pushWrite, List.foldl_append]

/-- The software view depends on memory and the write buffer alone. -/
theorem swByte_congr {s t : State} (hm : t.mem = s.mem) (hw : t.wbuf = s.wbuf) (a : Word) : swByte t a = swByte s a := by
  simp [swByte, hm, hw]

theorem swWord_congr {s t : State} (h : ∀ a, swByte t a = swByte s a) (he : t.params.endian = s.params.endian)
    (a : Word) : swWord t a = swWord s a := by
  simp [swWord, h, he]

/-! ### Words -/

@[simp] theorem splitWord_length (e : Endian) (w : Word) : (splitWord e w).length = 4 := by
  cases e <;> rfl

/-- The four bytes of a word, joined again, are the word (R82). -/
theorem joinBytes_splitWord (e : Endian) (w : Word) :
    joinBytes e ((splitWord e w).getD 0 0) ((splitWord e w).getD 1 0) ((splitWord e w).getD 2 0)
      ((splitWord e w).getD 3 0) = w := by
  cases e <;>
  · simp only [splitWord, joinBytes, List.reverse_cons, List.reverse_nil, List.nil_append, List.cons_append,
      List.getD_cons_zero, List.getD_cons_succ]
    apply BitVec.eq_of_getLsbD_eq
    intro i hi
    simp only [BitVec.getLsbD_append, BitVec.getLsbD_extractLsb']
    by_cases h1 : i < 8
    · simp [h1]
    · by_cases h2 : i - 8 < 8
      · simp [h1, h2, show 8 + (i - 8) = i by omega]
      · by_cases h3 : i - 8 - 8 < 8
        · simp [h1, h2, h3, show 16 + (i - 8 - 8) = i by omega]
        · have : i - 8 - 8 - 8 < 8 := by omega
          simp [h1, h2, h3, this, show 24 + (i - 8 - 8 - 8) = i by omega]

/-- Byte `k` of a word in the order of `DESC_ENDIAN` (R82). -/
theorem joinBytes_byte (e : Endian) (f : Nat → Byte) {k : Nat} (hk : k < 4) :
    f k = (joinBytes e (f 0) (f 1) (f 2) (f 3) >>> (8 * if e = .le then k else 3 - k)).setWidth 8 := by
  apply BitVec.eq_of_getLsbD_eq
  intro i hi
  obtain rfl | rfl | rfl | rfl : k = 0 ∨ k = 1 ∨ k = 2 ∨ k = 3 := by omega
  all_goals
    cases e <;> simp only [joinBytes, BitVec.getLsbD_setWidth, BitVec.getLsbD_ushiftRight] <;>
      repeat rw [BitVec.getLsbD_append]
  all_goals
    have h24 : 24 + i - 8 = 16 + i := by omega
    have h16 : 16 + i - 8 = 8 + i := by omega
    have h8 : 8 + i - 8 = i := by omega
    simp [hi, h8, h16, h24, show ¬ 8 + i < 8 by omega, show ¬ 16 + i < 8 by omega, show ¬ 24 + i < 8 by omega]

/-- The byte at a word's lowest address is its lowest in little-endian order, its highest in big-endian order (R82). -/
theorem swWord_byte (s : State) (a : Word) {k : Nat} (hk : k < 4) : swByte s (a + natWord k) =
    (swWord s a >>> (8 * if s.params.endian = .le then k else 3 - k)).setWidth 8 := by
  have h0 : a + natWord 0 = a := BitVec.add_zero a
  have := joinBytes_byte s.params.endian (fun k => swByte s (a + natWord k)) hk
  rwa [h0] at this
theorem add_sub_self_left (a b : Word) : a + b - a = b := by
  rw [BitVec.add_comm, BitVec.add_sub_cancel]

/-- A word just written is what software reads there. -/
theorem swWord_pushWrite_self (a v : Word) (s : State) :
    swWord (pushWrite a (splitWord s.params.endian v) s) a = v := by
  have h0 : (a - a).toNat = 0 := by simp
  have h1 : (a + 1 - a).toNat = 1 := by rw [add_sub_self_left]; rfl
  have h2 : (a + 2 - a).toNat = 2 := by rw [add_sub_self_left]; rfl
  have h3 : (a + 3 - a).toNat = 3 := by rw [add_sub_self_left]; rfl
  simp only [swWord, swByte_pushWrite, splitWord_length, inSpan, h0, h1, h2, h3]
  exact joinBytes_splitWord _ _

/-- Two words whose addresses are 4 or more apart both ways do not share a byte. -/
theorem swWord_pushWrite_apart {a b : Word} (v : Word) (s : State) (h1 : 4 ≤ (b - a).toNat) (h2 : 4 ≤ (a - b).toNat) :
    swWord (pushWrite a (splitWord s.params.endian v) s) b = swWord s b := by
  have key : ∀ k : Word, k.toNat < 4 → inSpan a 4 (b + k) = false := by
    intro k hk
    simp only [inSpan, decide_eq_false_iff_not]
    simp only [BitVec.toNat_sub, BitVec.toNat_add] at *
    omega
  have k0 := key 0 (by decide)
  have k1 := key 1 (by decide)
  have k2 := key 2 (by decide)
  have k3 := key 3 (by decide)
  rw [show b + 0 = b from BitVec.add_zero b] at k0
  simp only [swWord, swByte_pushWrite, splitWord_length, k0, k1, k2, k3]
  rfl

/-! ### The fence and the other memory operations keep the canonical form -/

theorem drainOne_wf {k : Nat} {s : State} (h : Memory.wf s.mem = true) : Memory.wf (drainOne k s).mem = true := by
  unfold drainOne
  split
  · exact h
  · exact memWriteBytes_wf _ _ _ h

/-! ### Byte ranges -/

theorem word_sub_toNat (a b : Word) : (a - b).toNat = (2 ^ 32 - b.toNat + a.toNat) % 2 ^ 32 := BitVec.toNat_sub _ _

theorem sub_cases (a b : Word) : (b.toNat ≤ a.toNat ∧ (a - b).toNat = a.toNat - b.toNat) ∨ (a.toNat < b.toNat ∧
    (a - b).toNat = 4294967296 + a.toNat - b.toNat) := by
  have e := word_sub_toNat a b
  have := a.isLt; have := b.isLt
  norm_num at *
  omega

/-- Ranges that do not meet share no byte. -/
theorem apart_of_spansMeet {a b x : Word} {la lb : Nat} (h : spansMeet a la b lb = false) (hx : inSpan b lb x =
    true) : inSpan a la x = false := by
  simp only [inSpan, decide_eq_true_eq] at hx
  simp only [inSpan, decide_eq_false_iff_not]
  intro hc
  have hx1 := sub_cases x a
  have hx2 := sub_cases x b
  have hx3 := sub_cases b a
  have hx4 := sub_cases a b
  have := x.isLt; have := b.isLt; have := a.isLt
  have n1 : la ≠ 0 := by omega
  have n2 : lb ≠ 0 := by omega
  simp only [spansMeet, ne_eq, n1, not_false_eq_true, decide_true, n2, Bool.true_and, Bool.or_eq_false_iff, decide_eq_false_iff_not] at h
  obtain ⟨g3, g4⟩ := h
  rcases hx1 with hx1 | hx1 <;> rcases hx2 with hx2 | hx2 <;> rcases hx3 with hx3 | hx3 <;> rcases hx4 with hx4 | hx4 <;> omega

/-- Whether two ranges meet does not depend on their order. -/
theorem spansMeet_comm (a : Word) (la : Nat) (b : Word) (lb : Nat) : spansMeet a la b lb = spansMeet b lb a la := by
  simp only [spansMeet]
  cases decide (la ≠ 0) <;> cases decide (lb ≠ 0) <;> simp [Bool.or_comm]

/-- A range that meets no array holds no byte of one. -/
theorem meetsArray_apart {s : State} {a x : Word} {len : Nat} (h : s.meetsArray a len = false) (r : RingSel)
    (hx : (s.ring r).holds x = true) : inSpan a len x = false := by
  simp only [State.meetsArray, Bool.or_eq_false_iff] at h
  cases r
  all_goals
    simp only [State.ring, Ring.holds, Bool.and_eq_true] at hx
    simp only [hx.1, Bool.true_and] at h
  · exact apart_of_spansMeet (by rw [spansMeet_comm]; exact h.1) hx.2
  · exact apart_of_spansMeet (by rw [spansMeet_comm]; exact h.2) hx.2

/-- What a fresh aligned range satisfies (D33). -/
structure FreshAt (s : State) (align : Nat) (a : Word) (len : Nat) : Prop where
  aligned : a.toNat % align = 0
  inSpace : a.toNat + len ≤ 2 ^ 32
  arrays : s.meetsArray a len = false
  images : s.meetsArray (dmaMapOf s.params a) len = false
  regions : (s.regions.any fun g => spansMeet g.base g.len a len) = false
  marks : s.meetsMark a len = false

theorem fresh_iff {s : State} {align len : Nat} {a : Word} : s.fresh align a len = true ↔ FreshAt s align a len := by
  simp only [State.fresh, Bool.and_eq_true, decide_eq_true_eq, Bool.not_eq_true']
  exact ⟨fun h => ⟨h.1.1.1.1.1, h.1.1.1.1.2, h.1.1.1.2, h.1.1.2, h.1.2, h.2⟩,
    fun h => ⟨⟨⟨⟨⟨h.aligned, h.inSpace⟩, h.arrays⟩, h.images⟩, h.regions⟩, h.marks⟩⟩

theorem dmaCell_lt {s : State} {d : Word} {k : Nat} (h : s.dmaCell d = some k) : k < 2 ^ 32 := by
  unfold State.dmaCell at h
  repeat' split at h
  · obtain rfl := Option.some.inj h; exact BitVec.isLt _
  · obtain rfl := Option.some.inj h; exact BitVec.isLt _
  · obtain ⟨c, _, rfl⟩ := Option.map_eq_some_iff.1 h; exact BitVec.isLt _

theorem dmaWrite_wf (bs : List Byte) (d : Word) {s : State} (h : Memory.wf s.mem = true) :
    Memory.wf (dmaWrite d bs s).mem = true := by
  induction bs generalizing d with
  | nil => exact h
  | cons b bs ih =>
    simp only [dmaWrite]
    split
    · rename_i k hk
      exact memWrite_wf (dmaCell_lt hk) b (ih _)
    · exact ih _

end Sys2Proof.Machine
end

