-- ==== Sys2Proof/Laws/State.lean ====
section
/-! SUPPORT. One lemma per field per update: what each state update leaves in each field of State, so that no later proof
unfolds a record update. -/

namespace Sys2Proof.Machine

open Sys2Proof

/-! ### descFence -/

@[simp] theorem descFence_params (s : State) : (descFence s).params = s.params := rfl
@[simp] theorem descFence_csr (s : State) : (descFence s).csr = s.csr := rfl
@[simp] theorem descFence_dma (s : State) : (descFence s).dma = s.dma := rfl
@[simp] theorem descFence_tx (s : State) : (descFence s).tx = s.tx := rfl
@[simp] theorem descFence_rx (s : State) : (descFence s).rx = s.rx := rfl
@[simp] theorem descFence_txSlots (s : State) : (descFence s).txSlots = s.txSlots := rfl
@[simp] theorem descFence_rxSlots (s : State) : (descFence s).rxSlots = s.rxSlots := rfl
@[simp] theorem descFence_eff (s : State) : (descFence s).eff = s.eff := rfl
@[simp] theorem descFence_dev (s : State) : (descFence s).dev = s.dev := rfl
@[simp] theorem descFence_link (s : State) : (descFence s).link = s.link := rfl
@[simp] theorem descFence_tun (s : State) : (descFence s).tun = s.tun := rfl
@[simp] theorem descFence_stats (s : State) : (descFence s).stats = s.stats := rfl
@[simp] theorem descFence_fault (s : State) : (descFence s).fault = s.fault := rfl
theorem descFence_mem (s : State) :
    (descFence s).mem = s.wbuf.foldl (fun m e => memWriteBytes m e.addr e.bytes) s.mem := rfl
@[simp] theorem descFence_wbuf (s : State) : (descFence s).wbuf = [] := rfl
@[simp] theorem descFence_marks (s : State) : (descFence s).marks = s.marks := rfl
@[simp] theorem descFence_regions (s : State) : (descFence s).regions = s.regions := rfl
@[simp] theorem descFence_schedule (s : State) : (descFence s).schedule = s.schedule := rfl
@[simp] theorem descFence_wire (s : State) : (descFence s).wire = s.wire := rfl
@[simp] theorem descFence_allocAnswers (s : State) : (descFence s).allocAnswers = s.allocAnswers := rfl
@[simp] theorem descFence_draws (s : State) : (descFence s).draws = s.draws := rfl
@[simp] theorem descFence_outputs (s : State) : (descFence s).outputs = s.outputs := rfl
@[simp] theorem descFence_busData (s : State) : (descFence s).busData = s.busData := rfl

/-! ### pushWrite -/

@[simp] theorem pushWrite_params (a : Word) (bs : List Byte) (s : State) : (pushWrite a bs s).params = s.params := rfl
@[simp] theorem pushWrite_csr (a : Word) (bs : List Byte) (s : State) : (pushWrite a bs s).csr = s.csr := rfl
@[simp] theorem pushWrite_dma (a : Word) (bs : List Byte) (s : State) : (pushWrite a bs s).dma = s.dma := rfl
@[simp] theorem pushWrite_tx (a : Word) (bs : List Byte) (s : State) : (pushWrite a bs s).tx = s.tx := rfl
@[simp] theorem pushWrite_rx (a : Word) (bs : List Byte) (s : State) : (pushWrite a bs s).rx = s.rx := rfl
@[simp] theorem pushWrite_txSlots (a : Word) (bs : List Byte) (s : State) :
    (pushWrite a bs s).txSlots = s.txSlots := rfl
@[simp] theorem pushWrite_rxSlots (a : Word) (bs : List Byte) (s : State) :
    (pushWrite a bs s).rxSlots = s.rxSlots := rfl
@[simp] theorem pushWrite_eff (a : Word) (bs : List Byte) (s : State) : (pushWrite a bs s).eff = s.eff := rfl
@[simp] theorem pushWrite_dev (a : Word) (bs : List Byte) (s : State) : (pushWrite a bs s).dev = s.dev := rfl
@[simp] theorem pushWrite_link (a : Word) (bs : List Byte) (s : State) : (pushWrite a bs s).link = s.link := rfl
@[simp] theorem pushWrite_tun (a : Word) (bs : List Byte) (s : State) : (pushWrite a bs s).tun = s.tun := rfl
@[simp] theorem pushWrite_stats (a : Word) (bs : List Byte) (s : State) : (pushWrite a bs s).stats = s.stats := rfl
@[simp] theorem pushWrite_fault (a : Word) (bs : List Byte) (s : State) : (pushWrite a bs s).fault = s.fault := rfl
@[simp] theorem pushWrite_mem (a : Word) (bs : List Byte) (s : State) : (pushWrite a bs s).mem = s.mem := rfl
@[simp] theorem pushWrite_wbuf (a : Word) (bs : List Byte) (s : State) :
    (pushWrite a bs s).wbuf = s.wbuf ++ [{ addr := a, bytes := bs }] := rfl
@[simp] theorem pushWrite_marks (a : Word) (bs : List Byte) (s : State) : (pushWrite a bs s).marks = s.marks := rfl
@[simp] theorem pushWrite_regions (a : Word) (bs : List Byte) (s : State) :
    (pushWrite a bs s).regions = s.regions := rfl
@[simp] theorem pushWrite_schedule (a : Word) (bs : List Byte) (s : State) :
    (pushWrite a bs s).schedule = s.schedule := rfl
@[simp] theorem pushWrite_wire (a : Word) (bs : List Byte) (s : State) : (pushWrite a bs s).wire = s.wire := rfl
@[simp] theorem pushWrite_allocAnswers (a : Word) (bs : List Byte) (s : State) :
    (pushWrite a bs s).allocAnswers = s.allocAnswers := rfl
@[simp] theorem pushWrite_draws (a : Word) (bs : List Byte) (s : State) : (pushWrite a bs s).draws = s.draws := rfl
@[simp] theorem pushWrite_outputs (a : Word) (bs : List Byte) (s : State) :
    (pushWrite a bs s).outputs = s.outputs := rfl
@[simp] theorem pushWrite_busData (a : Word) (bs : List Byte) (s : State) :
    (pushWrite a bs s).busData = s.busData := rfl

/-! ### setTxSlot -/

@[simp] theorem setTxSlot_params (i : Nat) (x : TxSlot) (s : State) : (s.setTxSlot i x).params = s.params := rfl
@[simp] theorem setTxSlot_csr (i : Nat) (x : TxSlot) (s : State) : (s.setTxSlot i x).csr = s.csr := rfl
@[simp] theorem setTxSlot_dma (i : Nat) (x : TxSlot) (s : State) : (s.setTxSlot i x).dma = s.dma := rfl
@[simp] theorem setTxSlot_tx (i : Nat) (x : TxSlot) (s : State) : (s.setTxSlot i x).tx = s.tx := rfl
@[simp] theorem setTxSlot_rx (i : Nat) (x : TxSlot) (s : State) : (s.setTxSlot i x).rx = s.rx := rfl
@[simp] theorem setTxSlot_txSlots (i : Nat) (x : TxSlot) (s : State) :
    (s.setTxSlot i x).txSlots = s.txSlots.set i x := rfl
@[simp] theorem setTxSlot_rxSlots (i : Nat) (x : TxSlot) (s : State) : (s.setTxSlot i x).rxSlots = s.rxSlots := rfl
@[simp] theorem setTxSlot_eff (i : Nat) (x : TxSlot) (s : State) : (s.setTxSlot i x).eff = s.eff := rfl
@[simp] theorem setTxSlot_dev (i : Nat) (x : TxSlot) (s : State) : (s.setTxSlot i x).dev = s.dev := rfl
@[simp] theorem setTxSlot_link (i : Nat) (x : TxSlot) (s : State) : (s.setTxSlot i x).link = s.link := rfl
@[simp] theorem setTxSlot_tun (i : Nat) (x : TxSlot) (s : State) : (s.setTxSlot i x).tun = s.tun := rfl
@[simp] theorem setTxSlot_stats (i : Nat) (x : TxSlot) (s : State) : (s.setTxSlot i x).stats = s.stats := rfl
@[simp] theorem setTxSlot_fault (i : Nat) (x : TxSlot) (s : State) : (s.setTxSlot i x).fault = s.fault := rfl
@[simp] theorem setTxSlot_mem (i : Nat) (x : TxSlot) (s : State) : (s.setTxSlot i x).mem = s.mem := rfl
@[simp] theorem setTxSlot_wbuf (i : Nat) (x : TxSlot) (s : State) : (s.setTxSlot i x).wbuf = s.wbuf := rfl
@[simp] theorem setTxSlot_marks (i : Nat) (x : TxSlot) (s : State) : (s.setTxSlot i x).marks = s.marks := rfl
@[simp] theorem setTxSlot_regions (i : Nat) (x : TxSlot) (s : State) : (s.setTxSlot i x).regions = s.regions := rfl
@[simp] theorem setTxSlot_schedule (i : Nat) (x : TxSlot) (s : State) : (s.setTxSlot i x).schedule = s.schedule := rfl
@[simp] theorem setTxSlot_wire (i : Nat) (x : TxSlot) (s : State) : (s.setTxSlot i x).wire = s.wire := rfl
@[simp] theorem setTxSlot_allocAnswers (i : Nat) (x : TxSlot) (s : State) :
    (s.setTxSlot i x).allocAnswers = s.allocAnswers := rfl
@[simp] theorem setTxSlot_draws (i : Nat) (x : TxSlot) (s : State) : (s.setTxSlot i x).draws = s.draws := rfl
@[simp] theorem setTxSlot_outputs (i : Nat) (x : TxSlot) (s : State) : (s.setTxSlot i x).outputs = s.outputs := rfl
@[simp] theorem setTxSlot_busData (i : Nat) (x : TxSlot) (s : State) : (s.setTxSlot i x).busData = s.busData := rfl

/-! ### setRxSlot -/

@[simp] theorem setRxSlot_params (i : Nat) (x : RxSlot) (s : State) : (s.setRxSlot i x).params = s.params := rfl
@[simp] theorem setRxSlot_csr (i : Nat) (x : RxSlot) (s : State) : (s.setRxSlot i x).csr = s.csr := rfl
@[simp] theorem setRxSlot_dma (i : Nat) (x : RxSlot) (s : State) : (s.setRxSlot i x).dma = s.dma := rfl
@[simp] theorem setRxSlot_tx (i : Nat) (x : RxSlot) (s : State) : (s.setRxSlot i x).tx = s.tx := rfl
@[simp] theorem setRxSlot_rx (i : Nat) (x : RxSlot) (s : State) : (s.setRxSlot i x).rx = s.rx := rfl
@[simp] theorem setRxSlot_txSlots (i : Nat) (x : RxSlot) (s : State) : (s.setRxSlot i x).txSlots = s.txSlots := rfl
@[simp] theorem setRxSlot_rxSlots (i : Nat) (x : RxSlot) (s : State) :
    (s.setRxSlot i x).rxSlots = s.rxSlots.set i x := rfl
@[simp] theorem setRxSlot_eff (i : Nat) (x : RxSlot) (s : State) : (s.setRxSlot i x).eff = s.eff := rfl
@[simp] theorem setRxSlot_dev (i : Nat) (x : RxSlot) (s : State) : (s.setRxSlot i x).dev = s.dev := rfl
@[simp] theorem setRxSlot_link (i : Nat) (x : RxSlot) (s : State) : (s.setRxSlot i x).link = s.link := rfl
@[simp] theorem setRxSlot_tun (i : Nat) (x : RxSlot) (s : State) : (s.setRxSlot i x).tun = s.tun := rfl
@[simp] theorem setRxSlot_stats (i : Nat) (x : RxSlot) (s : State) : (s.setRxSlot i x).stats = s.stats := rfl
@[simp] theorem setRxSlot_fault (i : Nat) (x : RxSlot) (s : State) : (s.setRxSlot i x).fault = s.fault := rfl
@[simp] theorem setRxSlot_mem (i : Nat) (x : RxSlot) (s : State) : (s.setRxSlot i x).mem = s.mem := rfl
@[simp] theorem setRxSlot_wbuf (i : Nat) (x : RxSlot) (s : State) : (s.setRxSlot i x).wbuf = s.wbuf := rfl
@[simp] theorem setRxSlot_marks (i : Nat) (x : RxSlot) (s : State) : (s.setRxSlot i x).marks = s.marks := rfl
@[simp] theorem setRxSlot_regions (i : Nat) (x : RxSlot) (s : State) : (s.setRxSlot i x).regions = s.regions := rfl
@[simp] theorem setRxSlot_schedule (i : Nat) (x : RxSlot) (s : State) : (s.setRxSlot i x).schedule = s.schedule := rfl
@[simp] theorem setRxSlot_wire (i : Nat) (x : RxSlot) (s : State) : (s.setRxSlot i x).wire = s.wire := rfl
@[simp] theorem setRxSlot_allocAnswers (i : Nat) (x : RxSlot) (s : State) :
    (s.setRxSlot i x).allocAnswers = s.allocAnswers := rfl
@[simp] theorem setRxSlot_draws (i : Nat) (x : RxSlot) (s : State) : (s.setRxSlot i x).draws = s.draws := rfl
@[simp] theorem setRxSlot_outputs (i : Nat) (x : RxSlot) (s : State) : (s.setRxSlot i x).outputs = s.outputs := rfl
@[simp] theorem setRxSlot_busData (i : Nat) (x : RxSlot) (s : State) : (s.setRxSlot i x).busData = s.busData := rfl

/-! ### output -/

@[simp] theorem output_params (o : Output) (s : State) : (output o s).params = s.params := rfl
@[simp] theorem output_csr (o : Output) (s : State) : (output o s).csr = s.csr := rfl
@[simp] theorem output_dma (o : Output) (s : State) : (output o s).dma = s.dma := rfl
@[simp] theorem output_tx (o : Output) (s : State) : (output o s).tx = s.tx := rfl
@[simp] theorem output_rx (o : Output) (s : State) : (output o s).rx = s.rx := rfl
@[simp] theorem output_txSlots (o : Output) (s : State) : (output o s).txSlots = s.txSlots := rfl
@[simp] theorem output_rxSlots (o : Output) (s : State) : (output o s).rxSlots = s.rxSlots := rfl
@[simp] theorem output_eff (o : Output) (s : State) : (output o s).eff = s.eff := rfl
@[simp] theorem output_dev (o : Output) (s : State) : (output o s).dev = s.dev := rfl
@[simp] theorem output_link (o : Output) (s : State) : (output o s).link = s.link := rfl
@[simp] theorem output_tun (o : Output) (s : State) : (output o s).tun = s.tun := rfl
@[simp] theorem output_stats (o : Output) (s : State) : (output o s).stats = s.stats := rfl
@[simp] theorem output_fault (o : Output) (s : State) : (output o s).fault = s.fault := rfl
@[simp] theorem output_mem (o : Output) (s : State) : (output o s).mem = s.mem := rfl
@[simp] theorem output_wbuf (o : Output) (s : State) : (output o s).wbuf = s.wbuf := rfl
@[simp] theorem output_marks (o : Output) (s : State) : (output o s).marks = s.marks := rfl
@[simp] theorem output_regions (o : Output) (s : State) : (output o s).regions = s.regions := rfl
@[simp] theorem output_schedule (o : Output) (s : State) : (output o s).schedule = s.schedule := rfl
@[simp] theorem output_wire (o : Output) (s : State) : (output o s).wire = s.wire := rfl
@[simp] theorem output_allocAnswers (o : Output) (s : State) : (output o s).allocAnswers = s.allocAnswers := rfl
@[simp] theorem output_draws (o : Output) (s : State) : (output o s).draws = s.draws := rfl
@[simp] theorem output_outputs (o : Output) (s : State) : (output o s).outputs = s.outputs ++ [o] := rfl
@[simp] theorem output_busData (o : Output) (s : State) : (output o s).busData = s.busData := rfl

/-! ### unmapBuf -/

@[simp] theorem unmapBuf_params (a : Word) (n : Nat) (s : State) : (unmapBuf a n s).params = s.params := rfl
@[simp] theorem unmapBuf_csr (a : Word) (n : Nat) (s : State) : (unmapBuf a n s).csr = s.csr := rfl
@[simp] theorem unmapBuf_dma (a : Word) (n : Nat) (s : State) : (unmapBuf a n s).dma = s.dma := rfl
@[simp] theorem unmapBuf_tx (a : Word) (n : Nat) (s : State) : (unmapBuf a n s).tx = s.tx := rfl
@[simp] theorem unmapBuf_rx (a : Word) (n : Nat) (s : State) : (unmapBuf a n s).rx = s.rx := rfl
@[simp] theorem unmapBuf_txSlots (a : Word) (n : Nat) (s : State) : (unmapBuf a n s).txSlots = s.txSlots := rfl
@[simp] theorem unmapBuf_rxSlots (a : Word) (n : Nat) (s : State) : (unmapBuf a n s).rxSlots = s.rxSlots := rfl
@[simp] theorem unmapBuf_eff (a : Word) (n : Nat) (s : State) : (unmapBuf a n s).eff = s.eff := rfl
@[simp] theorem unmapBuf_dev (a : Word) (n : Nat) (s : State) : (unmapBuf a n s).dev = s.dev := rfl
@[simp] theorem unmapBuf_link (a : Word) (n : Nat) (s : State) : (unmapBuf a n s).link = s.link := rfl
@[simp] theorem unmapBuf_tun (a : Word) (n : Nat) (s : State) : (unmapBuf a n s).tun = s.tun := rfl
@[simp] theorem unmapBuf_stats (a : Word) (n : Nat) (s : State) : (unmapBuf a n s).stats = s.stats := rfl
@[simp] theorem unmapBuf_fault (a : Word) (n : Nat) (s : State) : (unmapBuf a n s).fault = s.fault := rfl
@[simp] theorem unmapBuf_mem (a : Word) (n : Nat) (s : State) : (unmapBuf a n s).mem = s.mem := rfl
@[simp] theorem unmapBuf_wbuf (a : Word) (n : Nat) (s : State) : (unmapBuf a n s).wbuf = s.wbuf := rfl
@[simp] theorem unmapBuf_marks (a : Word) (n : Nat) (s : State) :
    (unmapBuf a n s).marks = s.marks.flatMap (cutMark a n) := rfl
@[simp] theorem unmapBuf_regions (a : Word) (n : Nat) (s : State) : (unmapBuf a n s).regions = s.regions := rfl
@[simp] theorem unmapBuf_schedule (a : Word) (n : Nat) (s : State) : (unmapBuf a n s).schedule = s.schedule := rfl
@[simp] theorem unmapBuf_wire (a : Word) (n : Nat) (s : State) : (unmapBuf a n s).wire = s.wire := rfl
@[simp] theorem unmapBuf_allocAnswers (a : Word) (n : Nat) (s : State) :
    (unmapBuf a n s).allocAnswers = s.allocAnswers := rfl
@[simp] theorem unmapBuf_draws (a : Word) (n : Nat) (s : State) : (unmapBuf a n s).draws = s.draws := rfl
@[simp] theorem unmapBuf_outputs (a : Word) (n : Nat) (s : State) : (unmapBuf a n s).outputs = s.outputs := rfl
@[simp] theorem unmapBuf_busData (a : Word) (n : Nat) (s : State) : (unmapBuf a n s).busData = s.busData := rfl

/-! ### freeBuf -/

@[simp] theorem freeBuf_params (b : Word) (s : State) : (freeBuf b s).params = s.params := rfl
@[simp] theorem freeBuf_csr (b : Word) (s : State) : (freeBuf b s).csr = s.csr := rfl
@[simp] theorem freeBuf_dma (b : Word) (s : State) : (freeBuf b s).dma = s.dma := rfl
@[simp] theorem freeBuf_tx (b : Word) (s : State) : (freeBuf b s).tx = s.tx := rfl
@[simp] theorem freeBuf_rx (b : Word) (s : State) : (freeBuf b s).rx = s.rx := rfl
@[simp] theorem freeBuf_txSlots (b : Word) (s : State) : (freeBuf b s).txSlots = s.txSlots := rfl
@[simp] theorem freeBuf_rxSlots (b : Word) (s : State) : (freeBuf b s).rxSlots = s.rxSlots := rfl
@[simp] theorem freeBuf_eff (b : Word) (s : State) : (freeBuf b s).eff = s.eff := rfl
@[simp] theorem freeBuf_dev (b : Word) (s : State) : (freeBuf b s).dev = s.dev := rfl
@[simp] theorem freeBuf_link (b : Word) (s : State) : (freeBuf b s).link = s.link := rfl
@[simp] theorem freeBuf_tun (b : Word) (s : State) : (freeBuf b s).tun = s.tun := rfl
@[simp] theorem freeBuf_stats (b : Word) (s : State) : (freeBuf b s).stats = s.stats := rfl
@[simp] theorem freeBuf_fault (b : Word) (s : State) : (freeBuf b s).fault = s.fault := rfl
@[simp] theorem freeBuf_mem (b : Word) (s : State) : (freeBuf b s).mem = s.mem := rfl
@[simp] theorem freeBuf_wbuf (b : Word) (s : State) : (freeBuf b s).wbuf = s.wbuf := rfl
@[simp] theorem freeBuf_marks (b : Word) (s : State) : (freeBuf b s).marks = s.marks := rfl
@[simp] theorem freeBuf_regions (b : Word) (s : State) :
    (freeBuf b s).regions = s.regions.eraseP fun g => g.base = b := rfl
@[simp] theorem freeBuf_schedule (b : Word) (s : State) : (freeBuf b s).schedule = s.schedule := rfl
@[simp] theorem freeBuf_wire (b : Word) (s : State) : (freeBuf b s).wire = s.wire := rfl
@[simp] theorem freeBuf_allocAnswers (b : Word) (s : State) : (freeBuf b s).allocAnswers = s.allocAnswers := rfl
@[simp] theorem freeBuf_draws (b : Word) (s : State) : (freeBuf b s).draws = s.draws := rfl
@[simp] theorem freeBuf_outputs (b : Word) (s : State) : (freeBuf b s).outputs = s.outputs := rfl
@[simp] theorem freeBuf_busData (b : Word) (s : State) : (freeBuf b s).busData = s.busData := rfl

/-! ### storeDmaCtrl -/

@[simp] theorem storeDmaCtrl_params (v : Word) (s : State) : (storeDmaCtrl v s).params = s.params := rfl
@[simp] theorem storeDmaCtrl_csr (v : Word) (s : State) :
    (storeDmaCtrl v s).csr = { s.csr with dmaCtrl := legalDmaCtrl s.csr.dmaCtrl v } := rfl
@[simp] theorem storeDmaCtrl_dma (v : Word) (s : State) :
    (storeDmaCtrl v s).dma =
      { s.dma with
        ts := procAfter s.dma.ts (bit s.csr.dmaCtrl 0) (bit v 0)
        rs := procAfter s.dma.rs (bit s.csr.dmaCtrl 1) (bit v 1) } := rfl
@[simp] theorem storeDmaCtrl_tx (v : Word) (s : State) : (storeDmaCtrl v s).tx = s.tx := rfl
@[simp] theorem storeDmaCtrl_rx (v : Word) (s : State) : (storeDmaCtrl v s).rx = s.rx := rfl
@[simp] theorem storeDmaCtrl_txSlots (v : Word) (s : State) : (storeDmaCtrl v s).txSlots = s.txSlots := rfl
@[simp] theorem storeDmaCtrl_rxSlots (v : Word) (s : State) : (storeDmaCtrl v s).rxSlots = s.rxSlots := rfl
@[simp] theorem storeDmaCtrl_eff (v : Word) (s : State) : (storeDmaCtrl v s).eff = s.eff := rfl
@[simp] theorem storeDmaCtrl_dev (v : Word) (s : State) : (storeDmaCtrl v s).dev = s.dev := rfl
@[simp] theorem storeDmaCtrl_link (v : Word) (s : State) : (storeDmaCtrl v s).link = s.link := rfl
@[simp] theorem storeDmaCtrl_tun (v : Word) (s : State) : (storeDmaCtrl v s).tun = s.tun := rfl
@[simp] theorem storeDmaCtrl_stats (v : Word) (s : State) : (storeDmaCtrl v s).stats = s.stats := rfl
@[simp] theorem storeDmaCtrl_fault (v : Word) (s : State) : (storeDmaCtrl v s).fault = s.fault := rfl
@[simp] theorem storeDmaCtrl_mem (v : Word) (s : State) : (storeDmaCtrl v s).mem = s.mem := rfl
@[simp] theorem storeDmaCtrl_wbuf (v : Word) (s : State) : (storeDmaCtrl v s).wbuf = s.wbuf := rfl
@[simp] theorem storeDmaCtrl_marks (v : Word) (s : State) : (storeDmaCtrl v s).marks = s.marks := rfl
@[simp] theorem storeDmaCtrl_regions (v : Word) (s : State) : (storeDmaCtrl v s).regions = s.regions := rfl
@[simp] theorem storeDmaCtrl_schedule (v : Word) (s : State) : (storeDmaCtrl v s).schedule = s.schedule := rfl
@[simp] theorem storeDmaCtrl_wire (v : Word) (s : State) : (storeDmaCtrl v s).wire = s.wire := rfl
@[simp] theorem storeDmaCtrl_allocAnswers (v : Word) (s : State) :
    (storeDmaCtrl v s).allocAnswers = s.allocAnswers := rfl
@[simp] theorem storeDmaCtrl_draws (v : Word) (s : State) : (storeDmaCtrl v s).draws = s.draws := rfl
@[simp] theorem storeDmaCtrl_outputs (v : Word) (s : State) : (storeDmaCtrl v s).outputs = s.outputs := rfl
@[simp] theorem storeDmaCtrl_busData (v : Word) (s : State) : (storeDmaCtrl v s).busData = s.busData := rfl

/-! ### storeThresh -/

@[simp] theorem storeThresh_params (v : Word) (s : State) : (storeThresh v s).params = s.params := rfl
@[simp] theorem storeThresh_csr (v : Word) (s : State) :
    (storeThresh v s).csr = { s.csr with dmaTxThresh := legalThresh v } := rfl
@[simp] theorem storeThresh_dma (v : Word) (s : State) : (storeThresh v s).dma = s.dma := rfl
@[simp] theorem storeThresh_tx (v : Word) (s : State) : (storeThresh v s).tx = s.tx := rfl
@[simp] theorem storeThresh_rx (v : Word) (s : State) : (storeThresh v s).rx = s.rx := rfl
@[simp] theorem storeThresh_txSlots (v : Word) (s : State) : (storeThresh v s).txSlots = s.txSlots := rfl
@[simp] theorem storeThresh_rxSlots (v : Word) (s : State) : (storeThresh v s).rxSlots = s.rxSlots := rfl
@[simp] theorem storeThresh_eff (v : Word) (s : State) : (storeThresh v s).eff = s.eff := rfl
@[simp] theorem storeThresh_dev (v : Word) (s : State) : (storeThresh v s).dev = s.dev := rfl
@[simp] theorem storeThresh_link (v : Word) (s : State) : (storeThresh v s).link = s.link := rfl
@[simp] theorem storeThresh_tun (v : Word) (s : State) : (storeThresh v s).tun = s.tun := rfl
@[simp] theorem storeThresh_stats (v : Word) (s : State) : (storeThresh v s).stats = s.stats := rfl
@[simp] theorem storeThresh_fault (v : Word) (s : State) : (storeThresh v s).fault = s.fault := rfl
@[simp] theorem storeThresh_mem (v : Word) (s : State) : (storeThresh v s).mem = s.mem := rfl
@[simp] theorem storeThresh_wbuf (v : Word) (s : State) : (storeThresh v s).wbuf = s.wbuf := rfl
@[simp] theorem storeThresh_marks (v : Word) (s : State) : (storeThresh v s).marks = s.marks := rfl
@[simp] theorem storeThresh_regions (v : Word) (s : State) : (storeThresh v s).regions = s.regions := rfl
@[simp] theorem storeThresh_schedule (v : Word) (s : State) : (storeThresh v s).schedule = s.schedule := rfl
@[simp] theorem storeThresh_wire (v : Word) (s : State) : (storeThresh v s).wire = s.wire := rfl
@[simp] theorem storeThresh_allocAnswers (v : Word) (s : State) :
    (storeThresh v s).allocAnswers = s.allocAnswers := rfl
@[simp] theorem storeThresh_draws (v : Word) (s : State) : (storeThresh v s).draws = s.draws := rfl
@[simp] theorem storeThresh_outputs (v : Word) (s : State) : (storeThresh v s).outputs = s.outputs := rfl
@[simp] theorem storeThresh_busData (v : Word) (s : State) : (storeThresh v s).busData = s.busData := rfl

/-! ### storeStatus -/

@[simp] theorem storeStatus_params (v : Word) (s : State) : (storeStatus v s).params = s.params := rfl
@[simp] theorem storeStatus_csr (v : Word) (s : State) :
    (storeStatus v s).csr = { s.csr with statusSrc := s.csr.statusSrc &&& ~~~v } := rfl
@[simp] theorem storeStatus_dma (v : Word) (s : State) : (storeStatus v s).dma = s.dma := rfl
@[simp] theorem storeStatus_tx (v : Word) (s : State) : (storeStatus v s).tx = s.tx := rfl
@[simp] theorem storeStatus_rx (v : Word) (s : State) : (storeStatus v s).rx = s.rx := rfl
@[simp] theorem storeStatus_txSlots (v : Word) (s : State) : (storeStatus v s).txSlots = s.txSlots := rfl
@[simp] theorem storeStatus_rxSlots (v : Word) (s : State) : (storeStatus v s).rxSlots = s.rxSlots := rfl
@[simp] theorem storeStatus_eff (v : Word) (s : State) : (storeStatus v s).eff = s.eff := rfl
@[simp] theorem storeStatus_dev (v : Word) (s : State) : (storeStatus v s).dev = s.dev := rfl
@[simp] theorem storeStatus_link (v : Word) (s : State) : (storeStatus v s).link = s.link := rfl
@[simp] theorem storeStatus_tun (v : Word) (s : State) : (storeStatus v s).tun = s.tun := rfl
@[simp] theorem storeStatus_stats (v : Word) (s : State) : (storeStatus v s).stats = s.stats := rfl
@[simp] theorem storeStatus_fault (v : Word) (s : State) : (storeStatus v s).fault = s.fault := rfl
@[simp] theorem storeStatus_mem (v : Word) (s : State) : (storeStatus v s).mem = s.mem := rfl
@[simp] theorem storeStatus_wbuf (v : Word) (s : State) : (storeStatus v s).wbuf = s.wbuf := rfl
@[simp] theorem storeStatus_marks (v : Word) (s : State) : (storeStatus v s).marks = s.marks := rfl
@[simp] theorem storeStatus_regions (v : Word) (s : State) : (storeStatus v s).regions = s.regions := rfl
@[simp] theorem storeStatus_schedule (v : Word) (s : State) : (storeStatus v s).schedule = s.schedule := rfl
@[simp] theorem storeStatus_wire (v : Word) (s : State) : (storeStatus v s).wire = s.wire := rfl
@[simp] theorem storeStatus_allocAnswers (v : Word) (s : State) :
    (storeStatus v s).allocAnswers = s.allocAnswers := rfl
@[simp] theorem storeStatus_draws (v : Word) (s : State) : (storeStatus v s).draws = s.draws := rfl
@[simp] theorem storeStatus_outputs (v : Word) (s : State) : (storeStatus v s).outputs = s.outputs := rfl
@[simp] theorem storeStatus_busData (v : Word) (s : State) : (storeStatus v s).busData = s.busData := rfl

/-! ### storeIer -/

@[simp] theorem storeIer_params (v : Word) (s : State) : (storeIer v s).params = s.params := rfl
@[simp] theorem storeIer_csr (v : Word) (s : State) :
    (storeIer v s).csr = { s.csr with dmaIer := v &&& ierMask } := rfl
@[simp] theorem storeIer_dma (v : Word) (s : State) : (storeIer v s).dma = s.dma := rfl
@[simp] theorem storeIer_tx (v : Word) (s : State) : (storeIer v s).tx = s.tx := rfl
@[simp] theorem storeIer_rx (v : Word) (s : State) : (storeIer v s).rx = s.rx := rfl
@[simp] theorem storeIer_txSlots (v : Word) (s : State) : (storeIer v s).txSlots = s.txSlots := rfl
@[simp] theorem storeIer_rxSlots (v : Word) (s : State) : (storeIer v s).rxSlots = s.rxSlots := rfl
@[simp] theorem storeIer_eff (v : Word) (s : State) : (storeIer v s).eff = s.eff := rfl
@[simp] theorem storeIer_dev (v : Word) (s : State) : (storeIer v s).dev = s.dev := rfl
@[simp] theorem storeIer_link (v : Word) (s : State) : (storeIer v s).link = s.link := rfl
@[simp] theorem storeIer_tun (v : Word) (s : State) : (storeIer v s).tun = s.tun := rfl
@[simp] theorem storeIer_stats (v : Word) (s : State) : (storeIer v s).stats = s.stats := rfl
@[simp] theorem storeIer_fault (v : Word) (s : State) : (storeIer v s).fault = s.fault := rfl
@[simp] theorem storeIer_mem (v : Word) (s : State) : (storeIer v s).mem = s.mem := rfl
@[simp] theorem storeIer_wbuf (v : Word) (s : State) : (storeIer v s).wbuf = s.wbuf := rfl
@[simp] theorem storeIer_marks (v : Word) (s : State) : (storeIer v s).marks = s.marks := rfl
@[simp] theorem storeIer_regions (v : Word) (s : State) : (storeIer v s).regions = s.regions := rfl
@[simp] theorem storeIer_schedule (v : Word) (s : State) : (storeIer v s).schedule = s.schedule := rfl
@[simp] theorem storeIer_wire (v : Word) (s : State) : (storeIer v s).wire = s.wire := rfl
@[simp] theorem storeIer_allocAnswers (v : Word) (s : State) : (storeIer v s).allocAnswers = s.allocAnswers := rfl
@[simp] theorem storeIer_draws (v : Word) (s : State) : (storeIer v s).draws = s.draws := rfl
@[simp] theorem storeIer_outputs (v : Word) (s : State) : (storeIer v s).outputs = s.outputs := rfl
@[simp] theorem storeIer_busData (v : Word) (s : State) : (storeIer v s).busData = s.busData := rfl

/-! ### storeMacConfig -/

@[simp] theorem storeMacConfig_params (v : Word) (s : State) : (storeMacConfig v s).params = s.params := rfl
@[simp] theorem storeMacConfig_csr (v : Word) (s : State) :
    (storeMacConfig v s).csr = { s.csr with macConfig := legalMacConfig s.params v } := rfl
@[simp] theorem storeMacConfig_dma (v : Word) (s : State) : (storeMacConfig v s).dma = s.dma := rfl
@[simp] theorem storeMacConfig_tx (v : Word) (s : State) : (storeMacConfig v s).tx = s.tx := rfl
@[simp] theorem storeMacConfig_rx (v : Word) (s : State) : (storeMacConfig v s).rx = s.rx := rfl
@[simp] theorem storeMacConfig_txSlots (v : Word) (s : State) : (storeMacConfig v s).txSlots = s.txSlots := rfl
@[simp] theorem storeMacConfig_rxSlots (v : Word) (s : State) : (storeMacConfig v s).rxSlots = s.rxSlots := rfl
@[simp] theorem storeMacConfig_eff (v : Word) (s : State) : (storeMacConfig v s).eff = s.eff := rfl
@[simp] theorem storeMacConfig_dev (v : Word) (s : State) : (storeMacConfig v s).dev = s.dev := rfl
@[simp] theorem storeMacConfig_link (v : Word) (s : State) : (storeMacConfig v s).link = s.link := rfl
@[simp] theorem storeMacConfig_tun (v : Word) (s : State) : (storeMacConfig v s).tun = s.tun := rfl
@[simp] theorem storeMacConfig_stats (v : Word) (s : State) : (storeMacConfig v s).stats = s.stats := rfl
@[simp] theorem storeMacConfig_fault (v : Word) (s : State) : (storeMacConfig v s).fault = s.fault := rfl
@[simp] theorem storeMacConfig_mem (v : Word) (s : State) : (storeMacConfig v s).mem = s.mem := rfl
@[simp] theorem storeMacConfig_wbuf (v : Word) (s : State) : (storeMacConfig v s).wbuf = s.wbuf := rfl
@[simp] theorem storeMacConfig_marks (v : Word) (s : State) : (storeMacConfig v s).marks = s.marks := rfl
@[simp] theorem storeMacConfig_regions (v : Word) (s : State) : (storeMacConfig v s).regions = s.regions := rfl
@[simp] theorem storeMacConfig_schedule (v : Word) (s : State) : (storeMacConfig v s).schedule = s.schedule := rfl
@[simp] theorem storeMacConfig_wire (v : Word) (s : State) : (storeMacConfig v s).wire = s.wire := rfl
@[simp] theorem storeMacConfig_allocAnswers (v : Word) (s : State) :
    (storeMacConfig v s).allocAnswers = s.allocAnswers := rfl
@[simp] theorem storeMacConfig_draws (v : Word) (s : State) : (storeMacConfig v s).draws = s.draws := rfl
@[simp] theorem storeMacConfig_outputs (v : Word) (s : State) : (storeMacConfig v s).outputs = s.outputs := rfl
@[simp] theorem storeMacConfig_busData (v : Word) (s : State) : (storeMacConfig v s).busData = s.busData := rfl

/-! ### storeMacFlow -/

@[simp] theorem storeMacFlow_params (v : Word) (s : State) : (storeMacFlow v s).params = s.params := rfl
@[simp] theorem storeMacFlow_csr (v : Word) (s : State) :
    (storeMacFlow v s).csr = { s.csr with macFlow := v &&& 0xFFFF_0003 } := rfl
@[simp] theorem storeMacFlow_dma (v : Word) (s : State) : (storeMacFlow v s).dma = s.dma := rfl
@[simp] theorem storeMacFlow_tx (v : Word) (s : State) : (storeMacFlow v s).tx = s.tx := rfl
@[simp] theorem storeMacFlow_rx (v : Word) (s : State) : (storeMacFlow v s).rx = s.rx := rfl
@[simp] theorem storeMacFlow_txSlots (v : Word) (s : State) : (storeMacFlow v s).txSlots = s.txSlots := rfl
@[simp] theorem storeMacFlow_rxSlots (v : Word) (s : State) : (storeMacFlow v s).rxSlots = s.rxSlots := rfl
@[simp] theorem storeMacFlow_eff (v : Word) (s : State) : (storeMacFlow v s).eff = s.eff := rfl
@[simp] theorem storeMacFlow_dev (v : Word) (s : State) : (storeMacFlow v s).dev = s.dev := rfl
@[simp] theorem storeMacFlow_link (v : Word) (s : State) : (storeMacFlow v s).link = s.link := rfl
@[simp] theorem storeMacFlow_tun (v : Word) (s : State) : (storeMacFlow v s).tun = s.tun := rfl
@[simp] theorem storeMacFlow_stats (v : Word) (s : State) : (storeMacFlow v s).stats = s.stats := rfl
@[simp] theorem storeMacFlow_fault (v : Word) (s : State) : (storeMacFlow v s).fault = s.fault := rfl
@[simp] theorem storeMacFlow_mem (v : Word) (s : State) : (storeMacFlow v s).mem = s.mem := rfl
@[simp] theorem storeMacFlow_wbuf (v : Word) (s : State) : (storeMacFlow v s).wbuf = s.wbuf := rfl
@[simp] theorem storeMacFlow_marks (v : Word) (s : State) : (storeMacFlow v s).marks = s.marks := rfl
@[simp] theorem storeMacFlow_regions (v : Word) (s : State) : (storeMacFlow v s).regions = s.regions := rfl
@[simp] theorem storeMacFlow_schedule (v : Word) (s : State) : (storeMacFlow v s).schedule = s.schedule := rfl
@[simp] theorem storeMacFlow_wire (v : Word) (s : State) : (storeMacFlow v s).wire = s.wire := rfl
@[simp] theorem storeMacFlow_allocAnswers (v : Word) (s : State) :
    (storeMacFlow v s).allocAnswers = s.allocAnswers := rfl
@[simp] theorem storeMacFlow_draws (v : Word) (s : State) : (storeMacFlow v s).draws = s.draws := rfl
@[simp] theorem storeMacFlow_outputs (v : Word) (s : State) : (storeMacFlow v s).outputs = s.outputs := rfl
@[simp] theorem storeMacFlow_busData (v : Word) (s : State) : (storeMacFlow v s).busData = s.busData := rfl

/-! ### storePmt -/

@[simp] theorem storePmt_params (v : Word) (s : State) : (storePmt v s).params = s.params := rfl
@[simp] theorem storePmt_csr (v : Word) (s : State) : (storePmt v s).csr = { s.csr with pmt := v &&& 7 } := rfl
@[simp] theorem storePmt_dma (v : Word) (s : State) : (storePmt v s).dma = s.dma := rfl
@[simp] theorem storePmt_tx (v : Word) (s : State) : (storePmt v s).tx = s.tx := rfl
@[simp] theorem storePmt_rx (v : Word) (s : State) : (storePmt v s).rx = s.rx := rfl
@[simp] theorem storePmt_txSlots (v : Word) (s : State) : (storePmt v s).txSlots = s.txSlots := rfl
@[simp] theorem storePmt_rxSlots (v : Word) (s : State) : (storePmt v s).rxSlots = s.rxSlots := rfl
@[simp] theorem storePmt_eff (v : Word) (s : State) : (storePmt v s).eff = s.eff := rfl
@[simp] theorem storePmt_dev (v : Word) (s : State) : (storePmt v s).dev = s.dev := rfl
@[simp] theorem storePmt_link (v : Word) (s : State) : (storePmt v s).link = s.link := rfl
@[simp] theorem storePmt_tun (v : Word) (s : State) : (storePmt v s).tun = s.tun := rfl
@[simp] theorem storePmt_stats (v : Word) (s : State) : (storePmt v s).stats = s.stats := rfl
@[simp] theorem storePmt_fault (v : Word) (s : State) : (storePmt v s).fault = s.fault := rfl
@[simp] theorem storePmt_mem (v : Word) (s : State) : (storePmt v s).mem = s.mem := rfl
@[simp] theorem storePmt_wbuf (v : Word) (s : State) : (storePmt v s).wbuf = s.wbuf := rfl
@[simp] theorem storePmt_marks (v : Word) (s : State) : (storePmt v s).marks = s.marks := rfl
@[simp] theorem storePmt_regions (v : Word) (s : State) : (storePmt v s).regions = s.regions := rfl
@[simp] theorem storePmt_schedule (v : Word) (s : State) : (storePmt v s).schedule = s.schedule := rfl
@[simp] theorem storePmt_wire (v : Word) (s : State) : (storePmt v s).wire = s.wire := rfl
@[simp] theorem storePmt_allocAnswers (v : Word) (s : State) : (storePmt v s).allocAnswers = s.allocAnswers := rfl
@[simp] theorem storePmt_draws (v : Word) (s : State) : (storePmt v s).draws = s.draws := rfl
@[simp] theorem storePmt_outputs (v : Word) (s : State) : (storePmt v s).outputs = s.outputs := rfl
@[simp] theorem storePmt_busData (v : Word) (s : State) : (storePmt v s).busData = s.busData := rfl

/-! ### latch -/

@[simp] theorem latch_params (b : Source) (s : State) : (latch b s).params = s.params := rfl
@[simp] theorem latch_csr (b : Source) (s : State) :
    (latch b s).csr = { s.csr with statusSrc := s.csr.statusSrc ||| oneBit b.pos } := rfl
@[simp] theorem latch_dma (b : Source) (s : State) : (latch b s).dma = s.dma := rfl
@[simp] theorem latch_tx (b : Source) (s : State) : (latch b s).tx = s.tx := rfl
@[simp] theorem latch_rx (b : Source) (s : State) : (latch b s).rx = s.rx := rfl
@[simp] theorem latch_txSlots (b : Source) (s : State) : (latch b s).txSlots = s.txSlots := rfl
@[simp] theorem latch_rxSlots (b : Source) (s : State) : (latch b s).rxSlots = s.rxSlots := rfl
@[simp] theorem latch_eff (b : Source) (s : State) : (latch b s).eff = s.eff := rfl
@[simp] theorem latch_dev (b : Source) (s : State) : (latch b s).dev = s.dev := rfl
@[simp] theorem latch_link (b : Source) (s : State) : (latch b s).link = s.link := rfl
@[simp] theorem latch_tun (b : Source) (s : State) : (latch b s).tun = s.tun := rfl
@[simp] theorem latch_stats (b : Source) (s : State) : (latch b s).stats = s.stats := rfl
@[simp] theorem latch_fault (b : Source) (s : State) : (latch b s).fault = s.fault := rfl
@[simp] theorem latch_mem (b : Source) (s : State) : (latch b s).mem = s.mem := rfl
@[simp] theorem latch_wbuf (b : Source) (s : State) : (latch b s).wbuf = s.wbuf := rfl
@[simp] theorem latch_marks (b : Source) (s : State) : (latch b s).marks = s.marks := rfl
@[simp] theorem latch_regions (b : Source) (s : State) : (latch b s).regions = s.regions := rfl
@[simp] theorem latch_schedule (b : Source) (s : State) : (latch b s).schedule = s.schedule := rfl
@[simp] theorem latch_wire (b : Source) (s : State) : (latch b s).wire = s.wire := rfl
@[simp] theorem latch_allocAnswers (b : Source) (s : State) : (latch b s).allocAnswers = s.allocAnswers := rfl
@[simp] theorem latch_draws (b : Source) (s : State) : (latch b s).draws = s.draws := rfl
@[simp] theorem latch_outputs (b : Source) (s : State) : (latch b s).outputs = s.outputs := rfl
@[simp] theorem latch_busData (b : Source) (s : State) : (latch b s).busData = s.busData := rfl

/-! ### takeArrival -/

@[simp] theorem takeArrival_params (s : State) : (takeArrival s).params = s.params := rfl
@[simp] theorem takeArrival_csr (s : State) : (takeArrival s).csr = s.csr := rfl
@[simp] theorem takeArrival_dma (s : State) : (takeArrival s).dma = s.dma := rfl
@[simp] theorem takeArrival_tx (s : State) : (takeArrival s).tx = s.tx := rfl
@[simp] theorem takeArrival_rx (s : State) : (takeArrival s).rx = s.rx := rfl
@[simp] theorem takeArrival_txSlots (s : State) : (takeArrival s).txSlots = s.txSlots := rfl
@[simp] theorem takeArrival_rxSlots (s : State) : (takeArrival s).rxSlots = s.rxSlots := rfl
@[simp] theorem takeArrival_eff (s : State) : (takeArrival s).eff = s.eff := rfl
@[simp] theorem takeArrival_dev (s : State) : (takeArrival s).dev = s.dev := rfl
@[simp] theorem takeArrival_link (s : State) : (takeArrival s).link = s.link := rfl
@[simp] theorem takeArrival_tun (s : State) : (takeArrival s).tun = s.tun := rfl
@[simp] theorem takeArrival_stats (s : State) : (takeArrival s).stats = s.stats := rfl
@[simp] theorem takeArrival_fault (s : State) : (takeArrival s).fault = s.fault := rfl
@[simp] theorem takeArrival_mem (s : State) : (takeArrival s).mem = s.mem := rfl
@[simp] theorem takeArrival_wbuf (s : State) : (takeArrival s).wbuf = s.wbuf := rfl
@[simp] theorem takeArrival_marks (s : State) : (takeArrival s).marks = s.marks := rfl
@[simp] theorem takeArrival_regions (s : State) : (takeArrival s).regions = s.regions := rfl
@[simp] theorem takeArrival_schedule (s : State) : (takeArrival s).schedule = s.schedule := rfl
@[simp] theorem takeArrival_wire (s : State) : (takeArrival s).wire = s.wire.drop 1 := rfl
@[simp] theorem takeArrival_allocAnswers (s : State) : (takeArrival s).allocAnswers = s.allocAnswers := rfl
@[simp] theorem takeArrival_draws (s : State) : (takeArrival s).draws = s.draws := rfl
@[simp] theorem takeArrival_outputs (s : State) : (takeArrival s).outputs = s.outputs := rfl
@[simp] theorem takeArrival_busData (s : State) : (takeArrival s).busData = s.busData := rfl

end Sys2Proof.Machine
end

