-- ==== Sys2Proof/Laws/Keeps.lean ====
section
/-! SUPPORT. What the shared operations keep, said once for each: the registers' legality, the canonical form of memory,
the arguments and results of commands, the schedule, and a fault once raised; and which of them touch neither
the rings' sizes and cursors nor the lifecycle flags. -/

namespace Sys2Proof.Machine

open Sys2Proof

/-- The command interface's registers and the platform are the same (R8, R50). -/
structure SameInterface (s t : State) : Prop where
  params : t.params = s.params
  arg0 : t.csr.arg0 = s.csr.arg0
  arg1 : t.csr.arg1 = s.csr.arg1
  arg2 : t.csr.arg2 = s.csr.arg2
  arg3 : t.csr.arg3 = s.csr.arg3
  result : t.csr.result = s.csr.result
  result1 : t.csr.result1 = s.csr.result1
  schedule : t.schedule = s.schedule
  busData : t.busData = s.busData

/-- What every operation inside a step keeps. -/
structure Keeps (s t : State) : Prop extends SameInterface s t where
  mem : s.memLegal → t.memLegal
  regs : s.regsLegal → t.regsLegal
  fault : ∀ f, s.fault = some f → t.fault = some f

/-- The rings' software state and the lifecycle flags are the same, and no slot is added or removed. -/
structure SameRings (s t : State) : Prop where
  tx : t.tx = s.tx
  rx : t.rx = s.rx
  txLen : t.txSlots.length = s.txSlots.length
  rxLen : t.rxSlots.length = s.rxSlots.length
  dev : t.dev = s.dev
  eff : t.eff = s.eff

theorem Keeps.refl (s : State) : Keeps s s :=
  ⟨⟨rfl, rfl, rfl, rfl, rfl, rfl, rfl, rfl, rfl⟩, id, id, fun _ h => h⟩

theorem SameRings.refl (s : State) : SameRings s s := ⟨rfl, rfl, rfl, rfl, rfl, rfl⟩

theorem Keeps.trans {s t u : State} (h : Keeps s t) (k : Keeps t u) : Keeps s u where
  params := k.params.trans h.params
  arg0 := k.arg0.trans h.arg0
  arg1 := k.arg1.trans h.arg1
  arg2 := k.arg2.trans h.arg2
  arg3 := k.arg3.trans h.arg3
  result := k.result.trans h.result
  result1 := k.result1.trans h.result1
  schedule := k.schedule.trans h.schedule
  busData := k.busData.trans h.busData
  mem := k.mem ∘ h.mem
  regs := k.regs ∘ h.regs
  fault f hf := k.fault f (h.fault f hf)

theorem SameRings.trans {s t u : State} (h : SameRings s t) (k : SameRings t u) : SameRings s u :=
  ⟨k.tx.trans h.tx, k.rx.trans h.rx, k.txLen.trans h.txLen, k.rxLen.trans h.rxLen, k.dev.trans h.dev,
    k.eff.trans h.eff⟩

/-- An operation that writes no register and no DMA state keeps what has to be kept. -/
theorem Keeps.of_same {s t : State} (hp : t.params = s.params) (hc : t.csr = s.csr) (hd : t.dma = s.dma)
    (hs : t.schedule = s.schedule) (hb : t.busData = s.busData) (htx : t.tx.base = s.tx.base)
    (hrx : t.rx.base = s.rx.base) (hm : s.memLegal → t.memLegal) (hf : ∀ f, s.fault = some f → t.fault = some f) :
    Keeps s t where
  params := hp
  arg0 := by rw [hc]
  arg1 := by rw [hc]
  arg2 := by rw [hc]
  arg3 := by rw [hc]
  result := by rw [hc]
  result1 := by rw [hc]
  schedule := hs
  busData := hb
  mem := hm
  regs h := ⟨by rw [hp, hc]; exact h.csr, ⟨by rw [hc, hd]; exact h.start.tx, by rw [hc, hd]; exact h.start.rx⟩,
    by rw [htx, hrx]; exact h.bases⟩
  fault := hf

/-! ### Operations on memory, marks, regions and slots -/

theorem raise_fault (f : Fault) (s : State) : (raise f s).fault = some (s.fault.getD f) := by
  unfold raise
  split <;> simp_all

theorem raise_keeps (f : Fault) (s : State) : Keeps s (raise f s) := by
  unfold raise
  split
  · rename_i h
    exact .of_same rfl rfl rfl rfl rfl rfl rfl id fun g hg => by rw [h] at hg; cases hg
  · exact .refl s

theorem raise_rings (f : Fault) (s : State) : SameRings s (raise f s) := by
  unfold raise
  split
  · exact ⟨rfl, rfl, rfl, rfl, rfl, rfl⟩
  · exact .refl s

theorem raiseIf_keeps (f : Option Fault) (s : State) : Keeps s (raiseIf f s) := by
  cases f
  · exact .refl s
  · exact raise_keeps _ s

theorem raiseIf_rings (f : Option Fault) (s : State) : SameRings s (raiseIf f s) := by
  cases f
  · exact .refl s
  · exact raise_rings _ s

theorem descFence_keeps (s : State) : Keeps s (descFence s) :=
  .of_same rfl rfl rfl rfl rfl rfl rfl (fun h => descFence_wf h) fun _ h => h

theorem descFence_rings (s : State) : SameRings s (descFence s) := ⟨rfl, rfl, rfl, rfl, rfl, rfl⟩

theorem pushWrite_keeps (a : Word) (bs : List Byte) (s : State) : Keeps s (pushWrite a bs s) :=
  .of_same rfl rfl rfl rfl rfl rfl rfl id fun _ h => h

theorem pushWrite_rings (a : Word) (bs : List Byte) (s : State) : SameRings s (pushWrite a bs s) :=
  ⟨rfl, rfl, rfl, rfl, rfl, rfl⟩

theorem drainOne_keeps (k : Nat) (s : State) : Keeps s (drainOne k s) := by
  have hm : s.memLegal → (drainOne k s).memLegal := fun h => drainOne_wf h
  unfold drainOne at *
  split
  · exact .refl s
  · rename_i e he
    simp only [he] at hm
    exact .of_same rfl rfl rfl rfl rfl rfl rfl hm fun _ h => h

theorem drainOne_rings (k : Nat) (s : State) : SameRings s (drainOne k s) := by
  unfold drainOne
  split
  · exact .refl s
  · exact ⟨rfl, rfl, rfl, rfl, rfl, rfl⟩

theorem setTxSlot_keeps (i : Nat) (x : TxSlot) (s : State) : Keeps s (s.setTxSlot i x) :=
  .of_same rfl rfl rfl rfl rfl rfl rfl id fun _ h => h

theorem setTxSlot_rings (i : Nat) (x : TxSlot) (s : State) : SameRings s (s.setTxSlot i x) :=
  ⟨rfl, rfl, List.length_set, rfl, rfl, rfl⟩

theorem setRxSlot_keeps (i : Nat) (x : RxSlot) (s : State) : Keeps s (s.setRxSlot i x) :=
  .of_same rfl rfl rfl rfl rfl rfl rfl id fun _ h => h

theorem setRxSlot_rings (i : Nat) (x : RxSlot) (s : State) : SameRings s (s.setRxSlot i x) :=
  ⟨rfl, rfl, rfl, List.length_set, rfl, rfl⟩

theorem setPub_keeps (r : RingSel) (i : Nat) (b : Bool) (s : State) : Keeps s (s.setPub r i b) := by
  cases r
  · exact setTxSlot_keeps _ _ s
  · exact setRxSlot_keeps _ _ s

theorem setPub_rings (r : RingSel) (i : Nat) (b : Bool) (s : State) : SameRings s (s.setPub r i b) := by
  cases r
  · exact setTxSlot_rings _ _ s
  · exact setRxSlot_rings _ _ s

theorem addRegion_keeps (a : Word) (n : Nat) (s : State) : Keeps s (addRegion a n s) := by
  unfold addRegion
  split
  · exact .refl s
  · exact .of_same rfl rfl rfl rfl rfl rfl rfl id fun _ h => h

theorem addRegion_rings (a : Word) (n : Nat) (s : State) : SameRings s (addRegion a n s) := by
  unfold addRegion
  split
  · exact .refl s
  · exact ⟨rfl, rfl, rfl, rfl, rfl, rfl⟩

theorem mapBuf_keeps (a : Word) (n : Nat) (s : State) : Keeps s (mapBuf a n s) :=
  (descFence_keeps s).trans ((addRegion_keeps a n _).trans (.of_same rfl rfl rfl rfl rfl rfl rfl id fun _ h => h))

theorem mapBuf_rings (a : Word) (n : Nat) (s : State) : SameRings s (mapBuf a n s) :=
  (descFence_rings s).trans ((addRegion_rings a n _).trans ⟨rfl, rfl, rfl, rfl, rfl, rfl⟩)

theorem unmapBuf_keeps (a : Word) (n : Nat) (s : State) : Keeps s (unmapBuf a n s) :=
  .of_same rfl rfl rfl rfl rfl rfl rfl id fun _ h => h

theorem unmapBuf_rings (a : Word) (n : Nat) (s : State) : SameRings s (unmapBuf a n s) :=
  ⟨rfl, rfl, rfl, rfl, rfl, rfl⟩

theorem unmapIf_keeps (a : Option Word) (n : Nat) (s : State) : Keeps s (unmapIf a n s) := by
  cases a
  · exact .refl s
  · exact unmapBuf_keeps _ _ s

theorem unmapIf_rings (a : Option Word) (n : Nat) (s : State) : SameRings s (unmapIf a n s) := by
  cases a
  · exact .refl s
  · exact unmapBuf_rings _ _ s

theorem output_keeps (o : Output) (s : State) : Keeps s (output o s) :=
  .of_same rfl rfl rfl rfl rfl rfl rfl id fun _ h => h

theorem output_rings (o : Output) (s : State) : SameRings s (output o s) := ⟨rfl, rfl, rfl, rfl, rfl, rfl⟩

theorem releasePkt_keeps (p : Option Word) (s : State) : Keeps s (releasePkt p s) := by
  cases p
  · exact .refl s
  · exact output_keeps _ s

theorem releasePkt_rings (p : Option Word) (s : State) : SameRings s (releasePkt p s) := by
  cases p
  · exact .refl s
  · exact output_rings _ s

theorem drawAnswer_keeps (s : State) : Keeps s (drawAnswer s).2 := by
  unfold drawAnswer
  split <;> exact .of_same rfl rfl rfl rfl rfl rfl rfl id fun _ h => h

theorem drawAnswer_rings (s : State) : SameRings s (drawAnswer s).2 := by
  unfold drawAnswer
  split <;> exact ⟨rfl, rfl, rfl, rfl, rfl, rfl⟩

theorem drawFresh_snd (align len : Nat) (s : State) : (drawFresh align len s).2 = (drawAnswer s).2 := by
  simp only [drawFresh]
  split <;> rfl

theorem drawFresh_keeps (align len : Nat) (s : State) : Keeps s (drawFresh align len s).2 := by
  rw [drawFresh_snd]
  exact drawAnswer_keeps s

theorem drawFresh_rings (align len : Nat) (s : State) : SameRings s (drawFresh align len s).2 := by
  rw [drawFresh_snd]
  exact drawAnswer_rings s

/-- An address a draw gives is fresh and aligned. -/
theorem drawFresh_some {align len : Nat} {s : State} {a : Word} (h : (drawFresh align len s).1 = some a) :
    (drawAnswer s).2.fresh align a len = true := by
  simp only [drawFresh] at h
  split at h
  · split at h
    · rename_i hf
      obtain rfl := Option.some.inj h
      exact hf
    · cases h
  · cases h

theorem allocBuf_keeps (len : Nat) (s : State) : Keeps s (allocBuf len s).2 := by
  simp only [allocBuf]
  split
  · exact (drawFresh_keeps 4 len s).trans (.of_same rfl rfl rfl rfl rfl rfl rfl id fun _ h => h)
  · exact drawFresh_keeps 4 len s

theorem allocBuf_rings (len : Nat) (s : State) : SameRings s (allocBuf len s).2 := by
  simp only [allocBuf]
  split
  · exact (drawFresh_rings 4 len s).trans ⟨rfl, rfl, rfl, rfl, rfl, rfl⟩
  · exact drawFresh_rings 4 len s

theorem freeBuf_keeps (b : Word) (s : State) : Keeps s (freeBuf b s) :=
  .of_same rfl rfl rfl rfl rfl rfl rfl id fun _ h => h

theorem freeBuf_rings (b : Word) (s : State) : SameRings s (freeBuf b s) := ⟨rfl, rfl, rfl, rfl, rfl, rfl⟩

theorem giveToUpper_keeps (b : Word) (s : State) : Keeps s (giveToUpper b s) :=
  .of_same rfl rfl rfl rfl rfl rfl rfl id fun _ h => h

theorem giveToUpper_rings (b : Word) (s : State) : SameRings s (giveToUpper b s) := ⟨rfl, rfl, rfl, rfl, rfl, rfl⟩

/-! ### Descriptor words -/

theorem readDesc_keeps (r : RingSel) (i k : Nat) (s : State) : Keeps s (readDesc r i k s) := by
  simp only [readDesc]
  repeat' split
  all_goals first | exact raise_keeps _ s | exact .refl s

theorem readDesc_rings (r : RingSel) (i k : Nat) (s : State) : SameRings s (readDesc r i k s) := by
  simp only [readDesc]
  repeat' split
  all_goals first | exact raise_rings _ s | exact .refl s

theorem writeDesc_keeps (r : RingSel) (i k : Nat) (v : Word) (s : State) : Keeps s (writeDesc r i k v s) := by
  simp only [writeDesc]
  repeat' split
  all_goals first
    | exact raise_keeps _ s
    | exact (pushWrite_keeps _ _ s).trans (setPub_keeps _ _ _ _)
    | exact pushWrite_keeps _ _ s

theorem writeDesc_rings (r : RingSel) (i k : Nat) (v : Word) (s : State) : SameRings s (writeDesc r i k v s) := by
  simp only [writeDesc]
  repeat' split
  all_goals first
    | exact raise_rings _ s
    | exact (pushWrite_rings _ _ s).trans (setPub_rings _ _ _ _)
    | exact pushWrite_rings _ _ s

theorem publish_keeps (r : RingSel) (i : Nat) (s : State) : Keeps s (publish r i s) :=
  (descFence_keeps s).trans (writeDesc_keeps _ _ _ _ _)

theorem publish_rings (r : RingSel) (i : Nat) (s : State) : SameRings s (publish r i s) :=
  (descFence_rings s).trans (writeDesc_rings _ _ _ _ _)

theorem wipeDesc_keeps (r : RingSel) (i k : Nat) (v : Word) (s : State) : Keeps s (wipeDesc r i k v s) :=
  pushWrite_keeps _ _ s

theorem wipeDesc_rings (r : RingSel) (i k : Nat) (v : Word) (s : State) : SameRings s (wipeDesc r i k v s) :=
  pushWrite_rings _ _ s

theorem publishSlots_keeps (s0 s : State) : Keeps s (publishSlots s0 s) :=
  .of_same rfl rfl rfl rfl rfl rfl rfl id fun _ h => h

theorem publishSlots_rings (s0 s : State) : SameRings s (publishSlots s0 s) :=
  ⟨rfl, rfl, List.length_mapIdx, List.length_mapIdx, rfl, rfl⟩

theorem writeRun_keeps (a : Word) (bs : List Byte) (s : State) : Keeps s (writeRun a bs s) :=
  (pushWrite_keeps a bs s).trans ((publishSlots_keeps s _).trans ((raiseIf_keeps _ _).trans (raiseIf_keeps _ _)))

theorem writeRun_rings (a : Word) (bs : List Byte) (s : State) : SameRings s (writeRun a bs s) :=
  (pushWrite_rings a bs s).trans ((publishSlots_rings s _).trans ((raiseIf_rings _ _).trans (raiseIf_rings _ _)))

/-! ### Registers -/

/-- A change of the registers alone, to legal ones that leave the command interface. -/
theorem Keeps.of_csr {s t : State} (hp : t.params = s.params)
    (ha : t.csr.arg0 = s.csr.arg0 ∧ t.csr.arg1 = s.csr.arg1 ∧ t.csr.arg2 = s.csr.arg2 ∧ t.csr.arg3 = s.csr.arg3)
    (hr : t.csr.result = s.csr.result ∧ t.csr.result1 = s.csr.result1) (hs : t.schedule = s.schedule)
    (hb : t.busData = s.busData) (hm : t.mem = s.mem) (hf : t.fault = s.fault)
    (hl : s.regsLegal → t.regsLegal) : Keeps s t where
  params := hp
  arg0 := ha.1
  arg1 := ha.2.1
  arg2 := ha.2.2.1
  arg3 := ha.2.2.2
  result := hr.1
  result1 := hr.2
  schedule := hs
  busData := hb
  mem h := by simpa [State.memLegal, hm] using h
  regs := hl
  fault f h := by rw [hf, h]

theorem procAfter_stopped {p : ProcState} {old : Bool} (new : Bool) (h : old = false ↔ p = .stopped) :
    new = false ↔ procAfter p old new = .stopped := by
  cases old <;> cases new <;> simp_all [procAfter]

theorem storeDmaCtrl_keeps (v : Word) (s : State) : Keeps s (storeDmaCtrl v s) := by
  refine .of_csr rfl ⟨rfl, rfl, rfl, rfl⟩ ⟨rfl, rfl⟩ rfl rfl rfl rfl fun h => ?_
  obtain ⟨h1, h2, h3, h4⟩ := legalDmaCtrl_spec s.csr.dmaCtrl v
  exact ⟨{ h.csr with dmaCtrl := h1, pbl := h2 },
    ⟨by simpa [h3] using procAfter_stopped _ h.start.tx, by simpa [h4] using procAfter_stopped _ h.start.rx⟩, h.bases⟩

theorem storeThresh_keeps (v : Word) (s : State) : Keeps s (storeThresh v s) :=
  .of_csr rfl ⟨rfl, rfl, rfl, rfl⟩ ⟨rfl, rfl⟩ rfl rfl rfl rfl fun h =>
    ⟨{ h.csr with thresh := legalThresh_spec v }, ⟨h.start.tx, h.start.rx⟩, h.bases⟩

theorem storeStatus_keeps (v : Word) (s : State) : Keeps s (storeStatus v s) :=
  .of_csr rfl ⟨rfl, rfl, rfl, rfl⟩ ⟨rfl, rfl⟩ rfl rfl rfl rfl fun h =>
    ⟨{ h.csr with source := and_and_zero _ h.csr.source }, ⟨h.start.tx, h.start.rx⟩, h.bases⟩

theorem storeIer_keeps (v : Word) (s : State) : Keeps s (storeIer v s) :=
  .of_csr rfl ⟨rfl, rfl, rfl, rfl⟩ ⟨rfl, rfl⟩ rfl rfl rfl rfl fun h =>
    ⟨{ h.csr with enables := and_disjoint v (by decide) }, ⟨h.start.tx, h.start.rx⟩, h.bases⟩

theorem storeTxBase_keeps (v : Word) (s : State) : Keeps s (storeTxBase v s) := by
  unfold storeTxBase
  split
  · exact .of_csr rfl ⟨rfl, rfl, rfl, rfl⟩ ⟨rfl, rfl⟩ rfl rfl rfl rfl fun h =>
      ⟨h.csr, ⟨h.start.tx, h.start.rx⟩, ⟨and_disjoint v (by decide), h.bases.2⟩⟩
  · exact .refl s

theorem storeRxBase_keeps (v : Word) (s : State) : Keeps s (storeRxBase v s) := by
  unfold storeRxBase
  split
  · exact .of_csr rfl ⟨rfl, rfl, rfl, rfl⟩ ⟨rfl, rfl⟩ rfl rfl rfl rfl fun h =>
      ⟨h.csr, ⟨h.start.tx, h.start.rx⟩, ⟨h.bases.1, and_disjoint v (by decide)⟩⟩
  · exact .refl s

theorem resumed_stopped (p : ProcState) : resumed p = .stopped ↔ p = .stopped := by cases p <;> simp [resumed]

theorem storeTxPoll_keeps (s : State) : Keeps s (storeTxPoll s) :=
  .of_csr rfl ⟨rfl, rfl, rfl, rfl⟩ ⟨rfl, rfl⟩ rfl rfl rfl rfl fun h =>
    ⟨h.csr, ⟨h.start.tx.trans (resumed_stopped _).symm, h.start.rx⟩, h.bases⟩

theorem storeRxPoll_keeps (s : State) : Keeps s (storeRxPoll s) :=
  .of_csr rfl ⟨rfl, rfl, rfl, rfl⟩ ⟨rfl, rfl⟩ rfl rfl rfl rfl fun h =>
    ⟨h.csr, ⟨h.start.tx, h.start.rx.trans (resumed_stopped _).symm⟩, h.bases⟩

theorem storeMacConfig_keeps (v : Word) (s : State) : Keeps s (storeMacConfig v s) := by
  obtain ⟨h1, h2, h3⟩ := legalMacConfig_spec s.params v
  exact .of_csr rfl ⟨rfl, rfl, rfl, rfl⟩ ⟨rfl, rfl⟩ rfl rfl rfl rfl fun h =>
    ⟨{ h.csr with macConfig := h1, portSelect := h2, offload := h3 }, ⟨h.start.tx, h.start.rx⟩, h.bases⟩

theorem storeMacFlow_keeps (v : Word) (s : State) : Keeps s (storeMacFlow v s) :=
  .of_csr rfl ⟨rfl, rfl, rfl, rfl⟩ ⟨rfl, rfl⟩ rfl rfl rfl rfl fun h =>
    ⟨{ h.csr with macFlow := and_disjoint v (by decide) }, ⟨h.start.tx, h.start.rx⟩, h.bases⟩

theorem storeMacAddrHi_keeps (v : Word) (s : State) : Keeps s (storeMacAddrHi v s) :=
  .of_csr rfl ⟨rfl, rfl, rfl, rfl⟩ ⟨rfl, rfl⟩ rfl rfl rfl rfl fun h =>
    ⟨{ h.csr with macAddrHi := and_disjoint v (by decide) }, ⟨h.start.tx, h.start.rx⟩, h.bases⟩

theorem storeMacAddrLo_keeps (v : Word) (s : State) : Keeps s (storeMacAddrLo v s) :=
  .of_csr rfl ⟨rfl, rfl, rfl, rfl⟩ ⟨rfl, rfl⟩ rfl rfl rfl rfl fun h => ⟨{ h.csr with }, ⟨h.start.tx, h.start.rx⟩, h.bases⟩

theorem storeHashHi_keeps (v : Word) (s : State) : Keeps s (storeHashHi v s) :=
  .of_csr rfl ⟨rfl, rfl, rfl, rfl⟩ ⟨rfl, rfl⟩ rfl rfl rfl rfl fun h => ⟨{ h.csr with }, ⟨h.start.tx, h.start.rx⟩, h.bases⟩

theorem storeHashLo_keeps (v : Word) (s : State) : Keeps s (storeHashLo v s) :=
  .of_csr rfl ⟨rfl, rfl, rfl, rfl⟩ ⟨rfl, rfl⟩ rfl rfl rfl rfl fun h => ⟨{ h.csr with }, ⟨h.start.tx, h.start.rx⟩, h.bases⟩

theorem storeFilter_keeps (v : Word) (s : State) : Keeps s (storeFilter v s) :=
  .of_csr rfl ⟨rfl, rfl, rfl, rfl⟩ ⟨rfl, rfl⟩ rfl rfl rfl rfl fun h =>
    ⟨{ h.csr with frameFilter := and_disjoint v (by decide) }, ⟨h.start.tx, h.start.rx⟩, h.bases⟩

theorem storePmt_keeps (v : Word) (s : State) : Keeps s (storePmt v s) :=
  .of_csr rfl ⟨rfl, rfl, rfl, rfl⟩ ⟨rfl, rfl⟩ rfl rfl rfl rfl fun h =>
    ⟨{ h.csr with pmt := and_disjoint v (by decide) }, ⟨h.start.tx, h.start.rx⟩, h.bases⟩

theorem wrDmaCtrl_keeps (v : Word) (s : State) : Keeps s (wrDmaCtrl v s) :=
  (descFence_keeps s).trans (storeDmaCtrl_keeps _ _)

theorem wrThresh_keeps (v : Word) (s : State) : Keeps s (wrThresh v s) :=
  (descFence_keeps s).trans (storeThresh_keeps _ _)

theorem wrStatus_keeps (v : Word) (s : State) : Keeps s (wrStatus v s) :=
  (descFence_keeps s).trans (storeStatus_keeps _ _)

theorem wrIer_keeps (v : Word) (s : State) : Keeps s (wrIer v s) := (descFence_keeps s).trans (storeIer_keeps _ _)

theorem wrMacConfig_keeps (v : Word) (s : State) : Keeps s (wrMacConfig v s) :=
  (descFence_keeps s).trans (storeMacConfig_keeps _ _)

theorem wrMacFlow_keeps (v : Word) (s : State) : Keeps s (wrMacFlow v s) :=
  (descFence_keeps s).trans (storeMacFlow_keeps _ _)

theorem wrPmt_keeps (v : Word) (s : State) : Keeps s (wrPmt v s) := (descFence_keeps s).trans (storePmt_keeps _ _)

theorem wrBase_keeps (r : RingSel) (v : Word) (s : State) : Keeps s (wrBase r v s) := by
  cases r
  · exact (descFence_keeps s).trans (storeTxBase_keeps _ _)
  · exact (descFence_keeps s).trans (storeRxBase_keeps _ _)

theorem wrPoll_keeps (r : RingSel) (s : State) : Keeps s (wrPoll r s) := by
  cases r
  · exact (descFence_keeps s).trans (storeTxPoll_keeps _)
  · exact (descFence_keeps s).trans (storeRxPoll_keeps _)

theorem wrStart_keeps (r : RingSel) (b : Bool) (s : State) : Keeps s (wrStart r b s) := wrDmaCtrl_keeps _ s

theorem wrMacEnable_keeps (r : RingSel) (b : Bool) (s : State) : Keeps s (wrMacEnable r b s) := wrMacConfig_keeps _ s

/-! The register writes leave the rings. -/

theorem wrDmaCtrl_rings (v : Word) (s : State) : SameRings s (wrDmaCtrl v s) := ⟨rfl, rfl, rfl, rfl, rfl, rfl⟩

theorem wrThresh_rings (v : Word) (s : State) : SameRings s (wrThresh v s) := ⟨rfl, rfl, rfl, rfl, rfl, rfl⟩

theorem wrStatus_rings (v : Word) (s : State) : SameRings s (wrStatus v s) := ⟨rfl, rfl, rfl, rfl, rfl, rfl⟩

theorem wrIer_rings (v : Word) (s : State) : SameRings s (wrIer v s) := ⟨rfl, rfl, rfl, rfl, rfl, rfl⟩

theorem wrMacConfig_rings (v : Word) (s : State) : SameRings s (wrMacConfig v s) := ⟨rfl, rfl, rfl, rfl, rfl, rfl⟩

theorem wrMacFlow_rings (v : Word) (s : State) : SameRings s (wrMacFlow v s) := ⟨rfl, rfl, rfl, rfl, rfl, rfl⟩

theorem wrPmt_rings (v : Word) (s : State) : SameRings s (wrPmt v s) := ⟨rfl, rfl, rfl, rfl, rfl, rfl⟩

/-- A write of a base register moves its ring's base if the process is STOPPED, and leaves the rest of the rings (R42). -/
theorem wrBase_rings {r : RingSel} {s : State} (h : s.proc r = .stopped) (v : Word) :
    SameRings (s.setRing r { s.ring r with base := v &&& 0xFFFF_FFF0 }) (wrBase r v s) := by
  cases r
  · simp only [wrBase, storeTxBase, show (descFence s).dma.ts = .stopped from h, if_true]
    exact ⟨rfl, rfl, rfl, rfl, rfl, rfl⟩
  · simp only [wrBase, storeRxBase, show (descFence s).dma.rs = .stopped from h, if_true]
    exact ⟨rfl, rfl, rfl, rfl, rfl, rfl⟩

theorem wrPoll_rings (r : RingSel) (s : State) : SameRings s (wrPoll r s) := by
  cases r <;> exact ⟨rfl, rfl, rfl, rfl, rfl, rfl⟩

theorem wrStart_rings (r : RingSel) (b : Bool) (s : State) : SameRings s (wrStart r b s) := wrDmaCtrl_rings _ s

theorem wrMacEnable_rings (r : RingSel) (b : Bool) (s : State) : SameRings s (wrMacEnable r b s) :=
  wrMacConfig_rings _ s

/-! ### The end of a step -/

theorem settle_of_none {s t : State} (h : t.fault = none) : settle s t = t := by simp [settle, h]

theorem settle_of_some {s t : State} {f : Fault} (h : t.fault = some f) : settle s t = { s with fault := some f } := by
  simp [settle, h]

theorem settle_cases (s t : State) : settle s t = t ∨ ∃ f, t.fault = some f ∧ settle s t = { s with fault := some f } := by
  cases h : t.fault with
  | none => exact .inl (settle_of_none h)
  | some f => exact .inr ⟨f, rfl, settle_of_some h⟩

/-- A command that raised no fault ends with its results written. -/
theorem complete_of_none {s : State} {x : Ret} (h : x.st.fault = none) :
    complete s x =
      .next { x.st with csr := { x.st.csr with result := x.res, result1 := x.res1.getD x.st.csr.result1 } } := by
  simp [complete, finish, settle, h]

/-- A command that raised a fault leaves nothing but the fault (log 6). -/
theorem complete_of_some {s : State} {x : Ret} {f : Fault} (h : x.st.fault = some f) :
    complete s x = .next { s with fault := some f } := by
  simp [complete, finish, settle, h]

/-! ### The DMA agents' operations -/

theorem latch_keeps (b : Source) (s : State) : Keeps s (latch b s) :=
  .of_csr rfl ⟨rfl, rfl, rfl, rfl⟩ ⟨rfl, rfl⟩ rfl rfl rfl rfl fun h =>
    ⟨{ h.csr with source := or_and_zero h.csr.source (oneBit_source b) }, ⟨h.start.tx, h.start.rx⟩, h.bases⟩

theorem latch_rings (b : Source) (s : State) : SameRings s (latch b s) := ⟨rfl, rfl, rfl, rfl, rfl, rfl⟩

theorem latchIf_keeps (c : Bool) (b : Source) (s : State) : Keeps s (latchIf c b s) := by
  cases c
  · exact .refl s
  · exact latch_keeps b s

theorem latchIf_rings (c : Bool) (b : Source) (s : State) : SameRings s (latchIf c b s) := by
  cases c
  · exact .refl s
  · exact latch_rings b s

/-- A DMA write changes memory and nothing else. -/
theorem dmaWrite_eq (bs : List Byte) (d : Word) (s : State) : dmaWrite d bs s = { s with mem := (dmaWrite d bs s).mem } := by
  induction bs generalizing d with
  | nil => rfl
  | cons b bs ih =>
    simp only [dmaWrite]
    split
    · rw [ih]
    · exact ih _

theorem dmaWrite_keeps (bs : List Byte) (d : Word) (s : State) : Keeps s (dmaWrite d bs s) := by
  have h := dmaWrite_eq bs d s
  exact .of_same (by rw [h]) (by rw [h]) (by rw [h]) (by rw [h]) (by rw [h]) (by rw [h]) (by rw [h]) (fun hm => dmaWrite_wf bs d hm)
    fun f hf => by rw [h]; exact hf

theorem dmaWrite_rings (bs : List Byte) (d : Word) (s : State) : SameRings s (dmaWrite d bs s) := by
  rw [dmaWrite_eq bs d s]
  exact ⟨rfl, rfl, rfl, rfl, rfl, rfl⟩

theorem closeDesc_keeps (r : RingSel) (j : Nat) (v : Word) (s : State) : Keeps s (closeDesc r j v s) :=
  dmaWrite_keeps _ _ s

theorem closeDesc_rings (r : RingSel) (j : Nat) (v : Word) (s : State) : SameRings s (closeDesc r j v s) :=
  dmaWrite_rings _ _ s

/-- Clearing a start bit leaves the rest of DMA_CTRL. -/
theorem putBit_start_spec (c : Word) {i : Nat} (hi : i < 2) (h : c &&& 0x7FFF_C0F0 = 0) :
    putBit c i false &&& 0x7FFF_C0F0 = 0 ∧ bitsAt (putBit c i false) 8 6 = bitsAt c 8 6 := by
  refine ⟨and_and_zero _ h, ?_⟩
  have hs : putBit c i false >>> 8 = c >>> 8 := by
    apply BitVec.eq_of_getLsbD_eq
    intro k _
    have hb := bit_putBit c (i := i) (by omega) (8 + k) false
    simp only [bit] at hb
    rw [BitVec.getLsbD_ushiftRight, BitVec.getLsbD_ushiftRight, hb, if_neg (by omega)]
  rw [bitsAt, bitsAt, hs]

theorem faultStop_keeps (r : RingSel) (s : State) : Keeps s (faultStop r s) := by
  cases r
  · refine .of_csr rfl ⟨rfl, rfl, rfl, rfl⟩ ⟨rfl, rfl⟩ rfl rfl rfl rfl fun h => ?_
    obtain ⟨h1, h2⟩ := putBit_start_spec (i := 0) _ (by decide) h.csr.dmaCtrl
    have h3 := h.csr.pbl
    rw [← h2] at h3
    exact ⟨{ h.csr with dmaCtrl := h1, pbl := h3 },
      ⟨by simp [faultStop, bit_putBit], by simpa [faultStop, bit_putBit] using h.start.rx⟩, h.bases⟩
  · refine .of_csr rfl ⟨rfl, rfl, rfl, rfl⟩ ⟨rfl, rfl⟩ rfl rfl rfl rfl fun h => ?_
    obtain ⟨h1, h2⟩ := putBit_start_spec (i := 1) _ (by decide) h.csr.dmaCtrl
    have h3 := h.csr.pbl
    rw [← h2] at h3
    exact ⟨{ h.csr with dmaCtrl := h1, pbl := h3 },
      ⟨by simpa [faultStop, bit_putBit] using h.start.tx, by simp [faultStop, bit_putBit]⟩, h.bases⟩

theorem faultStop_rings (r : RingSel) (s : State) : SameRings s (faultStop r s) := by
  cases r <;> exact ⟨rfl, rfl, rfl, rfl, rfl, rfl⟩

theorem takeArrival_keeps (s : State) : Keeps s (takeArrival s) := .of_same rfl rfl rfl rfl rfl rfl rfl id fun _ h => h

theorem takeArrival_rings (s : State) : SameRings s (takeArrival s) := ⟨rfl, rfl, rfl, rfl, rfl, rfl⟩

end Sys2Proof.Machine
end

