-- ==== Sys2Proof/Laws/Cursors.lean ====
section
/-! SUPPORT. The cursor laws (41_ring_ops.md R227, R228): what moving a cursor does to the in-flight window, and what each
operation on a ring does to its cursors. -/

namespace Sys2Proof.Machine

open Sys2Proof

/-! ### Arithmetic of the window (R227) -/

theorem ringSizeLegal_bounds {n : Nat} (h : ringSizeLegal n = true) : 4 ≤ n ∧ n ≤ 1024 := by
  simp only [ringSizeLegal, List.contains_eq_mem, decide_eq_true_eq] at h
  fin_cases h <;> decide

/-- A legal ring size divides 2^32. -/
theorem ringSizeLegal_dvd {n : Nat} (h : ringSizeLegal n = true) : n ∣ 2 ^ 32 := by
  simp only [ringSizeLegal, List.contains_eq_mem, decide_eq_true_eq] at h
  fin_cases h <;> decide

/-- `k` submissions lengthen the window by `k`, as long as it stays below 2^32. -/
theorem inflight_sub_add {g : Ring} {k : Nat} (h : g.inflight + k < 2 ^ 32) :
    ({ g with sub := g.sub + natWord k } : Ring).inflight = g.inflight + k := by
  have e : g.sub + natWord k - g.comp = (g.sub - g.comp) + natWord k := by
    rw [BitVec.sub_eq_add_neg, BitVec.sub_eq_add_neg, BitVec.add_assoc, BitVec.add_assoc, BitVec.add_comm (natWord k)]
  simp only [Ring.inflight] at h ⊢
  rw [e, BitVec.toNat_add, natWord, BitVec.toNat_ofNat]
  omega

/-- `k` completions shorten the window by `k`. -/
theorem inflight_comp_add {g : Ring} {k : Nat} (h : k ≤ g.inflight) :
    ({ g with comp := g.comp + natWord k } : Ring).inflight = g.inflight - k := by
  have e : g.sub - (g.comp + natWord k) = (g.sub - g.comp) - natWord k := by
    rw [BitVec.sub_eq_add_neg, BitVec.sub_eq_add_neg, BitVec.sub_eq_add_neg, BitVec.neg_add, BitVec.add_assoc,
      ← BitVec.sub_eq_add_neg (-g.comp)]
  simp only [Ring.inflight] at h ⊢
  have hlt := (g.sub - g.comp).isLt
  rw [e, BitVec.toNat_sub, natWord, BitVec.toNat_ofNat]
  omega

/-- The next slot is the next index, also across the wrap of the cursor (R227). -/
theorem idx_succ {n : Nat} (h : ringSizeLegal n = true) (c : Word) : idx (c + 1) n = (idx c n + 1) % n := by
  obtain ⟨m, hm⟩ := ringSizeLegal_dvd h
  have hn := (ringSizeLegal_bounds h).1
  have hc := c.isLt
  simp only [idx, BitVec.toNat_add, word_one_toNat]
  rw [Nat.add_mod (c.toNat % n) 1 n, Nat.mod_mod, ← Nat.add_mod, hm, Nat.mod_mul_right_mod]

theorem natWord_succ (k : Nat) : natWord (k + 1) = natWord k + 1 := by
  apply BitVec.eq_of_toNat_eq
  simp [natWord, BitVec.toNat_add]

theorem natWord_zero : natWord 0 = 0 := rfl

/-! ### What is kept of the rings -/

/-- The operation keeps the rings legal, their arrays apart and inside the address space. -/
structure ShapeKept (s t : State) : Prop where
  shaped : s.ringsShaped → t.ringsShaped
  legal : s.ringsLegal → t.ringsLegal
  inSpace : s.ringsShaped → s.ringsInSpace → t.ringsInSpace

theorem ShapeKept.refl (s : State) : ShapeKept s s := ⟨id, id, fun _ => id⟩

theorem ShapeKept.trans {s t u : State} (h : ShapeKept s t) (k : ShapeKept t u) : ShapeKept s u :=
  ⟨k.shaped ∘ h.shaped, k.legal ∘ h.legal, fun a b => k.inSpace (h.shaped a) (h.inSpace a b)⟩

/-- An operation that keeps the rings legal, and leaves in place the array of every ring that is allocated after it. -/
theorem ShapeKept.of_arrays {s t : State} (hs : s.ringsShaped → t.ringsShaped)
    (ha : s.ringsShaped → ∀ r, (t.ring r).allocated = true →
      (s.ring r).allocated = true ∧ (t.ring r).n = (s.ring r).n ∧ (t.ring r).base = (s.ring r).base) :
    ShapeKept s t where
  shaped := hs
  legal hl := by
    have hh : ∀ r a, (t.ring r).holds a = true → (s.ring r).holds a = true := fun r a h => by
      simp only [Ring.holds, Bool.and_eq_true] at h ⊢
      obtain ⟨h1, h2, h3⟩ := ha hl.shaped r h.1
      exact ⟨h1, by rw [← h2, ← h3]; exact h.2⟩
    refine ⟨hs hl.shaped, fun a h => ?_⟩
    by_contra hc
    have h1 := hl.apart a (hh .tx a h)
    rw [show s.rx.holds a = true from hh .rx a (by simpa [State.ring] using hc)] at h1
    cases h1
  inSpace hl hi r hr := by
    obtain ⟨h1, h2, h3⟩ := ha hl r hr
    rw [h2, h3]
    exact hi r h1

/-- The operation keeps the rings legal and touches neither which rings are allocated nor the flags `attached`, `ifup`,
`suspended` and `full_shutdown`. -/
structure RingsKept (s t : State) : Prop extends ShapeKept s t where
  txAllocated : t.tx.allocated = s.tx.allocated
  rxAllocated : t.rx.allocated = s.rx.allocated
  attached : t.dev.attached = s.dev.attached
  ifup : t.dev.ifup = s.dev.ifup
  suspended : t.dev.suspended = s.dev.suspended
  fullShutdown : t.dev.fullShutdown = s.dev.fullShutdown

theorem RingsKept.refl (s : State) : RingsKept s s := ⟨.refl s, rfl, rfl, rfl, rfl, rfl, rfl⟩

theorem RingsKept.trans {s t u : State} (h : RingsKept s t) (k : RingsKept t u) : RingsKept s u :=
  ⟨h.toShapeKept.trans k.toShapeKept, k.txAllocated.trans h.txAllocated, k.rxAllocated.trans h.rxAllocated,
    k.attached.trans h.attached, k.ifup.trans h.ifup, k.suspended.trans h.suspended,
    k.fullShutdown.trans h.fullShutdown⟩

/-- An operation that leaves both rings and the number of slots. -/
theorem ShapeKept.of_rings {s t : State} (htx : t.tx = s.tx) (hrx : t.rx = s.rx)
    (hts : t.txSlots.length = s.txSlots.length) (hrs : t.rxSlots.length = s.rxSlots.length) : ShapeKept s t :=
  .of_arrays (fun hl => ⟨by rw [htx, hts]; exact hl.tx, by rw [hrx, hrs]; exact hl.rx⟩) fun _ r hr => by
    cases r
    · exact ⟨by rw [← hr]; simp [State.ring, htx], by simp [State.ring, htx], by simp [State.ring, htx]⟩
    · exact ⟨by rw [← hr]; simp [State.ring, hrx], by simp [State.ring, hrx], by simp [State.ring, hrx]⟩

theorem SameRings.shapeKept {s t : State} (h : SameRings s t) : ShapeKept s t := .of_rings h.tx h.rx h.txLen h.rxLen

theorem SameRings.legal {s t : State} (h : SameRings s t) : s.ringsLegal → t.ringsLegal := h.shapeKept.legal

theorem SameRings.kept {s t : State} (h : SameRings s t) : RingsKept s t :=
  ⟨h.shapeKept, by rw [h.tx], by rw [h.rx], by rw [h.dev], by rw [h.dev], by rw [h.dev], by rw [h.dev]⟩

theorem RingsKept.session {s t : State} (h : RingsKept s t) (hs : s.sessionLegal) : t.sessionLegal := by
  constructor
  · rw [h.ifup, h.suspended, h.attached]
    exact hs.attached
  · rw [h.ifup, h.txAllocated, h.rxAllocated]
    exact hs.rings
  · rw [h.fullShutdown, h.suspended, h.ifup]
    exact hs.shutdown

/-- A base register holds an aligned address after every write (R42). -/
theorem masked_base (v : Word) : (v &&& 0xFFFF_FFF0).toNat % 16 = 0 := by
  rw [BitVec.toNat_and, ← Nat.and_two_pow_sub_one_eq_mod _ 4, Nat.and_assoc]
  exact Nat.and_zero _

/-- Moving the submission cursor of a legal ring by `k` keeps it legal if `k` slots are free. -/
theorem Ring.legal_submit {g : Ring} {l k : Nat} (h : g.legal l) (hk : k ≤ g.avail) (c : Word) :
    ({ g with sub := g.sub + natWord k, coalCnt := c } : Ring).legal l where
  size := h.size
  aligned := h.aligned
  slots := h.slots
  unused := h.unused
  window ha := by
    have := ringSizeLegal_bounds (h.size ha)
    have hw := h.window ha
    have e := inflight_sub_add (g := g) (k := k) (by simp only [Ring.avail] at hk; omega)
    simp only [Ring.inflight, Ring.avail] at *
    omega

/-- Moving the completion cursor of a legal ring by `k` keeps it legal if `k` descriptors are in flight. -/
theorem Ring.legal_complete {g : Ring} {l k : Nat} (h : g.legal l) (hk : k ≤ g.inflight) :
    ({ g with comp := g.comp + natWord k } : Ring).legal l where
  size := h.size
  aligned := h.aligned
  slots := h.slots
  unused := h.unused
  window ha := by
    have hw := h.window ha
    have e := inflight_comp_add hk
    simp only [Ring.inflight] at *
    omega

/-- A ring whose base register is written aligned and whose window is empty is legal. -/
theorem Ring.legal_empty {g : Ring} {l : Nat} {b : Word} (h : g.legal l) :
    ({ g with base := b &&& 0xFFFF_FFF0, sub := 0, comp := 0, coalCnt := 0 } : Ring).legal l where
  size := h.size
  aligned _ := masked_base b
  slots := h.slots
  unused := h.unused
  window _ := by simp [Ring.inflight]

/-- A change of the TX ring that keeps it legal and leaves its array in place. -/
theorem shapeKept_tx {s t : State} {g : Ring} (hg : s.tx.legal s.txSlots.length → g.legal s.txSlots.length)
    (h : SameRings { s with tx := g } t) (ha : g.allocated = s.tx.allocated := by rfl) (hn : g.n = s.tx.n := by rfl)
    (hb : s.tx.legal s.txSlots.length → g.allocated = true → g.base = s.tx.base := by intros; rfl) : ShapeKept s t :=
  .trans (t := { s with tx := g }) (.of_arrays (fun hl => ⟨hg hl.tx, hl.rx⟩) fun hl r hr => by
    cases r
    · exact ⟨ha.symm.trans hr, hn, hb hl.tx hr⟩
    · exact ⟨hr, rfl, rfl⟩) h.shapeKept

/-- A change of the RX ring that keeps it legal and leaves its array in place. -/
theorem shapeKept_rx {s t : State} {g : Ring} (hg : s.rx.legal s.rxSlots.length → g.legal s.rxSlots.length)
    (h : SameRings { s with rx := g } t) (ha : g.allocated = s.rx.allocated := by rfl) (hn : g.n = s.rx.n := by rfl)
    (hb : s.rx.legal s.rxSlots.length → g.allocated = true → g.base = s.rx.base := by intros; rfl) : ShapeKept s t :=
  .trans (t := { s with rx := g }) (.of_arrays (fun hl => ⟨hl.tx, hg hl.rx⟩) fun hl r hr => by
    cases r
    · exact ⟨hr, rfl, rfl⟩
    · exact ⟨ha.symm.trans hr, hn, hb hl.rx hr⟩) h.shapeKept

/-! ### INIT_DESC_CHAIN (R170) -/

theorem releaseSlot_keeps (r : RingSel) (i : Nat) (s : State) : Keeps s (releaseSlot r i s) := by
  cases r
  · exact (unmapIf_keeps _ _ s).trans ((releasePkt_keeps _ _).trans (setTxSlot_keeps _ _ _))
  · simp only [releaseSlot]
    split
    · exact (unmapIf_keeps _ _ s).trans ((freeBuf_keeps _ _).trans (setRxSlot_keeps _ _ _))
    · exact setRxSlot_keeps _ _ s

theorem releaseSlot_rings (r : RingSel) (i : Nat) (s : State) : SameRings s (releaseSlot r i s) := by
  cases r
  · exact (unmapIf_rings _ _ s).trans ((releasePkt_rings _ _).trans (setTxSlot_rings _ _ _))
  · simp only [releaseSlot]
    split
    · exact (unmapIf_rings _ _ s).trans ((freeBuf_rings _ _).trans (setRxSlot_rings _ _ _))
    · exact setRxSlot_rings _ _ s

theorem initSlot_keeps (r : RingSel) (i : Nat) (s : State) : Keeps s (initSlot r i s) :=
  (releaseSlot_keeps r i s).trans ((wipeDesc_keeps _ _ _ _ _).trans ((wipeDesc_keeps _ _ _ _ _).trans
    ((wipeDesc_keeps _ _ _ _ _).trans (wipeDesc_keeps _ _ _ _ _))))

theorem initSlot_rings (r : RingSel) (i : Nat) (s : State) : SameRings s (initSlot r i s) :=
  (releaseSlot_rings r i s).trans ((wipeDesc_rings _ _ _ _ _).trans ((wipeDesc_rings _ _ _ _ _).trans
    ((wipeDesc_rings _ _ _ _ _).trans (wipeDesc_rings _ _ _ _ _))))

theorem initSlots_keeps (r : RingSel) (is : List Nat) (s : State) :
    Keeps s (is.foldl (fun u i => initSlot r i u) s) := by
  induction is generalizing s with
  | nil => exact .refl s
  | cons i is ih => exact (initSlot_keeps r i s).trans (ih _)

theorem initSlots_rings (r : RingSel) (is : List Nat) (s : State) :
    SameRings s (is.foldl (fun u i => initSlot r i u) s) := by
  induction is generalizing s with
  | nil => exact .refl s
  | cons i is ih => exact (initSlot_rings r i s).trans (ih _)

theorem setRing_keeps (r : RingSel) (g : Ring) (s : State) (hb : g.base = (s.ring r).base := by rfl) :
    Keeps s (s.setRing r g) := by
  cases r
  · exact .of_same rfl rfl rfl rfl rfl hb rfl id fun _ h => h
  · exact .of_same rfl rfl rfl rfl rfl rfl hb id fun _ h => h

theorem initChain_keeps (r : RingSel) (s : State) : Keeps s (initChain r s).st := by
  simp only [initChain]
  split
  · exact .refl s
  · exact (initSlots_keeps r _ s).trans ((descFence_keeps _).trans ((setRing_keeps _ _ _).trans (wrBase_keeps _ _ _)))

theorem releaseSlot_dma (r : RingSel) (i : Nat) (s : State) : (releaseSlot r i s).dma = s.dma := by
  cases r
  · show (releasePkt _ (unmapIf _ _ s)).dma = s.dma
    cases (s.txSlot i).pkt <;> cases (s.txSlot i).addr <;> rfl
  · simp only [releaseSlot]
    split
    · cases (s.rxSlot i).addr <;> rfl
    · rfl

/-- Releasing and rewriting slots leaves the DMA processes. -/
theorem initSlots_dma (r : RingSel) (is : List Nat) (s : State) :
    (is.foldl (fun u i => initSlot r i u) s).dma = s.dma := by
  induction is generalizing s with
  | nil => rfl
  | cons i is ih => rw [List.foldl_cons, ih]; exact releaseSlot_dma r i s

/-- An aligned base register is not changed by its write mask (R42). -/
theorem base_mask {b : Word} (h : b.toNat % 16 = 0) : b &&& 0xFFFF_FFF0 = b := by
  have h1 : b &&& 0xF = 0 :=
    BitVec.eq_of_toNat_eq ((BitVec.toNat_and b 0xF).trans ((Nat.and_two_pow_sub_one_eq_mod b.toNat 4).trans h))
  calc b &&& 0xFFFF_FFF0 = (b &&& 0xFFFF_FFF0) ||| (b &&& 0xF) := by rw [h1]; exact (BitVec.or_zero).symm
    _ = b := by rw [← BitVec.and_or_distrib_left]; exact BitVec.and_allOnes

/-- INIT_DESC_CHAIN empties the window of its ring, writes its base register with its own value, and leaves the other ring. -/
theorem initChain_rings (r : RingSel) (s : State) (h : (initChain r s).res = codeOk) :
    SameRings
      (s.setRing r { s.ring r with base := (s.ring r).base &&& 0xFFFF_FFF0, sub := 0, comp := 0, coalCnt := 0 })
      (initChain r s).st := by
  simp only [initChain] at h ⊢
  split
  · rename_i hc
    rw [if_pos hc] at h
    cases h
  · rename_i hc
    simp only [Bool.or_eq_true, Bool.not_eq_true', decide_eq_true_eq, not_or, not_not] at hc
    have k := (initSlots_rings r (List.range (s.ring r).n) s).trans (descFence_rings _)
    have hd : (descFence ((List.range (s.ring r).n).foldl (fun u i => initSlot r i u) s)).dma = s.dma :=
      initSlots_dma r _ s
    generalize descFence _ = t at k hd ⊢
    have hp : (t.setRing r { t.ring r with sub := 0, comp := 0, coalCnt := 0 }).proc r = .stopped := by
      cases r <;> simpa [State.proc, State.setRing, hd] using hc.2
    refine SameRings.trans ?_ (wrBase_rings hp _)
    cases r <;> exact ⟨by simp [State.setRing, State.ring, k.tx], by simp [State.setRing, State.ring, k.rx],
      by simpa [State.setRing] using k.txLen, by simpa [State.setRing] using k.rxLen,
      by simpa [State.setRing] using k.dev, by simpa [State.setRing] using k.eff⟩

theorem initChain_cases (r : RingSel) (s : State) :
    ((initChain r s).res = codeError ∧ (initChain r s).st = s) ∨ (initChain r s).res = codeOk := by
  simp only [initChain]
  split
  · exact .inl ⟨rfl, rfl⟩
  · exact .inr rfl

theorem initChain_kept (r : RingSel) (s : State) : RingsKept s (initChain r s).st := by
  rcases initChain_cases r s with ⟨_, h⟩ | h
  · rw [h]
    exact .refl s
  · have k := initChain_rings r s h
    refine ⟨?_, ?_, ?_, ?_, ?_, ?_, ?_⟩
    · cases r
      · exact shapeKept_tx (fun hg => Ring.legal_empty hg) k rfl rfl fun hg ha => base_mask (hg.aligned ha)
      · exact shapeKept_rx (fun hg => Ring.legal_empty hg) k rfl rfl fun hg ha => base_mask (hg.aligned ha)
    all_goals cases r <;> simp [k.tx, k.rx, k.dev, State.setRing, State.ring]

/-! ### DMA start and stop, and the mode registers -/

theorem dmaStart_keeps (r : RingSel) (s : State) : Keeps s (dmaStart r s) :=
  (wrMacEnable_keeps _ _ s).trans (wrStart_keeps _ _ _)

theorem dmaStart_rings (r : RingSel) (s : State) : SameRings s (dmaStart r s) :=
  (wrMacEnable_rings _ _ s).trans (wrStart_rings _ _ _)

theorem dmaStop_keeps (r : RingSel) (s : State) : Keeps s (dmaStop r s) :=
  (wrStart_keeps _ _ s).trans (wrMacEnable_keeps _ _ _)

theorem dmaStop_rings (r : RingSel) (s : State) : SameRings s (dmaStop r s) :=
  (wrStart_rings _ _ s).trans (wrMacEnable_rings _ _ _)

theorem dmaMode_keeps (pbl : Word) (tsf rsf : Bool) (tc : Word) (s : State) : Keeps s (dmaMode pbl tsf rsf tc s) :=
  (wrDmaCtrl_keeps _ s).trans (wrThresh_keeps _ _)

theorem dmaMode_rings (pbl : Word) (tsf rsf : Bool) (tc : Word) (s : State) : SameRings s (dmaMode pbl tsf rsf tc s) :=
  (wrDmaCtrl_rings _ s).trans (wrThresh_rings _ _)

/-! ### ALLOCATE and freeing a ring (R220, R420) -/

theorem emptySlots_keeps (r : RingSel) (n : Nat) (s : State) : Keeps s (emptySlots r n s) := by
  cases r <;> exact .of_same rfl rfl rfl rfl rfl rfl rfl id fun _ h => h

theorem allocate_keeps (r : RingSel) (n : Nat) (s : State) : Keeps s (allocate r n s).st := by
  simp only [allocate]
  split
  · exact .refl s
  · split
    · exact drawFresh_keeps _ _ s
    · exact (drawFresh_keeps _ _ s).trans ((pushWrite_keeps _ _ _).trans ((setRing_keeps _ _ _).trans
        ((emptySlots_keeps _ _ _).trans (wrBase_keeps _ _ _))))

/-- A draw leaves what freshness is about. -/
theorem drawAnswer_fresh (s : State) (align : Nat) (a : Word) (len : Nat) :
    (drawAnswer s).2.fresh align a len = s.fresh align a len := by
  unfold drawAnswer
  split <;> rfl

/-- What ALLOCATE does to the rings: nothing where it fails, and where it succeeds an empty ring of `n`. -/
theorem allocate_rings (r : RingSel) (n : Nat) (s : State) :
    ((allocate r n s).res = codeError ∧ SameRings s (allocate r n s).st) ∨
      ((allocate r n s).res = codeOk ∧ (s.ring r).allocated = false ∧ ringSizeLegal n = true ∧
        ∃ m : Word, (allocate r n s).res1 = some m ∧ s.fresh 16 m (16 * n) = true ∧
          SameRings
            (emptySlots r n (s.setRing r { s.ring r with allocated := true, n := n, base := m, sub := 0, comp := 0 }))
            (allocate r n s).st) := by
  simp only [allocate]
  split
  · exact .inl ⟨rfl, .refl s⟩
  · rename_i hc
    simp only [Bool.or_eq_true, Bool.not_eq_true', decide_eq_true_eq, not_or, not_not] at hc
    split
    · exact .inl ⟨rfl, drawFresh_rings _ _ s⟩
    · rename_i m hm
      have hf := drawAnswer_fresh s 16 m _ ▸ drawFresh_some hm
      refine .inr ⟨rfl, by simpa using hc.1.1, by simpa using hc.2, m, rfl, hf, ?_⟩
      have k := drawFresh_rings 16 (16 * n) s
      have hd : (drawFresh 16 (16 * n) s).2.dma = s.dma := by rw [drawFresh_snd]; unfold drawAnswer; split <;> rfl
      have hb : m &&& 0xFFFF_FFF0 = m := base_mask (fresh_iff.1 hf).aligned
      generalize (drawFresh 16 (16 * n) s).2 = u at k hd ⊢
      cases r
      · have hp : u.dma.ts = .stopped := by rw [hd]; exact hc.1.2
        refine SameRings.trans ?_ (wrBase_rings (r := .tx) ?_ m)
        on_goal 2 => exact hp
        rw [hb]
        constructor <;> simp [emptySlots, State.setRing, State.ring, k.tx, k.rx, k.txLen, k.rxLen, k.dev, k.eff]
      · have hp : u.dma.rs = .stopped := by rw [hd]; exact hc.1.2
        refine SameRings.trans ?_ (wrBase_rings (r := .rx) ?_ m)
        on_goal 2 => exact hp
        rw [hb]
        constructor <;> simp [emptySlots, State.setRing, State.ring, k.tx, k.rx, k.txLen, k.rxLen, k.dev, k.eff]

theorem freeRing_keeps (r : RingSel) (s : State) : Keeps s (freeRing r s) :=
  (setRing_keeps _ _ s).trans (emptySlots_keeps _ _ _)

/-- An unallocated ring is legal. -/
theorem Ring.legal_free (g : Ring) (l : Nat) : ({ g with allocated := false, n := 0 } : Ring).legal l where
  size h := by cases h
  aligned h := by cases h
  slots h := by cases h
  window h := by cases h
  unused _ := rfl

theorem freeRing_shape (r : RingSel) (s : State) : ShapeKept s (freeRing r s) := by
  cases r
  · refine .of_arrays (fun h => ⟨Ring.legal_free _ _, h.rx⟩) fun _ q hq => ?_
    cases q
    · cases hq
    · exact ⟨hq, rfl, rfl⟩
  · refine .of_arrays (fun h => ⟨h.tx, Ring.legal_free _ _⟩) fun _ q hq => ?_
    cases q
    · exact ⟨hq, rfl, rfl⟩
    · cases hq

/-- A ring ALLOCATE made is legal. -/
theorem Ring.legal_fresh {g : Ring} {n l : Nat} {m : Word} (hn : ringSizeLegal n = true) (ha : m.toNat % 16 = 0)
    (hl : l = n) :
    ({ g with allocated := true, n := n, base := m, sub := 0, comp := 0 } : Ring).legal l where
  size _ := hn
  aligned _ := ha
  slots _ := hl
  window _ := by simp [Ring.inflight]
  unused h := by cases h

theorem allocate_shape (r : RingSel) (n : Nat) (s : State) : ShapeKept s (allocate r n s).st := by
  rcases allocate_rings r n s with ⟨_, k⟩ | ⟨_, _, hn, m, _, hf, k⟩
  · exact k.shapeKept
  · refine ShapeKept.trans ?_ k.shapeKept
    have f := fresh_iff.1 hf
    have hx : ∀ x, inSpan m (16 * n) x = true → ∀ q, (s.ring q).holds x = false := fun x hx q => by
      by_contra hc
      rw [meetsArray_apart f.arrays q (by simpa using hc)] at hx
      cases hx
    cases r
    · have hs : s.ringsShaped → (emptySlots .tx n (s.setRing .tx
          { s.ring .tx with allocated := true, n := n, base := m, sub := 0, comp := 0 })).ringsShaped := fun h =>
        ⟨Ring.legal_fresh hn f.aligned (by simp [emptySlots]), h.rx⟩
      refine ⟨hs, fun h => ⟨hs h.shaped, fun a ha => hx a ha .rx⟩, fun _ hi q hq => ?_⟩
      cases q
      · exact f.inSpace
      · exact hi .rx hq
    · have hs : s.ringsShaped → (emptySlots .rx n (s.setRing .rx
          { s.ring .rx with allocated := true, n := n, base := m, sub := 0, comp := 0 })).ringsShaped := fun h =>
        ⟨h.tx, Ring.legal_fresh hn f.aligned (by simp [emptySlots])⟩
      refine ⟨hs, fun h => ⟨hs h.shaped, fun a ha => ?_⟩, fun _ hi q hq => ?_⟩
      rotate_left
      · cases q
        · exact hi .tx hq
        · exact f.inSpace
      by_contra hc
      have hc' : inSpan m (16 * n) a = true := by
        simpa [emptySlots, State.setRing, State.ring, Ring.holds] using hc
      have := hx a hc' .tx
      rw [show (s.ring .tx).holds a = true from ha] at this
      cases this

/-! ### SUBMIT and RECLAIM (R221, R222) -/

theorem writeTxFields_keeps (i : Nat) (a : Word) (ic ls fs csum : Bool) (len : Nat) (s : State) :
    Keeps s (writeTxFields i a ic ls fs csum len s) :=
  (readDesc_keeps _ _ _ s).trans ((writeDesc_keeps _ _ _ _ _).trans ((writeDesc_keeps _ _ _ _ _).trans
    (writeDesc_keeps _ _ _ _ _)))

theorem writeTxFields_rings (i : Nat) (a : Word) (ic ls fs csum : Bool) (len : Nat) (s : State) :
    SameRings s (writeTxFields i a ic ls fs csum len s) :=
  (readDesc_rings _ _ _ s).trans ((writeDesc_rings _ _ _ _ _).trans ((writeDesc_rings _ _ _ _ _).trans
    (writeDesc_rings _ _ _ _ _)))

theorem setTx_keeps (g : Ring) (s : State) (hb : g.base = s.tx.base := by rfl) : Keeps s { s with tx := g } :=
  .of_same rfl rfl rfl rfl rfl hb rfl id fun _ h => h

theorem setRx_keeps (g : Ring) (s : State) (hb : g.base = s.rx.base := by rfl) : Keeps s { s with rx := g } :=
  .of_same rfl rfl rfl rfl rfl rfl hb id fun _ h => h

theorem setStats_keeps (c : Stats) (s : State) : Keeps s { s with stats := c } :=
  .of_same rfl rfl rfl rfl rfl rfl rfl id fun _ h => h

theorem setDev_keeps (d : Dev) (s : State) : Keeps s { s with dev := d } :=
  .of_same rfl rfl rfl rfl rfl rfl rfl id fun _ h => h

/-- The flags are not part of the rings. -/
theorem setDev_shape (d : Dev) (s : State) : ShapeKept s { s with dev := d } := .of_rings rfl rfl rfl rfl

theorem setStats_rings (c : Stats) (s : State) : SameRings s { s with stats := c } := ⟨rfl, rfl, rfl, rfl, rfl, rfl⟩

theorem stageTx_keeps (i : Nat) (cpu : Word) (len : Nat) (pkt : Option Word) (ic ls fs csum : Bool) (s : State) :
    Keeps s (stageTx i cpu len pkt ic ls fs csum s) :=
  (mapBuf_keeps _ _ s).trans ((setTxSlot_keeps _ _ _).trans ((writeTxFields_keeps _ _ _ _ _ _ _ _).trans
    (setTx_keeps _ _)))

/-- A change of the TX ring's software state goes through an operation that leaves the rings. -/
theorem SameRings.onTx {s t : State} (h : SameRings s t) (f : Ring → Ring) :
    SameRings { s with tx := f s.tx } { t with tx := f t.tx } :=
  ⟨by simp only [h.tx], h.rx, h.txLen, h.rxLen, h.dev, h.eff⟩

/-- A change of the RX ring's software state goes through an operation that leaves the rings. -/
theorem SameRings.onRx {s t : State} (h : SameRings s t) (f : Ring → Ring) :
    SameRings { s with rx := f s.rx } { t with rx := f t.rx } :=
  ⟨h.tx, by simp only [h.rx], h.txLen, h.rxLen, h.dev, h.eff⟩

/-- Staging a segment moves the submission cursor by one and leaves the rest of the rings. -/
theorem stageTx_rings (i : Nat) (cpu : Word) (len : Nat) (pkt : Option Word) (ic ls fs csum : Bool) (s : State) :
    SameRings { s with tx := { s.tx with sub := s.tx.sub + 1 } } (stageTx i cpu len pkt ic ls fs csum s) :=
  SameRings.onTx ((mapBuf_rings _ _ s).trans ((setTxSlot_rings i _ _).trans
    (writeTxFields_rings i _ _ _ _ _ _ _))) fun g => { g with sub := g.sub + 1 }

theorem submitAt_keeps (i : Nat) (cpu : Word) (len : Nat) (flags handle : Word) (s : State) :
    Keeps s (submitAt i cpu len flags handle s) := by
  simp only [submitAt]
  split
  · exact (stageTx_keeps _ _ _ _ _ _ _ _ s).trans (publish_keeps _ _ _)
  · exact stageTx_keeps _ _ _ _ _ _ _ _ s

theorem submitAt_rings (i : Nat) (cpu : Word) (len : Nat) (flags handle : Word) (s : State) :
    SameRings { s with tx := { s.tx with sub := s.tx.sub + 1 } } (submitAt i cpu len flags handle s) := by
  simp only [submitAt]
  split
  · exact (stageTx_rings _ _ _ _ _ _ _ _ s).trans (publish_rings _ _ _)
  · exact stageTx_rings _ _ _ _ _ _ _ _ s

theorem countBusy_keeps (s : State) : Keeps s (countBusy s) := setStats_keeps _ s

theorem countBusy_rings (s : State) : SameRings s (countBusy s) := setStats_rings _ s

theorem reclaimBody_keeps (i : Nat) (s : State) : Keeps s (reclaimBody i s).st :=
  (readDesc_keeps .tx i 0 s).trans ((readDesc_keeps .tx i 1 _).trans ((setStats_keeps _ _).trans
    ((unmapIf_keeps _ _ _).trans ((releasePkt_keeps _ _).trans ((setTxSlot_keeps i _ _).trans
      ((writeDesc_keeps .tx i 1 _ _).trans ((writeDesc_keeps .tx i 2 _ _).trans
        ((writeDesc_keeps .tx i 0 _ _).trans (setTx_keeps _ _)))))))))

/-- RECLAIM's body moves the completion cursor by one and leaves the rest of the rings. -/
theorem reclaimBody_rings (i : Nat) (s : State) :
    SameRings { s with tx := { s.tx with comp := s.tx.comp + 1 } } (reclaimBody i s).st := by
  exact SameRings.onTx ((readDesc_rings .tx i 0 s).trans ((readDesc_rings .tx i 1 _).trans
    ((setStats_rings _ _).trans ((unmapIf_rings _ _ _).trans ((releasePkt_rings _ _).trans
      ((setTxSlot_rings i _ _).trans ((writeDesc_rings .tx i 1 _ _).trans ((writeDesc_rings .tx i 2 _ _).trans
        (writeDesc_rings .tx i 0 _ _))))))))) fun g => { g with comp := g.comp + 1 }

/-! ### REFILL (R223, R305) -/

theorem armRx_keeps (i : Nat) (s : State) : Keeps s (armRx i s) := by
  simp only [armRx]
  exact (setRx_keeps _ s).trans ((readDesc_keeps _ _ _ _).trans ((writeDesc_keeps _ _ _ _ _).trans
    ((writeDesc_keeps _ _ _ _ _).trans ((writeDesc_keeps _ _ _ _ _).trans ((publish_keeps _ _ _).trans
      (setRx_keeps _ _))))))

/-- Arming a slot moves the submission cursor by one, counts for coalescing, and leaves the rest of the rings. -/
theorem armRx_rings (i : Nat) (s : State) :
    ∃ c, SameRings { s with rx := { s.rx with sub := s.rx.sub + 1, coalCnt := c } } (armRx i s) := by
  refine ⟨if (s.rx.coalCnt + 1).toNat < s.eff.rxCoal then s.rx.coalCnt + 1 else 0, ?_⟩
  simp only [armRx, decide_eq_true_eq]
  generalize (if (s.rx.coalCnt + 1).toNat < s.eff.rxCoal then s.rx.coalCnt + 1 else (0 : Word)) = c
  have k : ∀ a b, SameRings { s with rx := { s.rx with coalCnt := c } }
      (publish .rx i (writeDesc .rx i 1 b (writeDesc .rx i 3 0 (writeDesc .rx i 2 a
        (readDesc .rx i 1 { s with rx := { s.rx with coalCnt := c } }))))) := fun a b =>
    (readDesc_rings _ _ _ _).trans ((writeDesc_rings _ _ _ _ _).trans ((writeDesc_rings _ _ _ _ _).trans
      ((writeDesc_rings _ _ _ _ _).trans (publish_rings _ _ _))))
  exact SameRings.onRx (k _ _) fun g => { g with sub := g.sub + 1 }

theorem bindRx_keeps (i : Nat) (b : Word) (s : State) : Keeps s (bindRx i b s) :=
  (mapBuf_keeps _ _ s).trans (setRxSlot_keeps _ _ _)

theorem bindRx_rings (i : Nat) (b : Word) (s : State) : SameRings s (bindRx i b s) :=
  (mapBuf_rings _ _ s).trans (setRxSlot_rings _ _ _)

theorem refillAlloc_keeps (i : Nat) (s : State) : Keeps s (refillAlloc i s).st := by
  simp only [refillAlloc]
  repeat' split
  · exact .refl s
  · exact armRx_keeps _ s
  · exact (allocBuf_keeps _ s).trans ((bindRx_keeps _ _ _).trans (armRx_keeps _ _))
  · exact (allocBuf_keeps _ s).trans (setStats_keeps _ _)

theorem refillGiven_keeps (i : Nat) (b : Word) (s : State) : Keeps s (refillGiven i b s).st := by
  simp only [refillGiven]
  repeat' split
  · exact .refl s
  · exact .refl s
  · exact (bindRx_keeps _ _ s).trans (armRx_keeps _ _)

theorem armRx_kept {i : Nat} {s t : State} (h : SameRings s t) (hk : s.rx.inflight < s.rx.n - 1) :
    RingsKept s (armRx i t) := by
  obtain ⟨c, k⟩ := armRx_rings i t
  rw [h.rx] at k
  have k2 : SameRings { s with rx := { s.rx with sub := s.rx.sub + 1, coalCnt := c } } (armRx i t) :=
    ⟨k.tx.trans h.tx, k.rx, k.txLen.trans h.txLen, k.rxLen.trans h.rxLen, k.dev.trans h.dev, k.eff.trans h.eff⟩
  refine ⟨shapeKept_rx (fun hg => ?_) k2, by rw [k2.tx], by rw [k2.rx], ?_, ?_, ?_, ?_⟩
  · exact Ring.legal_submit (k := 1) hg (by simp only [Ring.avail]; omega) c
  all_goals rw [k2.dev]

theorem refillAlloc_kept (i : Nat) (s : State) : RingsKept s (refillAlloc i s).st := by
  simp only [refillAlloc]
  split
  · exact .refl s
  · rename_i hc
    have hk : s.rx.inflight < s.rx.n - 1 := by omega
    repeat' split
    · exact armRx_kept (.refl s) hk
    · exact armRx_kept ((allocBuf_rings _ s).trans (bindRx_rings _ _ _)) hk
    · exact ((allocBuf_rings _ s).trans (setStats_rings _ _)).kept

theorem refillGiven_kept (i : Nat) (b : Word) (s : State) : RingsKept s (refillGiven i b s).st := by
  simp only [refillGiven]
  repeat' split
  · exact .refl s
  · exact .refl s
  · exact armRx_kept (bindRx_rings _ _ s) (by omega)

theorem refillMany_keeps (fuel : Nat) (s : State) : Keeps s (refillMany fuel s).2 := by
  induction fuel generalizing s with
  | zero => exact .refl s
  | succ fuel ih =>
    simp only [refillMany]
    split
    · exact (refillAlloc_keeps _ s).trans (ih _)
    · exact refillAlloc_keeps _ s

theorem refillMany_kept (fuel : Nat) (s : State) : RingsKept s (refillMany fuel s).2 := by
  induction fuel generalizing s with
  | zero => exact .refl s
  | succ fuel ih =>
    simp only [refillMany]
    split
    · exact (refillAlloc_kept _ s).trans (ih _)
    · exact refillAlloc_kept _ s

end Sys2Proof.Machine
end

