-- ==== Sys2Proof/Laws/Paths.lean ====
section
/-! SUPPORT. What the transmit and receive paths, the dispatcher and the operations table keep: the registers, memory and
the command interface (`Keeps`), and the rings (`SameRings`, `RingsKept`). -/

namespace Sys2Proof.Machine

open Sys2Proof

/-! ### The operations table (R171 to R179) -/

theorem setDic_keeps (i : Nat) (b : Bool) (s : State) : Keeps s (setDic i b s).st := by
  simp only [setDic]
  split
  · exact readDesc_keeps _ _ _ s
  · exact (readDesc_keeps _ _ _ s).trans ((readDesc_keeps _ _ _ _).trans (writeDesc_keeps _ _ _ _ _))

theorem setDic_rings (i : Nat) (b : Bool) (s : State) : SameRings s (setDic i b s).st := by
  simp only [setDic]
  split
  · exact readDesc_rings _ _ _ s
  · exact (readDesc_rings _ _ _ s).trans ((readDesc_rings _ _ _ _).trans (writeDesc_rings _ _ _ _ _))

theorem setLink_keeps (l : Link) (s : State) : Keeps s { s with link := l } :=
  .of_same rfl rfl rfl rfl rfl rfl rfl id fun _ h => h

theorem adjustLink_keeps (up : Bool) (a : Word) (full : Bool) (s : State) : Keeps s (adjustLink up a full s).st := by
  simp only [adjustLink]
  repeat' split
  · exact setLink_keeps _ s
  · exact .refl s
  all_goals exact (setLink_keeps _ s).trans (wrMacConfig_keeps _ _)

theorem adjustLink_rings (up : Bool) (a : Word) (full : Bool) (s : State) : SameRings s (adjustLink up a full s).st := by
  simp only [adjustLink]
  repeat' split
  all_goals exact ⟨rfl, rfl, rfl, rfl, rfl, rfl⟩

/-! ### The dispatcher (R370 to R382) -/

theorem setTun_keeps (x : Tunables) (s : State) : Keeps s { s with tun := x } :=
  .of_same rfl rfl rfl rfl rfl rfl rfl id fun _ h => h

theorem raiseThreshold_keeps (s : State) : Keeps s (raiseThreshold s).st := by
  simp only [raiseThreshold]
  split
  · exact (wrThresh_keeps _ s).trans (setTun_keeps _ _)
  · exact .refl s

theorem raiseThreshold_rings (s : State) : SameRings s (raiseThreshold s).st := by
  simp only [raiseThreshold]
  split
  · exact ⟨rfl, rfl, rfl, rfl, rfl, rfl⟩
  · exact .refl s

/-- What leaves the rings' arrays and the session flags: a change of scheduling flags alone. -/
theorem setDev_kept {d : Dev} {s : State} (h1 : d.attached = s.dev.attached) (h2 : d.ifup = s.dev.ifup)
    (h3 : d.suspended = s.dev.suspended) (h4 : d.fullShutdown = s.dev.fullShutdown) :
    RingsKept s { s with dev := d } :=
  ⟨.of_rings rfl rfl rfl rfl, rfl, rfl, h1, h2, h3, h4⟩

theorem applyIf_keeps {f : State → State} (c : Bool) (h : ∀ s, Keeps s (f s)) (s : State) : Keeps s (applyIf c f s) := by
  cases c
  · exact .refl s
  · exact h s

theorem applyIf_kept {f : State → State} (c : Bool) (h : ∀ s, RingsKept s (f s)) (s : State) :
    RingsKept s (applyIf c f s) := by
  cases c
  · exact .refl s
  · exact h s

theorem recovered_keeps (s : State) : Keeps s (recovered s) := .of_same rfl rfl rfl rfl rfl rfl rfl id fun _ h => h

theorem recovered_kept (s : State) : RingsKept s (recovered s) :=
  ⟨.of_rings rfl rfl rfl rfl, rfl, rfl, rfl, rfl, rfl, rfl⟩

theorem txRecovery_keeps (s : State) : Keeps s (txRecovery s).st := by
  simp only [txRecovery]
  split
  · exact .refl s
  · exact (dmaStop_keeps .tx s).trans ((initChain_keeps .tx _).trans ((recovered_keeps _).trans
      (applyIf_keeps _ (dmaStart_keeps .tx) _)))

theorem txRecovery_kept (s : State) : RingsKept s (txRecovery s).st := by
  simp only [txRecovery]
  split
  · exact .refl s
  · exact (dmaStop_rings .tx s).kept.trans ((initChain_kept .tx _).trans ((recovered_kept _).trans
      (applyIf_kept _ (fun u => (dmaStart_rings .tx u).kept) _)))

theorem scheduleRxPoll_keeps (s : State) : Keeps s (scheduleRxPoll s) := (wrIer_keeps _ s).trans (setDev_keeps _ _)

theorem scheduleRxPoll_kept (s : State) : RingsKept s (scheduleRxPoll s) :=
  (wrIer_rings _ s).kept.trans (setDev_kept rfl rfl rfl rfl)

theorem countSources_keeps (v : Word) (s : State) : Keeps s (countSources v s) := setStats_keeps _ s

theorem countSources_rings (v : Word) (s : State) : SameRings s (countSources v s) := setStats_rings _ s

theorem scheduleReclaim_keeps (s : State) : Keeps s (scheduleReclaim s) := setDev_keeps _ s

theorem scheduleReclaim_kept (s : State) : RingsKept s (scheduleReclaim s) := setDev_kept rfl rfl rfl rfl

theorem isrRun_keeps (s : State) : Keeps s (isrRun s).st := by
  simp only [isrRun]
  exact (wrStatus_keeps _ s).trans ((countSources_keeps _ _).trans ((applyIf_keeps _ raiseThreshold_keeps _).trans
    ((applyIf_keeps _ scheduleRxPoll_keeps _).trans ((applyIf_keeps _ scheduleReclaim_keeps _).trans
      (applyIf_keeps _ txRecovery_keeps _)))))

theorem isrRun_kept (s : State) : RingsKept s (isrRun s).st := by
  simp only [isrRun]
  exact (wrStatus_rings _ s).kept.trans ((countSources_rings _ _).kept.trans
    ((applyIf_kept _ (fun u => (raiseThreshold_rings u).kept) _).trans ((applyIf_kept _ scheduleRxPoll_kept _).trans
      ((applyIf_kept _ scheduleReclaim_kept _).trans (applyIf_kept _ txRecovery_kept _)))))

/-! ### The transmit path (R260 to R276) -/

theorem writePacket_keeps (new : List Byte) (segs : List Segment) (s : State) : Keeps s (writePacket new segs s) := by
  induction segs generalizing new s with
  | nil => exact .refl s
  | cons g rest ih => exact (writeRun_keeps _ _ s).trans (ih _ _)

theorem writePacket_rings (new : List Byte) (segs : List Segment) (s : State) : SameRings s (writePacket new segs s) := by
  induction segs generalizing new s with
  | nil => exact .refl s
  | cons g rest ih => exact (writeRun_rings _ _ s).trans (ih _ _)

theorem softwareCsum_keeps (k : Packet) (segs : List Segment) (s : State) : Keeps s (softwareCsum k segs s) := by
  simp only [softwareCsum]
  split
  · exact (raiseIf_keeps _ s).trans (writePacket_keeps _ _ _)
  · exact .refl s

theorem softwareCsum_rings (k : Packet) (segs : List Segment) (s : State) : SameRings s (softwareCsum k segs s) := by
  simp only [softwareCsum]
  split
  · exact (raiseIf_rings _ s).trans (writePacket_rings _ _ _)
  · exact .refl s

theorem stageSegments_keeps (csum ic : Bool) (h : Word) (segs : List Segment) (k : Nat) (s : State) :
    Keeps s (stageSegments csum ic h segs k s) := by
  induction segs generalizing k s with
  | nil => exact .refl s
  | cons g rest ih =>
    simp only [stageSegments]
    refine Keeps.trans ?_ (ih _ _)
    split
    · exact stageTx_keeps _ _ _ _ _ _ _ _ s
    · exact (stageTx_keeps _ _ _ _ _ _ _ _ s).trans (publish_keeps _ _ _)

/-- The loop moves the submission cursor by one for each segment and leaves the rest of the rings. -/
theorem stageSegments_rings (csum ic : Bool) (h : Word) (segs : List Segment) (k : Nat) (s : State) :
    SameRings { s with tx := { s.tx with sub := s.tx.sub + natWord segs.length } }
      (stageSegments csum ic h segs k s) := by
  induction segs generalizing k s with
  | nil => exact ⟨by simp [stageSegments, natWord], rfl, rfl, rfl, rfl, rfl⟩
  | cons g rest ih =>
    simp only [stageSegments]
    refine SameRings.trans ?_ (ih _ _)
    have k1 := fun last => stageTx_rings (idx s.tx.sub s.tx.n) g.1 g.2 (if last = true then some h else none) (last && ic)
      last (decide (k = 0)) csum s
    have e : ∀ t, SameRings { s with tx := { s.tx with sub := s.tx.sub + 1 } } t →
        SameRings { s with tx := { s.tx with sub := s.tx.sub + natWord (g :: rest).length } }
          { t with tx := { t.tx with sub := t.tx.sub + natWord rest.length } } := fun t kt =>
      ⟨by simp only [kt.tx, List.length_cons, natWord_succ]
          rw [BitVec.add_assoc, BitVec.add_comm (natWord rest.length) 1],
        kt.rx, kt.txLen, kt.rxLen, kt.dev, kt.eff⟩
    apply e
    split
    · exact k1 _
    · exact (k1 _).trans (publish_rings _ _ _)

theorem sendSegments_keeps (k : Packet) (csum : Bool) (segs : List Segment) (s : State) :
    Keeps s (sendSegments k csum segs s) := by
  simp only [sendSegments]
  exact (setTx_keeps _ s).trans ((stageSegments_keeps _ _ _ _ _ _).trans ((publish_keeps _ _ _).trans
    (wrPoll_keeps _ _)))

/-- TRANSMIT of an admitted packet moves the submission cursor by the number of segments (R260). -/
theorem sendSegments_rings (k : Packet) (csum : Bool) (segs : List Segment) (s : State) :
    ∃ c, SameRings { s with tx := { s.tx with sub := s.tx.sub + natWord segs.length, coalCnt := c } }
      (sendSegments k csum segs s) := by
  refine ⟨(coalesce s.eff.txCoal s.tx.coalCnt segs.length).1, ?_⟩
  simp only [sendSegments]
  exact (stageSegments_rings csum _ k.handle segs 0
    { s with tx := { s.tx with coalCnt := (coalesce s.eff.txCoal s.tx.coalCnt segs.length).1 } }).trans
      ((publish_rings _ _ _).trans (wrPoll_rings _ _))

theorem sendSegments_kept (k : Packet) (csum : Bool) (segs : List Segment) (s : State)
    (hk : segs.length ≤ s.tx.avail) : RingsKept s (sendSegments k csum segs s) := by
  obtain ⟨c, h⟩ := sendSegments_rings k csum segs s
  exact ⟨shapeKept_tx (fun hg => Ring.legal_submit hg hk c) h, by rw [h.tx], by rw [h.rx], by rw [h.dev], by rw [h.dev],
    by rw [h.dev], by rw [h.dev]⟩

theorem rejectBusy_keeps (s : State) : Keeps s (rejectBusy s).st := (countBusy_keeps s).trans (setDev_keeps _ _)

theorem rejectBusy_kept (s : State) : RingsKept s (rejectBusy s).st :=
  (countBusy_rings s).kept.trans (setDev_kept rfl rfl rfl rfl)

theorem rejectRecord_keeps (s : State) : Keeps s (rejectRecord s).st := setStats_keeps _ s

theorem rejectRecord_rings (s : State) : SameRings s (rejectRecord s).st := setStats_rings _ s

theorem reclaimAt_keeps (i : Nat) (s : State) : Keeps s (reclaimAt i s).st := by
  unfold reclaimAt
  repeat' split
  · exact .refl s
  · exact reclaimBody_keeps i s
  · exact readDesc_keeps _ _ _ s

theorem reclaimBody_kept (i : Nat) (s : State) (hk : 1 ≤ s.tx.inflight) : RingsKept s (reclaimBody i s).st := by
  have h := reclaimBody_rings i s
  exact ⟨shapeKept_tx (fun hg => Ring.legal_complete hg hk) h, by rw [h.tx], by rw [h.rx], by rw [h.dev], by rw [h.dev],
    by rw [h.dev], by rw [h.dev]⟩

theorem reclaimAt_kept (i : Nat) (s : State) : RingsKept s (reclaimAt i s).st := by
  unfold reclaimAt
  repeat' split
  · exact .refl s
  · rename_i hc _
    simp only [Bool.or_eq_true, decide_eq_true_eq, not_or] at hc
    exact reclaimBody_kept i s (Nat.pos_of_ne_zero hc.2)
  · exact (readDesc_rings _ _ _ s).kept

theorem reclaimLoop_keeps (fuel : Nat) (s : State) : Keeps s (reclaimLoop fuel s).2 := by
  induction fuel generalizing s with
  | zero => exact .refl s
  | succ fuel ih =>
    simp only [reclaimLoop]
    split
    · exact (readDesc_keeps _ _ _ s).trans ((reclaimBody_keeps _ _).trans (ih _))
    · exact readDesc_keeps _ _ _ s

/-- TX_RECLAIM's loop takes at most `fuel` descriptors and moves the completion cursor past them. -/
theorem reclaimLoop_rings (fuel : Nat) (s : State) :
    (reclaimLoop fuel s).1 ≤ fuel ∧
      SameRings { s with tx := { s.tx with comp := s.tx.comp + natWord (reclaimLoop fuel s).1 } }
        (reclaimLoop fuel s).2 := by
  induction fuel generalizing s with
  | zero => exact ⟨Nat.le_refl 0, by simp [reclaimLoop, natWord], rfl, rfl, rfl, rfl, rfl⟩
  | succ fuel ih =>
    have kr := readDesc_rings .tx (idx s.tx.comp s.tx.n) 0 s
    simp only [reclaimLoop]
    split
    rotate_left
    · exact ⟨Nat.zero_le _, by simp [kr.tx, natWord], kr.rx, kr.txLen, kr.rxLen, kr.dev, kr.eff⟩
    · generalize ht : (reclaimBody (idx s.tx.comp s.tx.n) (readDesc .tx (idx s.tx.comp s.tx.n) 0 s)).st = t
      have kb := ht ▸ reclaimBody_rings (idx s.tx.comp s.tx.n) (readDesc .tx (idx s.tx.comp s.tx.n) 0 s)
      obtain ⟨h1, h2⟩ := ih t
      refine ⟨Nat.succ_le_succ h1, SameRings.trans ?_ h2⟩
      exact ⟨by simp only [kb.tx, kr.tx, natWord_succ]; rw [BitVec.add_assoc, BitVec.add_comm _ 1],
        kb.rx.trans kr.rx, kb.txLen.trans kr.txLen, kb.rxLen.trans kr.rxLen, kb.dev.trans kr.dev, kb.eff.trans kr.eff⟩

theorem wakeQueue_keeps (s : State) : Keeps s (wakeQueue s) := by
  unfold wakeQueue
  split
  · exact setDev_keeps _ s
  · exact .refl s

theorem wakeQueue_kept (s : State) : RingsKept s (wakeQueue s) := by
  unfold wakeQueue
  split
  · exact setDev_kept rfl rfl rfl rfl
  · exact .refl s

theorem reclaimRun_keeps (s : State) : Keeps s (reclaimRun s).st := by
  simp only [reclaimRun]
  split
  · exact (setDev_keeps _ s).trans ((reclaimLoop_keeps _ _).trans (wakeQueue_keeps _))
  · exact setDev_keeps _ s

theorem txReclaim_keeps (s : State) : Keeps s (txReclaim s).st := by
  simp only [txReclaim]
  split
  · exact .refl s
  · exact reclaimRun_keeps s

theorem reclaimRun_kept (s : State) : RingsKept s (reclaimRun s).st := by
  simp only [reclaimRun]
  split
  rotate_left
  · exact setDev_kept rfl rfl rfl rfl
  · have k := setDev_kept (s := s) (d := { s.dev with txReclaimPending := false }) rfl rfl rfl rfl
    refine k.trans (RingsKept.trans ?_ (wakeQueue_kept _))
    obtain ⟨h1, h⟩ := reclaimLoop_rings s.tx.inflight { s with dev := { s.dev with txReclaimPending := false } }
    exact ⟨shapeKept_tx (s := { s with dev := { s.dev with txReclaimPending := false } })
      (fun hg => Ring.legal_complete hg h1) h, by rw [h.tx], by rw [h.rx], by rw [h.dev], by rw [h.dev], by rw [h.dev],
      by rw [h.dev]⟩

theorem txReclaim_kept (s : State) : RingsKept s (txReclaim s).st := by
  simp only [txReclaim]
  split
  · exact .refl s
  · exact reclaimRun_kept s

theorem watchdogStep_keeps (s : State) : Keeps s (watchdogStep s).st :=
  (setStats_keeps _ s).trans (txRecovery_keeps _)

theorem watchdogStep_kept (s : State) : RingsKept s (watchdogStep s).st :=
  (setStats_rings _ s).kept.trans (txRecovery_kept _)

/-- A conditional operation keeps what its two branches keep. -/
theorem Keeps.ite {s t u : State} {c : Prop} [Decidable c] (h : Keeps s t) (k : Keeps t u) :
    Keeps s (if c then u else t) := by
  split
  · exact h.trans k
  · exact h

theorem RingsKept.ite {s t u : State} {c : Prop} [Decidable c] (h : RingsKept s t) (k : RingsKept t u) :
    RingsKept s (if c then u else t) := by
  split
  · exact h.trans k
  · exact h

/-! ### The receive path (R300 to R309) -/

theorem setDrawsStats_keeps (n : Nat) (c : Stats) (s : State) : Keeps s { s with draws := n, stats := c } :=
  .of_same rfl rfl rfl rfl rfl rfl rfl id fun _ h => h

theorem setDrawsStats_rings (n : Nat) (c : Stats) (s : State) : SameRings s { s with draws := n, stats := c } :=
  ⟨rfl, rfl, rfl, rfl, rfl, rfl⟩

theorem deliverFrame_keeps (i fl : Nat) (c : RxClass) (s : State) : Keeps s (deliverFrame i fl c s) := by
  simp only [deliverFrame]
  split
  · exact (unmapIf_keeps _ _ s).trans ((output_keeps _ _).trans ((giveToUpper_keeps _ _).trans
      ((setDrawsStats_keeps _ _ _).trans (setRxSlot_keeps _ _ _))))
  · exact (unmapIf_keeps _ _ s).trans ((setDrawsStats_keeps _ _ _).trans (setRxSlot_keeps _ _ _))

theorem deliverFrame_rings (i fl : Nat) (c : RxClass) (s : State) : SameRings s (deliverFrame i fl c s) := by
  simp only [deliverFrame]
  split
  · exact (unmapIf_rings _ _ s).trans ((output_rings _ _).trans ((giveToUpper_rings _ _).trans
      ((setDrawsStats_rings _ _ _).trans (setRxSlot_rings _ _ _))))
  · exact (unmapIf_rings _ _ s).trans ((setDrawsStats_rings _ _ _).trans (setRxSlot_rings _ _ _))

theorem takeFrame_keeps (i : Nat) (d : Word) (s : State) : Keeps s (takeFrame i d s) := by
  simp only [takeFrame]
  split
  · exact (setStats_keeps _ s).trans ((setPub_keeps .rx _ _ _).trans (setRx_keeps _ _))
  · exact (deliverFrame_keeps _ _ _ s).trans ((setPub_keeps .rx _ _ _).trans (setRx_keeps _ _))

/-- Taking a frame moves the completion cursor by one and leaves the rest of the rings. -/
theorem takeFrame_rings (i : Nat) (d : Word) (s : State) :
    SameRings { s with rx := { s.rx with comp := s.rx.comp + 1 } } (takeFrame i d s) := by
  simp only [takeFrame]
  split
  · exact SameRings.onRx ((setStats_rings _ s).trans (setPub_rings .rx i _ _)) fun g => { g with comp := g.comp + 1 }
  · exact SameRings.onRx ((deliverFrame_rings _ _ _ s).trans (setPub_rings .rx i _ _))
      fun g => { g with comp := g.comp + 1 }

theorem pollLoop_keeps (fuel : Nat) (s : State) : Keeps s (pollLoop fuel s).2 := by
  induction fuel generalizing s with
  | zero => exact .refl s
  | succ fuel ih =>
    simp only [pollLoop]
    split
    · exact readDesc_keeps _ _ _ s
    · exact (readDesc_keeps _ _ _ s).trans ((takeFrame_keeps _ _ _).trans (ih _))

/-- POLL's loop takes at most `fuel` frames and moves the completion cursor past them. -/
theorem pollLoop_rings (fuel : Nat) (s : State) :
    (pollLoop fuel s).1 ≤ fuel ∧
      SameRings { s with rx := { s.rx with comp := s.rx.comp + natWord (pollLoop fuel s).1 } } (pollLoop fuel s).2 := by
  induction fuel generalizing s with
  | zero => exact ⟨Nat.le_refl 0, rfl, by simp [pollLoop, natWord], rfl, rfl, rfl, rfl⟩
  | succ fuel ih =>
    have kr := readDesc_rings .rx (idx s.rx.comp s.rx.n) 0 s
    simp only [pollLoop]
    split
    · exact ⟨Nat.zero_le _, kr.tx, by simp [kr.rx, natWord], kr.txLen, kr.rxLen, kr.dev, kr.eff⟩
    · generalize ht : takeFrame (idx s.rx.comp s.rx.n) (s.descWord .rx (idx s.rx.comp s.rx.n) 0)
        (readDesc .rx (idx s.rx.comp s.rx.n) 0 s) = t
      have kb := ht ▸ takeFrame_rings (idx s.rx.comp s.rx.n) (s.descWord .rx (idx s.rx.comp s.rx.n) 0)
        (readDesc .rx (idx s.rx.comp s.rx.n) 0 s)
      obtain ⟨h1, h2⟩ := ih t
      refine ⟨Nat.succ_le_succ h1, SameRings.trans ?_ h2⟩
      exact ⟨kb.tx.trans kr.tx, by simp only [kb.rx, kr.rx, natWord_succ]; rw [BitVec.add_assoc, BitVec.add_comm _ 1],
        kb.txLen.trans kr.txLen, kb.rxLen.trans kr.rxLen, kb.dev.trans kr.dev, kb.eff.trans kr.eff⟩

theorem rearm_keeps (s : State) : Keeps s (rearm s) := (setDev_keeps _ s).trans (wrIer_keeps _ _)

theorem rearm_kept (s : State) : RingsKept s (rearm s) :=
  RingsKept.trans (t := { s with dev := { s.dev with rxPollScheduled := false } }) (setDev_kept rfl rfl rfl rfl)
    (wrIer_rings _ _).kept

theorem pollRun_keeps (b : Nat) (s : State) : Keeps s (pollRun b s).st := by
  simp only [pollRun]
  split
  · exact .refl s
  · exact ((pollLoop_keeps _ s).trans (refillMany_keeps _ _)).ite (rearm_keeps _)

theorem pollRun_kept (b : Nat) (s : State) : RingsKept s (pollRun b s).st := by
  simp only [pollRun]
  split
  · exact .refl s
  · obtain ⟨h1, h⟩ := pollLoop_rings (min b s.rx.inflight) s
    have k : RingsKept s (pollLoop (min b s.rx.inflight) s).2 :=
      ⟨shapeKept_rx (fun hg => Ring.legal_complete hg (h1.trans (Nat.min_le_right _ _))) h, by rw [h.tx], by rw [h.rx],
        by rw [h.dev], by rw [h.dev], by rw [h.dev], by rw [h.dev]⟩
    exact (k.trans (refillMany_kept _ _)).ite (rearm_kept _)

end Sys2Proof.Machine
end

