-- ==== Sys2Proof/Laws/Lifecycle.lean ====
section
/-! SUPPORT. What the lifecycle operations (46_lifecycle.md), the DMA agents' steps (44_dma_engine.md) and the
environment's moves keep. -/

namespace Sys2Proof.Machine

open Sys2Proof

/-! ### Building blocks -/

theorem initChain_dev (r : RingSel) (s : State) : (initChain r s).st.dev = s.dev := by
  rcases initChain_cases r s with ⟨_, h⟩ | h
  · rw [h]
  · have k := (initChain_rings r s h).dev
    cases r <;> exact k

theorem allocate_dev (r : RingSel) (n : Nat) (s : State) : (allocate r n s).st.dev = s.dev := by
  rcases allocate_rings r n s with ⟨_, k⟩ | ⟨_, _, _, _, _, _, k⟩
  · exact k.dev
  · have h := k.dev
    cases r <;> exact h

/-- A ring that ALLOCATE answers OK for is allocated, and the other ring is as it was. -/
theorem allocate_allocated {r : RingSel} {n : Nat} {s : State} (h : (allocate r n s).res = codeOk) :
    ((allocate r n s).st.ring r).allocated = true ∧
      match r with
      | .tx => (allocate r n s).st.rx = s.rx
      | .rx => (allocate r n s).st.tx = s.tx := by
  rcases allocate_rings r n s with ⟨h', _⟩ | ⟨_, _, _, _, _, _, k⟩
  · rw [h'] at h
    cases h
  · cases r
    · exact ⟨by simp [State.ring, k.tx, emptySlots, State.setRing], k.rx⟩
    · exact ⟨by simp [State.ring, k.rx, emptySlots, State.setRing], k.tx⟩

theorem freeIfAllocated_keeps (r : RingSel) (s : State) : Keeps s (freeIfAllocated r s) := by
  unfold freeIfAllocated
  split
  · exact freeRing_keeps r s
  · exact .refl s

theorem freeIfAllocated_shape (r : RingSel) (s : State) : ShapeKept s (freeIfAllocated r s) := by
  unfold freeIfAllocated
  split
  · exact freeRing_shape r s
  · exact .refl s

theorem freeRing_dev (r : RingSel) (s : State) : (freeRing r s).dev = s.dev := by cases r <;> rfl

theorem freeIfAllocated_dev (r : RingSel) (s : State) : (freeIfAllocated r s).dev = s.dev := by
  unfold freeIfAllocated
  split
  · exact freeRing_dev r s
  · rfl

theorem attachDev_keeps (s : State) : Keeps s (attachDev s) := .of_same rfl rfl rfl rfl rfl rfl rfl id fun _ h => h

theorem attachDev_shape (s : State) : ShapeKept s (attachDev s) := .of_rings rfl rfl rfl rfl

theorem attachDev_session (s : State) : (attachDev s).sessionLegal :=
  ⟨fun _ => rfl, fun h => by simp [attachDev] at h, fun h => by simp [attachDev] at h⟩

theorem clampTunables_keeps (s : State) : Keeps s (clampTunables s) := .of_same rfl rfl rfl rfl rfl rfl rfl id fun _ h => h

theorem clampTunables_kept (s : State) : RingsKept s (clampTunables s) :=
  ⟨.of_rings rfl rfl rfl rfl, rfl, rfl, rfl, rfl, rfl, rfl⟩

/-! ### OPEN (R412, R413) -/

theorem abortOpen_keeps (s : State) : Keeps s (abortOpen s).st := by
  simp only [abortOpen]
  exact (wrDmaCtrl_keeps _ s).trans ((initChain_keeps _ _).trans ((freeIfAllocated_keeps _ _).trans
    ((freeIfAllocated_keeps _ _).trans (setDev_keeps _ _))))

theorem abortOpen_shape (s : State) : ShapeKept s (abortOpen s).st := by
  simp only [abortOpen]
  exact (wrDmaCtrl_rings _ s).shapeKept.trans ((initChain_kept .rx _).toShapeKept.trans
    ((freeIfAllocated_shape .tx _).trans ((freeIfAllocated_shape .rx _).trans (setDev_shape _ _))))

theorem abortOpen_dev (s : State) : (abortOpen s).st.dev = { s.dev with ifup := false } := by
  simp only [abortOpen, failed, freeIfAllocated_dev, initChain_dev]
  rfl

theorem startSession_keeps (s : State) : Keeps s (startSession s) := by
  simp only [startSession]
  exact (dmaMode_keeps _ _ _ _ s).trans ((wrMacFlow_keeps _ _).trans ((wrMacConfig_keeps _ _).trans
    ((wrStatus_keeps _ _).trans ((setDev_keeps _ _).trans ((wrIer_keeps _ _).trans ((dmaStart_keeps _ _).trans
      ((dmaStart_keeps _ _).trans (setDev_keeps _ _))))))))

/-- What OPEN's last phase does to rings and flags: the scheduling flags cleared and `ifup` set. -/
theorem startSession_rings (s : State) :
    SameRings
      { s with dev :=
        { s.dev with rxPollScheduled := false, txReclaimPending := false, txQueueStopped := false, ifup := true } }
      (startSession s) := by
  simp only [startSession]
  have k1 := (dmaMode_rings (natWord s.params.pbl.val) false false (natWord s.tun.tc) s).trans
    (wrMacFlow_rings (flowWord s.tun) _)
  generalize wrMacFlow _ _ = s2 at k1 ⊢
  have k2 := k1.trans ((wrMacConfig_rings (putBit s2.csr.macConfig 8 s2.dev.csumCap) s2).trans
    (wrStatus_rings srcMask _))
  generalize wrStatus _ _ = s4 at k2 ⊢
  have k3 := (wrIer_rings ierMask { s4 with
    dev := { s4.dev with rxPollScheduled := false, txReclaimPending := false, txQueueStopped := false } }).trans
      ((dmaStart_rings .tx _).trans (dmaStart_rings .rx _))
  generalize dmaStart _ _ = s6 at k3 ⊢
  exact ⟨k3.tx.trans k2.tx, k3.rx.trans k2.rx, k3.txLen.trans k2.txLen, k3.rxLen.trans k2.rxLen,
    by simp only [k3.dev, k2.dev], k3.eff.trans k2.eff⟩

theorem openRun_keeps (s : State) : Keeps s (openRun s).st := by
  have k0 := clampTunables_keeps s
  have k1 := k0.trans (allocate_keeps .tx (clampTunables s).tun.nTx _)
  simp only [openRun]
  split
  · exact k1.trans (abortOpen_keeps _)
  · have k2 := k1.trans (allocate_keeps .rx (clampTunables s).tun.nRx _)
    split
    · exact k2.trans (abortOpen_keeps _)
    · have k3 := k2.trans ((initChain_keeps .tx _).trans (initChain_keeps .rx _))
      generalize (initChain .rx (initChain .tx _).st).st = i at k3 ⊢
      have k4 := k3.trans (refillMany_keeps (i.rx.n - 1) i)
      split
      · exact k4.trans (startSession_keeps _)
      · exact k4.trans (abortOpen_keeps _)

theorem openRun_shape (s : State) : ShapeKept s (openRun s).st := by
  have k1 := (clampTunables_kept s).toShapeKept.trans (allocate_shape .tx (clampTunables s).tun.nTx _)
  simp only [openRun]
  split
  · exact k1.trans (abortOpen_shape _)
  · have k2 := k1.trans (allocate_shape .rx (clampTunables s).tun.nRx _)
    split
    · exact k2.trans (abortOpen_shape _)
    · have k3 := k2.trans ((initChain_kept .tx _).trans (initChain_kept .rx _)).toShapeKept
      generalize (initChain .rx (initChain .tx _).st).st = i at k3 ⊢
      have k4 := k3.trans (refillMany_kept (i.rx.n - 1) i).toShapeKept
      split
      · exact k4.trans ((setDev_shape _ _).trans (startSession_rings _).shapeKept)
      · exact k4.trans (abortOpen_shape _)

/-- An aborted OPEN of an attached device leaves a legal session. -/
theorem abortOpen_session {s : State} (ha : s.dev.attached = true) (hf : s.dev.fullShutdown = false) :
    (abortOpen s).st.sessionLegal := by
  constructor <;> simp [abortOpen_dev, ha, hf]

theorem openRun_session {s : State} (ha : s.dev.attached = true) (hf : s.dev.fullShutdown = false) :
    (openRun s).st.sessionLegal := by
  simp only [openRun]
  split
  · refine abortOpen_session ?_ ?_
    · show (allocate .tx _ _).st.dev.attached = true
      rw [allocate_dev]; exact ha
    · show (allocate .tx _ _).st.dev.fullShutdown = false
      rw [allocate_dev]; exact hf
  · rename_i h1
    split
    · refine abortOpen_session ?_ ?_
      · show (allocate .rx _ _).st.dev.attached = true
        rw [allocate_dev, allocate_dev]; exact ha
      · show (allocate .rx _ _).st.dev.fullShutdown = false
        rw [allocate_dev, allocate_dev]; exact hf
    · rename_i h2
      simp only [ne_eq, not_not] at h1 h2
      have g1 := (allocate_allocated h1).1
      obtain ⟨g2, g3⟩ := allocate_allocated h2
      generalize ht : (allocate .rx (clampTunables s).tun.nRx
        (allocate .tx (clampTunables s).tun.nTx (clampTunables s)).st).st = t at g2 g3 ⊢
      have hd : t.dev = s.dev := by rw [← ht, allocate_dev, allocate_dev]; rfl
      have k := (initChain_kept .tx t).trans (initChain_kept .rx _)
      generalize (initChain .rx (initChain .tx t).st).st = i at k ⊢
      have k4 := k.trans (refillMany_kept (i.rx.n - 1) i)
      generalize refillMany (i.rx.n - 1) i = f at k4 ⊢
      have ha' : f.2.dev.attached = true := by rw [k4.attached, hd]; exact ha
      have hf' : f.2.dev.fullShutdown = false := by rw [k4.fullShutdown, hd]; exact hf
      split
      · obtain ⟨e1, e2, _, _, e5, _⟩ := startSession_rings f.2
        refine ⟨fun _ => ?_, fun _ => ⟨?_, ?_⟩, fun hc => ?_⟩
        · simp only [done, e5]
          exact ha'
        · simp only [done, e1, k4.txAllocated, g3]
          exact g1
        · simp only [done, e2, k4.rxAllocated]
          exact g2
        · simp only [done, e5, hf'] at hc
          cases hc
      · exact abortOpen_session ha' hf'

theorem openSession_keeps (s : State) : Keeps s (openSession s).st := by
  unfold openSession
  split
  · exact openRun_keeps s
  · exact .refl s

theorem openSession_shape (s : State) : ShapeKept s (openSession s).st := by
  unfold openSession
  split
  · exact openRun_shape s
  · exact .refl s

theorem openSession_session {s : State} (h : s.sessionLegal) : (openSession s).st.sessionLegal := by
  unfold openSession
  split
  · rename_i hc
    simp only [Bool.and_eq_true, Bool.not_eq_true'] at hc
    refine openRun_session hc.1.1 ?_
    cases hf : s.dev.fullShutdown with
    | false => rfl
    | true =>
      have := (h.shutdown hf).1
      rw [hc.2] at this
      cases this
  · exact h

/-! ### CLOSE, SUSPEND and RESUME (R420 to R425) -/

theorem drainAndFree_keeps (s : State) : Keeps s (drainAndFree s) :=
  (initChain_keeps .tx s).trans ((initChain_keeps .rx _).trans ((freeRing_keeps .tx _).trans (freeRing_keeps .rx _)))

theorem drainAndFree_shape (s : State) : ShapeKept s (drainAndFree s) :=
  ((initChain_kept .tx s).trans (initChain_kept .rx _)).toShapeKept.trans
    ((freeRing_shape .tx _).trans (freeRing_shape .rx _))

theorem drainAndFree_dev (s : State) : (drainAndFree s).dev = s.dev := by
  rw [drainAndFree, freeRing_dev, freeRing_dev, initChain_dev, initChain_dev]

theorem quiesce_keeps (s : State) : Keeps s (quiesce s) := (wrIer_keeps _ s).trans (setDev_keeps _ _)

theorem quiesce_kept (s : State) : RingsKept s (quiesce s) :=
  (wrIer_rings _ s).kept.trans (setDev_kept rfl rfl rfl rfl)

theorem closeRun_keeps (s : State) : Keeps s (closeRun s) := by
  simp only [closeRun]
  exact (quiesce_keeps s).trans ((setDev_keeps _ _).trans ((dmaStop_keeps _ _).trans ((dmaStop_keeps _ _).trans
    ((drainAndFree_keeps _).trans ((wrStatus_keeps _ _).trans (setDev_keeps _ _))))))

theorem closeRun_shape (s : State) : ShapeKept s (closeRun s) := by
  simp only [closeRun]
  exact (quiesce_kept s).toShapeKept.trans ((setDev_shape _ _).trans ((dmaStop_rings .tx _).shapeKept.trans
    ((dmaStop_rings .rx _).shapeKept.trans ((drainAndFree_shape _).trans
      ((wrStatus_rings _ _).shapeKept.trans (setDev_shape _ _))))))

/-- What CLOSE does to the lifecycle flags (R420, R421). -/
theorem closeRun_dev (s : State) :
    (closeRun s).dev =
      { s.dev with rxPollScheduled := false, txReclaimPending := false, ifup := false, txQueueStopped := false } := by
  simp only [closeRun, wrStatus, storeStatus, descFence, drainAndFree_dev]
  rfl

theorem suspendRun_keeps (wol : Bool) (s : State) : Keeps s (suspendRun wol s) := by
  have k := (quiesce_keeps s).trans ((setDev_keeps { (quiesce s).dev with savedCtrl := enablesOf (quiesce s) } _).trans
    ((dmaStop_keeps .tx _).trans (dmaStop_keeps .rx _)))
  simp only [suspendRun]
  split
  · exact k.trans ((wrPmt_keeps _ _).trans (setDev_keeps _ _))
  · exact k.trans ((drainAndFree_keeps _).trans (setDev_keeps _ _))

theorem suspendRun_shape (wol : Bool) (s : State) : ShapeKept s (suspendRun wol s) := by
  have k := (quiesce_kept s).toShapeKept.trans ((setDev_shape { (quiesce s).dev with savedCtrl := enablesOf (quiesce s) }
    _).trans ((dmaStop_rings .tx _).trans (dmaStop_rings .rx _)).shapeKept)
  simp only [suspendRun]
  split
  · exact k.trans ((wrPmt_rings _ _).shapeKept.trans (setDev_shape _ _))
  · exact k.trans ((drainAndFree_shape _).trans (setDev_shape _ _))

theorem suspendRun_session (wol : Bool) {s : State} (h : s.sessionLegal) (ha : s.dev.attached = true) :
    (suspendRun wol s).sessionLegal := by
  cases wol
  · refine ⟨fun _ => ?_, fun hc => ?_, fun _ => ?_⟩
    · simp only [suspendRun, drainAndFree_dev, Bool.false_eq_true, if_false]
      exact ha
    · simp [suspendRun] at hc
    · simp [suspendRun]
  · exact ⟨fun _ => ha, fun hc => h.rings hc, fun hc => by simp [suspendRun] at hc⟩

theorem restoreRun_keeps (s : State) : Keeps s (restoreRun s) := by
  simp only [restoreRun]
  exact (wrPmt_keeps _ s).trans ((wrMacConfig_keeps _ _).trans ((wrDmaCtrl_keeps _ _).trans (wrIer_keeps _ _)))

theorem restoreRun_rings (s : State) : SameRings s (restoreRun s) := ⟨rfl, rfl, rfl, rfl, rfl, rfl⟩

theorem resumeRun_keeps (s : State) : Keeps s (resumeRun s).st := by
  simp only [resumeRun]
  split
  · exact (setDev_keeps _ s).trans (openSession_keeps _)
  · exact (setDev_keeps _ s).trans (restoreRun_keeps _)

theorem resumeRun_shape (s : State) : ShapeKept s (resumeRun s).st := by
  simp only [resumeRun]
  split
  · exact (setDev_shape _ s).trans (openSession_shape _)
  · exact (setDev_shape _ s).trans (restoreRun_rings _).shapeKept

theorem resumeRun_session {s : State} (h : s.sessionLegal) : (resumeRun s).st.sessionLegal := by
  simp only [resumeRun]
  split
  · exact openSession_session ⟨fun hc => h.attached (by simpa using Or.inl hc), h.rings, fun hc => by simp at hc⟩
  · rename_i hf
    exact (restoreRun_rings _).kept.session
      ⟨fun hc => h.attached (by simpa using Or.inl hc), h.rings, fun hc => absurd hc hf⟩

/-! ### The DMA agents (R331 to R347) -/

theorem closeDescs_keeps (js : List Nat) (v : Word) (s : State) :
    Keeps s (js.foldl (fun u j => closeDesc .tx j v u) s) := by
  induction js generalizing s with
  | nil => exact .refl s
  | cons j js ih => exact (closeDesc_keeps .tx j v s).trans (ih _)

theorem closeDescs_rings (js : List Nat) (v : Word) (s : State) :
    SameRings s (js.foldl (fun u j => closeDesc .tx j v u) s) := by
  induction js generalizing s with
  | nil => exact .refl s
  | cons j js ih => exact (closeDesc_rings .tx j v s).trans (ih _)

/-- A change of the DMA pointers, or of a process from one running state to another, keeps what has to be kept. -/
theorem setDma_keeps (d : Dma) (s : State) (ht : d.ts = .stopped ↔ s.dma.ts = .stopped)
    (hr : d.rs = .stopped ↔ s.dma.rs = .stopped) : Keeps s { s with dma := d } :=
  .of_csr rfl ⟨rfl, rfl, rfl, rfl⟩ ⟨rfl, rfl⟩ rfl rfl rfl rfl fun h =>
    ⟨h.csr, ⟨h.start.tx.trans ht.symm, h.start.rx.trans hr.symm⟩, h.bases⟩

theorem suspendTx_keeps (s : State) (h : s.dma.ts ≠ .stopped) : Keeps s (suspendTx s) :=
  setDma_keeps _ s (by simp [h]) Iff.rfl

theorem dropFrame_keeps (s : State) (h : s.dma.rs ≠ .stopped) : Keeps s (dropFrame s) :=
  .of_csr rfl ⟨rfl, rfl, rfl, rfl⟩ ⟨rfl, rfl⟩ rfl rfl rfl rfl fun k =>
    ⟨k.csr, ⟨k.start.tx, k.start.rx.trans (by simp [dropFrame, h])⟩, k.bases⟩

theorem suspendTx_rings (s : State) : SameRings s (suspendTx s) := ⟨rfl, rfl, rfl, rfl, rfl, rfl⟩

theorem dropFrame_rings (s : State) : SameRings s (dropFrame s) := ⟨rfl, rfl, rfl, rfl, rfl, rfl⟩

theorem closeFrame_keeps (js : List Nat) (v : Word) (s : State) : Keeps s (closeFrame js v s) := by
  simp only [closeFrame]
  exact (closeDescs_keeps js v s).trans ((latchIf_keeps _ _ _).trans (setDma_keeps _ _ Iff.rfl Iff.rfl))

theorem closeFrame_rings (js : List Nat) (v : Word) (s : State) : SameRings s (closeFrame js v s) := by
  simp only [closeFrame]
  exact (closeDescs_rings js v s).trans ((latchIf_rings _ _ _).trans ⟨rfl, rfl, rfl, rfl, rfl, rfl⟩)

theorem latchIf_dma (c : Bool) (b : Source) (s : State) : (latchIf c b s).dma = s.dma := by cases c <;> rfl

theorem closeDescs_dma (js : List Nat) (v : Word) (s : State) :
    (js.foldl (fun u j => closeDesc .tx j v u) s).dma = s.dma := by
  induction js generalizing s with
  | nil => rfl
  | cons j js ih =>
    rw [List.foldl_cons, ih, closeDesc, dmaWrite_eq]

/-- Closing a frame leaves the two process states. -/
theorem closeFrame_dma (js : List Nat) (v : Word) (s : State) :
    (closeFrame js v s).dma = { s.dma with txIdx := s.nextIdx .tx (js.getLastD 0) } := by
  simp only [closeFrame, latchIf_dma, closeDescs_dma]

theorem writeReceived_keeps (bytes : List Byte) (spans : List (Word × Nat)) (s : State) :
    Keeps s (writeReceived bytes spans s) := by
  induction spans generalizing bytes s with
  | nil => exact .refl s
  | cons g rest ih => exact (dmaWrite_keeps _ _ s).trans (ih _ _)

theorem writeReceived_rings (bytes : List Byte) (spans : List (Word × Nat)) (s : State) :
    SameRings s (writeReceived bytes spans s) := by
  induction spans generalizing bytes s with
  | nil => exact .refl s
  | cons g rest ih => exact (dmaWrite_rings _ _ s).trans (ih _ _)

theorem writeReceived_dma (bytes : List Byte) (spans : List (Word × Nat)) (s : State) :
    (writeReceived bytes spans s).dma = s.dma := by
  induction spans generalizing bytes s with
  | nil => rfl
  | cons g rest ih => rw [writeReceived, ih, dmaWrite_eq]

theorem receiveFrame_rings (j : Nat) (f : WireFrame) (s : State) : SameRings s (receiveFrame j f s) := by
  simp only [receiveFrame]
  split
  · exact raise_rings _ s
  · exact (writeReceived_rings _ _ s).trans ((closeDesc_rings .rx j _ _).trans ((latchIf_rings _ _ _).trans
      ⟨rfl, rfl, rfl, rfl, rfl, rfl⟩))

/-- A reception by a receiver that is not STOPPED keeps what has to be kept. -/
theorem receiveFrame_keeps (j : Nat) (f : WireFrame) (s : State) (hr : s.dma.rs ≠ .stopped) :
    Keeps s (receiveFrame j f s) := by
  simp only [receiveFrame]
  split
  · exact raise_keeps _ s
  · refine (writeReceived_keeps _ _ s).trans ((closeDesc_keeps .rx j _ _).trans ((latchIf_keeps _ _ _).trans
      (setDma_keeps _ _ Iff.rfl ?_)))
    rw [latchIf_dma, closeDesc, dmaWrite_eq]
    simp [writeReceived_dma, hr]

/-! ### The environment (R81) -/

theorem supplyBuffer_keeps (a : Word) (bytes : List Byte) (s : State) : Keeps s (supplyBuffer a bytes s) := by
  simp only [supplyBuffer]
  split
  · exact (descFence_keeps s).trans (.of_same rfl rfl rfl rfl rfl rfl rfl (fun h => memWriteBytes_wf _ _ _ h) fun _ h => h)
  · exact .refl s

theorem supplyBuffer_rings (a : Word) (bytes : List Byte) (s : State) : SameRings s (supplyBuffer a bytes s) := by
  simp only [supplyBuffer]
  split
  · exact ⟨rfl, rfl, rfl, rfl, rfl, rfl⟩
  · exact .refl s

theorem withdrawBuffer_keeps (a : Word) (s : State) : Keeps s (withdrawBuffer a s) :=
  .of_same rfl rfl rfl rfl rfl rfl rfl id fun _ h => h

theorem withdrawBuffer_rings (a : Word) (s : State) : SameRings s (withdrawBuffer a s) :=
  ⟨rfl, rfl, rfl, rfl, rfl, rfl⟩

end Sys2Proof.Machine
end

