-- ==== Sys2Proof/Laws/Desc.lean ====
section
/-! SUPPORT. Descriptor words (20_memory.md R90 to R95, 30_encoding.md R121): what a software read or write of one does
where it is allowed, and what software sees of the words of a descriptor afterwards. -/

namespace Sys2Proof.Machine

open Sys2Proof

theorem fenced_descFence {s : State} (h : s.memLegal) : fenced s (descFence s) := ⟨rfl, swByte_descFence h⟩

theorem fenced.swWord {s u : State} (h : fenced s u) (a : Word) : swWord u a = swWord s a := by
  refine swWord_congr h.bytes ?_ a
  rw [h.rest]

/-! ### Addresses -/

theorem natWord_toNat {n : Nat} (h : n < 2 ^ 32) : (natWord n).toNat = n := by
  simp only [natWord, BitVec.toNat_ofNat]
  omega

theorem natWord_add (m n : Nat) : natWord (m + n) = natWord m + natWord n := by
  apply BitVec.eq_of_toNat_eq
  simp [natWord, BitVec.toNat_add]

/-- Byte `j` from word `k` of a descriptor is byte `4k + j` of the descriptor. -/
theorem descAddr_byte (s : State) (r : RingSel) (i k j : Nat) :
    s.descAddr r i k + natWord j = s.descAddr r i 0 + natWord (4 * k + j) := by
  simp only [State.descAddr, Nat.mul_zero, Nat.add_zero, natWord_add, BitVec.add_assoc]

theorem inSpan_offset {a : Word} {n m : Nat} (h : n < m) (hm : m < 2 ^ 32) : inSpan a m (a + natWord n) = true := by
  simp only [inSpan, add_sub_self_left, natWord_toNat (show n < 2 ^ 32 by omega), decide_eq_true_eq]
  exact h

theorem inSpan_descByte (s : State) (r : RingSel) (i : Nat) {k j : Nat} (hk : k < 4) (hj : j < 4) :
    inSpan (s.descAddr r i 0) 16 (s.descAddr r i k + natWord j) = true := by
  rw [descAddr_byte]
  exact inSpan_offset (by omega) (by omega)

/-- The words of the descriptors of one ring do not overlap. -/
theorem descAddr_apart (s : State) (r : RingSel) {i j k l : Nat} (hi : i < 1024) (hj : j < 1024) (hk : k < 4) (hl : l < 4)
    (h : ¬ (i = j ∧ k = l)) : 4 ≤ (s.descAddr r j l - s.descAddr r i k).toNat := by
  simp only [State.descAddr]
  rw [show (s.ring r).base + natWord (16 * j + 4 * l) - ((s.ring r).base + natWord (16 * i + 4 * k)) =
      natWord (16 * j + 4 * l) - natWord (16 * i + 4 * k) by
    rw [BitVec.sub_eq_add_neg, BitVec.neg_add, BitVec.sub_eq_add_neg, BitVec.add_assoc, BitVec.sub_eq_add_neg,
      ← BitVec.add_assoc (natWord _), BitVec.add_comm (natWord _), BitVec.add_assoc, ← BitVec.add_assoc,
      ← BitVec.sub_eq_add_neg, BitVec.sub_self, BitVec.zero_add]]
  rw [BitVec.toNat_sub, natWord_toNat (by omega), natWord_toNat (by omega)]
  omega

/-- A byte outside a descriptor lies outside each of its words. -/
theorem outside_word {s : State} {r : RingSel} {i k : Nat} (hk : k < 4) {a : Word}
    (h : inSpan (s.descAddr r i 0) 16 a = false) : inSpan (s.descAddr r i k) 4 a = false := by
  have e : s.descAddr r i k = s.descAddr r i 0 + natWord (4 * k) := by
    simp only [State.descAddr, Nat.mul_zero, Nat.add_zero, natWord_add, BitVec.add_assoc]
  simp only [inSpan, decide_eq_false_iff_not, e, BitVec.toNat_sub, BitVec.toNat_add,
    natWord_toNat (show 4 * k < 2 ^ 32 by omega)] at *
  omega

/-- A descriptor of an allocated ring lies in the ring's array. -/
theorem holds_desc {s : State} {r : RingSel} {i : Nat} (ha : (s.ring r).allocated = true) (hi : i < (s.ring r).n)
    (hn : (s.ring r).n ≤ 1024) {a : Word} (h : inSpan (s.descAddr r i 0) 16 a = true) :
    (s.ring r).holds a = true := by
  have e : s.descAddr r i 0 = (s.ring r).base + natWord (16 * i) := rfl
  simp only [inSpan, decide_eq_true_eq, e, BitVec.toNat_sub, BitVec.toNat_add,
    natWord_toNat (show 16 * i < 2 ^ 32 by omega)] at h
  simp only [Ring.holds, ha, Bool.true_and, inSpan, decide_eq_true_eq, BitVec.toNat_sub]
  omega

theorem State.arrayClear.desc {s : State} {r : RingSel} {i : Nat} (h : s.arrayClear r)
    (ha : (s.ring r).allocated = true) (hi : i < (s.ring r).n) (hn : (s.ring r).n ≤ 1024) : s.descClear r i :=
  fun a hx => h a (holds_desc ha hi hn hx)

/-! ### Accesses that are allowed -/

/-- No byte of a clear descriptor is the hardware's. -/
theorem deviceFault_desc {s : State} {r : RingSel} {i k : Nat} (h : s.descClear r i) (hk : k < 4) :
    s.deviceFault (s.descAddr r i k) 4 = none := by
  simp only [State.deviceFault, Option.map_eq_none_iff, List.find?_eq_none]
  intro a ha
  obtain ⟨j, hj, rfl⟩ := List.mem_map.1 ha
  simp [h _ (inSpan_descByte s r i hk (List.mem_range.1 hj))]

/-- A read that R84 and R95 allow changes nothing. -/
theorem readDesc_eq {s : State} {r : RingSel} {i k : Nat} (h : s.descClear r i) (hk : k < 4)
    (ho : k = 0 ∨ s.ownSeen r i = false) : readDesc r i k s = s := by
  simp only [readDesc, deviceFault_desc h hk]
  rcases ho with rfl | ho
  · simp
  · simp [ho]

/-- A write that R84 and R95 allow, and that publishes nothing, enters `wbuf`. -/
theorem writeDesc_eq {s : State} {r : RingSel} {i k : Nat} (v : Word) (h : s.descClear r i) (hk : k < 4)
    (ho : s.ownSeen r i = false) (hv : k ≠ 0 ∨ ownOf v = false) :
    writeDesc r i k v s = pushWrite (s.descAddr r i k) (splitWord s.params.endian v) s := by
  simp only [writeDesc, deviceFault_desc h hk, ho]
  rcases hv with hv | hv <;> simp [hv]

theorem descWord_fence {s : State} (h : s.memLegal) (r : RingSel) (i k : Nat) :
    (descFence s).descWord r i k = s.descWord r i k :=
  swWord_descFence h _

theorem ownSeen_fence {s : State} (h : s.memLegal) (r : RingSel) (i : Nat) :
    (descFence s).ownSeen r i = s.ownSeen r i := by
  rw [State.ownSeen, State.ownSeen, descWord_fence h]

/-! ### The hardware's bytes in the descriptor arrays (R84, R95, R493)

A software step finds a descriptor's bytes free of the hardware's as long as it maps no buffer over them and publishes no
descriptor that addresses them. -/

/-- Both states have the same descriptor arrays. -/
def SameArrays (s t : State) : Prop :=
  ∀ r, (t.ring r).allocated = (s.ring r).allocated ∧ (t.ring r).n = (s.ring r).n ∧ (t.ring r).base = (s.ring r).base

theorem SameArrays.refl (s : State) : SameArrays s s := fun _ => ⟨rfl, rfl, rfl⟩

theorem SameArrays.of_eq {s t : State} (h1 : t.tx = s.tx) (h2 : t.rx = s.rx) : SameArrays s t := fun r => by
  cases r <;> simp [State.ring, h1, h2]

theorem SameArrays.holds {s t : State} (h : SameArrays s t) (r : RingSel) (a : Word) :
    (t.ring r).holds a = (s.ring r).holds a := by
  simp only [Ring.holds, h r]

/-- The arrays have at most 1024 descriptors each, none where there is no ring, and share no byte (R32, D33). -/
structure State.arraysLegal (s : State) : Prop where
  bound : ∀ r, (s.ring r).n ≤ 1024
  used : ∀ r i, i < (s.ring r).n → (s.ring r).allocated = true
  apart : ∀ a r q, (s.ring r).holds a = true → (s.ring q).holds a = true → r = q

theorem State.ringsLegal.arrays {s : State} (h : s.ringsLegal) : s.arraysLegal where
  bound r := by
    cases r
    · cases ha : s.tx.allocated with
      | true => exact (ringSizeLegal_bounds (h.tx.size ha)).2
      | false => rw [show (s.ring .tx).n = s.tx.n from rfl, h.tx.unused ha]; decide
    · cases ha : s.rx.allocated with
      | true => exact (ringSizeLegal_bounds (h.rx.size ha)).2
      | false => rw [show (s.ring .rx).n = s.rx.n from rfl, h.rx.unused ha]; decide
  used r i hi := by
    by_contra hc
    cases r
    · rw [show (s.ring .tx).n = s.tx.n from rfl, h.tx.unused (Bool.eq_false_iff.2 hc)] at hi; omega
    · rw [show (s.ring .rx).n = s.rx.n from rfl, h.rx.unused (Bool.eq_false_iff.2 hc)] at hi; omega
  apart a r q hr hq := by
    cases r <;> cases q
    · rfl
    · have := h.apart a hr; rw [show (s.ring .rx).holds a = s.rx.holds a from rfl, this] at hq; cases hq
    · have := h.apart a hq; rw [show (s.ring .rx).holds a = s.rx.holds a from rfl, this] at hr; cases hr
    · rfl

theorem State.arraysLegal.of_same {s t : State} (h : s.arraysLegal) (k : SameArrays s t) : t.arraysLegal where
  bound r := by rw [(k r).2.1]; exact h.bound r
  used r i hi := by rw [(k r).1]; exact h.used r i (by rw [← (k r).2.1]; exact hi)
  apart a r q hr hq := h.apart a r q (by rw [← k.holds]; exact hr) (by rw [← k.holds]; exact hq)

/-- A descriptor's bytes lie in its ring's array. -/
theorem State.arraysLegal.holds {s : State} (h : s.arraysLegal) {r : RingSel} {i : Nat} (hi : i < (s.ring r).n) {a : Word}
    (ha : inSpan (s.descAddr r i 0) 16 a = true) : (s.ring r).holds a = true :=
  holds_desc (h.used r i hi) hi (h.bound r) ha

/-- Different descriptors share no byte. -/
theorem State.arraysLegal.desc_apart {s : State} (h : s.arraysLegal) {r q : RingSel} {i j : Nat} (hi : i < (s.ring r).n)
    (hj : j < (s.ring q).n) (hne : ¬ (q = r ∧ j = i)) {a : Word} (ha : inSpan (s.descAddr q j 0) 16 a = true) :
    inSpan (s.descAddr r i 0) 16 a = false := by
  by_contra hc
  have hc : inSpan (s.descAddr r i 0) 16 a = true := by simpa using hc
  obtain rfl := h.apart a q r (h.holds hj ha) (h.holds hi hc)
  have hb := h.bound q
  have hne : j ≠ i := fun e => hne ⟨rfl, e⟩
  have e : ∀ l, s.descAddr q l 0 = (s.ring q).base + natWord (16 * l) := fun l => rfl
  simp only [inSpan, decide_eq_true_eq, e, BitVec.toNat_sub, BitVec.toNat_add,
    natWord_toNat (show 16 * j < 2 ^ 32 by omega), natWord_toNat (show 16 * i < 2 ^ 32 by omega)] at ha hc
  omega

/-- A descriptor whose bytes software sees unchanged has its words unchanged. -/
theorem descWord_same {s t : State} {r : RingSel} {i k : Nat} (hr : SameArrays s t)
    (hp : t.params.endian = s.params.endian) (hk : k < 4)
    (hb : ∀ a, inSpan (s.descAddr r i 0) 16 a = true → swByte t a = swByte s a) : t.descWord r i k = s.descWord r i k := by
  have e : t.descAddr r i k = s.descAddr r i k := by simp only [State.descAddr, (hr r).2.2]
  simp only [State.descWord, swWord, e, hp]
  have b := fun j (hj : j < 4) => hb _ (inSpan_descByte s r i hk hj)
  have b0 := b 0 (by decide); have b1 := b 1 (by decide); have b2 := b 2 (by decide); have b3 := b 3 (by decide)
  rw [show s.descAddr r i k + natWord 0 = s.descAddr r i k from BitVec.add_zero _] at b0
  simp only [show (natWord 1 : Word) = 1 from rfl,
    show (natWord 2 : Word) = 2 from rfl, show (natWord 3 : Word) = 3 from rfl] at b1 b2 b3
  rw [b0, b1, b2, b3]

theorem descAddresses_iff {s : State} {r : RingSel} {i : Nat} {a : Word} :
    s.descAddresses r i (s.dmaImage a) = true ↔ s.inBufferOf r i a := by
  simp only [State.descAddresses, State.inBufferOf, Bool.or_eq_true, Bool.and_eq_true, decide_eq_true_eq]
  exact Iff.rfl

/-- The check of R84, R95 and R493 is what the rules say. -/
theorem deviceByte_iff {s : State} {a : Word} : s.deviceByte a = true ↔ s.hardwareOwns a := by
  simp only [State.deviceByte, State.hardwareBuffer, State.hardwareOwns, Bool.or_eq_true, List.any_eq_true, Bool.and_eq_true,
    List.mem_range, List.mem_cons, List.not_mem_nil, or_false, descAddresses_iff]
  constructor
  · rintro (h | ⟨q, -, ha, j, hj, ho, hd⟩)
    · exact .inl h
    · exact .inr ⟨q, j, ha, hj, ho, hd⟩
  · rintro (h | ⟨q, j, ha, hj, ho, hd⟩)
    · exact .inl h
    · exact .inr ⟨q, by cases q <;> simp, ha, j, hj, ho, hd⟩

/-- The check of R91 is what the rule says. -/
theorem pendingFor_iff {s : State} {w : List Pending} {r : RingSel} {i : Nat} :
    s.pendingFor w r i = true ↔ s.writePendingIn w r i := by
  simp only [State.pendingFor, State.writePendingIn, List.any_eq_true, List.mem_range, Bool.or_eq_true, Bool.and_eq_true,
    Bool.not_eq_true', descAddresses_iff, inSpan, decide_eq_true_eq, decide_eq_false_iff_not, not_lt]
  simp only [And.comm (b := 4 ≤ _)]

theorem unfenced_iff {s : State} {r : RingSel} {i : Nat} : s.unfenced r i = true ↔ s.writePending r i := pendingFor_iff

/-- A check of a range finds its first byte, or none. -/
theorem find_first {p : Word → Bool} {a : Word} {n k : Nat} (hk : k < n) (h : p (a + natWord k) = true)
    (hj : ∀ j < k, p (a + natWord j) = false) : ((List.range n).map fun j => a + natWord j).find? p = some (a + natWord k) := by
  rw [List.find?_map, List.find?_range_eq_some.2 ⟨h, List.mem_range.2 hk, fun j hj' => by simp [hj j hj']⟩]
  rfl

theorem find_none {p : Word → Bool} {a : Word} {n : Nat} (hj : ∀ j < n, p (a + natWord j) = false) :
    ((List.range n).map fun j => a + natWord j).find? p = none := by
  simp only [List.find?_eq_none, List.mem_map, List.mem_range, Bool.not_eq_true]
  rintro x ⟨j, h, rfl⟩
  exact hj j h

/-- In a descriptor array, the DMA agents use the CPU's addresses. -/
theorem dmaImage_array {s : State} {a : Word} {r : RingSel} (h : (s.ring r).holds a = true) : s.dmaImage a = a := by
  cases r
  · simp [State.dmaImage, show s.tx.holds a = true from h]
  · simp [State.dmaImage, show s.rx.holds a = true from h]

/-- What makes a byte of a descriptor array the hardware's (R84, R95). -/
theorem deviceByte_array {s : State} {a : Word} {r : RingSel} (h : (s.ring r).holds a = true) :
    s.deviceByte a = true ↔ s.marked a = true ∨
      ∃ q j, (s.ring q).allocated = true ∧ j < (s.ring q).n ∧ s.ownSeen q j = true ∧ s.descAddresses q j a = true := by
  simp only [deviceByte_iff, State.hardwareOwns, ← descAddresses_iff, dmaImage_array h]

/-- A byte of an array stays free of the hardware's where no new mark covers it and no descriptor newly hardware-owned
addresses it. -/
theorem deviceByte_kept {s t : State} {q : RingSel} {a : Word} (hs : SameArrays s t) (ha : (s.ring q).holds a = true)
    (hm : s.marked a = false → t.marked a = false)
    (hw : ∀ p j, j < (s.ring p).n → t.ownSeen p j = true → t.descAddresses p j a = true →
      s.ownSeen p j = true ∧ s.descAddresses p j a = true)
    (h : s.deviceByte a = false) : t.deviceByte a = false := by
  by_contra hc
  have hc := (deviceByte_array (s := t) (r := q) (by rw [hs.holds]; exact ha)).1 (by simpa using hc)
  have hn : ¬ s.deviceByte a = true := by simp [h]
  rw [deviceByte_array ha, not_or] at hn
  rcases hc with hc | ⟨p, j, h1, h2, h3, h4⟩
  · rw [hm (by simpa using hn.1)] at hc; cases hc
  · rw [(hs p).2.1] at h2
    obtain ⟨o, d⟩ := hw p j h2 h3 h4
    exact hn.2 ⟨p, j, by rw [← (hs p).1]; exact h1, h2, o, d⟩

/-- Equal words make equal owners and addresses. -/
theorem owned_of_words {s t : State} {p : RingSel} {j : Nat} {a : Word}
    (w : ∀ k < 4, t.descWord p j k = s.descWord p j k) (ho : t.ownSeen p j = true) (hd : t.descAddresses p j a = true) :
    s.ownSeen p j = true ∧ s.descAddresses p j a = true := by
  simp only [State.ownSeen, State.descAddresses, w 0 (by decide), w 1 (by decide), w 2 (by decide), w 3 (by decide)] at *
  exact ⟨ho, hd⟩

/-- Where software sees no byte change, none of an array's becomes the hardware's but by a new mark. -/
theorem deviceByte_same {s t : State} {q : RingSel} {a : Word} (hs : SameArrays s t) (ha : (s.ring q).holds a = true)
    (hm : s.marked a = false → t.marked a = false) (hb : sameBytes s t) (hp : t.params.endian = s.params.endian)
    (h : s.deviceByte a = false) : t.deviceByte a = false :=
  deviceByte_kept hs ha hm (fun _ _ _ => owned_of_words fun _ hk => descWord_same hs hp hk fun x _ => hb x) h

/-- Where software sees one descriptor change, and owns it afterwards or the byte is not one it addresses, the byte does not
become the hardware's but by a new mark. -/
theorem deviceByte_write {s t : State} {r q : RingSel} {i : Nat} {a : Word} (hL : s.arraysLegal) (hi : i < (s.ring r).n)
    (hs : SameArrays s t) (ha : (s.ring q).holds a = true) (hm : s.marked a = false → t.marked a = false)
    (hb : sameBytesButDesc s t r i) (hp : t.params.endian = s.params.endian)
    (ho : t.ownSeen r i = false ∨ t.descAddresses r i a = false) (h : s.deviceByte a = false) : t.deviceByte a = false := by
  refine deviceByte_kept hs ha hm (fun p j hj h3 h4 => ?_) h
  by_cases he : p = r ∧ j = i
  · obtain ⟨rfl, rfl⟩ := he
    rcases ho with ho | ho
    · rw [ho] at h3; cases h3
    · rw [ho] at h4; cases h4
  · exact owned_of_words (fun k hk => descWord_same hs hp hk fun x hx => hb x (hL.desc_apart hi hj he hx)) h3 h4

/-- A clear descriptor stays clear where software sees no byte change and no mark is new. -/
theorem State.descClear.same {s t : State} {r : RingSel} {i : Nat} (h : s.descClear r i) (hL : s.arraysLegal)
    (hi : i < (s.ring r).n) (hs : SameArrays s t)
    (hm : ∀ a, inSpan (s.descAddr r i 0) 16 a = true → s.marked a = false → t.marked a = false) (hb : sameBytes s t)
    (hp : t.params.endian = s.params.endian) : t.descClear r i := fun a ha => by
  rw [show t.descAddr r i 0 = s.descAddr r i 0 by simp only [State.descAddr, (hs r).2.2]] at ha
  exact deviceByte_same hs (hL.holds hi ha) (hm a ha) hb hp (h a ha)

/-- A clear descriptor stays clear where software sees only itself change and owns it afterwards, and no mark is new. -/
theorem State.descClear.write {s t : State} {r : RingSel} {i : Nat} (h : s.descClear r i) (hL : s.arraysLegal)
    (hi : i < (s.ring r).n) (hs : SameArrays s t)
    (hm : ∀ a, inSpan (s.descAddr r i 0) 16 a = true → s.marked a = false → t.marked a = false)
    (hb : sameBytesButDesc s t r i) (hp : t.params.endian = s.params.endian) (ho : t.ownSeen r i = false) :
    t.descClear r i := fun a ha => by
  rw [show t.descAddr r i 0 = s.descAddr r i 0 by simp only [State.descAddr, (hs r).2.2]] at ha
  exact deviceByte_write hL hi hs (hL.holds hi ha) (hm a ha) hb hp (.inl ho) (h a ha)

/-- Publishing a software-owned descriptor: a fence, the OWN = 1 write, and the slot's flag (R91, R169, R172). -/
theorem publish_eq {s : State} {r : RingSel} {i : Nat} (hm : s.memLegal) (h : s.descClear r i) (hL : s.arraysLegal)
    (hi : i < (s.ring r).n) (ho : s.ownSeen r i = false) :
    publish r i s =
      (pushWrite (s.descAddr r i 0) (splitWord s.params.endian ownWord) (descFence s)).setPub r i true := by
  have hu : (descFence s).unfenced r i = false := by simp [State.unfenced, State.pendingFor]
  have hc : (descFence s).descClear r i :=
    h.same hL hi (SameArrays.refl s) (fun _ _ => id) (swByte_descFence hm) rfl
  have h' : (descFence s).deviceFault ((descFence s).descAddr r i 0) 4 = none := deviceFault_desc hc (by decide)
  simp only [publish, writeDesc, h', ownSeen_fence hm, ho, hu]
  rfl

/-! ### What software sees of a descriptor -/

/-- After a write of one word of a descriptor, software sees that word in it and the others as before. -/
theorem descWord_push {s : State} {r : RingSel} {i k l : Nat} (v : Word) (hi : i < 1024) (hk : k < 4) (hl : l < 4) :
    (pushWrite (s.descAddr r i k) (splitWord s.params.endian v) s).descWord r i l =
      if l = k then v else s.descWord r i l := by
  split
  · rename_i h
    subst h
    exact swWord_pushWrite_self _ v s
  · rename_i h
    exact swWord_pushWrite_apart v s (descAddr_apart s r hi hi hk hl (by omega))
      (descAddr_apart s r hi hi hl hk (by omega))

/-- A write to one descriptor leaves the words of the others of its ring. -/
theorem descWord_push_other {s : State} {r : RingSel} {i j k l : Nat} (v : Word) (hi : i < 1024) (hj : j < 1024)
    (hk : k < 4) (hl : l < 4) (h : j ≠ i) :
    (pushWrite (s.descAddr r i k) (splitWord s.params.endian v) s).descWord r j l = s.descWord r j l :=
  swWord_pushWrite_apart v s (descAddr_apart s r hi hj hk hl (by omega))
    (descAddr_apart s r hj hi hl hk (by omega))

/-- A write to one word of a descriptor leaves every byte outside the descriptor. -/
theorem pushWrite_sameBytesButDesc (s : State) (r : RingSel) {i k : Nat} (v : Word) (hk : k < 4) :
    sameBytesButDesc s (pushWrite (s.descAddr r i k) (splitWord s.params.endian v) s) r i := by
  intro a ha
  rw [swByte_pushWrite, splitWord_length, outside_word hk ha]
  rfl

theorem sameBytesButDesc.trans {s t u : State} {r : RingSel} {i : Nat} (h : sameBytesButDesc s t r i)
    (k : sameBytesButDesc t u r i) (hb : t.descAddr r i 0 = s.descAddr r i 0) : sameBytesButDesc s u r i :=
  fun a ha => (k a (by rw [hb]; exact ha)).trans (h a ha)

end Sys2Proof.Machine
end

