-- ==== Sys2Proof/Laws/PerInstr.lean ====
section
/-! SUPPORT. One statement for each instruction: bits 22:16 of its word are 0 (30_encoding.md R139, R141). -/

namespace Sys2Proof.Laws.ReservedField

open Sys2Proof

/-- The reserved field of the instruction's word is 0 (R139). -/
def Statement (i : Instr) : Prop := Machine.bitsAt (encode i) 16 7 = 0

/-- Every command word has a zero reserved field. -/
theorem commandWord_reserved (opc : BitVec 8) (ring : BitVec 1) (idx : BitVec 16) :
    Machine.bitsAt (commandWord opc ring idx) 16 7 = 0 := by
  have h : commandWord opc ring idx >>> 16 = (opc ++ ring).setWidth 32 <<< 7 := by
    apply BitVec.eq_of_getLsbD_eq
    intro i hi
    simp only [commandWord, BitVec.getLsbD_ushiftRight, BitVec.getLsbD_append, BitVec.getLsbD_shiftLeft,
      BitVec.getLsbD_setWidth]
    by_cases h : i < 7
    · simp [h]
    · simp [h, hi]
      omega
  rw [Machine.bitsAt, h, BitVec.toNat_shiftLeft, Nat.shiftLeft_eq]
  omega

theorem initDescChain (r : RingSel) : Statement (.initDescChain r) := commandWord_reserved _ _ _

theorem getOwn (r : RingSel) (i : BitVec 16) : Statement (.getOwn r i) := commandWord_reserved _ _ _

theorem setOwn (r : RingSel) (i : BitVec 16) : Statement (.setOwn r i) := commandWord_reserved _ _ _

theorem getTxLen (i : BitVec 16) : Statement (.getTxLen i) := commandWord_reserved _ _ _

theorem rxStatus (i : BitVec 16) : Statement (.rxStatus i) := commandWord_reserved _ _ _

theorem dmaMode : Statement (.dmaMode) := commandWord_reserved _ _ _

theorem setMacAddr : Statement (.setMacAddr) := commandWord_reserved _ _ _

theorem setFilter : Statement (.setFilter) := commandWord_reserved _ _ _

theorem rxCoalEnable (i : BitVec 16) : Statement (.rxCoalEnable i) := commandWord_reserved _ _ _

theorem rxCoalDisable (i : BitVec 16) : Statement (.rxCoalDisable i) := commandWord_reserved _ _ _

theorem readIrqStatus : Statement (.readIrqStatus) := commandWord_reserved _ _ _

theorem clearIrqStatus : Statement (.clearIrqStatus) := commandWord_reserved _ _ _

theorem setWol (mode : BitVec 16) : Statement (.setWol mode) := commandWord_reserved _ _ _

theorem dmaStart (r : RingSel) : Statement (.dmaStart r) := commandWord_reserved _ _ _

theorem dmaStop (r : RingSel) : Statement (.dmaStop r) := commandWord_reserved _ _ _

theorem irqEnable : Statement (.irqEnable) := commandWord_reserved _ _ _

theorem adjustLink : Statement (.adjustLink) := commandWord_reserved _ _ _

theorem irqDisable : Statement (.irqDisable) := commandWord_reserved _ _ _

theorem readLink : Statement (.readLink) := commandWord_reserved _ _ _

theorem pollDemand (r : RingSel) : Statement (.pollDemand r) := commandWord_reserved _ _ _

theorem allocate (r : RingSel) : Statement (.allocate r) := commandWord_reserved _ _ _

theorem submit (i : BitVec 16) : Statement (.submit i) := commandWord_reserved _ _ _

theorem reclaim (i : BitVec 16) : Statement (.reclaim i) := commandWord_reserved _ _ _

theorem refill (i : BitVec 16) : Statement (.refill i) := commandWord_reserved _ _ _

theorem avail (r : RingSel) : Statement (.avail r) := commandWord_reserved _ _ _

theorem transmit : Statement (.transmit) := commandWord_reserved _ _ _

theorem txReclaim : Statement (.txReclaim) := commandWord_reserved _ _ _

theorem watchdogExpire : Statement (.watchdogExpire) := commandWord_reserved _ _ _

theorem poll (budget : BitVec 16) : Statement (.poll budget) := commandWord_reserved _ _ _

theorem isr : Statement (.isr) := commandWord_reserved _ _ _

theorem txRecovery : Statement (.txRecovery) := commandWord_reserved _ _ _

theorem raiseTxThreshold : Statement (.raiseTxThreshold) := commandWord_reserved _ _ _

theorem attach : Statement (.attach) := commandWord_reserved _ _ _

theorem openDev : Statement (.openDev) := commandWord_reserved _ _ _

theorem closeDev : Statement (.closeDev) := commandWord_reserved _ _ _

theorem suspend (wol : BitVec 16) : Statement (.suspend wol) := commandWord_reserved _ _ _

theorem resume : Statement (.resume) := commandWord_reserved _ _ _

theorem setTunable (id : BitVec 16) : Statement (.setTunable id) := commandWord_reserved _ _ _

theorem setMtu : Statement (.setMtu) := commandWord_reserved _ _ _

theorem detach : Statement (.detach) := commandWord_reserved _ _ _

theorem readStat (id : BitVec 16) : Statement (.readStat id) := commandWord_reserved _ _ _

theorem dmaTxFrame : Statement (.dmaTxFrame) := commandWord_reserved _ _ _

theorem dmaTxSuspend : Statement (.dmaTxSuspend) := commandWord_reserved _ _ _

theorem dmaTxUnderflow : Statement (.dmaTxUnderflow) := commandWord_reserved _ _ _

theorem dmaTxJabber : Statement (.dmaTxJabber) := commandWord_reserved _ _ _

theorem dmaTxStopFault : Statement (.dmaTxStopFault) := commandWord_reserved _ _ _

theorem dmaRxFrame : Statement (.dmaRxFrame) := commandWord_reserved _ _ _

theorem dmaRxNoDesc : Statement (.dmaRxNoDesc) := commandWord_reserved _ _ _

theorem dmaRxOverflow : Statement (.dmaRxOverflow) := commandWord_reserved _ _ _

theorem dmaRxStopFault : Statement (.dmaRxStopFault) := commandWord_reserved _ _ _

theorem dmaFatalBusError : Statement (.dmaFatalBusError) := commandWord_reserved _ _ _

end Sys2Proof.Laws.ReservedField
end

