-- ==== Sys2Proof/Laws/Encoding.lean ====
section
/-! SUPPORT. The bits of command words (R139). -/

namespace Sys2Proof.Machine

open Sys2Proof

theorem bit_commandWord (o : BitVec 8) (r : BitVec 1) (i : BitVec 16) (k : Nat) :
    (commandWord o r i).getLsbD k = if k < 16 then i.getLsbD k else if k - 16 < 7 then false else
      if k - 16 - 7 < 1 then r.getLsbD (k - 16 - 7) else o.getLsbD (k - 16 - 7 - 1) := by
  simp only [commandWord, BitVec.getLsbD_append, BitVec.getLsbD_zero]

/-- The fields the decoder reads from a command word are those it was built from (R139). -/
theorem fieldsOf_commandWord (o : BitVec 8) (r : BitVec 1) (i : BitVec 16) :
    fieldsOf (commandWord o r i) = { opc := o, ring := r.getLsbD 0, rsvd := 0, idx := i } := by
  have h1 : (commandWord o r i).extractLsb' 24 8 = o := by
    apply BitVec.eq_of_getLsbD_eq; intro k hk
    rw [BitVec.getLsbD_extractLsb', bit_commandWord, if_neg (by omega), if_neg (by omega), if_neg (by omega)]
    simp only [hk, decide_true, Bool.true_and]; congr 1; omega
  have h2 : (commandWord o r i).getLsbD 23 = r.getLsbD 0 := by
    rw [bit_commandWord]; rfl
  have h3 : (commandWord o r i).extractLsb' 16 7 = 0 := by
    apply BitVec.eq_of_getLsbD_eq; intro k hk
    rw [BitVec.getLsbD_extractLsb', bit_commandWord, if_neg (by omega), if_pos (by omega)]
    simp
  have h4 : (commandWord o r i).extractLsb' 0 16 = i := by
    apply BitVec.eq_of_getLsbD_eq; intro k hk
    rw [BitVec.getLsbD_extractLsb', bit_commandWord, if_pos (by omega)]
    simp only [hk, decide_true, Bool.true_and, Nat.zero_add]
  rw [fieldsOf, h1, h2, h3, h4]

/-- A command word is put together from its fields (R139). -/
theorem word_parts (w : Word) (f : Fields) (hf : fieldsOf w = f) (hr : f.rsvd = 0) :
    w = commandWord f.opc (if f.ring then 1 else 0) f.idx := by
  subst hf
  simp only [fieldsOf] at *
  apply BitVec.eq_of_getLsbD_eq
  intro k hk
  rw [bit_commandWord]
  have hr' : ∀ j < 7, w.getLsbD (16 + j) = false := by
    intro j hj
    have := congrArg (fun v => v.getLsbD j) hr
    rw [BitVec.getLsbD_extractLsb'] at this; simp only [hj, decide_true, Bool.true_and] at this; rw [this]; exact BitVec.getLsbD_zero
  by_cases h1 : k < 16
  · rw [if_pos h1, BitVec.getLsbD_extractLsb']; simp only [h1, decide_true, Bool.true_and, Nat.zero_add]
  · by_cases h2 : k - 16 < 7
    · rw [if_neg h1, if_pos h2]
      have := hr' (k - 16) h2
      rwa [show 16 + (k - 16) = k by omega] at this
    · by_cases h3 : k - 16 - 7 < 1
      · have : k = 23 := by omega
        have e : k - 16 - 7 = 0 := by omega
        have e2 : w.getLsbD k = w.getLsbD 23 := congrArg _ this
        have key : ∀ b : Bool, b = (if b = true then (1 : BitVec 1) else 0).getLsbD 0 := by decide
        simp only [if_neg h1, if_neg h2, if_pos h3, e]
        exact e2.trans (key _)
      · rw [if_neg h1, if_neg h2, if_neg h3, BitVec.getLsbD_extractLsb', show 24 + (k - 16 - 7 - 1) = k by omega]
        simp only [show k - 16 - 7 - 1 < 8 by omega, decide_true, Bool.true_and]

theorem putBit_cmdErr (v : Word) : putBit v 31 true = v ||| 0x8000_0000 := by
  simp [putBit, oneBit]

theorem field_opc (w : Word) : bitsAt w 24 8 = (fieldsOf w).opc.toNat := by
  simp only [fieldsOf, bitsAt, BitVec.extractLsb'_toNat, BitVec.toNat_ushiftRight]

theorem field_rsvd (w : Word) : bitsAt w 16 7 = (fieldsOf w).rsvd.toNat := by
  simp only [fieldsOf, bitsAt, BitVec.extractLsb'_toNat, BitVec.toNat_ushiftRight]

theorem field_idx (w : Word) : bitsAt w 0 16 = (fieldsOf w).idx.toNat := by
  simp only [fieldsOf, bitsAt, BitVec.extractLsb'_toNat, BitVec.toNat_ushiftRight]

theorem field_ring (w : Word) : bit w 23 = (fieldsOf w).ring := rfl

end Sys2Proof.Machine
end

