-- ==== Sys2Proof/Laws/Steps.lean ====
section
/-! SUPPORT. How a command, an agent and a step end: what the wrappers around the operations keep. -/

namespace Sys2Proof.Machine

open Sys2Proof

/-- What an instruction keeps: the parameters, the operand registers, the schedule, the last read, and the invariants of memory and registers. -/
structure InterfaceKept (s t : State) : Prop where
  params : t.params = s.params
  args : t.csr.arg0 = s.csr.arg0 ∧ t.csr.arg1 = s.csr.arg1 ∧ t.csr.arg2 = s.csr.arg2 ∧ t.csr.arg3 = s.csr.arg3
  schedule : t.schedule = s.schedule
  busData : t.busData = s.busData
  mem : s.memLegal → t.memLegal
  regs : s.regsLegal → t.regsLegal

theorem Keeps.interfaceKept {s t : State} (h : Keeps s t) : InterfaceKept s t :=
  ⟨h.params, ⟨h.arg0, h.arg1, h.arg2, h.arg3⟩, h.schedule, h.busData, h.mem, h.regs⟩

/-- Ending a step keeps what the step kept. -/
theorem settle_keeps {s t : State} (h : Keeps s t) : Keeps s (settle s t) := by
  rcases settle_cases s t with h' | ⟨f, hf, h'⟩
  · rw [h']; exact h
  · rw [h']
    refine .of_same rfl rfl rfl rfl rfl rfl rfl id fun g hg => ?_
    have := h.fault g hg
    rw [hf] at this
    exact this

theorem results_interfaceKept (s : State) (a b : Word) :
    InterfaceKept s { s with csr := { s.csr with result := a, result1 := b } } :=
  ⟨rfl, ⟨rfl, rfl, rfl, rfl⟩, rfl, rfl, id, fun h => ⟨{ h.csr with }, ⟨h.start.tx, h.start.rx⟩, h.bases⟩⟩

theorem InterfaceKept.trans {s t u : State} (h : InterfaceKept s t) (k : InterfaceKept t u) : InterfaceKept s u :=
  ⟨k.params.trans h.params, ⟨k.args.1.trans h.args.1, k.args.2.1.trans h.args.2.1, k.args.2.2.1.trans h.args.2.2.1, k.args.2.2.2.trans h.args.2.2.2⟩,
   k.schedule.trans h.schedule, k.busData.trans h.busData, k.mem ∘ h.mem, k.regs ∘ h.regs⟩

theorem finish_interfaceKept {s : State} {x : Ret} (h : InterfaceKept s x.st) : InterfaceKept s (finish s x) := by
  unfold finish
  rcases settle_cases s { x.st with csr := { x.st.csr with result := x.res, result1 := x.res1.getD x.st.csr.result1 } } with h' | ⟨f, hf, h'⟩
  · rw [h']; exact h.trans (results_interfaceKept _ _ _)
  · rw [h']; exact ⟨rfl, ⟨rfl, rfl, rfl, rfl⟩, rfl, rfl, id, fun h => ⟨h.csr, ⟨h.start.tx, h.start.rx⟩, h.bases⟩⟩

theorem complete_next {s t : State} {x : Ret} (h : complete s x = .next t) : t = finish s x := by
  simp only [complete, Host.Outcome.next.injEq] at h
  exact h.symm

/-- The rings and the lifecycle flags stay legal. -/
structure LegalKept (s t : State) : Prop extends ShapeKept s t where
  session : s.sessionLegal → t.sessionLegal

theorem RingsKept.legalKept {s t : State} (h : RingsKept s t) : LegalKept s t := ⟨h.toShapeKept, h.session⟩

theorem LegalKept.refl (s : State) : LegalKept s s := ⟨.refl s, id⟩

theorem LegalKept.trans {s t u : State} (h : LegalKept s t) (k : LegalKept t u) : LegalKept s u :=
  ⟨h.toShapeKept.trans k.toShapeKept, k.session ∘ h.session⟩

/-- What leaves the rings, the slots and the flags keeps them legal. -/
theorem LegalKept.of_same {s t : State} (htx : t.tx = s.tx) (hrx : t.rx = s.rx)
    (hts : t.txSlots.length = s.txSlots.length) (hrs : t.rxSlots.length = s.rxSlots.length) (hd : t.dev = s.dev) :
    LegalKept s t :=
  ⟨.of_rings htx hrx hts hrs, fun h =>
    ⟨by rw [hd]; exact h.attached, by rw [hd, htx, hrx]; exact h.rings, by rw [hd]; exact h.shutdown⟩⟩

theorem finish_legalKept {s : State} {x : Ret} (h : LegalKept s x.st) : LegalKept s (finish s x) := by
  unfold finish
  rcases settle_cases s { x.st with csr := { x.st.csr with result := x.res, result1 := x.res1.getD x.st.csr.result1 } } with h' | ⟨f, hf, h'⟩
  · rw [h']; exact h.trans (.of_same rfl rfl rfl rfl rfl)
  · rw [h']; exact .of_same rfl rfl rfl rfl rfl

theorem failed_interfaceKept (s : State) : InterfaceKept s (failed s).st := (Keeps.refl s).interfaceKept

theorem illegalRet_interfaceKept (s : State) : InterfaceKept s (illegalRet s).st := by
  refine ⟨rfl, ⟨rfl, rfl, rfl, rfl⟩, rfl, rfl, id, fun h => ?_⟩
  obtain ⟨h1, h2⟩ := putBit31_spec s.csr.dmaCtrl true h.csr.dmaCtrl
  have h3 := h.csr.pbl
  rw [← h2] at h3
  exact ⟨{ h.csr with dmaCtrl := h1, pbl := h3 }, ⟨by simpa [illegalRet, bit_putBit] using h.start.tx, by simpa [illegalRet, bit_putBit] using h.start.rx⟩, h.bases⟩

theorem whenAttached_interfaceKept {s : State} {x : Ret} (h : InterfaceKept s x.st) :
    InterfaceKept s (whenAttached s x).st := by
  unfold whenAttached; split; exact h; exact failed_interfaceKept s

theorem withSlot_interfaceKept {s : State} {r : RingSel} {i : BitVec 16} {f : Nat → Ret} (h : ∀ k,
    InterfaceKept s (f k).st) : InterfaceKept s (withSlot r i s f).st := by
  unfold withSlot; split; exact h _; exact failed_interfaceKept s

theorem ite_interfaceKept {s : State} {c : Prop} [Decidable c] {x y : Ret} (h : InterfaceKept s x.st)
    (k : InterfaceKept s y.st) : InterfaceKept s (if c then x else y).st := by
  split; exact h; exact k

theorem whenAttached_legalKept {s : State} {x : Ret} (h : LegalKept s x.st) : LegalKept s (whenAttached s x).st
    := by
  unfold whenAttached; split; exact h; exact LegalKept.refl s

theorem withSlot_legalKept {s : State} {r : RingSel} {i : BitVec 16} {f : Nat → Ret} (h : ∀ k, LegalKept s (f k).st)
    : LegalKept s (withSlot r i s f).st := by
  unfold withSlot; split; exact h _; exact LegalKept.refl s

theorem withReadyChain_interfaceKept {s t : State} {k : List Nat → State} (hk : ∀ js, Keeps s (k js))
    (h : withReadyChain s k = .next t) : Keeps s t := by
  unfold withReadyChain at h
  split at h <;> simp only [Host.Outcome.next.injEq] at h <;> subst h
  · exact settle_keeps (hk _)
  · exact raise_keeps _ _
  · exact .refl s
  · exact .refl s

theorem onArrival_interfaceKept {s t : State} {o : Bool} {k : WireFrame → State → State} (hk : ∀ f,
    s.dma.rs ≠ .stopped → Keeps s (k f (takeArrival s))) (h : onArrival s o k = .next t) : Keeps s t := by
  unfold onArrival at h
  split at h
  · split at h
    · simp only [Host.Outcome.next.injEq] at h; subst h; exact takeArrival_keeps s
    · rename_i hd
      have hr : s.dma.rs ≠ .stopped := by
        intro hc; apply hd; simp [State.rxDeaf, hc]
      split at h
      · simp only [Host.Outcome.next.injEq] at h; subst h; exact raise_keeps _ _
      · split at h <;> simp only [Host.Outcome.next.injEq] at h <;> subst h
        · exact settle_keeps (hk _ hr)
        · exact .refl s
  · simp only [Host.Outcome.next.injEq] at h; subst h; exact .refl s

theorem draw_keeps (s : State) : Keeps s { s with draws := s.draws + 1 } := .of_same rfl rfl rfl rfl rfl rfl rfl id fun _ h => h

/-- A DMA agent's step keeps the interface, memory's form and the legal registers. -/
theorem agent_keeps (i : Instr) (hc : i.isCommand = false) (s t : State) (h : exec i s = .next t) : Keeps s t := by
  cases i <;> first | (cases hc; done) | skip
  all_goals simp only [exec] at h
  case dmaTxFrame =>
    unfold execDmaTxFrame at h
    split at h
    · simp only [Host.Outcome.next.injEq] at h; subst h; exact .refl s
    · refine withReadyChain_interfaceKept (fun js => ?_) h
      split
      · exact raise_keeps _ _
      · exact (output_keeps _ s).trans (closeFrame_keeps _ _ _)
  case dmaTxSuspend =>
    unfold execDmaTxSuspend at h
    split at h
    · simp only [Host.Outcome.next.injEq] at h; subst h; exact .refl s
    · rename_i hr
      split at h <;> simp only [Host.Outcome.next.injEq] at h <;> subst h
      · refine suspendTx_keeps s ?_
        simp [State.txRunning] at hr
        simp [hr.2]
      · exact raise_keeps _ _
      · exact .refl s
      · exact .refl s
  case dmaTxUnderflow =>
    unfold execDmaTxUnderflow at h
    split at h
    · simp only [Host.Outcome.next.injEq] at h; subst h; exact .refl s
    · rename_i hr
      simp [State.txEnabled, State.txRunning] at hr
      refine withReadyChain_interfaceKept (fun js => ?_) h
      refine (closeFrame_keeps js _ s).trans ((latch_keeps _ _).trans (suspendTx_keeps _ ?_))
      have : (latch .unf (closeFrame js underflowStatus s)).dma = (closeFrame js underflowStatus s).dma := rfl
      rw [this, closeFrame_dma]
      simp [hr.1.1.2]
  case dmaTxJabber =>
    unfold execDmaTxJabber at h
    split at h
    · simp only [Host.Outcome.next.injEq] at h; subst h; exact .refl s
    · refine withReadyChain_interfaceKept (fun js => ?_) h
      split
      · exact raise_keeps _ _
      · exact (draw_keeps s).trans ((output_keeps _ _).trans ((closeFrame_keeps _ _ _).trans (latch_keeps _ _)))
  case dmaTxStopFault =>
    unfold execDmaTxStopFault at h
    split at h <;> simp only [Host.Outcome.next.injEq] at h <;> subst h
    · exact (faultStop_keeps .tx s).trans (latch_keeps _ _)
    · exact .refl s
  case dmaRxStopFault =>
    unfold execDmaRxStopFault at h
    split at h <;> simp only [Host.Outcome.next.injEq] at h <;> subst h
    · exact (faultStop_keeps .rx s).trans (latch_keeps _ _)
    · exact .refl s
  case dmaFatalBusError =>
    unfold execDmaFatalBusError at h
    split at h <;> simp only [Host.Outcome.next.injEq] at h <;> subst h
    · split
      · exact (faultStop_keeps .tx s).trans ((latch_keeps _ _).trans (faultStop_keeps .rx _))
      · exact (faultStop_keeps .tx s).trans (latch_keeps _ _)
    · exact .refl s
  case dmaRxFrame =>
    unfold execDmaRxFrame at h
    exact onArrival_interfaceKept (k := fun f t => receiveFrame t.dma.rxIdx f t) (fun f hr => (takeArrival_keeps s).trans (receiveFrame_keeps (takeArrival s).dma.rxIdx f (takeArrival s) hr)) h
  case dmaRxOverflow =>
    unfold execDmaRxOverflow at h
    exact onArrival_interfaceKept (fun f hr => (takeArrival_keeps s).trans (latch_keeps _ _)) h
  case dmaRxNoDesc =>
    unfold execDmaRxNoDesc at h
    refine onArrival_interfaceKept (fun f hr => ?_) h
    exact (takeArrival_keeps s).trans ((latch_keeps .ru (takeArrival s)).trans (dropFrame_keeps (latch .ru (takeArrival s)) hr))

theorem command_kept {s t : State} {x : Ret} (h : complete s x = .next t) (hx : InterfaceKept s x.st)
    (hr : LegalKept s x.st) : InterfaceKept s t ∧ LegalKept s t := by
  rw [complete_next h]; exact ⟨finish_interfaceKept hx, finish_legalKept hr⟩

theorem command_keeps {s t : State} {x : Ret} (h : complete s x = .next t) (hx : Keeps s x.st)
    (hr : LegalKept s x.st) : InterfaceKept s t ∧ LegalKept s t :=
  command_kept h hx.interfaceKept hr

theorem whenAttached_kept {s t : State} {x : Ret} (h : complete s (whenAttached s x) = .next t)
    (hx : InterfaceKept s x.st) (hr : LegalKept s x.st) : InterfaceKept s t ∧ LegalKept s t :=
  command_kept h (whenAttached_interfaceKept hx) (whenAttached_legalKept hr)

theorem withSlot_kept {s t : State} {r : RingSel} {i : BitVec 16} {f : Nat → Ret}
    (h : complete s (whenAttached s (withSlot r i s f)) = .next t) (hx : ∀ k, Keeps s (f k).st) (hr : ∀ k,
    LegalKept s (f k).st) : InterfaceKept s t ∧ LegalKept s t :=
  whenAttached_kept h (withSlot_interfaceKept fun k => (hx k).interfaceKept) (withSlot_legalKept hr)

theorem fence_legalKept (s : State) {f : State → State} (h : SameRings (descFence s) (f (descFence s))) :
    LegalKept s (f (descFence s)) :=
  (((descFence_rings s).trans h).kept).legalKept

/-- A DMA agent's step leaves the rings' software state. -/
theorem agent_legalKept (i : Instr) (hc : i.isCommand = false) (s t : State) (h : exec i s = .next t) :
    SameRings s t := by
  have hs : ∀ u : State, SameRings s u → SameRings s (settle s u) := by
    intro u hu
    rcases settle_cases s u with h' | ⟨f, hf, h'⟩
    · rw [h']; exact hu
    · rw [h']; exact ⟨rfl, rfl, rfl, rfl, rfl, rfl⟩
  have hw : ∀ k, (∀ js, SameRings s (k js)) → withReadyChain s k = .next t → SameRings s t := by
    intro k hk h
    unfold withReadyChain at h
    split at h <;> simp only [Host.Outcome.next.injEq] at h <;> subst h
    · exact hs _ (hk _)
    · exact raise_rings _ _
    · exact .refl s
    · exact .refl s
  have ho : ∀ o k, (∀ f, SameRings s (k f (takeArrival s))) → onArrival s o k = .next t → SameRings s t := by
    intro o k hk h
    unfold onArrival at h
    repeat' split at h
    all_goals (simp only [Host.Outcome.next.injEq] at h; subst h)
    · exact takeArrival_rings s
    · exact raise_rings _ _
    · exact hs _ (hk _)
    · exact .refl s
    · exact .refl s
  cases i <;> first | (cases hc; done) | skip
  all_goals simp only [exec] at h
  case dmaTxFrame =>
    unfold execDmaTxFrame at h
    split at h
    · simp only [Host.Outcome.next.injEq] at h; subst h; exact .refl s
    · refine hw _ (fun js => ?_) h
      split
      · exact raise_rings _ _
      · exact (output_rings _ s).trans (closeFrame_rings _ _ _)
  case dmaTxSuspend =>
    unfold execDmaTxSuspend at h
    split at h
    · simp only [Host.Outcome.next.injEq] at h; subst h; exact .refl s
    · split at h <;> simp only [Host.Outcome.next.injEq] at h <;> subst h
      · exact suspendTx_rings s
      · exact raise_rings _ _
      · exact .refl s
      · exact .refl s
  case dmaTxUnderflow =>
    unfold execDmaTxUnderflow at h
    split at h
    · simp only [Host.Outcome.next.injEq] at h; subst h; exact .refl s
    · exact hw _ (fun js => (closeFrame_rings js _ s).trans ((latch_rings _ _).trans (suspendTx_rings _))) h
  case dmaTxJabber =>
    unfold execDmaTxJabber at h
    split at h
    · simp only [Host.Outcome.next.injEq] at h; subst h; exact .refl s
    · refine hw _ (fun js => ?_) h
      split
      · exact raise_rings _ _
      · exact SameRings.trans (t := { s with draws := s.draws + 1 }) ⟨rfl, rfl, rfl, rfl, rfl, rfl⟩ ((output_rings _ _).trans ((closeFrame_rings _ _ _).trans (latch_rings _ _)))
  case dmaTxStopFault =>
    unfold execDmaTxStopFault at h
    split at h <;> simp only [Host.Outcome.next.injEq] at h <;> subst h <;> exact ⟨rfl, rfl, rfl, rfl, rfl, rfl⟩
  case dmaRxStopFault =>
    unfold execDmaRxStopFault at h
    split at h <;> simp only [Host.Outcome.next.injEq] at h <;> subst h <;> exact ⟨rfl, rfl, rfl, rfl, rfl, rfl⟩
  case dmaFatalBusError =>
    unfold execDmaFatalBusError at h
    split at h <;> simp only [Host.Outcome.next.injEq] at h <;> subst h
    · split <;> exact ⟨rfl, rfl, rfl, rfl, rfl, rfl⟩
    · exact ⟨rfl, rfl, rfl, rfl, rfl, rfl⟩
  case dmaRxFrame =>
    unfold execDmaRxFrame at h
    exact ho _ (fun f t => receiveFrame t.dma.rxIdx f t) (fun f => (takeArrival_rings s).trans (receiveFrame_rings (takeArrival s).dma.rxIdx f (takeArrival s))) h
  case dmaRxOverflow =>
    unfold execDmaRxOverflow at h
    exact ho _ _ (fun f => (takeArrival_rings s).trans (latch_rings _ _)) h
  case dmaRxNoDesc =>
    unfold execDmaRxNoDesc at h
    exact ho _ _ (fun f => (takeArrival_rings s).trans ((latch_rings _ _).trans (dropFrame_rings _))) h

theorem sameRings_legalKept (s : State) (x : State) (h : SameRings s x) : LegalKept s x := h.kept.legalKept

/-- The invariants a step keeps. -/
structure StepKeeps (s t : State) : Prop where
  mem : s.memLegal → t.memLegal
  regs : s.regsLegal → t.regsLegal
  legalKept : LegalKept s t

theorem Keeps.stepKeeps {s t : State} (h : Keeps s t) (r : SameRings s t) : StepKeeps s t :=
  ⟨h.mem, h.regs, r.kept.legalKept⟩

theorem StepKeeps.trans {s t u : State} (h : StepKeeps s t) (k : StepKeeps t u) : StepKeeps s u :=
  ⟨k.mem ∘ h.mem, k.regs ∘ h.regs, h.legalKept.trans k.legalKept⟩

theorem illegalCommand_stepKeeps (s : State) : StepKeeps s (illegalCommand s) := by
  have h := (illegalRet_interfaceKept s).trans (results_interfaceKept _ codeIllegal s.csr.result1)
  exact ⟨h.mem, h.regs, .of_same rfl rfl rfl rfl rfl⟩

/-- A register write keeps the invariants of memory and registers (R31, R36). -/
theorem storeCsr_keeps (c : Csr) (v : Word) (s : State) :
    (s.memLegal → (storeCsr c v s).memLegal) ∧ (s.regsLegal → (storeCsr c v s).regsLegal) := by
  have K : ∀ {t}, Keeps s t → (s.memLegal → t.memLegal) ∧ (s.regsLegal → t.regsLegal) := fun k => ⟨k.mem, k.regs⟩
  cases c <;> simp only [storeCsr]
  case dmaCtrl => exact K (storeDmaCtrl_keeps _ _)
  case dmaTxThresh => exact K (storeThresh_keeps _ _)
  case dmaStatus => exact K (storeStatus_keeps _ _)
  case dmaIer => exact K (storeIer_keeps _ _)
  case txDescBase => exact K (storeTxBase_keeps _ _)
  case rxDescBase => exact K (storeRxBase_keeps _ _)
  case txPollDemand => exact K (storeTxPoll_keeps _)
  case rxPollDemand => exact K (storeRxPoll_keeps _)
  case macConfig => exact K (storeMacConfig_keeps _ _)
  case macFlow => exact K (storeMacFlow_keeps _ _)
  case macAddrHi => exact K (storeMacAddrHi_keeps _ _)
  case macAddrLo => exact K (storeMacAddrLo_keeps _ _)
  case mcHashHi => exact K (storeHashHi_keeps _ _)
  case mcHashLo => exact K (storeHashLo_keeps _ _)
  case frameFilter => exact K (storeFilter_keeps _ _)
  case pmt => exact K (storePmt_keeps _ _)
  all_goals exact ⟨id, fun h => ⟨{ h.csr with }, ⟨h.start.tx, h.start.rx⟩, h.bases⟩⟩

/-- A write of any register but the two base registers leaves the rings. -/
theorem storeCsr_rings {c : Csr} (ht : c ≠ .txDescBase) (hr : c ≠ .rxDescBase) (v : Word) (s : State) :
    SameRings s (storeCsr c v s) := by
  cases c <;> first | exact ⟨rfl, rfl, rfl, rfl, rfl, rfl⟩ | exact absurd rfl ht | exact absurd rfl hr

/-- A write of a base register moves its ring's array or nothing, and leaves the rest of the rings (R32, R42). -/
theorem storeCsr_base {c : Csr} (hc : c = .txDescBase ∨ c = .rxDescBase) (v : Word) (s : State) :
    SameRings s (storeCsr c v s) ∨
      ∃ r, SameRings (s.setRing r { s.ring r with base := v &&& 0xFFFF_FFF0 }) (storeCsr c v s) := by
  rcases hc with rfl | rfl
  · by_cases h : s.dma.ts = .stopped
    · exact .inr ⟨.tx, by simp only [storeCsr, storeTxBase, h, if_true]; exact ⟨rfl, rfl, rfl, rfl, rfl, rfl⟩⟩
    · exact .inl (by simp only [storeCsr, storeTxBase, h, if_false]; exact .refl s)
  · by_cases h : s.dma.rs = .stopped
    · exact .inr ⟨.rx, by simp only [storeCsr, storeRxBase, h, if_true]; exact ⟨rfl, rfl, rfl, rfl, rfl, rfl⟩⟩
    · exact .inl (by simp only [storeCsr, storeRxBase, h, if_false]; exact .refl s)

/-- Moving an array to an aligned address keeps the rings legal (R32). -/
theorem ringsShaped_base {s : State} (r : RingSel) (v : Word) (h : s.ringsShaped) :
    (s.setRing r { s.ring r with base := v &&& 0xFFFF_FFF0 }).ringsShaped := by
  cases r
  · exact ⟨{ h.tx with aligned := fun _ => masked_base v }, h.rx⟩
  · exact ⟨h.tx, { h.rx with aligned := fun _ => masked_base v }⟩

theorem agentTurn_stepKeeps {e : Bool} {x : State → Ret} {s t : State} (hx : Keeps s (x s).st)
    (hr : LegalKept s (x s).st) (h : agentTurn e x s = .next t) : StepKeeps s t := by
  unfold agentTurn at h
  simp only [Host.Outcome.next.injEq] at h
  subst h
  split
  · have k := settle_keeps hx
    refine ⟨k.mem, k.regs, ?_⟩
    rcases settle_cases s (x s).st with h' | ⟨f, hf, h'⟩
    · rw [h']; exact hr
    · rw [h']; exact .of_same rfl rfl rfl rfl rfl
  · exact ⟨id, id, LegalKept.refl s⟩

/-- An enabled agent's turn is the command it stands for, but for RESULT and RESULT1 (R12). -/
theorem agentTurn_of {s : State} {x : Ret} (hk : Keeps s x.st) : ∃ u, complete s x = .next u ∧
    settle s x.st = { u with csr := { u.csr with result := s.csr.result, result1 := s.csr.result1 } } := by
  refine ⟨_, rfl, ?_⟩
  simp only [finish]
  cases h : x.st.fault with
  | none => simp only [settle, h, ← hk.result, ← hk.result1]; rw [← h]
  | some f => simp [settle, h]

theorem finish_fault {s : State} {x : Ret} {f : Fault} (h : (finish s x).fault = some f) : finish s x =
    { s with fault := some f } := by
  unfold finish at *
  rcases settle_cases s { x.st with csr := { x.st.csr with result := x.res, result1 := x.res1.getD x.st.csr.result1 } } with h' | ⟨g, hg, h'⟩
  · rw [h'] at h
    rw [settle_of_some (f := f) h]
  · rw [h'] at h ⊢
    simp only [Option.some.injEq] at h; rw [h]

theorem complete_fault {s t : State} {x : Ret} {f : Fault} (h : complete s x = .next t) (hf : t.fault = some f) :
    t = { s with fault := some f } := by
  rw [complete_next h] at *
  exact finish_fault hf

theorem settle_fault {s u : State} {f : Fault} (hf : (settle s u).fault = some f) : settle s u =
    { s with fault := some f } := by
  rcases settle_cases s u with h' | ⟨g, hg, h'⟩
  · rw [h'] at hf
    rw [settle_of_some hf]
  · rw [h'] at hf ⊢
    simp only [Option.some.injEq] at hf; rw [hf]

theorem raise_fault_eq {s : State} {f g : Fault} (hs : s.fault = none) (h : (raise g s).fault = some f) :
    raise g s = { s with fault := some f } := by
  simp only [raise, hs, Option.some.injEq] at *
  rw [h]

/-- With an empty schedule a step changes nothing (log 15). -/
theorem step_nil {s : State} (hs : s.fault = none) (he : s.schedule = []) : step s = .next s := by
  unfold step
  split
  · rename_i g; rw [hs] at g; cases g
  · split
    · rfl
    · rename_i g; rw [he] at g; cases g

/-- A step takes the next entry of the schedule. -/
theorem step_cons {s : State} {e : Event} {rest : List Event} (hs : s.fault = none) (he : s.schedule = e :: rest) :
    step s = runEvent e { s with schedule := rest } := by
  unfold step
  split
  · rename_i g; rw [hs] at g; cases g
  · split
    · rename_i g; rw [he] at g; cases g
    · rename_i g; rw [he] at g; cases g; rfl

theorem complete_failed {s : State} (hs : s.fault = none) :
    complete s (failed s) = .next { s with csr := { s.csr with result := 2 } } := by
  rw [complete_of_none (by simpa [failed] using hs)]
  rfl

end Sys2Proof.Machine
end

