-- ==== Sys2Proof/Laws/Registers.lean ====
section
/-! SUPPORT. The bits of the registers that have a write rule of their own (R37 to R47), and the writes of the start bits. -/

namespace Sys2Proof.Machine

open Sys2Proof

theorem bit_statusWord_parts (src : Word) (t r : ProcState) (k : Nat) (hk : k < 32) : bit (statusWord src t r) k =
    (bit src k || (aisOf src && decide (15 = k)) || (nisOf src && decide (16 =
      k)) || bit (r.code <<< 17) k || bit (t.code <<< 20) k) := by
  simp only [statusWord, bit_or, bit_bitIf _ (show 15 < 32 by decide), bit_bitIf _ (show 16 < 32 by decide)]

theorem bit_procCode (r : ProcState) (lo k : Nat) (hlo : lo < 32) (hk : k < lo ∨ lo + 2 ≤ k) :
    bit (r.code <<< lo) k = false := by
  simp only [bit, BitVec.getLsbD_shiftLeft]
  rcases hk with hk | hk
  · simp [hk]
  · have : r.code.getLsbD (k - lo) = false := by
      have h1 : r.code.toNat < 2 ^ 2 := by cases r <;> decide
      rw [BitVec.getLsbD]
      exact Nat.testBit_lt_two_pow (lt_of_lt_of_le h1 (Nat.pow_le_pow_right (by decide) (by omega)))
    simp [this]

/-- DMA_STATUS, bit by bit (R38, R51). -/
theorem bit_statusWord (src : Word) (t r : ProcState) (lo n : Nat) (h : ∀ k < n, bit (statusWord src t r) (lo + k) =
    false) : bitsAt (statusWord src t r) lo n = 0 := by
  simp only [bitsAt]
  apply Nat.eq_of_testBit_eq
  intro k
  rw [Nat.testBit_mod_two_pow]
  by_cases hk : k < n
  · have := h k hk
    simp only [bit] at this
    simp only [hk, decide_true, Bool.true_and, Nat.zero_testBit]
    rw [← this]
    simp [BitVec.getLsbD, Nat.testBit_shiftRight]
  · simp [hk]

theorem src_bit {src : Word} (h : src &&& ~~~srcMask = 0) {k : Nat} (hk : bit srcMask k = false) (h32 : k < 32) :
    bit src k = false := by
  have := congrArg (fun v => bit v k) h
  simp only [bit_and] at this
  have e : bit (~~~srcMask) k = true := by
    simp only [bit] at *
    rw [BitVec.getLsbD_not, hk]; simp [h32]
  rw [e] at this
  simpa [bit] using this

theorem mask_ne (src m : Word) : (src &&& m ≠ 0) ↔ ∃ k < 32, bit src k = true ∧ bit m k = true := by
  constructor
  · intro h
    by_contra hc
    apply h
    apply word_ext
    intro i hi
    rw [bit_and]
    cases h1 : bit src i <;> cases h2 : bit m i <;> simp [bit] <;> exact absurd ⟨i, hi, h1, h2⟩ hc
  · rintro ⟨k, hk, h1, h2⟩ hc
    have := congrArg (fun v => bit v k) hc
    simp only [bit_and, h1, h2] at this
    simp [bit] at this

theorem normal_bits (k : Nat) (hk : k < 32) : bit normalMask k = true ↔ ∃ b : Source, (b = .ti ∨ b = .ri) ∧ b.pos =
    k := by
  constructor
  · intro h
    have : ∀ k : Fin 32, bit normalMask k = true → (k.val = 0 ∨ k.val = 6) := by decide
    rcases this ⟨k, hk⟩ h with h | h
    · exact ⟨.ti, .inl rfl, h.symm⟩
    · exact ⟨.ri, .inr rfl, h.symm⟩
  · rintro ⟨b, rfl | rfl, rfl⟩ <;> decide

theorem abnormal_bits (k : Nat) (hk : k < 32) : bit abnormalMask k = true ↔ ∃ b : Source, b ≠ .ti ∧ b ≠ .ri ∧
    b.pos = k := by
  constructor
  · intro h
    have : ∀ k : Fin 32, bit abnormalMask k = true → (k.val = 1 ∨ k.val = 3 ∨ k.val = 4 ∨ k.val = 5 ∨ k.val = 7 ∨ k.val = 8 ∨ k.val = 13) := by decide
    rcases this ⟨k, hk⟩ h with h | h | h | h | h | h | h
    · exact ⟨.tps, by decide, by decide, h.symm⟩
    · exact ⟨.tjt, by decide, by decide, h.symm⟩
    · exact ⟨.ovf, by decide, by decide, h.symm⟩
    · exact ⟨.unf, by decide, by decide, h.symm⟩
    · exact ⟨.ru, by decide, by decide, h.symm⟩
    · exact ⟨.rps, by decide, by decide, h.symm⟩
    · exact ⟨.fbi, by decide, by decide, h.symm⟩
  · rintro ⟨b, h1, h2, rfl⟩
    cases b <;> first | decide | exact absurd rfl h1 | exact absurd rfl h2

theorem pos_lt (b : Source) : b.pos < 32 := by cases b <;> decide

theorem ais_iff (src : Word) : aisOf src = true ↔ ∃ b : Source, b ≠ .ti ∧ b ≠ .ri ∧ bit src b.pos = true := by
  simp only [aisOf, decide_eq_true_eq]
  rw [mask_ne]
  constructor
  · rintro ⟨k, hk, h1, h2⟩
    obtain ⟨b, a, c, rfl⟩ := (abnormal_bits k hk).1 h2
    exact ⟨b, a, c, h1⟩
  · rintro ⟨b, a, c, h⟩
    exact ⟨b.pos, pos_lt b, h, (abnormal_bits _ (pos_lt b)).2 ⟨b, a, c, rfl⟩⟩

theorem nis_iff (src : Word) : nisOf src = true ↔ ∃ b : Source, (b = .ti ∨ b = .ri) ∧ bit src b.pos = true := by
  simp only [nisOf, decide_eq_true_eq]
  rw [mask_ne]
  constructor
  · rintro ⟨k, hk, h1, h2⟩
    obtain ⟨b, a, rfl⟩ := (normal_bits k hk).1 h2
    exact ⟨b, a, h1⟩
  · rintro ⟨b, a, h⟩
    exact ⟨b.pos, pos_lt b, h, (normal_bits _ (pos_lt b)).2 ⟨b, a, rfl⟩⟩

theorem irq_part (src ier m : Word) : (src &&& ier &&& m) ≠ 0 ↔ ∃ k < 32, bit src k = true ∧ bit ier k = true ∧
    bit m k = true := by
  rw [mask_ne]
  simp only [bit_and, Bool.and_eq_true, and_assoc]

theorem touches_of {s : State} {a : Word} {x} (h : s.descAt a = some x) : touchesDesc s a = true := by
  simp only [touchesDesc, List.any_eq_true, List.mem_range]
  exact ⟨0, by decide, by simp [natWord, h]⟩

/-- The PBL field, bit by bit (R37). -/
theorem bit_pblField (v : Word) {j : Nat} (hj : j < 32) :
    bit (natWord (bitsAt v 8 6) <<< 8) j = (decide (8 ≤ j ∧ j < 14) && bit v j) := by
  simp only [bit, natWord, bitsAt, BitVec.getLsbD_shiftLeft, BitVec.getLsbD_ofNat, Nat.testBit_mod_two_pow, BitVec.toNat_ushiftRight, Nat.testBit_shiftRight]
  by_cases h : 8 ≤ j
  · have e : 8 + (j - 8) = j := by omega
    rw [e]
    by_cases h2 : j < 14
    · have : j - 8 < 32 := by omega
      have : j - 8 < 6 := by omega
      simp [h, h2, *, BitVec.getLsbD]
    · have : ¬ (j - 8 < 6) := by omega
      simp [h, h2, *]
  · simp [h]

/-- DMA_CTRL after a write, bit by bit (R37). -/
theorem bit_legalDmaCtrl (old v : Word) {j : Nat} (hj : j < 32) : bit (legalDmaCtrl old v) j =
    if j < 4 then bit v j
    else if 8 ≤ j ∧ j < 14 then (if [1, 2, 4, 8, 16, 32].contains (bitsAt v 8 6) then bit v j else decide (j = 11))
    else if j = 31 then bit old 31 && !bit v 31 else false := by
  have a1 : ∀ k : Fin 32, bit (0xF : Word) k = decide (k.val < 4) := by decide
  have a2 : ∀ k : Fin 32, bit (natWord 8 <<< 8) k = decide (k.val = 11) := by decide
  simp only [legalDmaCtrl, bit_or, bit_and, bit_bitIf _ (show 31 < 32 by decide)]
  rw [a1 ⟨j, hj⟩]
  have h3 : bit (natWord (if [1, 2, 4, 8, 16, 32].contains (bitsAt v 8 6) then bitsAt v 8 6 else 8) <<< 8) j =
      if [1, 2, 4, 8, 16, 32].contains (bitsAt v 8 6) then (decide (8 ≤ j ∧ j < 14) && bit v j) else decide (j = 11) := by
    split
    · exact bit_pblField v hj
    · exact a2 ⟨j, hj⟩
  rw [h3]
  by_cases h : j < 4
  · have : ¬ (31 = j) := by omega
    have : ¬ (j = 11) := by omega
    have : ¬ (8 ≤ j) := by omega
    simp [*]
  · by_cases h2 : 8 ≤ j ∧ j < 14
    · have : ¬ (31 = j) := by omega
      simp [*]
    · by_cases h4 : j = 31
      · subst h4; simp
      · have : ¬ (31 = j) := by omega
        have : ¬ (j = 11) := by omega
        simp [*]

theorem bit_reserved {c m : Word} (h : c &&& m = 0) {j : Nat} (hm : bit m j = true) : bit c j = false := by
  have := congrArg (fun v => bit v j) h
  simp only [bit_and, hm, Bool.and_true] at this
  rw [this]; simp [bit]

theorem legalDmaCtrl_put {c : Word} {k : Nat} {b : Bool} (hk : k < 4) (h1 : c &&& 0x7FFF_C0F0 = 0)
    (h2 : bitsAt c 8 6 ∈ [1, 2, 4, 8, 16, 32]) :
    legalDmaCtrl c (putBit (putBit c k b) 31 false) = putBit c k b := by
  have hb : bitsAt (putBit (putBit c k b) 31 false) 8 6 = bitsAt c 8 6 := by
    simp only [bitsAt]
    apply Nat.eq_of_testBit_eq
    intro i
    simp only [Nat.testBit_mod_two_pow, BitVec.toNat_ushiftRight, Nat.testBit_shiftRight]
    by_cases hi : i < 6
    · have e := bit_putBit (putBit c k b) (i := 31) (by decide) (8 + i) false
      rw [if_neg (by omega), bit_putBit c (by omega), if_neg (by omega)] at e
      simp only [bit, BitVec.getLsbD] at e
      simp only [hi, e]
    · simp [hi]
  apply word_ext
  intro j hj
  have m1 : ∀ j : Fin 32, ¬ j.val < 4 → ¬ (8 ≤ j.val ∧ j.val < 14) → j.val ≠ 31 → bit (0x7FFF_C0F0 : Word) j = true := by decide
  rw [bit_legalDmaCtrl _ _ hj, hb, if_pos (show [1, 2, 4, 8, 16, 32].contains (bitsAt c 8 6) = true by simpa using h2)]
  simp only [bit_putBit _ (show k < 32 by omega), bit_putBit _ (show 31 < 32 by decide)]
  by_cases h4 : j < 4
  · simp only [if_pos h4, if_neg (show ¬ 31 = j by omega)]
  · rw [if_neg h4]
    by_cases h8 : 8 ≤ j ∧ j < 14
    · simp only [if_pos h8, if_neg (show ¬ 31 = j by omega)]
    · rw [if_neg h8]
      by_cases h31 : j = 31
      · subst h31; simp; omega
      · rw [if_neg h31, if_neg (by omega)]
        exact (bit_reserved h1 (m1 ⟨j, hj⟩ h4 h8 h31)).symm

/-- MAC_CONFIG after a write, bit by bit (R44). -/
theorem legalMacConfig_bit (p : Params) (v : Word) {j : Nat} (hj : j < 32) : bit (legalMacConfig p v) j =
    if j < 4 then bit v j else if j = 4 then (decide (p.variant = .mac100) || bit v 4)
    else if j = 8 then p.csumOffload && bit v 8 else false := by
  have a1 : ∀ k : Fin 32, bit (0xF : Word) k = decide (k.val < 4) := by decide
  simp only [legalMacConfig, bit_or, bit_and, bit_bitIf _ (show 4 < 32 by decide), bit_bitIf _ (show 8 < 32 by decide), a1 ⟨j, hj⟩]
  by_cases h : j < 4
  · have : ¬ (4 = j) := by omega
    have : ¬ (8 = j) := by omega
    simp [*]
  · by_cases h4 : j = 4
    · subst h4; cases p.variant <;> simp
    · by_cases h8 : j = 8
      · subst h8; simp
      · have : ¬ (4 = j) := by omega
        have : ¬ (8 = j) := by omega
        simp [*]

theorem legalMacConfig_self {p : Params} {c v : Word} (h1 : c &&& 0xFFFF_FEE0 = 0) (h2 : p.variant = .mac100 →
    bit c 4 = true)
    (h3 : p.csumOffload = false → bit c 8 = false)
    (hv : ∀ j < 32, ¬ j < 4 → (p.variant = .gmac → j ≠ 4) → bit v j = bit c j) :
    ∀ j < 32, bit (legalMacConfig p v) j = if j < 4 ∨ (j = 4 ∧ p.variant = .gmac) then bit v j else bit c j := by
  intro j hj
  have m1 : ∀ j : Fin 32, ¬ j.val < 4 → j.val ≠ 4 → j.val ≠ 8 → bit (0xFFFF_FEE0 : Word) j = true := by decide
  rw [legalMacConfig_bit p v hj]
  by_cases h : j < 4
  · simp [h]
  · by_cases h4 : j = 4
    · subst h4
      cases hp : p.variant with
      | mac100 => simp [h2 hp]
      | gmac => simp
    · by_cases h8 : j = 8
      · subst h8
        have := hv 8 hj h (fun _ => by decide)
        cases hc : p.csumOffload with
        | false => simp [h3 hc]
        | true => simp [this]
      · simp only [if_neg h, if_neg h4, if_neg h8]
        simp only [h, h4, false_and, or_self, if_false]
        exact (bit_reserved h1 (m1 ⟨j, hj⟩ h h4 h8)).symm

theorem legalMacConfig_put {p : Params} {c : Word} {k : Nat} {b : Bool} (hk : k < 4) (h1 : c &&& 0xFFFF_FEE0 = 0)
    (h2 : p.variant = .mac100 → bit c 4 = true)
    (h3 : p.csumOffload = false → bit c 8 = false) : legalMacConfig p (putBit c k b) = putBit c k b := by
  apply word_ext
  intro j hj
  rw [legalMacConfig_self h1 h2 h3 (v := putBit c k b) (fun j hj h _ => by rw [bit_putBit _ (by omega), if_neg (by omega)]) j hj]
  split
  · rfl
  · rename_i h
    rw [bit_putBit _ (by omega), if_neg (by omega)]

theorem startBits_eq {s : State} (hr : s.regsLegal) (r : RingSel) (b : Bool) (u : State) (hp : u.params = s.params)
    (hc : u.csr.macConfig = s.csr.macConfig) :
    legalDmaCtrl s.csr.dmaCtrl (putBit (putBit s.csr.dmaCtrl (startBit r) b) 31 false) =
      putBit s.csr.dmaCtrl (startBit r) b ∧
    legalMacConfig s.params (putBit s.csr.macConfig (startBit r) b) = putBit s.csr.macConfig (startBit r) b := by
  have hk : startBit r < 4 := by cases r <;> decide
  exact ⟨legalDmaCtrl_put hk hr.csr.dmaCtrl hr.csr.pbl, legalMacConfig_put hk hr.csr.macConfig hr.csr.portSelect hr.csr.offload⟩

theorem and_of_legal {v m : Word} (h : v &&& ~~~m = 0) : v &&& m = v := by
  apply word_ext
  intro j hj
  rw [bit_and]
  cases hm : bit m j with
  | true => simp
  | false =>
    have : bit (~~~m) j = true := by
      simp only [bit] at hm ⊢
      rw [BitVec.getLsbD_not, hm]; simp [hj]
    rw [bit_reserved h this]; rfl

theorem exec_of_done {s t : State} {i : Instr} (hs : t.fault = none) (h : exec i s = complete s (done t)) :
    exec i s = .next { t with csr := { t.csr with result := 0 } } := by
  rw [h]
  have : (done t).st.fault = none := hs
  simp only [complete, finish, settle, done, hs]
  rfl

/-- A step that raised no fault ends as it computed. -/
theorem settle_ok {s t : State} (h : t.fault = none) : settle s t = t := by
  unfold settle; rw [h]

/-- A command that raised no fault writes its result (R12). -/
theorem complete_eq {s : State} {x : Ret} (h : x.st.fault = none) :
    complete s x = .next { x.st with csr := { x.st.csr with result := x.res, result1 := x.res1.getD x.st.csr.result1 } } :=
  congrArg Host.Outcome.next (settle_ok h)

theorem whenAttached_of {s : State} {x : Ret} (h : s.dev.attached = true) : whenAttached s x = x := if_pos h

theorem procAfter_start_tx {s : State} (hr : s.regsLegal) : procAfter s.dma.ts (bit s.csr.dmaCtrl 0) true =
    if s.dma.ts = .stopped then .running else s.dma.ts := by
  have := hr.start.tx
  cases h : bit s.csr.dmaCtrl 0 <;> cases h2 : s.dma.ts <;> simp_all [procAfter]

theorem procAfter_start_rx {s : State} (hr : s.regsLegal) : procAfter s.dma.rs (bit s.csr.dmaCtrl 1) true =
    if s.dma.rs = .stopped then .running else s.dma.rs := by
  have := hr.start.rx
  cases h : bit s.csr.dmaCtrl 1 <;> cases h2 : s.dma.rs <;> simp_all [procAfter]

theorem procAfter_stop_tx {s : State} (hr : s.regsLegal) : procAfter s.dma.ts (bit s.csr.dmaCtrl 0) false = .stopped
    := by
  have := hr.start.tx
  cases h : bit s.csr.dmaCtrl 0 <;> cases h2 : s.dma.ts <;> simp_all [procAfter]

theorem procAfter_stop_rx {s : State} (hr : s.regsLegal) : procAfter s.dma.rs (bit s.csr.dmaCtrl 1) false = .stopped
    := by
  have := hr.start.rx
  cases h : bit s.csr.dmaCtrl 1 <;> cases h2 : s.dma.rs <;> simp_all [procAfter]

theorem procAfter_same (p : ProcState) (b : Bool) : procAfter p b b = p := by cases b <;> rfl

theorem descFence_twice (s : State) : descFence (descFence s) = descFence s := rfl

theorem storeDma_tx {u : State} (hr : u.regsLegal) (b : Bool) :
    storeDmaCtrl (putBit (putBit u.csr.dmaCtrl 0 b) 31 false) u =
    { u with csr := { u.csr with dmaCtrl := putBit u.csr.dmaCtrl 0 b }, dma := { u.dma with ts := procAfter u.dma.ts (bit u.csr.dmaCtrl 0) b } } := by
  unfold storeDmaCtrl
  rw [legalDmaCtrl_put (by decide) hr.csr.dmaCtrl hr.csr.pbl]
  have e1 : bit (putBit (putBit u.csr.dmaCtrl 0 b) 31 false) 0 = b := by rw [bit_putBit _ (by decide), bit_putBit _ (by decide)]; simp
  have e2 : bit (putBit (putBit u.csr.dmaCtrl 0 b) 31 false) 1 = bit u.csr.dmaCtrl 1 := by rw [bit_putBit _ (by decide), bit_putBit _ (by decide)]; simp
  rw [e1, e2, procAfter_same]

theorem storeDma_rx {u : State} (hr : u.regsLegal) (b : Bool) :
    storeDmaCtrl (putBit (putBit u.csr.dmaCtrl 1 b) 31 false) u =
    { u with csr := { u.csr with dmaCtrl := putBit u.csr.dmaCtrl 1 b }, dma := { u.dma with rs := procAfter u.dma.rs (bit u.csr.dmaCtrl 1) b } } := by
  unfold storeDmaCtrl
  rw [legalDmaCtrl_put (by decide) hr.csr.dmaCtrl hr.csr.pbl]
  have e1 : bit (putBit (putBit u.csr.dmaCtrl 1 b) 31 false) 1 = b := by rw [bit_putBit _ (by decide), bit_putBit _ (by decide)]; simp
  have e2 : bit (putBit (putBit u.csr.dmaCtrl 1 b) 31 false) 0 = bit u.csr.dmaCtrl 0 := by rw [bit_putBit _ (by decide), bit_putBit _ (by decide)]; simp
  rw [e1, e2, procAfter_same]

/-- DMA_START of TX, as one update (R183). -/
theorem dmaStart_tx_eq {s : State} (hr : s.regsLegal) : dmaStart .tx s = { descFence s with
      csr := { s.csr with dmaCtrl := putBit s.csr.dmaCtrl 0 true, macConfig := putBit s.csr.macConfig 0 true }
      dma := { s.dma with ts := if s.dma.ts = .stopped then .running else s.dma.ts } } := by
  have h := (startBits_eq hr .tx true s rfl rfl)
  have k : (wrMacEnable .tx true s) = { descFence s with csr := { s.csr with macConfig := putBit s.csr.macConfig 0 true } } := by
    simp only [wrMacEnable, wrMacConfig, storeMacConfig]
    rw [show legalMacConfig (descFence s).params (putBit s.csr.macConfig (startBit .tx) true) = putBit s.csr.macConfig 0 true from h.2]; rfl
  have hr' : (wrMacEnable .tx true s).regsLegal := (wrMacEnable_keeps .tx true s).regs hr
  have := storeDma_tx ((descFence_keeps _).regs hr') true
  rw [show dmaStart .tx s = storeDmaCtrl (putBit (putBit (descFence (wrMacEnable .tx true s)).csr.dmaCtrl 0 true) 31 false) (descFence (wrMacEnable .tx true s)) from rfl, this, k]
  simp only [← procAfter_start_tx hr]; rfl

/-- DMA_START of RX, as one update (R183). -/
theorem dmaStart_rx_eq {s : State} (hr : s.regsLegal) : dmaStart .rx s = { descFence s with
      csr := { s.csr with dmaCtrl := putBit s.csr.dmaCtrl 1 true, macConfig := putBit s.csr.macConfig 1 true }
      dma := { s.dma with rs := if s.dma.rs = .stopped then .running else s.dma.rs } } := by
  have h := (startBits_eq hr .rx true s rfl rfl)
  have k : (wrMacEnable .rx true s) = { descFence s with csr := { s.csr with macConfig := putBit s.csr.macConfig 1 true } } := by
    simp only [wrMacEnable, wrMacConfig, storeMacConfig]
    rw [show legalMacConfig (descFence s).params (putBit s.csr.macConfig (startBit .rx) true) = putBit s.csr.macConfig 1 true from h.2]; rfl
  have hr' : (wrMacEnable .rx true s).regsLegal := (wrMacEnable_keeps .rx true s).regs hr
  have := storeDma_rx ((descFence_keeps _).regs hr') true
  rw [show dmaStart .rx s = storeDmaCtrl (putBit (putBit (descFence (wrMacEnable .rx true s)).csr.dmaCtrl 1 true) 31 false) (descFence (wrMacEnable .rx true s)) from rfl, this, k]
  simp only [← procAfter_start_rx hr]; rfl

/-- DMA_STOP of TX, as one update (R184). -/
theorem dmaStop_tx_eq {s : State} (hr : s.regsLegal) : dmaStop .tx s = { descFence s with
      csr := { s.csr with dmaCtrl := putBit s.csr.dmaCtrl 0 false, macConfig := putBit s.csr.macConfig 0 false }
      dma := { s.dma with ts := .stopped } } := by
  have h := (startBits_eq hr .tx false s rfl rfl)
  have k : (wrStart .tx false s) = { descFence s with csr := { s.csr with dmaCtrl := putBit s.csr.dmaCtrl 0 false }, dma := { s.dma with ts := .stopped } } := by
    have := storeDma_tx ((descFence_keeps s).regs hr) false
    rw [show wrStart .tx false s = storeDmaCtrl (putBit (putBit (descFence s).csr.dmaCtrl 0 false) 31 false) (descFence s) from rfl, this]
    simp only [descFence_dma, descFence_csr, procAfter_stop_tx hr]
  rw [dmaStop, k]
  simp only [wrMacEnable, wrMacConfig, storeMacConfig]
  rw [show legalMacConfig (descFence { descFence s with csr := { s.csr with dmaCtrl := putBit s.csr.dmaCtrl 0 false }, dma := { s.dma with ts := .stopped } }).params (putBit s.csr.macConfig (startBit .tx) false) = putBit s.csr.macConfig 0 false from h.2]
  rfl

/-- DMA_STOP of RX, as one update (R184). -/
theorem dmaStop_rx_eq {s : State} (hr : s.regsLegal) : dmaStop .rx s = { descFence s with
      csr := { s.csr with dmaCtrl := putBit s.csr.dmaCtrl 1 false, macConfig := putBit s.csr.macConfig 1 false }
      dma := { s.dma with rs := .stopped } } := by
  have h := (startBits_eq hr .rx false s rfl rfl)
  have k : (wrStart .rx false s) = { descFence s with csr := { s.csr with dmaCtrl := putBit s.csr.dmaCtrl 1 false }, dma := { s.dma with rs := .stopped } } := by
    have := storeDma_rx ((descFence_keeps s).regs hr) false
    rw [show wrStart .rx false s = storeDmaCtrl (putBit (putBit (descFence s).csr.dmaCtrl 1 false) 31 false) (descFence s) from rfl, this]
    simp only [descFence_dma, descFence_csr, procAfter_stop_rx hr]
  rw [dmaStop, k]
  simp only [wrMacEnable, wrMacConfig, storeMacConfig]
  rw [show legalMacConfig (descFence { descFence s with csr := { s.csr with dmaCtrl := putBit s.csr.dmaCtrl 1 false }, dma := { s.dma with rs := .stopped } }).params (putBit s.csr.macConfig (startBit .rx) false) = putBit s.csr.macConfig 1 false from h.2]
  rfl

theorem natWord_toNat_of_lt {n : Nat} (h : n < 2 ^ 32) : (natWord n).toNat = n := natWord_toNat h

theorem bitsAt_eq_of {v w : Word} {a b n : Nat} (h : ∀ k < n, bit v (a + k) = bit w (b + k)) : bitsAt v a n =
    bitsAt w b n := by
  simp only [bitsAt]
  apply Nat.eq_of_testBit_eq
  intro i
  simp only [Nat.testBit_mod_two_pow, BitVec.toNat_ushiftRight, Nat.testBit_shiftRight]
  by_cases hi : i < n
  · have := h i hi
    simp only [bit, BitVec.getLsbD] at this
    simp only [this]
  · simp [hi]

theorem bit_field (n : Nat) {j : Nat} (h8 : 8 ≤ j) (hj : j < 14) (v : Word) : bit (natWord (bitsAt v 0 6) <<< 8) j =
    bit v (j - 8) := by
  simp only [bit, natWord, bitsAt, BitVec.getLsbD_shiftLeft, BitVec.getLsbD_ofNat, Nat.testBit_mod_two_pow, BitVec.toNat_ushiftRight, Nat.testBit_shiftRight]
  have : j < 32 := by omega
  have : ¬ j < 8 := by omega
  have : j - 8 < 32 := by omega
  have : j - 8 < 6 := by omega
  simp [*, BitVec.getLsbD]

theorem bit_field_out {n : Nat} {j : Nat} (hn : n < 64) (h8 : j < 8 ∨ 14 ≤ j) : bit (natWord n <<< 8) j = false
    := by
  simp only [bit, natWord, BitVec.getLsbD_shiftLeft, BitVec.getLsbD_ofNat]
  rcases h8 with h | h
  · simp [h]
  · have : n.testBit (j - 8) = false := Nat.testBit_lt_two_pow (lt_of_lt_of_le hn (show 2 ^ 6 ≤ _ from Nat.pow_le_pow_right (by decide) (by omega)))
    simp [this]

theorem speedOfArg_some {v : Variant} {a : Word} (h : a = 10 ∨ a = 100 ∨ a = 1000 ∧ v = .gmac) : ∃ sp,
    speedOfArg v a = some sp ∧ sp.word = a ∧ (sp = .s100 ↔ a = 100) ∧ (sp = .s1000 ↔ a = 1000) := by
  rcases h with rfl | rfl | ⟨rfl, rfl⟩
  · exact ⟨.s10, rfl, rfl, by decide, by decide⟩
  · exact ⟨.s100, rfl, rfl, by decide, by decide⟩
  · exact ⟨.s1000, rfl, rfl, by decide, by decide⟩

end Sys2Proof.Machine
end

