-- ==== Sys2Proof/Laws/Chain.lean ====
section
/-! SUPPORT. Mapping (R84) and INIT_DESC_CHAIN (R170): what each can do, said once. -/

namespace Sys2Proof.Machine

open Sys2Proof

theorem ring_lt {s : State} (h : s.ringsLegal) (r : RingSel) : (s.ring r).n ≤ 1024 := h.arrays.bound r

theorem withSlot_of {s : State} {r : RingSel} {i : BitVec 16} {f : Nat → Ret} (h : i.toNat < (s.ring r).n) :
    withSlot r i s f = f i.toNat :=
  if_pos h

theorem complete_done {s t : State} (h : t.fault = none) :
    complete s (done t) = .next { t with csr := { t.csr with result := 0 } } := complete_eq (x := done t) h

theorem complete_failed_eq {s : State} (h : s.fault = none) :
    complete s (failed s) = .next { s with csr := { s.csr with result := 2 } } := complete_eq (x := failed s) h

theorem setPub_descWord (s : State) (r q : RingSel) (i j k : Nat) (b : Bool) : (s.setPub r i b).descWord q j k =
    s.descWord q j k := by
  cases r <;> cases q <;> rfl

theorem setPub_swByte (s : State) (r : RingSel) (i : Nat) (b : Bool) (a : Word) : swByte (s.setPub r i b) a =
    swByte s a := by
  cases r <;> rfl

theorem setDic_eq {s : State} {i : Nat} {b : Bool} (hu : s.descClear .rx i) (ho : s.ownSeen .rx i = false) :
    setDic i b s = done (pushWrite (s.descAddr .rx i 1) (splitWord s.params.endian (putBit (s.descWord .rx i 1) 26 b)) s) := by
  simp only [setDic]
  rw [readDesc_eq hu (by decide) (.inl rfl), readDesc_eq hu (by decide) (.inr ho), if_neg (by simp [ho]), writeDesc_eq _ hu (by decide) ho (.inl (by decide))]

/-- What is left of a mark after `unmap`: its DMA addresses outside the range (R84). -/
theorem cutMark_span (a : Word) (len : Nat) (m : Mark) (d : Word) (h : m.len + len ≤ 2 ^ 32) :
    ((cutMark a len m).any fun x => inSpan x.dma x.len d) = (inSpan m.dma m.len d && !inSpan a len d) := by
  norm_num at h
  have key : ∀ k : Nat, k < 4294967296 → (k ≤ (d - m.dma).toNat ∧ (d - (m.dma + natWord k)).toNat = (d - m.dma).toNat - k) ∨ ((d - m.dma).toNat < k ∧ (d - (m.dma + natWord k)).toNat = 4294967296 + (d - m.dma).toNat - k) := by
    intro k hk
    have := sub_cases (d - m.dma) (natWord k)
    rw [natWord_toNat (by norm_num; omega)] at this
    rw [show d - (m.dma + natWord k) = d - m.dma - natWord k from by bv_omega]
    exact this
  have hda : d - a = (d - m.dma) - (a - m.dma) := by
    apply BitVec.eq_of_toNat_eq
    have := sub_cases (d - m.dma) (a - m.dma)
    have := sub_cases d m.dma
    have := sub_cases a m.dma
    have := sub_cases d a
    omega
  have hma : m.dma - a = 0#32 - (a - m.dma) := by
    apply BitVec.eq_of_toNat_eq
    have := sub_cases 0#32 (a - m.dma)
    have := sub_cases m.dma a
    have := sub_cases a m.dma
    simp only [BitVec.toNat_ofNat] at *
    omega
  have c1 := sub_cases (d - m.dma) (a - m.dma)
  have c2 := sub_cases 0#32 (a - m.dma)
  rw [← hda] at c1
  rw [← hma] at c2
  have z : (0#32).toNat = 0 := rfl
  rw [z] at c2
  have l1 : (d - m.dma).toNat < 4294967296 := (d - m.dma).isLt
  have l2 : (a - m.dma).toNat < 4294967296 := (a - m.dma).isLt
  clear hda hma z
  simp only [cutMark, inSpan]
  generalize (a - m.dma).toNat = f at *
  generalize (m.dma - a).toNat = b at *
  generalize (d - a).toNat = y at *
  split
  · rename_i hb
    split
    · rename_i hk
      have k1 := key (len - b) (by omega)
      simp only [List.any_cons, List.any_nil, Bool.or_false]
      generalize (d - (m.dma + natWord (len - b))).toNat = z at *
      generalize (d - m.dma).toNat = x at *
      clear key
      rw [Bool.eq_iff_iff]
      simp only [decide_eq_true_eq, Bool.and_eq_true, Bool.not_eq_true', decide_eq_false_iff_not]
      constructor
      · intro hz; constructor
        · omega
        · rcases c2 with c2 | c2 <;> rcases c1 with c1 | c1 <;> rcases k1 with k1 | k1 <;> omega
      · rintro ⟨h1, h2⟩
        rcases c2 with c2 | c2 <;> rcases c1 with c1 | c1 <;> rcases k1 with k1 | k1 <;> omega
    · rename_i hk
      generalize (d - m.dma).toNat = x at *
      clear key
      simp only [List.any_nil]
      rw [Bool.eq_iff_iff]
      simp only [Bool.false_eq_true, decide_eq_true_eq, Bool.and_eq_true, Bool.not_eq_true', decide_eq_false_iff_not]
      constructor
      · intro hz; exact hz.elim
      · rintro ⟨h1, h2⟩
        rcases c2 with c2 | c2 <;> rcases c1 with c1 | c1 <;> omega
  · rename_i hb
    split
    · rename_i hc
      split
      · rename_i hk
        have k1 := key (f + len) (by omega)
        simp only [List.any_cons, List.any_nil, Bool.or_false]
        generalize (d - (m.dma + natWord (f + len))).toNat = z at *
        generalize (d - m.dma).toNat = x at *
        clear key
        rw [Bool.eq_iff_iff]
        simp only [decide_eq_true_eq, Bool.and_eq_true, Bool.not_eq_true', decide_eq_false_iff_not, Bool.or_eq_true]
        constructor
        · rintro (hz | hz) <;> constructor <;> rcases c2 with c2 | c2 <;> rcases c1 with c1 | c1 <;> rcases k1 with k1 | k1 <;> omega
        · rintro ⟨h1, h2⟩
          rcases c2 with c2 | c2 <;> rcases c1 with c1 | c1 <;> rcases k1 with k1 | k1 <;> omega
      · rename_i hk
        dsimp only [List.any_cons]
        generalize (d - m.dma).toNat = x at *
        clear key
        simp only [List.any_cons, List.any_nil, Bool.or_false]
        rw [Bool.eq_iff_iff]
        simp only [decide_eq_true_eq, Bool.and_eq_true, Bool.not_eq_true', decide_eq_false_iff_not]
        constructor
        · intro hz; constructor <;> rcases c2 with c2 | c2 <;> rcases c1 with c1 | c1 <;> omega
        · rintro ⟨h1, h2⟩
          rcases c2 with c2 | c2 <;> rcases c1 with c1 | c1 <;> omega
    · rename_i hc
      dsimp only [List.any_cons]
      generalize (d - m.dma).toNat = x at *
      clear key
      simp only [List.any_cons, List.any_nil, Bool.or_false]
      rw [Bool.eq_iff_iff]
      simp only [decide_eq_true_eq, Bool.and_eq_true, Bool.not_eq_true', decide_eq_false_iff_not]
      constructor
      · intro hz; constructor <;> rcases c2 with c2 | c2 <;> rcases c1 with c1 | c1 <;> omega
      · rintro ⟨h1, h2⟩
        rcases c2 with c2 | c2 <;> rcases c1 with c1 | c1 <;> omega

theorem sub_part {a c : Word} {k n : Nat} (h : (c - (a + natWord k)).toNat < n - k) : (c - a).toNat < n := by
  by_cases hk : k < 2 ^ 32
  · have e := word_sub_toNat c (a + natWord k)
    rw [BitVec.toNat_add, natWord_toNat hk] at e
    have e2 := word_sub_toNat c a
    have := a.isLt; have := c.isLt
    omega
  · have := (c - a).isLt
    omega

theorem cutMark_cpu {a : Word} {len : Nat} {m x : Mark} (hx : x ∈ cutMark a len m) {c : Word}
    (h : inSpan x.cpu x.len c = true) : inSpan m.cpu m.len c = true := by
  simp only [inSpan, decide_eq_true_eq] at *
  simp only [cutMark] at hx
  split at hx
  · split at hx
    · simp only [List.mem_singleton] at hx; subst hx
      exact sub_part h
    · simp at hx
  · split at hx
    · rename_i hc
      split at hx
      · simp only [List.mem_cons, List.not_mem_nil, or_false] at hx
        rcases hx with rfl | rfl
        · simp only at h; omega
        · exact sub_part h
      · simp only [List.mem_singleton] at hx; subst hx
        simp only at h; omega
    · simp only [List.mem_singleton] at hx; subst hx; exact h

/-- `unmap` marks no byte (R84). -/
theorem unmap_marked {a : Word} {len : Nat} {ms : List Mark} {c : Word}
    (h : ((ms.flatMap (cutMark a len)).any fun m => inSpan m.cpu m.len c) = true) :
    (ms.any fun m => inSpan m.cpu m.len c) = true := by
  simp only [List.any_eq_true, List.mem_flatMap] at *
  obtain ⟨x, ⟨m, hm, hx⟩, hc⟩ := h
  exact ⟨m, hm, cutMark_cpu hx hc⟩

/-- What is left of a mark keeps its distance from CPU to DMA addresses (R84). -/
theorem cutMark_offset {a : Word} {len : Nat} {m x : Mark} (hx : x ∈ cutMark a len m) : x.dma - x.cpu = m.dma - m.cpu := by
  have k : ∀ b c d : Word, b + d - (c + d) = b - c := fun b c d => by bv_omega
  simp only [cutMark] at hx
  split at hx
  · split at hx
    · simp only [List.mem_singleton] at hx; subst hx; exact k _ _ _
    · simp at hx
  · split at hx
    · split at hx
      · simp only [List.mem_cons, List.not_mem_nil, or_false] at hx
        rcases hx with rfl | rfl
        · rfl
        · exact k _ _ _
      · simp only [List.mem_singleton] at hx; subst hx; rfl
    · simp only [List.mem_singleton] at hx; subst hx; rfl

/-- The byte at CPU address `c` is device-owned at DMA address `d`. -/
def Mark.takes (c d : Word) (m : Mark) : Bool := inSpan m.cpu m.len c && decide (m.dma + (c - m.cpu) = d)

/-- `unmap` takes from a mark exactly the bytes whose DMA addresses it names (R84). -/
theorem cutMark_takes (a : Word) (len : Nat) (m : Mark) (c d : Word) (h : m.len + len ≤ 2 ^ 32) :
    (cutMark a len m).any (Mark.takes c d) = (m.takes c d && !inSpan a len d) := by
  have e : ∀ x : Mark, x.dma - x.cpu = m.dma - m.cpu → x.dma + (c - x.cpu) = m.dma + (c - m.cpu) := fun x hx => by bv_omega
  by_cases hd : m.dma + (c - m.cpu) = d
  · have key : ∀ x : Mark, x.dma - x.cpu = m.dma - m.cpu → x.takes c d = inSpan x.dma x.len d := fun x hx => by
      have h1 : d - x.dma = c - x.cpu := by rw [← hd, ← e x hx]; bv_omega
      simp [Mark.takes, inSpan, h1, e x hx, hd]
    rw [key m rfl, ← cutMark_span a len m d h, Bool.eq_iff_iff, List.any_eq_true, List.any_eq_true]
    exact exists_congr fun x => and_congr_right fun hx => by rw [key x (cutMark_offset hx)]
  · have key : ∀ x : Mark, x.dma - x.cpu = m.dma - m.cpu → x.takes c d = false := fun x hx => by
      simp [Mark.takes, e x hx, hd]
    rw [key m rfl, Bool.false_and, List.any_eq_false]
    exact fun x hx => by rw [key x (cutMark_offset hx)]; simp

/-- `unmap`, over all the marks (R84). -/
theorem unmap_any {p : Mark → Bool} {q : Bool} {a : Word} {len : Nat} {ms : List Mark}
    (h : ∀ m ∈ ms, (cutMark a len m).any p = (p m && q)) : (ms.flatMap (cutMark a len)).any p = (ms.any p && q) := by
  induction ms with
  | nil => rfl
  | cons m ms ih =>
    rw [List.flatMap_cons, List.any_append, h m (by simp), ih fun x hx => h x (by simp [hx]), List.any_cons, Bool.and_or_distrib_right]

/-- The four teardown writes of one descriptor (R96, R170). -/
def wipeAll (r : RingSel) (i : Nat) (w : Word) (s : State) : State :=
  wipeDesc r i 1 w (wipeDesc r i 3 0 (wipeDesc r i 2 0 (wipeDesc r i 0 0 s)))

theorem wipeDesc_eq (r : RingSel) (i k : Nat) (v : Word) (s : State) : wipeDesc r i k v s =
    pushWrite (s.descAddr r i k) (splitWord s.params.endian v) s :=
  rfl

theorem wipeDesc_word {r : RingSel} {i k l : Nat} (v : Word) (s : State) (hi : i < 1024) (hk : k < 4) (hl : l < 4) :
    (wipeDesc r i k v s).descWord r i l = if l = k then v else s.descWord r i l := descWord_push v hi hk hl

theorem wipeDesc_other {r : RingSel} {i j k l : Nat} (v : Word) (s : State) (hi : i < 1024) (hj : j < 1024)
    (hk : k < 4) (hl : l < 4) (h : j ≠ i) :
    (wipeDesc r i k v s).descWord r j l = s.descWord r j l := descWord_push_other v hi hj hk hl h

theorem wipeAll_word {r : RingSel} {i l : Nat} (w : Word) (s : State) (hi : i < 1024) (hl : l < 4) :
    (wipeAll r i w s).descWord r i l = if l = 1 then w else 0 := by
  unfold wipeAll
  rw [wipeDesc_word _ _ hi (by decide) hl, wipeDesc_word _ _ hi (by decide) hl, wipeDesc_word _ _ hi (by decide) hl, wipeDesc_word _ _ hi (by decide) hl]
  interval_cases l <;> simp

theorem wipeAll_other {r : RingSel} {i j l : Nat} (w : Word) (s : State) (hi : i < 1024) (hj : j < 1024)
    (hl : l < 4) (h : j ≠ i) :
    (wipeAll r i w s).descWord r j l = s.descWord r j l := by
  unfold wipeAll
  rw [wipeDesc_other _ _ hi hj (by decide) hl h, wipeDesc_other _ _ hi hj (by decide) hl h, wipeDesc_other _ _ hi hj (by decide) hl h, wipeDesc_other _ _ hi hj (by decide) hl h]

theorem wipeAll_bytes (r : RingSel) (i : Nat) (w : Word) (s : State) : sameBytesButDesc s (wipeAll r i w s) r i
    := by
  unfold wipeAll
  intro a ha
  have e := fun (k : Nat) (v : Word) (t : State) (ht : t.descAddr r i 0 = s.descAddr r i 0) (hk : k < 4) => pushWrite_sameBytesButDesc t r (i := i) (k := k) v hk a (by rw [ht]; exact ha)
  exact (e 1 _ _ (by cases r <;> rfl) (by decide)).trans ((e 3 _ _ (by cases r <;> rfl) (by decide)).trans ((e 2 _ _ (by cases r <;> rfl) (by decide)).trans (e 0 _ _ rfl (by decide))))

theorem wipeAll_wbuf (r : RingSel) (i : Nat) (w : Word) (s : State) : wipeAll r i w s =
    { s with wbuf := (wipeAll r i w s).wbuf } := rfl

/-- INIT_DESC_CHAIN after its first `j` turns. -/
structure ChainWiped (r : RingSel) (j : Nat) (s u : State) : Prop where
  words : ∀ i < j, ∀ k < 4, u.descWord r i k = if k = 1 ∧ i = (s.ring r).n - 1 then 0x0800_0000 else 0
  bytes : sameBytesButRing s u r
  tx : r = .tx → u = { s with
      txSlots := List.replicate j TxSlot.empty ++ s.txSlots.drop j
      marks := (s.txSlots.take j).foldl (fun m x => withoutBuffer m x.addr x.len) s.marks
      outputs := s.outputs ++ ((s.txSlots.take j).filterMap (·.pkt)).map .release
      wbuf := u.wbuf }
  rx : r = .rx → u = { s with
      rxSlots := List.replicate j RxSlot.empty ++ s.rxSlots.drop j
      marks := (s.rxSlots.take j).foldl (fun m x => if x.buf.isSome then withoutBuffer m x.addr s.eff.bufSz else m) s.marks
      regions := (s.rxSlots.take j).foldl (fun g x => withoutRegion g x.buf) s.regions
      wbuf := u.wbuf }

theorem append_drop_getD {α} (l : List α) (p : List α) (j : Nat) (hp : p.length = j) (hj : j < l.length) (d : α) :
    (p ++ l.drop j).getD j d = l[j] := by
  subst hp
  simp [List.getD, hj]

theorem replicate_set_drop {α} (l : List α) (j : Nat) (hj : j < l.length) (d : α) :
    (List.replicate j d ++ l.drop j).set j d = List.replicate (j+1) d ++ l.drop (j+1) := by
  rw [List.set_append_right _ _ (by simp), List.length_replicate, Nat.sub_self, List.drop_eq_getElem_cons hj, List.set_cons_zero, List.replicate_succ']
  simp

theorem releaseSlot_tx (i : Nat) (s : State) : releaseSlot .tx i s = { s with
    txSlots := s.txSlots.set i TxSlot.empty
    marks := withoutBuffer s.marks (s.txSlot i).addr (s.txSlot i).len
    outputs := s.outputs ++ ((s.txSlot i).pkt.toList).map .release } := by
  simp only [releaseSlot]
  cases h1 : (s.txSlot i).addr <;> cases h2 : (s.txSlot i).pkt <;> simp [unmapIf, releasePkt, output, unmapBuf, withoutBuffer, State.setTxSlot]

theorem releaseSlot_rx (i : Nat) (s : State) : releaseSlot .rx i s = { s with
    rxSlots := s.rxSlots.set i RxSlot.empty
    marks := if (s.rxSlot i).buf.isSome then withoutBuffer s.marks (s.rxSlot i).addr s.eff.bufSz else s.marks
    regions := withoutRegion s.regions (s.rxSlot i).buf } := by
  simp only [releaseSlot]
  cases h1 : (s.rxSlot i).addr <;> cases h2 : (s.rxSlot i).buf <;> simp [unmapIf, freeBuf, unmapBuf, withoutBuffer, withoutRegion, State.setRxSlot]

theorem initSlot_eq (r : RingSel) (i : Nat) (s : State) : initSlot r i s = wipeAll r i (bitIf (i + 1 =
    (s.ring r).n) 27) (releaseSlot r i s) :=
  rfl

/-- INIT_DESC_CHAIN's loop, after `j` turns (R170). -/
theorem chain_fold {r : RingSel} {s : State} (hl : s.ringsLegal) (ha : (s.ring r).allocated = true) :
    ∀ j ≤ (s.ring r).n, ChainWiped r j s ((List.range j).foldl (fun u i => initSlot r i u) s)
  | 0, _ => ⟨fun i hi => absurd hi (by omega), fun a _ => rfl, fun _ => by simp, fun _ => by simp⟩
  | j + 1, hj => by
    have ih := chain_fold hl ha j (by omega)
    rw [List.range_succ, List.foldl_append]
    simp only [List.foldl_cons, List.foldl_nil]
    generalize (List.range j).foldl (fun u i => initSlot r i u) s = u at ih
    have hn := ring_lt hl r
    have hrel : (releaseSlot r j u).params = u.params ∧ (∀ a, swByte (releaseSlot r j u) a = swByte u a) ∧ (∀ i k, (releaseSlot r j u).descWord r i k = u.descWord r i k) ∧ (∀ i k, (releaseSlot r j u).descAddr r i k = u.descAddr r i k) := by
      cases r
      · rw [releaseSlot_tx]; exact ⟨rfl, fun _ => rfl, fun _ _ => rfl, fun _ _ => rfl⟩
      · rw [releaseSlot_rx]; exact ⟨rfl, fun _ => rfl, fun _ _ => rfl, fun _ _ => rfl⟩
    have hring : (u.ring r).n = (s.ring r).n ∧ (u.ring r).base = (s.ring r).base := by
      cases r
      · rw [ih.tx rfl]; exact ⟨rfl, rfl⟩
      · rw [ih.rx rfl]; exact ⟨rfl, rfl⟩
    have hd : ∀ i k, u.descAddr r i k = s.descAddr r i k := fun i k => by simp only [State.descAddr, hring.2]
    rw [initSlot_eq]
    refine ⟨fun i hi k hk => ?_, fun a ha' => ?_, fun hr => ?_, fun hr => ?_⟩
    · by_cases hij : i = j
      · subst hij
        rw [wipeAll_word _ _ (by omega) hk, hring.1]
        by_cases hlast : i = (s.ring r).n - 1
        · have hd1 : decide (i + 1 = (s.ring r).n) = true := by simp; omega
          by_cases h1 : k = 1
          · rw [if_pos h1, if_pos ⟨h1, hlast⟩, hd1]; rfl
          · simp only [h1, false_and, if_false]
        · have hd1 : decide (i + 1 = (s.ring r).n) = false := by simp; omega
          simp only [hd1, hlast, and_false, if_false]
          split <;> rfl
      · rw [wipeAll_other _ _ (by omega) (by omega) hk hij, hrel.2.2.1]
        exact ih.words i (by omega) k hk
    · have h1 := wipeAll_bytes r j (bitIf (j + 1 = (u.ring r).n) 27) (releaseSlot r j u) a (by
        rw [hrel.2.2.2, hd]
        cases hh : inSpan (s.descAddr r j 0) 16 a with
        | false => rfl
        | true => rw [holds_desc ha (by omega : j < (s.ring r).n) hn (by exact hh)] at ha'; exact absurd ha' (by decide))
      rw [h1, hrel.2.1]
      exact ih.bytes a ha'
    · subst hr
      have hlen : j < s.txSlots.length := by rw [hl.tx.slots ha]; exact hj
      have e := ih.tx rfl
      have eslot : u.txSlot j = s.txSlots[j] := by
        rw [e]; exact append_drop_getD _ _ _ (by simp) hlen _
      have et : s.txSlots.take (j+1) = s.txSlots.take j ++ [s.txSlots[j]] := by simp
      rw [wipeAll_wbuf, releaseSlot_tx, eslot]
      generalize (wipeAll RingSel.tx j _ _).wbuf = wb
      have e1 : u.txSlots = List.replicate j TxSlot.empty ++ s.txSlots.drop j := by rw [e]
      have e2 : u.marks = (s.txSlots.take j).foldl (fun m x => withoutBuffer m x.addr x.len) s.marks := by rw [e]
      have e3 : u.outputs = s.outputs ++ ((s.txSlots.take j).filterMap (·.pkt)).map .release := by rw [e]
      have f1 : u.txSlots.set j TxSlot.empty = List.replicate (j+1) TxSlot.empty ++ s.txSlots.drop (j+1) := by rw [e1, replicate_set_drop _ _ hlen]
      have f2 : withoutBuffer u.marks s.txSlots[j].addr s.txSlots[j].len = (s.txSlots.take (j+1)).foldl (fun m x => withoutBuffer m x.addr x.len) s.marks := by
        rw [et, List.foldl_append, e2]; rfl
      have f3 : u.outputs ++ (s.txSlots[j].pkt.toList).map .release = s.outputs ++ ((s.txSlots.take (j+1)).filterMap (·.pkt)).map .release := by
        rw [et, e3, List.filterMap_append, List.map_append, List.append_assoc]
        cases hpk : s.txSlots[j].pkt <;> simp [hpk]
      rw [f1, f2, f3]
      generalize List.replicate (j+1) TxSlot.empty ++ _ = A
      generalize List.foldl _ _ (List.take (j+1) _) = B
      generalize s.outputs ++ _ = C
      rw [e]
    · subst hr
      have hlen : j < s.rxSlots.length := by rw [hl.rx.slots ha]; exact hj
      have e := ih.rx rfl
      have eslot : u.rxSlot j = s.rxSlots[j] := by
        rw [e]; exact append_drop_getD _ _ _ (by simp) hlen _
      have ee : u.eff = s.eff := by rw [e]
      have et : s.rxSlots.take (j+1) = s.rxSlots.take j ++ [s.rxSlots[j]] := by simp
      rw [wipeAll_wbuf, releaseSlot_rx, eslot]
      generalize (wipeAll RingSel.rx j _ _).wbuf = wb
      have e1 : u.rxSlots = List.replicate j RxSlot.empty ++ s.rxSlots.drop j := by rw [e]
      have e2 : u.marks = (s.rxSlots.take j).foldl (fun m x => if x.buf.isSome then withoutBuffer m x.addr s.eff.bufSz else m) s.marks := by rw [e]
      have e3 : u.regions = (s.rxSlots.take j).foldl (fun g x => withoutRegion g x.buf) s.regions := by rw [e]
      have f1 : u.rxSlots.set j RxSlot.empty = List.replicate (j+1) RxSlot.empty ++ s.rxSlots.drop (j+1) := by rw [e1, replicate_set_drop _ _ hlen]
      have f2 : (if s.rxSlots[j].buf.isSome then withoutBuffer u.marks s.rxSlots[j].addr u.eff.bufSz else u.marks) = (s.rxSlots.take (j+1)).foldl (fun m x => if x.buf.isSome then withoutBuffer m x.addr s.eff.bufSz else m) s.marks := by
        rw [et, List.foldl_append, ee, e2]; rfl
      have f3 : withoutRegion u.regions s.rxSlots[j].buf = (s.rxSlots.take (j+1)).foldl (fun g x => withoutRegion g x.buf) s.regions := by
        rw [et, List.foldl_append, e3]; rfl
      rw [f1, f2, f3]
      generalize List.replicate (j+1) RxSlot.empty ++ _ = A
      generalize List.foldl _ _ (List.take (j+1) _) = B
      generalize List.foldl _ _ (List.take (j+1) _) = C
      rw [e]

theorem wrBase_tx {s : State} (h : s.dma.ts = .stopped) {b : Word} (hb : b.toNat % 16 = 0) : wrBase .tx b s =
    { descFence s with tx := { s.tx with base := b }, dma := { s.dma with txIdx := 0 } } := by
  simp only [wrBase, storeTxBase, descFence_dma, h, if_true, base_mask hb]; rfl

theorem wrBase_rx {s : State} (h : s.dma.rs = .stopped) {b : Word} (hb : b.toNat % 16 = 0) : wrBase .rx b s =
    { descFence s with rx := { s.rx with base := b }, dma := { s.dma with rxIdx := 0 } } := by
  simp only [wrBase, storeRxBase, descFence_dma, h, if_true, base_mask hb]; rfl

theorem fenced_bytes {s : State} (h : s.memLegal) (a : Word) : swByte (descFence s) a = swByte s a :=
  swByte_descFence h a

/-- INIT_DESC_CHAIN of an allocated ring whose process is stopped (R170). -/
theorem initChain_spec {s : State} {r : RingSel} (hm : s.memLegal) (hl : s.ringsLegal) (ha : (s.ring r).allocated =
    true) (hp : s.proc r = .stopped) :
    ∃ t, initChain r s = done t ∧ chainEmptied s t r := by
  have hc := chain_fold hl ha (s.ring r).n le_rfl
  have hk : ((List.range (s.ring r).n).foldl (fun u i => initSlot r i u) s).memLegal := by
    cases r
    · rw [hc.tx rfl]; exact hm
    · rw [hc.rx rfl]; exact hm
  have hcond : (!(s.ring r).allocated || decide (s.proc r ≠ .stopped)) = false := by simp [ha, hp]
  have e : initChain r s = done (wrBase r (s.ring r).base ((descFence ((List.range (s.ring r).n).foldl (fun u i => initSlot r i u) s)).setRing r { (descFence ((List.range (s.ring r).n).foldl (fun u i => initSlot r i u) s)).ring r with sub := 0, comp := 0, coalCnt := 0 })) := by
    simp only [initChain, hcond]; rfl
  generalize (List.range (s.ring r).n).foldl (fun u i => initSlot r i u) s = u at *
  refine ⟨_, e, ?_⟩
  cases r
  · have hu := hc.tx rfl
    have hn : s.tx.n = s.txSlots.length := (hl.tx.slots ha).symm
    rw [show (s.ring .tx).n = s.txSlots.length from hn] at hu
    simp only [List.drop_length, List.take_length, List.append_nil] at hu
    have hts : (State.setRing (descFence u) .tx { (descFence u).ring .tx with sub := 0, comp := 0, coalCnt := 0 }).dma.ts = .stopped := by
      rw [hu]; exact hp
    have hb : (s.ring .tx).base = (descFence u).tx.base := by rw [hu]; rfl
    have w := wrBase_tx hts (hl.tx.aligned ha)
    rw [show wrBase .tx (s.ring .tx).base _ = _ from w, show s.tx.base = (descFence u).tx.base from hb]
    have hd := swByte_descFence hk
    have hmem2 : Memory.wf (descFence u).mem = true := descFence_wf hk
    refine ⟨fun a h => ?_, fun i hi k hk' => ?_, ?_⟩
    · exact (show _ = swByte (descFence u) a from rfl).trans ((hd a).trans (hc.bytes a h))
    · exact (show _ = (descFence u).descWord .tx i k from rfl).trans ((descWord_fence hk .tx i k).trans (hc.words i hi k hk'))
    · rw [← hn] at hu
      clear e w hd hmem2 hts hc hk hb
      generalize u.wbuf = W at hu
      subst hu
      rfl
  · have hu := hc.rx rfl
    have hn : s.rx.n = s.rxSlots.length := (hl.rx.slots ha).symm
    rw [show (s.ring .rx).n = s.rxSlots.length from hn] at hu
    simp only [List.drop_length, List.take_length, List.append_nil] at hu
    have hts : (State.setRing (descFence u) .rx { (descFence u).ring .rx with sub := 0, comp := 0, coalCnt := 0 }).dma.rs = .stopped := by
      rw [hu]; exact hp
    have hb : (s.ring .rx).base = (descFence u).rx.base := by rw [hu]; rfl
    have w := wrBase_rx hts (hl.rx.aligned ha)
    rw [show wrBase .rx (s.ring .rx).base _ = _ from w, show s.rx.base = (descFence u).rx.base from hb]
    have hd := swByte_descFence hk
    have hmem2 : Memory.wf (descFence u).mem = true := descFence_wf hk
    refine ⟨fun a h => ?_, fun i hi k hk' => ?_, ?_⟩
    · exact (show _ = swByte (descFence u) a from rfl).trans ((hd a).trans (hc.bytes a h))
    · exact (show _ = (descFence u).descWord .rx i k from rfl).trans ((descWord_fence hk .rx i k).trans (hc.words i hi k hk'))
    · rw [← hn] at hu
      clear e w hd hmem2 hts hc hk hb
      generalize u.wbuf = W at hu
      subst hu
      rfl

end Sys2Proof.Machine
end

