-- ==== Sys2Proof/Laws/DescWords.lean ====
section
/-! SUPPORT. The bits of the descriptor words (R122 to R128). -/

namespace Sys2Proof.Machine

open Sys2Proof

theorem bit_natWord {n k j : Nat} (hk : k ≤ 32) (hn : n < 2 ^ k) (hj : k ≤ j) : bit (natWord n) j = false := by
  simp only [bit, natWord, BitVec.getLsbD_ofNat]
  rw [Nat.testBit_lt_two_pow (lt_of_lt_of_le hn (Nat.pow_le_pow_right (by decide) hj))]; simp

theorem bitsAt_zero {d : Word} {a n : Nat} (h : ∀ k < n, bit d (a + k) = false) : bitsAt d a n = 0 := by
  have := bitsAt_eq_of (v := d) (w := 0) (a := a) (b := a) (n := n) (fun k hk => by rw [h k hk]; simp [bit])
  rw [this]; simp [bitsAt]

/-- A field that holds a number reads as the number. -/
theorem bitsAt_natWord {d : Word} {a n m : Nat} (hn : n < 2 ^ m) (hm : m ≤ 32) (h : ∀ k < m, bit d (a + k) =
    bit (natWord n) k) : bitsAt d a m = n := by
  have := bitsAt_eq_of (v := d) (w := natWord n) (a := a) (b := 0) (n := m) (fun k hk => by rw [h k hk, Nat.zero_add])
  rw [this]
  simp only [bitsAt, BitVec.ushiftRight_zero]
  rw [natWord_toNat (lt_of_lt_of_le hn (Nat.pow_le_pow_right (by decide) hm)), Nat.mod_eq_of_lt hn]

theorem bit_shl16 {n j : Nat} (hj : j < 32) : bit (natWord n <<< 16) j =
    (decide (16 ≤ j) && bit (natWord n) (j - 16)) := by
  simp only [bit, BitVec.getLsbD_shiftLeft]
  by_cases h : j < 16
  · have : ¬ 16 ≤ j := by omega
    simp [h, this]
  · have : 16 ≤ j := by omega
    simp [h, this, hj]

/-- A TX des1 the block writes has one buffer, of the length given modulo its 13 bits (R123). -/
theorem txDes1_sizes (ic ls fs csum er : Bool) (len : Nat) :
    bs1Of (txDes1 ic ls fs csum er len) = len % 2 ^ 13 ∧ bs2Of (txDes1 ic ls fs csum er len) = 0 := by
  have hl : len % 2 ^ 13 < 2 ^ 13 := Nat.mod_lt _ (by decide)
  constructor
  · refine bitsAt_natWord hl (by decide) fun k hk => ?_
    simp only [txDes1, bit_or, bit_bitIf _ (show 31 < 32 by decide), bit_bitIf _ (show 30 < 32 by decide),
      bit_bitIf _ (show 29 < 32 by decide), bit_bitIf _ (show 28 < 32 by decide), bit_bitIf _ (show 27 < 32 by decide),
      Nat.zero_add]
    interval_cases k <;> simp
  · refine bitsAt_zero fun k hk => ?_
    simp only [txDes1, bit_or, bit_bitIf _ (show 31 < 32 by decide), bit_bitIf _ (show 30 < 32 by decide),
      bit_bitIf _ (show 29 < 32 by decide), bit_bitIf _ (show 28 < 32 by decide), bit_bitIf _ (show 27 < 32 by decide),
      bit_natWord (k := 13) (by decide) hl (show 13 ≤ 13 + k by omega)]
    interval_cases k <;> simp

/-- An RX des1 the block writes has one buffer, of the size given modulo its 13 bits (R128). -/
theorem rxDes1_sizes (er dic : Bool) (size : Nat) :
    bs1Of (rxDes1 er dic size) = size % 2 ^ 13 ∧ bs2Of (rxDes1 er dic size) = 0 := by
  have hl : size % 2 ^ 13 < 2 ^ 13 := Nat.mod_lt _ (by decide)
  constructor
  · refine bitsAt_natWord hl (by decide) fun k hk => ?_
    simp only [rxDes1, bit_or, bit_bitIf _ (show 27 < 32 by decide), bit_bitIf _ (show 26 < 32 by decide), Nat.zero_add]
    interval_cases k <;> simp
  · refine bitsAt_zero fun k hk => ?_
    simp only [rxDes1, bit_or, bit_bitIf _ (show 27 < 32 by decide), bit_bitIf _ (show 26 < 32 by decide), bit_natWord (k := 13) (by decide) hl (show 13 ≤ 13 + k by omega)]
    interval_cases k <;> simp

/-- A descriptor with one buffer, of at most `len` bytes from `d`, addresses no byte outside those (R91, R95). -/
theorem not_addressed {s : State} {r : RingSel} {i len : Nat} {a d : Word} (h1 : bs1Of (s.descWord r i 1) ≤ len)
    (h2 : bs2Of (s.descWord r i 1) = 0) (hd : s.descWord r i 2 = d) (h : inSpan d len a = false) :
    s.descAddresses r i a = false := by
  simp only [inSpan, decide_eq_false_iff_not] at h
  simp only [State.descAddresses, h2, hd, inSpan, ne_eq, not_true_eq_false, decide_false, Bool.false_and, Bool.or_false,
    decide_eq_false_iff_not]
  omega

end Sys2Proof.Machine
end

