-- ==== Sys2Proof/Laws/HostAccess.lean ====
section
/-! SUPPORT. Where a host access falls (20_memory.md R81, R85, R95): in a word of a descriptor, or apart from every descriptor. -/

namespace Sys2Proof.Machine

open Sys2Proof

/-- A word that touches no descriptor has no byte in one. -/
theorem descAt_none {s : State} {a : Word} (ht : touchesDesc s a = false) : ∀ k < 4, s.descAt (a + natWord k) = none := by
  intro k hk
  simp only [touchesDesc, List.any_eq_false, List.mem_range] at ht
  simpa using ht k hk

/-- A byte in no descriptor lies in no array. -/
theorem holds_of_descAt_none {s : State} {a : Word} (h : s.descAt a = none) (r) : (s.ring r).holds a = false := by
  simp only [State.descAt] at h
  split at h
  · cases h
  · split at h
    · cases h
    · cases r <;> simp_all [State.ring]

/-- Byte `b` of word `k` of descriptor `i` is found as such. -/
theorem descAt_desc {s : State} (hl : s.ringsLegal) {r : RingSel} {i k b : Nat} (hi : i < (s.ring r).n) (hk : k < 4)
    (hb : b < 4) :
    s.descAt (s.descAddr r i k + natWord b) = some (r, i, 4 * k + b) := by
  have hL := hl.arrays
  have hh := hL.holds hi (inSpan_descByte s r i hk hb)
  have hn := hL.bound r
  have e : s.descAddr r i k + natWord b - (s.ring r).base = natWord (16 * i + 4 * k + b) := by
    simp only [State.descAddr, natWord_add, BitVec.add_assoc]
    rw [BitVec.add_comm, BitVec.add_sub_cancel]
  have en : (s.descAddr r i k + natWord b - (s.ring r).base).toNat = 16 * i + 4 * k + b := by
    rw [e, natWord_toNat (by omega)]
  have d : (16 * i + 4 * k + b) / 16 = i := by omega
  have m : (16 * i + 4 * k + b) % 16 = 4 * k + b := by omega
  cases r
  · simp only [State.descAt]
    rw [if_pos (show s.tx.holds _ = true from hh)]
    rw [show s.tx.base = (s.ring .tx).base from rfl, en, d, m]
  · simp only [State.descAt]
    have h1 : s.tx.holds (s.descAddr .rx i k + natWord b) = false := by
      by_contra hc
      have := hl.apart _ (by simpa using hc)
      rw [show s.rx.holds _ = true from hh] at this; cases this
    rw [h1, show s.rx.holds (s.descAddr .rx i k + natWord b) = true from hh]
    rw [show s.rx.base = (s.ring .rx).base from rfl, en, d, m]; rfl

/-- A descriptor word lies in an allocated region (R81). -/
theorem outside_desc {s : State} (hl : s.ringsLegal) {r : RingSel} {i k : Nat} (hi : i < (s.ring r).n) (hk : k < 4) :
    s.outside (s.descAddr r i k) 4 = none := by
  rw [State.outside]
  refine find_none fun j hj => ?_
  have hh := hl.arrays.holds hi (inSpan_descByte s r i hk hj)
  cases r
  · simp [State.inRegion, show s.tx.holds _ = true from hh]
  · simp [State.inRegion, show s.rx.holds _ = true from hh]

/-- A byte that is not the hardware's passes the check of R84, R95 and R493. -/
theorem deviceByte_false {s : State} {a : Word} (h : ¬ s.hardwareOwns a) : s.deviceByte a = false := by
  rw [← deviceByte_iff] at h
  simpa using h

end Sys2Proof.Machine
end

