-- ==== Sys2Proof/Laws/RingOps.lean ====
section
/-! SUPPORT. ALLOCATE, SUBMIT, RECLAIM and REFILL (R220 to R223): what each can do, said once. -/

namespace Sys2Proof.Machine

open Sys2Proof

theorem drawFresh_none {al len : Nat} {s : State} (h : (drawAnswer s).1 = none ∨ (∃ m, (drawAnswer s).1 = some m ∧
    s.fresh al m len = false)) : drawFresh al len s = (none, (drawAnswer s).2) := by
  have hf := drawAnswer_fresh s al
  unfold drawFresh
  rcases h with h | ⟨m, h, h'⟩
  · simp only [h]
  · simp only [h, hf, h']; simp

theorem drawFresh_of {al len : Nat} {s : State} {m : Word} (h : (drawAnswer s).1 = some m) (h' : s.fresh al m len =
    true) : drawFresh al len s = (some m, (drawAnswer s).2) := by
  have hf := drawAnswer_fresh s al
  unfold drawFresh
  simp only [h, hf, h']; simp

theorem drawAnswer_eq (s : State) : (drawAnswer s).2 =
    { s with allocAnswers := (drawAnswer s).2.allocAnswers, draws := (drawAnswer s).2.draws } := by
  unfold drawAnswer; split <;> rfl

/-- ALLOCATE with a fresh answer of the oracle (R220). -/
theorem allocate_spec {s : State} {r : RingSel} {n : Nat} (hm : s.memLegal) (h1 : (s.ring r).allocated = false)
    (h2 : s.proc r = .stopped)
    (h3 : n ∈ [4, 8, 16, 32, 64, 128, 256, 512, 1024]) {m : Word} (h4 : (drawAnswer s).1 = some m)
      (h5 : s.fresh 16 m (16 * n) = true) :
    ∃ t, allocate r n s = { st := t, res := codeOk, res1 := some m } ∧
      (∀ a : Word, memRead t.mem a.toNat = if inSpan m (16 * n) a then 0 else swByte s a) ∧
          t = { s with
            dma := { s.dma with
              txIdx := if r = .tx then 0 else s.dma.txIdx
              rxIdx := if r = .rx then 0 else s.dma.rxIdx }
            tx := if r = .tx then { s.tx with allocated := true, n := n, base := m, sub := 0, comp := 0 } else s.tx
            rx := if r = .rx then { s.rx with allocated := true, n := n, base := m, sub := 0, comp := 0 } else s.rx
            txSlots := if r = .tx then List.replicate n TxSlot.empty else s.txSlots
            rxSlots := if r = .rx then List.replicate n RxSlot.empty else s.rxSlots
            allocAnswers := (drawAnswer s).2.allocAnswers
            draws := (drawAnswer s).2.draws
            mem := t.mem
            wbuf := [] } := by
  have hc : ((s.ring r).allocated || decide (s.proc r ≠ .stopped) || !ringSizeLegal n) = false := by
    have : ringSizeLegal n = true := by simpa [ringSizeLegal] using h3
    simp [h1, h2, this]
  have hal := (fresh_iff.1 h5).aligned
  have hms := drawAnswer_eq s
  have e : allocate r n s = { st := wrBase r m (emptySlots r n ((pushWrite m (List.replicate (16 * n) 0) (drawAnswer s).2).setRing r { (pushWrite m (List.replicate (16 * n) 0) (drawAnswer s).2).ring r with allocated := true, n := n, sub := 0, comp := 0 })), res := codeOk, res1 := some m } := by
    simp only [allocate, hc, drawFresh_of h4 h5]; rfl
  refine ⟨_, e, ?_, ?_⟩
  · intro a
    have hwf : (pushWrite m (List.replicate (16 * n) 0) (drawAnswer s).2).memLegal := by rw [hms]; exact hm
    have h0 : swByte (pushWrite m (List.replicate (16 * n) 0) (drawAnswer s).2) a = if inSpan m (16 * n) a then 0 else swByte s a := by
      rw [swByte_pushWrite, List.length_replicate]
      split
      · rename_i h
        simp only [inSpan, decide_eq_true_eq] at h
        rw [List.getD_eq_getElem?_getD, List.getElem?_replicate, if_pos h]; rfl
      · rw [hms]; rfl
    rw [← h0, ← descFence_memRead hwf a]
    cases r
    · rw [wrBase_tx (by rw [hms]; exact h2) hal]; rfl
    · rw [wrBase_rx (by rw [hms]; exact h2) hal]; rfl
  · cases r
    · rw [wrBase_tx (by rw [hms]; exact h2) hal, hms]; rfl
    · rw [wrBase_rx (by rw [hms]; exact h2) hal, hms]; rfl

/-- The state after a segment is mapped, bound and described, unpublished (R221). -/
structure StagedAt (s u : State) (i : Nat) (cpu : Word) (len : Nat) (pkt : Option Word) (d1 : Word) : Prop where
  bytes : sameBytesButDesc s u .tx i
  word0 : u.descWord .tx i 0 = s.descWord .tx i 0
  word1 : u.descWord .tx i 1 = d1
  word2 : u.descWord .tx i 2 = dmaMapOf s.params cpu
  word3 : u.descWord .tx i 3 = 0
  memory : ∀ a, memRead u.mem a.toNat = swByte s a
  rest : u = { s with
        tx := { s.tx with sub := s.tx.sub + 1 }
        txSlots := s.txSlots.set i { addr := some (dmaMapOf s.params cpu), len := len, pkt := pkt, pub := false }
        marks := s.marks ++ [{ dma := dmaMapOf s.params cpu, cpu := cpu, len := len }]
        regions := (mapBuf cpu len s).regions
        mem := u.mem
        wbuf := u.wbuf }

theorem mapBuf_eq (cpu : Word) (len : Nat) (s : State) : mapBuf cpu len s = { descFence s with
    regions := (mapBuf cpu len s).regions
    marks := s.marks ++ [{ dma := dmaMapOf s.params cpu, cpu := cpu, len := len }] } := by
  simp only [mapBuf, addRegion]; split <;> rfl

theorem descWord_congr {s t : State} {r : RingSel} {i k : Nat} (hb : ∀ a, swByte t a = swByte s a) (hp : t.params =
    s.params) (hr : (t.ring r).base = (s.ring r).base) : t.descWord r i k = s.descWord r i k := by
  have : t.descAddr r i k = s.descAddr r i k := by simp only [State.descAddr, hr]
  simp only [State.descWord, this]
  simp only [swWord, hb, hp]

/-- One software write of a descriptor word, with OWN not set. -/
theorem writeDesc_words {s : State} {r : RingSel} {i k : Nat} (v : Word) (hL : s.arraysLegal) (hi : i < (s.ring r).n)
    (hk : k < 4) (hu : s.descClear r i) (ho : s.ownSeen r i = false) (hv : k ≠ 0 ∨ ownOf v = false) :
    let u := writeDesc r i k v s
    sameBytesButDesc s u r i ∧ (∀ l < 4, u.descWord r i l = if l = k then v else s.descWord r i l) ∧ u = { s with wbuf := u.wbuf } ∧ u.descClear r i ∧ u.ownSeen r i = false ∧ u.descAddr r i 0 = s.descAddr r i 0 ∧ u.arraysLegal ∧ SameArrays s u := by
  have e1 : writeDesc r i k v s = pushWrite (s.descAddr r i k) (splitWord s.params.endian v) s := writeDesc_eq v hu hk ho hv
  have w1 := fun l (hl : l < 4) => descWord_push (s := s) (r := r) (i := i) (k := k) (l := l) v
    (Nat.lt_of_lt_of_le hi (hL.bound r)) hk hl
  have b1 := pushWrite_sameBytesButDesc s r (i := i) (k := k) v hk
  rw [← e1] at w1 b1
  have u1 : writeDesc r i k v s = { s with wbuf := (writeDesc r i k v s).wbuf } := by rw [e1]; rfl
  simp only
  generalize writeDesc r i k v s = s1 at *
  have hs : SameArrays s s1 := .of_eq (by rw [u1]) (by rw [u1])
  have ho1 : s1.ownSeen r i = false := by
    rw [State.ownSeen, w1 0 (by decide)]
    split
    · rename_i h; subst h
      rcases hv with hv | hv
      · exact absurd rfl hv
      · exact hv
    · exact ho
  refine ⟨b1, w1, u1, hu.write hL hi hs (fun a _ h => by rw [u1]; exact h) b1 (by rw [u1]) ho1, ho1, ?_,
    hL.of_same hs, hs⟩
  rw [u1]; cases r <;> rfl

/-- Writing des2, des3 and des1 of a software-owned descriptor. -/
theorem writeDesc_fields {s : State} {r : RingSel} {i : Nat} (a d1 : Word) (hL : s.arraysLegal) (hi : i < (s.ring r).n)
    (hu : s.descClear r i) (ho : s.ownSeen r i = false) :
    let u := writeDesc r i 1 d1 (writeDesc r i 3 0 (writeDesc r i 2 a s))
    sameBytesButDesc s u r i ∧ u.descWord r i 0 = s.descWord r i 0 ∧ u.descWord r i 1 = d1 ∧ u.descWord r i 2 = a ∧ u.descWord r i 3 = 0 ∧ u = { s with wbuf := u.wbuf } := by
  obtain ⟨b1, w1, u1, hu1, ho1, a1, l1, s1'⟩ := writeDesc_words (k := 2) a hL hi (by decide) hu ho (.inl (by decide))
  generalize writeDesc r i 2 a s = s1 at *
  have hi1 : i < (s1.ring r).n := by rw [(s1' r).2.1]; exact hi
  obtain ⟨b2, w2, u2, hu2, ho2, a2, l2, s2'⟩ := writeDesc_words (k := 3) 0 l1 hi1 (by decide) hu1 ho1 (.inl (by decide))
  generalize writeDesc r i 3 0 s1 = s2 at *
  have hi2 : i < (s2.ring r).n := by rw [(s2' r).2.1]; exact hi1
  obtain ⟨b3, w3, u3, -, -, -, -, -⟩ := writeDesc_words (k := 1) d1 l2 hi2 (by decide) hu2 ho2 (.inl (by decide))
  generalize writeDesc r i 1 d1 s2 = s3 at *
  refine ⟨(b1.trans b2 a1).trans b3 (a2.trans a1), ?_, ?_, ?_, ?_, ?_⟩
  · rw [w3 0 (by decide), if_neg (by decide), w2 0 (by decide), if_neg (by decide), w1 0 (by decide), if_neg (by decide)]
  · rw [w3 1 (by decide), if_pos rfl]
  · rw [w3 2 (by decide), if_neg (by decide), w2 2 (by decide), if_neg (by decide), w1 2 (by decide), if_pos rfl]
  · rw [w3 3 (by decide), if_neg (by decide), w2 3 (by decide), if_pos rfl]
  · rw [u3, u2, u1]

/-- Staging one segment (R221, R260). -/
theorem stageTx_spec {s : State} {i : Nat} {cpu : Word} {len : Nat} (pkt : Option Word) (ic ls fs csum : Bool)
    (hm : s.memLegal) (hL : s.arraysLegal) (hd : s.softDesc .tx i) (ha : ∀ x, inSpan (s.descAddr .tx i 0) 16 x = true → inSpan cpu len x = false) :
    StagedAt s (stageTx i cpu len pkt ic ls fs csum s) i cpu len pkt (txDes1 ic ls fs csum (erOf (s.descWord .tx i 1)) len) := by
  let v := (mapBuf cpu len s).setTxSlot i { addr := some (dmaMapOf s.params cpu), len := len, pkt := pkt, pub := false }
  have hv : v = { descFence s with
      txSlots := s.txSlots.set i { addr := some (dmaMapOf s.params cpu), len := len, pkt := pkt, pub := false }
      regions := (mapBuf cpu len s).regions
      marks := s.marks ++ [{ dma := dmaMapOf s.params cpu, cpu := cpu, len := len }] } := by
    simp only [v, State.setTxSlot]; rw [mapBuf_eq]; rfl
  have hb : ∀ a, swByte v a = swByte s a := fun a => by rw [hv]; exact swByte_descFence hm a
  have hw : ∀ k, v.descWord .tx i k = s.descWord .tx i k := fun k => descWord_congr hb (by rw [hv]; rfl) (by rw [hv]; rfl)
  have hs : SameArrays s v := .of_eq (by rw [hv]; rfl) (by rw [hv]; rfl)
  have hu : v.descClear .tx i := hd.clear.same hL hd.slot hs (fun x hx h1 => by
    rw [hv]
    have h2 := ha x hx
    simp only [State.marked, List.any_append, List.any_cons, List.any_nil, Bool.or_false] at *
    rw [h1, h2]; rfl) hb (by rw [hv]; rfl)
  have ho : v.ownSeen .tx i = false := by rw [State.ownSeen, hw]; exact hd.own
  have hst : stageTx i cpu len pkt ic ls fs csum s = (let u := writeDesc .tx i 1 (txDes1 ic ls fs csum (erOf (s.descWord .tx i 1)) len) (writeDesc .tx i 3 0 (writeDesc .tx i 2 (dmaMapOf s.params cpu) v)); { u with tx := { u.tx with sub := u.tx.sub + 1 } }) := by
    show (let u := writeTxFields i (dmaMapOf s.params cpu) ic ls fs csum len v; ({ u with tx := { u.tx with sub := u.tx.sub + 1 } } : State)) = _
    simp only [writeTxFields]
    rw [readDesc_eq hu (by decide) (.inr ho), hw]
  obtain ⟨h1, h2, h3, h4, h5, h6⟩ := writeDesc_fields (dmaMapOf s.params cpu) (txDes1 ic ls fs csum (erOf (s.descWord .tx i 1)) len) (hL.of_same hs)
    (by rw [(hs .tx).2.1]; exact hd.slot) hu ho
  rw [hst]
  simp only at h1 h2 h3 h4 h5 h6 ⊢
  generalize writeDesc .tx i 1 (txDes1 ic ls fs csum (erOf (s.descWord .tx i 1)) len) (writeDesc .tx i 3 0 (writeDesc .tx i 2 (dmaMapOf s.params cpu) v)) = u at *
  have hva : v.descAddr .tx i 0 = s.descAddr .tx i 0 := by rw [hv]; rfl
  refine ⟨fun a haa => ?_, h2.trans (hw 0), h3, h4, h5, fun a => ?_, ?_⟩
  · exact (h1 a (by rw [hva]; exact haa)).trans (hb a)
  · show memRead u.mem a.toNat = _
    rw [h6, hv]; exact descFence_memRead hm a
  · revert h6
    clear h1 h2 h3 h4 h5 hst hva hw hb hu ho hs
    generalize u.wbuf = W
    intro h6
    subst h6
    rw [hv]; rfl

/-- The state after a slot is published (R91). -/
structure PublishedAt (s t : State) (r : RingSel) (i : Nat) : Prop where
  bytes : sameBytesButDesc s t r i
  words : ∀ k < 4, t.descWord r i k = if k = 0 then ownWord else s.descWord r i k
  memory : ∀ a, memRead t.mem a.toNat = swByte s a
  apart : ∀ a, inSpan (s.descAddr r i 0) 4 a = false → swByte t a = swByte s a
  rest : t = { s.setPub r i true with mem := t.mem, wbuf := t.wbuf }

/-- Publishing a software-owned descriptor (R91, R172). -/
theorem publish_spec {s : State} {r : RingSel} {i : Nat} (hm : s.memLegal) (hL : s.arraysLegal) (hi : i < (s.ring r).n)
    (hu : s.descClear r i) (ho : s.ownSeen r i = false) : PublishedAt s (publish r i s) r i := by
  rw [publish_eq hm hu hL hi ho]
  have hb : ∀ a, swByte ((pushWrite (s.descAddr r i 0) (splitWord s.params.endian ownWord) (descFence s)).setPub r i true) a = swByte (pushWrite (s.descAddr r i 0) (splitWord s.params.endian ownWord) (descFence s)) a := fun a => by cases r <;> rfl
  refine ⟨fun a haa => ?_, fun k hk => ?_, fun a => ?_, fun a haa => ?_, ?_⟩
  · rw [hb]; exact (pushWrite_sameBytesButDesc (descFence s) r (i := i) (k := 0) ownWord (by decide) a haa).trans (swByte_descFence hm a)
  · refine Eq.trans (b := (pushWrite (s.descAddr r i 0) (splitWord s.params.endian ownWord) (descFence s)).descWord r i k) (by cases r <;> rfl) ?_
    refine (descWord_push (s := descFence s) ownWord (Nat.lt_of_lt_of_le hi (hL.bound r)) (by decide) hk).trans ?_
    rw [descWord_fence hm]
  · refine Eq.trans (b := memRead (descFence s).mem a.toNat) (by cases r <;> rfl) ?_
    exact descFence_memRead hm a
  · rw [hb, swByte_pushWrite, splitWord_length, haa]
    exact swByte_descFence hm a
  · cases r <;> rfl

theorem idx_lt {c : Word} {n : Nat} (h : 0 < n) : idx c n < n := Nat.mod_lt _ h

theorem tx_n_pos {s : State} (hl : s.ringsLegal) (ha : s.tx.allocated = true) : 0 < s.tx.n := by
  have := (ringSizeLegal_bounds (hl.tx.size ha)).1; omega

theorem rx_n_pos {s : State} (hl : s.ringsLegal) (ha : s.rx.allocated = true) : 0 < s.rx.n := by
  have := (ringSizeLegal_bounds (hl.rx.size ha)).1; omega

theorem apart_desc {s : State} {r : RingSel} {a : Word} {len i : Nat} (hl : s.ringsLegal)
    (ha : (s.ring r).allocated = true) (h : s.arrayApart r a len) (hi : i < (s.ring r).n) :
    ∀ x, inSpan (s.descAddr r i 0) 16 x = true → inSpan a len x =
      false := fun x hx => h x (holds_desc ha hi (ring_lt hl r) hx)

theorem submitAllowed_iff {s : State} {i : Nat} {len flags : Word} : submitAllowed i len flags s = true ↔
    (s.tx.allocated = true ∧ i = idx s.tx.sub s.tx.n ∧ 1 ≤ len.toNat ∧ len.toNat ≤ 8191 ∧ flags >>> 5 = 0) := by
  simp [submitAllowed, and_assoc]

theorem unmapIf_eq (a : Option Word) (len : Nat) (s : State) : unmapIf a len s =
    { s with marks := withoutBuffer s.marks a len } := by
  cases a <;> rfl

theorem releasePkt_eq (p : Option Word) (s : State) : releasePkt p s =
    { s with outputs := s.outputs ++ (match p with | some p => [.release p] | none => []) } := by
  cases p
  · simp [releasePkt]
  · rfl

theorem withoutBuffer_marked {ms : List Mark} {a : Option Word} {len : Nat} {c : Word}
    (h : (ms.any fun m => inSpan m.cpu m.len c) = false) :
    ((withoutBuffer ms a len).any fun m => inSpan m.cpu m.len c) = false := by
  cases a with
  | none => exact h
  | some a =>
    cases h' : ((withoutBuffer ms (some a) len).any fun m => inSpan m.cpu m.len c) with
    | false => rfl
    | true => rw [unmap_marked h'] at h; exact absurd h (by decide)

/-- The state after the body of RECLAIM (R222). -/
structure ReclaimedAt (s t : State) (i : Nat) : Prop where
  bytes : sameBytesButDesc s t .tx i
  words : ∀ k < 4, t.descWord .tx i k =
    if k = 1 then s.descWord .tx i 1 &&& 0x0800_0000 else if k = 3 then s.descWord .tx i 3 else 0
  rest : t = { s with
    tx := { s.tx with comp := s.tx.comp + 1 }
    txSlots := s.txSlots.set i TxSlot.empty
    stats := reclaimStats (s.descWord .tx i 0) (s.descWord .tx i 1) (sizesOf (s.descWord .tx i 1)) s.stats
    marks := withoutBuffer s.marks (s.txSlot i).addr (s.txSlot i).len
    outputs := s.outputs ++ (match (s.txSlot i).pkt with | some p => [.release p] | none => [])
    wbuf := t.wbuf }

theorem ReclaimedAt.arrays {s t : State} {i : Nat} (h : ReclaimedAt s t i) : SameArrays s t := fun r => by
  rw [h.rest]; cases r <;> exact ⟨rfl, rfl, rfl⟩

/-- A byte of an array that is free of the hardware's stays so. -/
theorem ReclaimedAt.clear {s t : State} {i : Nat} (h : ReclaimedAt s t i) (hL : s.arraysLegal) (hi : i < s.tx.n)
    {q : RingSel} {a : Word} (ha : (s.ring q).holds a = true) (hc : s.deviceByte a = false) : t.deviceByte a = false :=
  deviceByte_write (r := .tx) hL hi h.arrays ha (fun hm => by rw [h.rest]; exact withoutBuffer_marked hm) h.bytes
    (by rw [h.rest]) (.inl (by rw [State.ownSeen, h.words 0 (by decide), if_neg (by decide), if_neg (by decide)]; rfl)) hc

/-- The body of RECLAIM (R222). -/
theorem reclaimBody_spec {s : State} {i : Nat} (hL : s.arraysLegal) (hi : i < s.tx.n) (hu : s.descClear .tx i)
    (ho : s.ownSeen .tx i = false) :
    ∃ t, reclaimBody i s = { st := t, res := s.descWord .tx i 0, res1 := some (natWord (sizesOf (s.descWord .tx i 1))) } ∧ ReclaimedAt s t i := by
  let w : State := { s with
    stats := reclaimStats (s.descWord .tx i 0) (s.descWord .tx i 1) (sizesOf (s.descWord .tx i 1)) s.stats
    marks := withoutBuffer s.marks (s.txSlot i).addr (s.txSlot i).len
    outputs := s.outputs ++ (match (s.txSlot i).pkt with | some p => [.release p] | none => [])
    txSlots := s.txSlots.set i TxSlot.empty }
  have hw : (releasePkt (s.txSlot i).pkt (unmapIf (s.txSlot i).addr (s.txSlot i).len { s with stats := reclaimStats (s.descWord .tx i 0) (s.descWord .tx i 1) (sizesOf (s.descWord .tx i 1)) s.stats })).setTxSlot i TxSlot.empty = w := by
    rw [unmapIf_eq, releasePkt_eq]; rfl
  have e : reclaimBody i s = (let y := writeDesc .tx i 0 0 (writeDesc .tx i 2 0 (writeDesc .tx i 1 (s.descWord .tx i 1 &&& oneBit 27) w)); { st := { y with tx := { y.tx with comp := y.tx.comp + 1 } }, res := s.descWord .tx i 0, res1 := some (natWord (sizesOf (s.descWord .tx i 1))) }) := by
    simp only [reclaimBody]
    rw [readDesc_eq hu (by decide) (.inl rfl), readDesc_eq hu (by decide) (.inr ho), hw]
  have hwu : w.descClear .tx i :=
    hu.same hL hi (.of_eq rfl rfl) (fun x _ h => withoutBuffer_marked h) (fun _ => rfl) rfl
  have hwo : w.ownSeen .tx i = false := ho
  have hwL : w.arraysLegal := hL.of_same (.of_eq rfl rfl)
  obtain ⟨b1, d1, r1, u1, o1, a1, l1, s1⟩ := writeDesc_words (k := 1) (s.descWord .tx i 1 &&& oneBit 27) hwL hi (by decide) hwu hwo (.inl (by decide))
  simp only at b1 d1 r1 u1 o1 a1 l1 s1 e
  generalize writeDesc .tx i 1 (s.descWord .tx i 1 &&& oneBit 27) w = x1 at *
  have hi1 : i < (x1.ring .tx).n := by rw [(s1 .tx).2.1]; exact hi
  obtain ⟨b2, d2, r2, u2, o2, a2, l2, s2⟩ := writeDesc_words (k := 2) 0 l1 hi1 (by decide) u1 o1 (.inl (by decide))
  generalize writeDesc .tx i 2 0 x1 = x2 at *
  have hi2 : i < (x2.ring .tx).n := by rw [(s2 .tx).2.1]; exact hi1
  obtain ⟨b3, d3, r3, u3, o3, a3, -, -⟩ := writeDesc_words (k := 0) 0 l2 hi2 (by decide) u2 o2 (.inr (by decide))
  generalize writeDesc .tx i 0 0 x2 = x3 at *
  have hwd : ∀ k, w.descWord .tx i k = s.descWord .tx i k := fun k => rfl
  refine ⟨_, e, ?_, ?_, ?_⟩
  · exact (b1.trans b2 a1).trans b3 (a2.trans a1)
  · intro k hk
    refine (show _ = x3.descWord .tx i k from rfl).trans ?_
    rw [d3 k hk, d2 k hk, d1 k hk, hwd]
    interval_cases k <;> simp [oneBit]
  · rw [r2, r1] at r3
    clear e b1 d1 r1 u1 o1 a1 b2 d2 r2 u2 o2 a2 b3 d3 u3 o3 a3 l1 s1 l2 s2 hi1 hi2
    generalize x3.wbuf = W at *
    subst r3
    rfl

theorem reclaimStats_aux (es ls : Bool) (m : Counter) (c : Stats) :
    (if es then (if ls then { c with txErrors := c.txErrors + 1 } else c)
  else
    let b := { c with txBytes := c.txBytes + m }
    if ls then { b with txPackets := b.txPackets + 1 } else b) = { c with
            txBytes := if es then c.txBytes else c.txBytes + m
            txPackets := if es = false ∧ ls = true then c.txPackets + 1 else c.txPackets
            txErrors := if es = true ∧ ls = true then c.txErrors + 1 else c.txErrors } := by
  dsimp only
  generalize c.txErrors + 1 = x
  generalize c.txBytes + m = y
  generalize c.txPackets + 1 = z
  cases es <;> cases ls <;> rfl

theorem reclaimStats_eq (d0 d1 : Word) (n : Nat) (c : Stats) : reclaimStats d0 d1 n c = { c with
            txBytes := if bit d0 15 then c.txBytes else c.txBytes + BitVec.ofNat 64 n
            txPackets := if bit d0 15 = false ∧ bit d1 30 = true then c.txPackets + 1 else c.txPackets
            txErrors := if bit d0 15 = true ∧ bit d1 30 = true then c.txErrors + 1 else c.txErrors } :=
  reclaimStats_aux (bit d0 15) (bit d1 30) (BitVec.ofNat 64 n) c

/-- The state after an RX slot is armed (R223). -/
structure ArmedAt (s t : State) (i : Nat) : Prop where
  bytes : sameBytesButDesc s t .rx i
  words : ∀ k < 4, t.descWord .rx i k =
          if k = 0 then 0x8000_0000
          else if k = 1 then rxDes1 (erOf (s.descWord .rx i 1))
            (decide ((s.rx.coalCnt + 1).toNat < s.eff.rxCoal)) s.eff.bufSz
          else if k = 2 then (s.rxSlot i).addr.getD 0 else 0
  memory : ∀ x, inSpan (s.descAddr .rx i 0) 4 x = false → memRead t.mem x.toNat = swByte t x
  rest : t = { s.setPub .rx i true with
          rx := { s.rx with
            sub := s.rx.sub + 1
            coalCnt := if (s.rx.coalCnt + 1).toNat < s.eff.rxCoal then s.rx.coalCnt + 1 else 0 }
          mem := t.mem
          wbuf := t.wbuf }

/-- Arming an RX slot that holds its buffer (R223). -/
theorem armRx_spec {s : State} {i : Nat} (hm : s.memLegal) (hL : s.arraysLegal) (hi : i < s.rx.n) (hu : s.descClear .rx i)
    (ho : s.ownSeen .rx i = false) :
    ArmedAt s (armRx i s) i := by
  let dic : Bool := decide ((s.rx.coalCnt + 1).toNat < s.eff.rxCoal)
  let t : State := { s with rx := { s.rx with coalCnt := if dic then s.rx.coalCnt + 1 else 0 } }
  have hts : SameArrays s t := fun r => by cases r <;> exact ⟨rfl, rfl, rfl⟩
  have htL : t.arraysLegal := hL.of_same hts
  have htu : t.descClear .rx i := hu.same hL hi hts (fun _ _ => id) (fun _ => rfl) rfl
  have hto : t.ownSeen .rx i = false := ho
  have e : armRx i s = (let w := publish .rx i (writeDesc .rx i 1 (rxDes1 (erOf (t.descWord .rx i 1)) dic t.eff.bufSz) (writeDesc .rx i 3 0 (writeDesc .rx i 2 (((t.rxSlot i).addr).getD 0) t))); { w with rx := { w.rx with sub := w.rx.sub + 1 } }) := by
    show (let u := readDesc .rx i 1 t; let w := publish .rx i (writeDesc .rx i 1 (rxDes1 (erOf (t.descWord .rx i 1)) dic t.eff.bufSz) (writeDesc .rx i 3 0 (writeDesc .rx i 2 (((t.rxSlot i).addr).getD 0) u))); ({ w with rx := { w.rx with sub := w.rx.sub + 1 } } : State)) = _
    rw [readDesc_eq htu (by decide) (.inr hto)]
  obtain ⟨h1, h2, h3, h4, h5, h6⟩ := writeDesc_fields (((t.rxSlot i).addr).getD 0) (rxDes1 (erOf (t.descWord .rx i 1)) dic t.eff.bufSz) htL hi htu hto
  rw [e]
  simp only at h1 h2 h3 h4 h5 h6 ⊢
  generalize writeDesc .rx i 1 (rxDes1 (erOf (t.descWord .rx i 1)) dic t.eff.bufSz) (writeDesc .rx i 3 0 (writeDesc .rx i 2 (((t.rxSlot i).addr).getD 0) t)) = v at *
  have hvm : v.memLegal := by rw [h6]; exact hm
  have hvs : SameArrays t v := .of_eq (by rw [h6]) (by rw [h6])
  have hvo : v.ownSeen .rx i = false := by rw [State.ownSeen, h2]; exact ho
  have hvu : v.descClear .rx i := htu.write htL hi hvs (fun a _ h => by rw [h6]; exact h) h1 (by rw [h6]) hvo
  have hp := publish_spec hvm (htL.of_same hvs) (by rw [(hvs .rx).2.1]; exact hi) hvu hvo
  generalize publish .rx i v = w at hp
  have hva : v.descAddr .rx i 0 = s.descAddr .rx i 0 := by rw [h6]; rfl
  have hwd : ∀ k, State.descWord { w with rx := { w.rx with sub := w.rx.sub + 1 } } .rx i k = w.descWord .rx i k := fun k => rfl
  refine ⟨fun a ha => ?_, fun k hk => ?_, fun x hx => ?_, ?_⟩
  · exact (hp.bytes a (by rw [hva]; exact ha)).trans (h1 a ha)
  · rw [hwd, hp.words k hk]
    interval_cases k
    · rfl
    · exact h3
    · exact h4
    · exact h5
  · show memRead w.mem x.toNat = swByte w x
    rw [hp.memory x, hp.apart x (by rw [hva]; exact hx)]
  · have h7 := hp.rest
    rw [h7, h6]
    clear h7 h6 hp hvm hvu hvo hva hwd hts htL htu hvs h1 h2 h3 h4 h5
    have : (if dic = true then s.rx.coalCnt + 1 else 0) = (if (s.rx.coalCnt + 1).toNat < s.eff.rxCoal then s.rx.coalCnt + 1 else 0) := by
      simp only [dic, decide_eq_true_eq]
    simp only [t, this]
    rfl

theorem refillAllowed_iff {s : State} {i : Nat} : refillAllowed i s = true ↔ s.rx.allocated = true ∧ i =
    idx s.rx.sub s.rx.n := by
  simp [refillAllowed]

theorem allocBuf_eq (len : Nat) (s : State) : (allocBuf len s).2 = { s with
    allocAnswers := (drawAnswer s).2.allocAnswers, draws := (drawAnswer s).2.draws,
      regions := (allocBuf len s).2.regions } := by
  unfold allocBuf
  have h : (drawFresh 4 len s).2 = (drawAnswer s).2 := by unfold drawFresh; simp only; split <;> rfl
  have := drawAnswer_eq s
  cases hd : (drawFresh 4 len s).1 with
  | none => simp only [hd, h]; rw [this]
  | some a => simp only [hd, h]; rw [this]

/-- A buffer the oracle gives is fresh (R11, R83, D33). -/
theorem allocBuf_fresh {len : Nat} {s : State} {b : Word} (h : (allocBuf len s).1 = some b) : FreshAt s 4 b len := by
  unfold allocBuf at h
  cases hd : (drawFresh 4 len s).1 with
  | none => simp only [hd] at h; cases h
  | some a =>
    simp only [hd] at h
    cases h
    exact fresh_iff.1 (drawAnswer_fresh s 4 _ len ▸ drawFresh_some hd)

theorem bound_desc {s : State} {i : Nat} {b : Word} {len : Nat} (hm : s.memLegal) (hL : s.arraysLegal) (hd : s.softDesc .rx i)
    (hap : ∀ x, inSpan (s.descAddr .rx i 0) 16 x = true → inSpan b len x = false) (y : RxSlot) :
    let u := (mapBuf b len s).setRxSlot i y
    u.memLegal ∧ u.descClear .rx i ∧ u.ownSeen .rx i = false ∧ (∀ k, u.descWord .rx i k = s.descWord .rx i k) ∧ (∀ a, swByte u a = swByte s a) ∧ u.descAddr .rx i 0 = s.descAddr .rx i 0 ∧ SameArrays s u := by
  have hk := ((mapBuf_keeps b len s).trans (setRxSlot_keeps i y _)).mem hm
  have hu : ((mapBuf b len s).setRxSlot i y) = { descFence s with
      rxSlots := s.rxSlots.set i y
      regions := (mapBuf b len s).regions
      marks := s.marks ++ [{ dma := dmaMapOf s.params b, cpu := b, len := len }] } := by
    simp only [State.setRxSlot]; rw [mapBuf_eq]; rfl
  have hb : ∀ a, swByte ((mapBuf b len s).setRxSlot i y) a = swByte s a := fun a => by rw [hu]; exact swByte_descFence hm a
  have hw : ∀ k, ((mapBuf b len s).setRxSlot i y).descWord .rx i k = s.descWord .rx i k := fun k => descWord_congr hb (by rw [hu]; rfl) (by rw [hu]; rfl)
  have hs : SameArrays s ((mapBuf b len s).setRxSlot i y) := .of_eq (by rw [hu]; rfl) (by rw [hu]; rfl)
  refine ⟨hk, hd.clear.same hL hd.slot hs (fun x hx h1 => ?_) hb (by rw [hu]; rfl), ?_, hw, hb, by rw [hu]; rfl, hs⟩
  · rw [hu]
    have h2 := hap x hx
    simp only [State.marked, List.any_append, List.any_cons, List.any_nil, Bool.or_false] at *
    rw [h1, h2]; rfl
  · rw [State.ownSeen, hw]; exact hd.own

end Sys2Proof.Machine
end

