-- ==== Sys2Proof/Laws/Transmit.lean ====
section
/-! SUPPORT. Segmentation, the software checksum and the staging of a packet (R260 to R266). -/

namespace Sys2Proof.Machine

open Sys2Proof

theorem transmit_ok {s : State} (hat : s.dev.attached = true) (h1 : s.dev.ifup = true) (h2 : s.dev.suspended =
    false) (h3 : s.csr.arg0.toNat % 4 = 0) :
    (!s.dev.attached || !s.operational || decide (s.csr.arg0.toNat % 4 ≠ 0)) = false := by
  simp [hat, State.operational, h1, h2, h3]

theorem raiseIf_none_of {f : Option Fault} {s : State} (h : (raiseIf f s).fault = none) : raiseIf f s = s ∧ f = none
    := by
  cases f with
  | none => exact ⟨rfl, rfl⟩
  | some g => simp only [raiseIf, raise] at h; split at h <;> simp_all

theorem raiseIf_fault_some {f : Option Fault} {s : State} (h : s.fault ≠ none) : (raiseIf f s).fault ≠ none := by
  cases f with
  | none => exact h
  | some g => simp only [raiseIf, raise]; split <;> simp_all

/-! ### A software write of a run of bytes (R90, R91, R95, R169) -/

theorem raiseIf_eq (f : Option Fault) (s : State) : raiseIf f s = { s with fault := (raiseIf f s).fault } := by
  cases f with
  | none => rfl
  | some g => simp only [raiseIf, raise]; split <;> rfl

/-- `c` is `s` after software writes of runs of bytes: the write buffer grows, a slot whose descriptor's OWN bit they set is
published, a fault may be raised, and nothing else changes (R90, R169). -/
structure RunsWritten (s c : State) : Prop where
  rest : c = { s with fault := c.fault, wbuf := c.wbuf, txSlots := c.txSlots, rxSlots := c.rxSlots }
  txLen : c.txSlots.length = s.txSlots.length
  rxLen : c.rxSlots.length = s.rxSlots.length
  tx : ∀ i < s.tx.n, c.txSlot i = { s.txSlot i with pub := (s.txSlot i).pub || published s c .tx i }
  rx : ∀ i < s.rx.n, c.rxSlot i = { s.rxSlot i with pub := (s.rxSlot i).pub || published s c .rx i }

theorem State.ringsLegal.slots {s : State} (h : s.ringsLegal) : s.tx.n ≤ s.txSlots.length ∧ s.rx.n ≤ s.rxSlots.length := by
  constructor
  · cases ha : s.tx.allocated with
    | true => exact (h.tx.slots ha).ge
    | false => rw [h.tx.unused ha]; exact Nat.zero_le _
  · cases ha : s.rx.allocated with
    | true => exact (h.rx.slots ha).ge
    | false => rw [h.rx.unused ha]; exact Nat.zero_le _

/-- What software sees of the bytes does not depend on the slots, nor on a fault. -/
theorem writeRun_swByte (a : Word) (bs : List Byte) (s : State) (x : Word) :
    swByte (writeRun a bs s) x = if inSpan a bs.length x then bs.getD (x - a).toNat 0 else swByte s x := by
  simp only [writeRun]
  rw [raiseIf_eq, raiseIf_eq (s.writeFault a bs.length)]
  exact swByte_pushWrite a bs s x

theorem published_refl (s : State) (r : RingSel) (i : Nat) : published s s r i = false := by
  cases h : s.ownSeen r i <;> simp [published, h]

theorem RunsWritten.refl (s : State) : RunsWritten s s :=
  ⟨rfl, rfl, rfl, fun i _ => by simp [published_refl], fun i _ => by simp [published_refl]⟩

theorem writeRun_own (a : Word) (bs : List Byte) (s : State) (r : RingSel) (i : Nat) :
    (writeRun a bs s).ownSeen r i = (pushWrite a bs s).ownSeen r i := by
  simp only [writeRun]
  rw [raiseIf_eq, raiseIf_eq (s.writeFault a bs.length)]
  cases r <;> rfl

theorem writeRun_runs {s : State} (hl : s.tx.n ≤ s.txSlots.length ∧ s.rx.n ≤ s.rxSlots.length) (a : Word) (bs : List Byte) :
    RunsWritten s (writeRun a bs s) := by
  have hp : ∀ r i, published s (writeRun a bs s) r i = published s (pushWrite a bs s) r i := fun r i => by
    simp only [published, writeRun_own]
  refine ⟨?_, ?_, ?_, fun i hi => ?_, fun i hi => ?_⟩
  · simp only [writeRun]
    rw [raiseIf_eq, raiseIf_eq (s.writeFault a bs.length)]; rfl
  · exact (writeRun_rings a bs s).txLen
  · exact (writeRun_rings a bs s).rxLen
  · rw [hp]
    simp only [writeRun]
    rw [raiseIf_eq, raiseIf_eq (s.writeFault a bs.length)]
    simp [State.txSlot, publishSlots, pushWrite, List.getD_eq_getElem?_getD, List.getElem?_mapIdx,
      List.getElem?_eq_getElem (show i < s.txSlots.length by omega)]
  · rw [hp]
    simp only [writeRun]
    rw [raiseIf_eq, raiseIf_eq (s.writeFault a bs.length)]
    simp [State.rxSlot, publishSlots, pushWrite, List.getD_eq_getElem?_getD, List.getElem?_mapIdx,
      List.getElem?_eq_getElem (show i < s.rxSlots.length by omega)]

/-- Where no OWN bit goes from 1 to 0, a bit set in either of two writes is a bit set by both. -/
theorem published_trans {s t c : State} {r : RingSel} {i : Nat} (h : s.ownSeen r i = true → t.ownSeen r i = true)
    (k : t.ownSeen r i = true → c.ownSeen r i = true) : (published s t r i || published t c r i) = published s c r i := by
  simp only [published]
  cases h1 : s.ownSeen r i <;> cases h2 : t.ownSeen r i <;> cases h3 : c.ownSeen r i <;> simp_all

theorem RunsWritten.trans {s t c : State} (h : RunsWritten s t) (k : RunsWritten t c)
    (ho : ∀ r i, i < (s.ring r).n → s.ownSeen r i = true → t.ownSeen r i = true)
    (ko : ∀ r i, i < (s.ring r).n → t.ownSeen r i = true → c.ownSeen r i = true) : RunsWritten s c := by
  have ht : t.tx = s.tx ∧ t.rx = s.rx := by rw [h.rest]; exact ⟨rfl, rfl⟩
  refine ⟨?_, k.txLen.trans h.txLen, k.rxLen.trans h.rxLen, fun i hi => ?_, fun i hi => ?_⟩
  · have e := k.rest
    rw [h.rest] at e
    exact e
  · rw [k.tx i (by rw [ht.1]; exact hi), h.tx i hi, ← published_trans (ho .tx i hi) (ko .tx i hi), Bool.or_assoc]
  · rw [k.rx i (by rw [ht.2]; exact hi), h.rx i hi, ← published_trans (ho .rx i hi) (ko .rx i hi), Bool.or_assoc]

/-- A checked run touches no hardware-owned descriptor (R95). -/
theorem writeRun_ownKept {s : State} {a : Word} {bs : List Byte} (hl : s.ringsLegal) (hf : s.writeFault a bs.length = none)
    {r : RingSel} {i : Nat} (hi : i < (s.ring r).n) (ho : s.ownSeen r i = true) : (writeRun a bs s).ownSeen r i = true := by
  rw [writeRun_own, ← ho, State.ownSeen, State.ownSeen]
  have key : ∀ b < 4, swByte (pushWrite a bs s) (s.descAddr r i 0 + natWord b) = swByte s (s.descAddr r i 0 + natWord b) := by
    intro b hb
    rw [swByte_pushWrite]
    split
    · rename_i hx
      generalize hxe : s.descAddr r i 0 + natWord b = x at hx
      simp only [State.writeFault, Option.map_eq_none_iff, List.find?_eq_none] at hf
      have := hf x (List.mem_map.2 ⟨(x - a).toNat, List.mem_range.2 (by simpa [inSpan] using hx), by
        rw [natWord, BitVec.ofNat_toNat, BitVec.setWidth_eq, BitVec.add_comm, BitVec.sub_add_cancel]⟩)
      have hd := descAt_desc hl hi (show 0 < 4 by decide) hb
      rw [hxe] at hd
      simp [State.writeForbidden, hd, ho] at this
    · rfl
  have b0 := key 0 (by decide)
  rw [show s.descAddr r i 0 + natWord 0 = s.descAddr r i 0 from BitVec.add_zero _] at b0
  have e : (pushWrite a bs s).descAddr r i 0 = s.descAddr r i 0 := by cases r <;> rfl
  simp only [State.descWord, e, swWord]
  rw [b0, show swByte (pushWrite a bs s) (s.descAddr r i 0 + 1) = _ from key 1 (by decide),
    show swByte (pushWrite a bs s) (s.descAddr r i 0 + 2) = _ from key 2 (by decide),
    show swByte (pushWrite a bs s) (s.descAddr r i 0 + 3) = _ from key 3 (by decide)]
  rfl

/-- A check of R91 finds a descriptor that is published too early, or none. -/
theorem ownFault_none {s t : State} : ownFault s t = none ↔
    ∀ r i, i < (s.ring r).n → published s t r i = true → t.pendingFor s.wbuf r i = false := by
  simp only [ownFault, List.findSome?_eq_none_iff, Option.map_eq_none_iff, List.find?_eq_none, List.mem_range, Bool.and_eq_true,
    not_and, Bool.not_eq_true]
  exact ⟨fun h r i hi hp => h r (by cases r <;> simp) i hi hp, fun h r _ i hi hp => h r i hi hp⟩

theorem ownFault_some {s t : State} {f : Fault} (h : ownFault s t = some f) : ∃ r i, i < (s.ring r).n ∧
    published s t r i = true ∧ t.pendingFor s.wbuf r i = true ∧ f = .missingFence (s.descAddr r i 0) := by
  simp only [ownFault] at h
  obtain ⟨r, -, h⟩ := List.exists_of_findSome?_eq_some h
  simp only [Option.map_eq_some_iff] at h
  obtain ⟨i, hi, rfl⟩ := h
  have h1 := List.mem_of_find?_eq_some hi
  have h2 := List.find?_some hi
  simp only [Bool.and_eq_true] at h2
  exact ⟨r, i, List.mem_range.1 h1, h2.1, h2.2, rfl⟩

/-! ### Writing a packet's bytes in place (R263) -/

theorem writeRun_fault_some {a : Word} {bs : List Byte} {s : State} (h : s.fault ≠ none) : (writeRun a bs s).fault ≠ none :=
  raiseIf_fault_some (raiseIf_fault_some (s := publishSlots s (pushWrite a bs s)) h)

theorem writePacket_fault (new : List Byte) (segs : List Segment) (s : State) (h : (writePacket new segs s).fault =
    none) : s.fault = none := by
  induction segs generalizing new s with
  | nil => exact h
  | cons g rest ih =>
    have := ih _ _ h
    by_contra hc
    exact writeRun_fault_some hc this

/-- What one segment's run raises nothing for. -/
theorem writeRun_checked {a : Word} {bs : List Byte} {s : State} (h : (writeRun a bs s).fault = none) :
    s.writeFault a bs.length = none ∧ ownFault s (pushWrite a bs s) = none := by
  obtain ⟨e1, h1⟩ := raiseIf_none_of (f := ownFault s (pushWrite a bs s)) h
  rw [writeRun, e1] at h
  exact ⟨(raiseIf_none_of h).2, h1⟩

theorem writePacket_other (new : List Byte) (segs : List Segment) (s : State) (x : Word)
    (hx : ∀ g ∈ segs, inSpan g.1 g.2 x = false) : swByte (writePacket new segs s) x = swByte s x := by
  induction segs generalizing new s with
  | nil => rfl
  | cons g rest ih =>
    refine (ih _ _ fun g hg => hx g (List.mem_cons_of_mem _ hg)).trans ?_
    rw [writeRun_swByte]
    have := hx g (List.mem_cons_self ..)
    simp [this]

theorem writePacket_frame (new : List Byte) (segs : List Segment) (s : State) :
    let c := writePacket new segs s
    c = { s with fault := c.fault, wbuf := c.wbuf, txSlots := c.txSlots, rxSlots := c.rxSlots } := by
  induction segs generalizing new s with
  | nil => rfl
  | cons g rest ih =>
    have e := ih (new.drop g.2) (writeRun g.1 ((List.range g.2).map fun k => new.getD k (swByte s (g.1 + natWord k))) s)
    dsimp only at e ⊢
    refine e.trans ?_
    simp only [writePacket]
    generalize writePacket _ _ _ = c
    simp only [writeRun]
    rw [raiseIf_eq, raiseIf_eq (s.writeFault _ _)]; rfl

/-- Writing changed packet bytes in place, where no fault is raised (R263, R169). -/
theorem writePacket_runs (new : List Byte) (segs : List Segment) (s : State) (hl : s.ringsLegal)
    (h : (writePacket new segs s).fault = none) : RunsWritten s (writePacket new segs s) ∧
      ∀ r i, i < (s.ring r).n → s.ownSeen r i = true → (writePacket new segs s).ownSeen r i = true := by
  induction segs generalizing new s with
  | nil => exact ⟨.refl s, fun _ _ _ h => h⟩
  | cons g rest ih =>
    obtain ⟨a, len⟩ := g
    let bs := (List.range len).map fun k => new.getD k (swByte s (a + natWord k))
    have e : writePacket new ((a, len) :: rest) s = writePacket (new.drop len) rest (writeRun a bs s) := rfl
    rw [e] at h ⊢
    have kr := writeRun_rings a bs s
    have hf := writeRun_checked (writePacket_fault _ _ _ h)
    have ho := fun r i hi => writeRun_ownKept (r := r) (i := i) hl hf.1 hi
    obtain ⟨k, ko⟩ := ih _ (writeRun a bs s) (kr.kept.legal hl) h
    have hn : ∀ r, ((writeRun a bs s).ring r).n = (s.ring r).n := fun r => by
      cases r
      · simp only [State.ring, kr.tx]
      · simp only [State.ring, kr.rx]
    have ko' := fun r i (hi : i < (s.ring r).n) => ko r i (by rw [hn]; exact hi)
    exact ⟨(writeRun_runs hl.slots a bs).trans k ho ko', fun r i hi h => ko' r i hi (ho r i hi h)⟩

/-- The bytes a packet is given in place (R263). -/
theorem writePacket_bytes (segs : List Segment) : ∀ (new : List Byte) (s : State),
    (∀ g ∈ segs, g.2 ≤ 8191) → segs.Pairwise (fun x y => spansMeet x.1 x.2 y.1 y.2 = false) →
    ∀ j (h : j < segs.length), ∀ b < segs[j].2,
      swByte (writePacket new segs s) (segs[j].1 + natWord b) =
        new.getD (((segs.take j).map (·.2)).sum + b) (swByte s (segs[j].1 + natWord b)) := by
  induction segs with
  | nil => intro new s _ _ j h; exact absurd h (by simp)
  | cons g rest ih =>
    intro new s hw hp j hj b hb
    obtain ⟨a, len⟩ := g
    let bs := (List.range len).map fun k => new.getD k (swByte s (a + natWord k))
    have hl := hw (a, len) (List.mem_cons_self ..)
    have hb' : bs.length = len := by simp [bs]
    have e : writePacket new ((a, len) :: rest) s = writePacket (new.drop len) rest (writeRun a bs s) := rfl
    rw [List.pairwise_cons] at hp
    rw [e]
    cases j with
    | succ j =>
      have hj' : j < rest.length := by simpa using hj
      simp only [List.getElem_cons_succ, List.take_succ_cons, List.map_cons, List.sum_cons] at hb ⊢
      rw [ih _ _ (fun g hg => hw g (List.mem_cons_of_mem _ hg)) hp.2 j hj' b hb]
      have hx : inSpan a len (rest[j].1 + natWord b) = false :=
        apart_of_spansMeet (hp.1 rest[j] (List.getElem_mem hj')) (inSpan_offset hb (by
          have := hw _ (List.mem_cons_of_mem _ (List.getElem_mem hj')); omega))
      rw [writeRun_swByte]
      simp only [hb', hx, Bool.false_eq_true, if_false]
      rw [List.getD_eq_getElem?_getD, List.getElem?_drop, List.getD_eq_getElem?_getD, Nat.add_assoc]
    | zero =>
      simp only [List.getElem_cons_zero, List.take_zero, List.map_nil, List.sum_nil, Nat.zero_add] at hb ⊢
      have hin : inSpan a len (a + natWord b) = true := inSpan_offset hb (by omega)
      rw [writePacket_other _ _ _ _ fun g hg => apart_of_spansMeet (by rw [spansMeet_comm]; exact hp.1 g hg) hin,
        writeRun_swByte]
      have h4 : (a + natWord b - a).toNat = b := by rw [add_sub_self_left, natWord_toNat (by omega)]
      simp only [hb', hin, if_true, h4]
      simp [bs, List.getD_eq_getElem?_getD, List.getElem?_map, List.getElem?_range hb]

/-- What one checked run raises: nothing, or the fault of a descriptor published too early (R91). -/
theorem writeRun_fault {a : Word} {bs : List Byte} {s : State} (hs : s.fault = none) (hf : s.writeFault a bs.length = none) :
    (writeRun a bs s).fault = ownFault s (pushWrite a bs s) := by
  simp only [writeRun, hf, raiseIf]
  cases ownFault s (pushWrite a bs s) with
  | none => exact hs
  | some f => simp only [raise_fault]; rw [show (publishSlots s (pushWrite a bs s)).fault = none from hs]; rfl

/-- A write apart from the descriptor arrays leaves every descriptor word. -/
theorem writeRun_descWord {s : State} {a : Word} {bs : List Byte} (hL : s.arraysLegal) (h : ∀ r, s.arrayApart r a bs.length)
    (r : RingSel) (i k : Nat) (hi : i < (s.ring r).n) (hk : k < 4) : (writeRun a bs s).descWord r i k = s.descWord r i k :=
  descWord_same (.of_eq (writeRun_rings a bs s).tx (writeRun_rings a bs s).rx)
    (by rw [(writeRun_keeps a bs s).params]) hk fun x hx => by rw [writeRun_swByte, h r x (hL.holds hi hx)]; rfl

/-- A software write that leaves the descriptor words leaves which bytes software may write. -/
theorem writeForbidden_kept {s t : State} (hr : t.tx = s.tx ∧ t.rx = s.rx) (hm : t.marks = s.marks) (hp : t.params = s.params)
    (hw : ∀ r i k, i < (s.ring r).n → k < 4 → t.descWord r i k = s.descWord r i k) (x : Word) :
    t.writeForbidden x = s.writeForbidden x := by
  have hr' : ∀ r, t.ring r = s.ring r := fun r => by cases r <;> simp [State.ring, hr]
  have hd : t.deviceByte x = s.deviceByte x := by
    rw [Bool.eq_iff_iff, deviceByte_iff, deviceByte_iff]
    have hi : t.dmaImage x = s.dmaImage x := by simp only [State.dmaImage, hr, hm, hp]
    have hk : t.marked x = s.marked x := by simp only [State.marked, hm]
    simp only [State.hardwareOwns, State.inBufferOf, State.ownSeen, hi, hk, hr']
    refine or_congr_right (exists_congr fun r => exists_congr fun i => and_congr_right fun _ => and_congr_right fun h2 => ?_)
    rw [hw r i 0 h2 (by decide), hw r i 1 h2 (by decide), hw r i 2 h2 (by decide), hw r i 3 h2 (by decide)]
  have ha : t.descAt x = s.descAt x := by simp only [State.descAt, hr]
  simp only [State.writeForbidden, hd, ha]
  cases h : s.descAt x with
  | none => rfl
  | some p =>
    obtain ⟨r, i, off⟩ := p
    have hi : i < (s.ring r).n := by
      simp only [State.descAt] at h
      split at h
      · rename_i hh
        simp only [Option.some.injEq, Prod.mk.injEq] at h
        obtain ⟨rfl, rfl, -⟩ := h
        simp only [Ring.holds, Bool.and_eq_true, inSpan, decide_eq_true_eq] at hh
        simp only [State.ring]; omega
      · split at h
        · rename_i hh
          simp only [Option.some.injEq, Prod.mk.injEq] at h
          obtain ⟨rfl, rfl, -⟩ := h
          simp only [Ring.holds, Bool.and_eq_true, inSpan, decide_eq_true_eq] at hh
          simp only [State.ring]; omega
        · cases h
    simp only [State.ownSeen, hw r i 0 hi (by decide)]

/-- A packet apart from the descriptor arrays, of bytes software may write, raises no fault (R84, R91, R95). -/
theorem writePacket_apart (segs : List Segment) : ∀ (new : List Byte) (s : State), s.fault = none → s.ringsLegal →
    (∀ g ∈ segs, s.writeFault g.1 g.2 = none) → (∀ g ∈ segs, ∀ r, s.arrayApart r g.1 g.2) →
    (writePacket new segs s).fault = none := by
  induction segs with
  | nil => intro new s hs _ _ _; exact hs
  | cons g rest ih =>
    intro new s hs hl hw ha
    obtain ⟨a, len⟩ := g
    let bs := (List.range len).map fun k => new.getD k (swByte s (a + natWord k))
    have hb : bs.length = len := by simp [bs]
    have hf : s.writeFault a bs.length = none := by rw [hb]; exact hw (a, len) (List.mem_cons_self ..)
    have hA : ∀ r, s.arrayApart r a bs.length := by rw [hb]; exact ha (a, len) (List.mem_cons_self ..)
    have kr := writeRun_rings a bs s
    have hd := fun r i k hi hk => writeRun_descWord hl.arrays hA r i k hi hk
    have h0 : ownFault s (pushWrite a bs s) = none := ownFault_none.2 fun r i hi hp => by
      rw [published, ← writeRun_own, State.ownSeen, State.ownSeen, hd r i 0 hi (by decide)] at hp
      simp at hp
    refine ih (new.drop len) (writeRun a bs s) (by rw [writeRun_fault hs hf, h0]) (kr.kept.legal hl) (fun g hg => ?_)
      fun g hg r => ?_
    · have hm : (writeRun a bs s).marks = s.marks := by rw [(writeRun_runs hl.slots a bs).rest]
      have k := writeForbidden_kept ⟨kr.tx, kr.rx⟩ hm (writeRun_keeps a bs s).params hd
      have := hw g (List.mem_cons_of_mem _ hg)
      simp only [State.writeFault, Option.map_eq_none_iff, List.find?_eq_none] at this ⊢
      intro x hx; rw [k]; exact this x hx
    · have := ha g (List.mem_cons_of_mem _ hg) r
      exact fun x hx => this x (by rw [← (SameArrays.of_eq kr.tx kr.rx).holds r x]; exact hx)

/-- The software checksum touches only the packet, and publishes the descriptors whose OWN bit it sets (R263, R169). -/
theorem softwareCsum_spec {k : Packet} {segs : List Segment} {s : State} (hl : s.ringsLegal)
    (h : (softwareCsum k segs s).fault = none) :
    RunsWritten s (softwareCsum k segs s) ∧
    (k.csumReq = false ∨ csumInHardware s k = true → softwareCsum k segs s = s) ∧
    ∀ x, (∀ g ∈ segs, inSpan g.1 g.2 x = false) → swByte (softwareCsum k segs s) x = swByte s x := by
  unfold softwareCsum at *
  split at h
  · rename_i hc
    rw [if_pos hc]
    have hr := (raiseIf_none_of (writePacket_fault _ _ _ h)).1
    rw [hr] at h ⊢
    refine ⟨(writePacket_runs _ _ _ hl h).1, fun hh => ?_, fun x hx => writePacket_other _ _ _ x hx⟩
    simp only [Bool.and_eq_true, Bool.not_eq_true'] at hc
    rcases hh with hh | hh
    · rw [hc.1] at hh; exact absurd hh (by decide)
    · rw [hc.2] at hh; exact absurd hh (by decide)
  · rename_i hc
    rw [if_neg hc]
    exact ⟨.refl s, fun _ => rfl, fun _ _ => rfl⟩

theorem idx_add {c : Word} {n : Nat} (hn : n ∣ 2 ^ 32) (j : Nat) : idx (c + natWord j) n = (c.toNat + j) % n := by
  simp only [idx, natWord, BitVec.toNat_add, BitVec.toNat_ofNat]
  rw [Nat.mod_mod_of_dvd _ hn, Nat.add_mod, Nat.mod_mod_of_dvd _ hn, ← Nat.add_mod]

/-- Slots less than N apart are different slots (R33). -/
theorem idx_inj {c : Word} {n j k : Nat} (hn : n ∣ 2 ^ 32) (hj : j < n) (hk : k < n) (h : idx (c + natWord j) n =
    idx (c + natWord k) n) : j = k := by
  rw [idx_add hn, idx_add hn] at h
  have h2 : j ≡ k [MOD n] := Nat.ModEq.add_left_cancel' c.toNat h
  have := h2
  unfold Nat.ModEq at this
  rwa [Nat.mod_eq_of_lt hj, Nat.mod_eq_of_lt hk] at this

theorem byte_apart (s : State) (r : RingSel) {i j k b : Nat} (hi : i < 1024) (hj : j < 1024) (hk : k < 4)
    (hb : b < 4) (h : j ≠ i) :
    inSpan (s.descAddr r i 0) 16 (s.descAddr r j k + natWord b) = false := by
  simp only [inSpan, decide_eq_false_iff_not]
  have e : s.descAddr r j k + natWord b - s.descAddr r i 0 = natWord (16 * j + 4 * k + b) - natWord (16 * i) := by
    have e1 : s.descAddr r j k + natWord b = (s.ring r).base + natWord (16 * j + 4 * k + b) := by
      rw [natWord_add (16 * j + 4 * k) b]
      show (s.ring r).base + natWord (16 * j + 4 * k) + natWord b = _
      rw [BitVec.add_assoc]
    have e2 : s.descAddr r i 0 = (s.ring r).base + natWord (16 * i) := rfl
    rw [e1, e2]
    generalize natWord (16 * j + 4 * k + b) = A
    generalize natWord (16 * i) = B
    generalize (s.ring r).base = C
    bv_omega
  rw [e]
  have := sub_cases (natWord (16 * j + 4 * k + b)) (natWord (16 * i))
  rw [natWord_toNat (by omega), natWord_toNat (by omega)] at this
  omega

/-- A step that keeps every byte outside one descriptor keeps the words of the others. -/
theorem other_words {s t : State} {r : RingSel} {i j k : Nat} (h : sameBytesButDesc s t r i) (hp : t.params =
    s.params) (hr : (t.ring r).base = (s.ring r).base)
    (hi : i < 1024) (hj : j < 1024) (hk : k < 4) (hne : j ≠ i) : t.descWord r j k = s.descWord r j k := by
  have ha : t.descAddr r j k = s.descAddr r j k := by simp only [State.descAddr, hr]
  have hb : ∀ b < 4, swByte t (s.descAddr r j k + natWord b) = swByte s (s.descAddr r j k + natWord b) := fun b hb => h _ (byte_apart s r hi hj hk hb hne)
  simp only [State.descWord, ha, swWord, hp]
  have h0 := hb 0 (by decide)
  have h1 := hb 1 (by decide)
  have h2 := hb 2 (by decide)
  have h3 := hb 3 (by decide)
  rw [show s.descAddr r j k + natWord 0 = s.descAddr r j k from BitVec.add_zero _] at h0
  rw [show natWord 1 = (1 : Word) from rfl] at h1
  rw [show natWord 2 = (2 : Word) from rfl] at h2
  rw [show natWord 3 = (3 : Word) from rfl] at h3
  rw [h0, h1, h2, h3]

theorem getD_set_self {α} (l : List α) {i : Nat} (h : i < l.length) (x d : α) : (l.set i x).getD i d = x := by
  simp [List.getD, h]

theorem getD_set_ne {α} (l : List α) {i j : Nat} (h : i ≠ j) (x d : α) : (l.set i x).getD j d = l.getD j d := by
  simp [List.getD, List.getElem?_set, h]

structure StagedOne (s t : State) (i : Nat) (ca : Word) (len : Nat) (pkt : Option Word) (d1 : Word) (pub : Bool) :
    Prop where
  mem : t.memLegal
  bytes : sameBytesButDesc s t .tx i
  word0 : t.descWord .tx i 0 = if pub then ownWord else s.descWord .tx i 0
  word1 : t.descWord .tx i 1 = d1
  word2 : t.descWord .tx i 2 = dmaMapOf s.params ca
  word3 : t.descWord .tx i 3 = 0
  rest : t = { s with
        tx := { s.tx with sub := s.tx.sub + 1 }
        txSlots := s.txSlots.set i { addr := some (dmaMapOf s.params ca), len := len, pkt := pkt, pub := pub }
        marks := s.marks ++ [{ dma := dmaMapOf s.params ca, cpu := ca, len := len }]
        regions := (addRegion ca len s).regions
        mem := t.mem
        wbuf := t.wbuf }

theorem mapBuf_regions (ca : Word) (len : Nat) (s : State) : (mapBuf ca len s).regions =
    (addRegion ca len s).regions := by
  have : (addRegion ca len (descFence s)).regions = (addRegion ca len s).regions := by
    have h : (descFence s).regions = s.regions := rfl
    generalize descFence s = t at h
    simp only [addRegion, h]
    split <;> simp [h]
  exact this

theorem stageOne_spec {s : State} {i : Nat} {ca : Word} {len : Nat} (pkt : Option Word) (ic ls fs csum : Bool)
    (pub : Bool) (hm : s.memLegal) (hL : s.arraysLegal)
    (hlen : i < s.txSlots.length) (hd : s.softDesc .tx i) (ha : ∀ x, inSpan (s.descAddr .tx i 0) 16 x = true →
      inSpan ca len x = false) :
    StagedOne s (if pub then publish .tx i (stageTx i ca len pkt ic ls fs csum s) else stageTx i ca len pkt ic ls fs csum s) i ca len pkt
      (txDes1 ic ls fs csum (erOf (s.descWord .tx i 1)) len) pub := by
  have h := stageTx_spec pkt ic ls fs csum hm hL hd ha
  have hum := (stageTx_keeps i ca len pkt ic ls fs csum s).mem hm
  generalize stageTx i ca len pkt ic ls fs csum s = u at *
  have hrest := h.rest
  rw [mapBuf_regions] at hrest
  cases pub with
  | false =>
    simp only [Bool.false_eq_true, if_false]
    exact ⟨hum, h.bytes, h.word0, h.word1, h.word2, h.word3, hrest⟩
  | true =>
    simp only [if_true]
    have hdu : u.descAddr .tx i 0 = s.descAddr .tx i 0 := by rw [hrest]; rfl
    have huo : u.ownSeen .tx i = false := by rw [State.ownSeen, h.word0]; exact hd.own
    have hus : SameArrays s u := fun r => by rw [hrest]; cases r <;> exact ⟨rfl, rfl, rfl⟩
    have huu : u.descClear .tx i := hd.clear.write hL hd.slot hus (fun x hx h1 => by
      have h2 := ha x hx
      rw [hrest]
      simp only [State.marked, List.any_append, List.any_cons, List.any_nil, Bool.or_false] at *
      rw [h1, h2]; rfl) h.bytes (by rw [hrest]) huo
    have hp := publish_spec hum (hL.of_same hus) (by rw [(hus .tx).2.1]; exact hd.slot) huu huo
    have hpm := (publish_keeps .tx i u).mem hum
    generalize publish .tx i u = t at *
    refine ⟨hpm, h.bytes.trans hp.bytes hdu, hp.words 0 (by decide), ?_, ?_, ?_, ?_⟩
    · exact ((hp.words 1 (by decide)).trans (if_neg (by decide))).trans h.word1
    · exact ((hp.words 2 (by decide)).trans (if_neg (by decide))).trans h.word2
    · exact ((hp.words 3 (by decide)).trans (if_neg (by decide))).trans h.word3
    · have h6 := hp.rest
      clear hp h hum huu huo hdu hpm hus
      generalize t.mem = M at *
      generalize t.wbuf = W at *
      subst h6
      generalize u.mem = M' at *
      generalize u.wbuf = W' at *
      subst hrest
      simp [State.setPub, State.setTxSlot, State.txSlot, List.getD, hlen]

theorem StagedOne.arrays {s t : State} {i : Nat} {ca : Word} {len : Nat} {pkt : Option Word} {d1 : Word} {pub : Bool}
    (h : StagedOne s t i ca len pkt d1 pub) : SameArrays s t := fun r => by rw [h.rest]; cases r <;> exact ⟨rfl, rfl, rfl⟩

/-- A byte of an array that neither the segment nor its DMA image holds stays free of the hardware's. -/
theorem StagedOne.clear {s t : State} {i : Nat} {ca : Word} {len : Nat} {pkt : Option Word} {ic ls fs csum er pub : Bool}
    (h : StagedOne s t i ca len pkt (txDes1 ic ls fs csum er len) pub) (hL : s.arraysLegal) (hi : i < s.tx.n)
    (ho : s.ownSeen .tx i = false) {q : RingSel} {a : Word} (ha : (s.ring q).holds a = true)
    (h1 : inSpan ca len a = false) (h2 : inSpan (dmaMapOf s.params ca) len a = false) (hc : s.deviceByte a = false) :
    t.deviceByte a = false := by
  refine deviceByte_write (r := .tx) hL hi h.arrays ha (fun hm => ?_) h.bytes (by rw [h.rest]) ?_ hc
  · rw [h.rest]
    simp only [State.marked, List.any_append, List.any_cons, List.any_nil, Bool.or_false] at *
    rw [hm, h1]; rfl
  · cases pub with
    | false => left; rw [State.ownSeen, h.word0]; exact ho
    | true =>
      right
      have e := txDes1_sizes ic ls fs csum er len
      exact not_addressed (len := len) (by rw [h.word1, e.1]; exact Nat.mod_le _ _) (by rw [h.word1, e.2]) h.word2 h2

/-- The state after all segments of a packet are staged (R260). -/
structure StagedAll (s u : State) (segs : List Segment) (k : Nat) (csum ic : Bool) (handle : Word) : Prop where
  mem : u.memLegal
  bytes : sameBytesButRing s u .tx
  words : ∀ j (hj : j < segs.length),
    u.descWord .tx (idx (s.tx.sub + natWord j) s.tx.n) 0 =
      (if k + j = 0 then s.descWord .tx (idx (s.tx.sub + natWord j) s.tx.n) 0 else ownWord) ∧
    u.descWord .tx (idx (s.tx.sub + natWord j) s.tx.n) 1 = txDes1 (decide (j + 1 =
      segs.length) && ic) (decide (j + 1 = segs.length)) (decide (k + j = 0)) csum
      (erOf (s.descWord .tx (idx (s.tx.sub + natWord j) s.tx.n) 1)) segs[j].2 ∧
    u.descWord .tx (idx (s.tx.sub + natWord j) s.tx.n) 2 = dmaMapOf s.params segs[j].1 ∧
    u.descWord .tx (idx (s.tx.sub + natWord j) s.tx.n) 3 = 0 ∧
    u.txSlot (idx (s.tx.sub + natWord j) s.tx.n) =
      { addr := some (dmaMapOf s.params segs[j].1), len := segs[j].2, pkt := if j + 1 = segs.length then some handle else none, pub := decide (k + j ≠ 0) }
  others : ∀ i < s.tx.n, (∀ j < segs.length, i ≠ idx (s.tx.sub + natWord j) s.tx.n) → (∀ w < 4, u.descWord .tx i w = s.descWord .tx i w) ∧ u.txSlot i = s.txSlot i
  rest : u = { s with
        tx := { s.tx with sub := s.tx.sub + natWord segs.length }
        txSlots := u.txSlots
        marks := s.marks ++ segs.map fun g => { dma := dmaMapOf s.params g.1, cpu := g.1, len := g.2 }
        regions := (segs.foldl (fun u g => addRegion g.1 g.2 u) s).regions
        mem := u.mem
        wbuf := u.wbuf }
  slots : u.txSlots.length = s.txSlots.length
  clear : ∀ a, (s.ring .tx).holds a = true → (∀ g ∈ segs, inSpan g.1 g.2 a = false ∧
    inSpan (dmaMapOf s.params g.1) g.2 a = false) → s.deviceByte a = false → u.deviceByte a = false

theorem addRegions_congr (segs : List Segment) (s t : State) (h : t.regions = s.regions) :
    (segs.foldl (fun u g => addRegion g.1 g.2 u) t).regions =
    (segs.foldl (fun u g => addRegion g.1 g.2 u) s).regions := by
  induction segs generalizing s t with
  | nil => exact h
  | cons g rest ih =>
    simp only [List.foldl_cons]
    apply ih
    simp only [addRegion, h]
    split <;> simp [h]

theorem ringBytes_of_desc {s t : State} {r : RingSel} {i : Nat} (h : sameBytesButDesc s t r i)
    (ha : (s.ring r).allocated = true) (hi : i < (s.ring r).n) (hn : (s.ring r).n ≤ 1024) : sameBytesButRing s t r
    := by
  intro a haa
  refine h a ?_
  cases hh : inSpan (s.descAddr r i 0) 16 a with
  | false => rfl
  | true => rw [holds_desc ha hi hn hh] at haa; exact absurd haa (by decide)

theorem add_natWord_succ (c : Word) (j : Nat) : c + 1 + natWord j = c + natWord (j + 1) := by
  rw [natWord_succ, BitVec.add_assoc, BitVec.add_comm 1]

/-- Staging all segments of a packet (R260). -/
theorem stageSegments_spec (csum ic : Bool) (handle : Word) (segs : List Segment) : ∀ (k : Nat) (s : State),
    s.memLegal → s.arraysLegal → s.tx.allocated = true → ringSizeLegal s.tx.n = true →
    s.txSlots.length = s.tx.n → segs.length ≤ s.tx.n → (∀ j < segs.length,
      s.softDesc .tx (idx (s.tx.sub + natWord j) s.tx.n)) → (∀ g ∈ segs, s.bufferApart .tx g.1 g.2) →
    StagedAll s (stageSegments csum ic handle segs k s) segs k csum ic handle := by
  induction segs with
  | nil =>
    intro k s hm hL ha hn hs hl hd hap
    refine ⟨hm, fun _ _ => rfl, fun j hj => absurd hj (by simp), fun i hi h => ⟨fun _ _ => rfl, rfl⟩, ?_, rfl, fun _ _ _ h => h⟩
    simp [stageSegments, natWord_zero]
  | cons g rest ih =>
    intro k s hm hL ha hn hs hl hd hap
    obtain ⟨ca, len⟩ := g
    have hb := ringSizeLegal_bounds hn
    have hdv := ringSizeLegal_dvd hn
    have hpos : 0 < s.tx.n := by omega
    let i := idx s.tx.sub s.tx.n
    have hi0 : idx (s.tx.sub + natWord 0) s.tx.n = i := by rw [natWord_zero]; show idx (s.tx.sub + 0#32) _ = _; rw [BitVec.add_zero]
    have hin : i < s.tx.n := idx_lt hpos
    have hi : i < 1024 := by omega
    have hd0 : s.softDesc .tx i := by rw [← hi0]; exact hd 0 (by simp)
    have hap0 : ∀ x, inSpan (s.descAddr .tx i 0) 16 x = true → inSpan ca len x = false := fun x hx => (hap (ca, len) (List.mem_cons_self ..)).1 x (holds_desc (r := .tx) ha hin hb.2 hx)
    have h1 := stageOne_spec (if rest.isEmpty then some handle else none) (rest.isEmpty && ic) rest.isEmpty (decide (k = 0)) csum (decide (k ≠ 0)) hm hL (by rw [hs]; exact hin) hd0 hap0
    have e : stageSegments csum ic handle ((ca, len) :: rest) k s = stageSegments csum ic handle rest (k + 1) (if decide (k ≠ 0) = true then publish .tx i (stageTx i ca len (if rest.isEmpty then some handle else none) (rest.isEmpty && ic) rest.isEmpty (decide (k = 0)) csum s) else stageTx i ca len (if rest.isEmpty then some handle else none) (rest.isEmpty && ic) rest.isEmpty (decide (k = 0)) csum s) := by
      by_cases hk : k = 0 <;> simp [stageSegments, hk, i]
    rw [e]
    generalize (if decide (k ≠ 0) = true then publish .tx i (stageTx i ca len (if rest.isEmpty then some handle else none) (rest.isEmpty && ic) rest.isEmpty (decide (k = 0)) csum s) else stageTx i ca len (if rest.isEmpty then some handle else none) (rest.isEmpty && ic) rest.isEmpty (decide (k = 0)) csum s) = t at h1
    have htp : t.params = s.params := by rw [h1.rest]
    have htb : (t.ring .tx).base = (s.ring .tx).base := by rw [h1.rest]; rfl
    have htn : t.tx.n = s.tx.n := by rw [h1.rest]
    have hts : t.tx.sub = s.tx.sub + 1 := by rw [h1.rest]
    have htm : t.marks = s.marks ++ [{ dma := dmaMapOf s.params ca, cpu := ca, len := len }] := by rw [h1.rest]
    have htl : t.txSlots = s.txSlots.set i { addr := some (dmaMapOf s.params ca), len := len, pkt := (if rest.isEmpty then some handle else none), pub := decide (k ≠ 0) } := by rw [h1.rest]
    have hte : (t.ring .tx).allocated = true := by rw [h1.rest]; exact ha
    have hsl : ∀ j, idx (t.tx.sub + natWord j) t.tx.n = idx (s.tx.sub + natWord (j + 1)) s.tx.n := fun j => by rw [hts, htn, add_natWord_succ]
    have hne : ∀ j, j + 1 < s.tx.n → idx (s.tx.sub + natWord (j + 1)) s.tx.n ≠ i := by
      intro j hj hc
      rw [← hi0] at hc
      have := idx_inj hdv hj hpos hc
      omega
    have how : ∀ j k', j < s.tx.n → k' < 4 → j ≠ i → t.descWord .tx j k' = s.descWord .tx j k' := fun j k' hj hk' hji => other_words h1.bytes htp htb hi (by omega) hk' hji
    have hlr : rest.length + 1 ≤ s.tx.n := hl
    have hcl : ∀ a, (s.ring .tx).holds a = true → (∀ g ∈ ((ca, len) :: rest), inSpan g.1 g.2 a = false ∧
        inSpan (dmaMapOf s.params g.1) g.2 a = false) → s.deviceByte a = false → t.deviceByte a = false :=
      fun a haa hg hc => h1.clear hL hin hd0.own haa (hg (ca, len) (List.mem_cons_self ..)).1
        (hg (ca, len) (List.mem_cons_self ..)).2 hc
    have hrec := ih (k + 1) t h1.mem (hL.of_same h1.arrays) hte (by rw [htn]; exact hn) (by rw [htl, List.length_set, htn]; exact hs) (by rw [htn]; omega) (by
      intro j hj
      have hsd := hd (j + 1) (by simpa using hj)
      rw [hsl]
      have hlt : idx (s.tx.sub + natWord (j + 1)) s.tx.n < s.tx.n := idx_lt hpos
      have hda : t.descAddr .tx (idx (s.tx.sub + natWord (j + 1)) s.tx.n) 0 = s.descAddr .tx (idx (s.tx.sub + natWord (j + 1)) s.tx.n) 0 := by simp only [State.descAddr, htb]
      refine ⟨?_, ?_, ?_⟩
      · show _ < t.tx.n; rw [htn]; exact hlt
      · rw [State.ownSeen, how _ 0 hlt (by decide) (hne j (by omega))]; exact hsd.own
      · intro x hx
        rw [hda] at hx
        have hh := holds_desc (r := .tx) ha hlt hb.2 hx
        exact hcl x hh (fun g hg => ⟨(hap g hg).1 x hh, (hap g hg).2 x hh⟩) (hsd.clear x hx)) (by
      intro g hg
      have : ∀ x, (t.ring .tx).holds x = (s.ring .tx).holds x := h1.arrays.holds .tx
      refine ⟨fun x hx => (hap g (List.mem_cons_of_mem _ hg)).1 x (by rw [← this]; exact hx), fun x hx => ?_⟩
      rw [htp]; exact (hap g (List.mem_cons_of_mem _ hg)).2 x (by rw [← this]; exact hx))
    generalize stageSegments csum ic handle rest (k + 1) t = u at hrec
    have hlast : rest.isEmpty = decide (0 + 1 = ((ca, len) :: rest).length) := by cases rest <;> simp
    have hoth := hrec.others i (by rw [htn]; exact hin) (by
      intro j hj hc
      rw [hsl] at hc
      exact hne j (by omega) hc.symm)
    refine ⟨hrec.mem, ?_, ?_, ?_, ?_, ?_, ?_⟩
    · intro a haa
      have : (t.ring .tx).holds a = false := by rw [h1.rest]; exact haa
      exact (hrec.bytes a this).trans (ringBytes_of_desc (r := .tx) h1.bytes ha hin hb.2 a haa)
    · intro j hj
      cases j with
      | zero =>
        rw [hi0, hoth.1 0 (by decide), hoth.1 1 (by decide), hoth.1 2 (by decide), hoth.1 3 (by decide), hoth.2, h1.word0, h1.word1, h1.word2, h1.word3, ← hlast]
        refine ⟨?_, rfl, rfl, rfl, ?_⟩
        · by_cases hk : k = 0 <;> simp [hk]
        · rw [State.txSlot, htl, getD_set_self _ (by rw [hs]; exact hin)]
          have hem : (if rest.isEmpty = true then some handle else none) = (if 0 + 1 = ((ca, len) :: rest).length then some handle else none) := by
            rw [hlast]; simp only [decide_eq_true_eq]
          rw [hem]; rfl
      | succ j =>
        have hj' : j < rest.length := by simpa using hj
        have hw := hrec.words j hj'
        have hlt : idx (s.tx.sub + natWord (j + 1)) s.tx.n < s.tx.n := idx_lt hpos
        have hn1 := hne j (by omega)
        rw [hsl, how _ 1 hlt (by decide) hn1, htp] at hw
        have hk1 : ¬ (k + 1 + j = 0) := by omega
        have hk2 : ¬ (k + (j + 1) = 0) := by omega
        have hk3 : (j + 1 + 1 = ((ca, len) :: rest).length) ↔ (j + 1 = rest.length) := by simp
        simp only [hk1, if_false, decide_false] at hw
        simp only [hk2, if_false, decide_false, hk3, List.getElem_cons_succ]
        refine ⟨hw.1, hw.2.1, hw.2.2.1, hw.2.2.2.1, ?_⟩
        rw [hw.2.2.2.2]
        simp
    · intro q hq hqn
      have hq0 : q ≠ i := by rw [← hi0]; exact hqn 0 (by simp)
      have hqo := hrec.others q (by rw [htn]; exact hq) (by
        intro j hj hc
        rw [hsl] at hc
        exact hqn (j + 1) (by simpa using hj) hc)
      refine ⟨fun w hw => (hqo.1 w hw).trans (how q w hq hw hq0), hqo.2.trans ?_⟩
      rw [State.txSlot, htl, getD_set_ne _ (Ne.symm hq0)]; rfl
    · have h6 := hrec.rest
      have hreg : (rest.foldl (fun u g => addRegion g.1 g.2 u) t).regions = (rest.foldl (fun u g => addRegion g.1 g.2 u) (addRegion ca len s)).regions := by
        apply addRegions_congr; rw [h1.rest]
      rw [hreg] at h6
      have h7 := h1.rest
      have hsub : t.tx.sub + natWord rest.length = s.tx.sub + natWord ((ca, len) :: rest).length := by rw [hts, add_natWord_succ]; rfl
      rw [hsub] at h6
      rw [htp, htm] at h6
      clear hcl hL
      clear hrec h1 hoth ih hd hap hd0 hap0 hreg hsub htp htb htn hts htl hte hsl hne how hlr e hlast htm
      generalize u.txSlots = A at *
      generalize u.mem = B at *
      generalize u.wbuf = C at *
      subst h6
      generalize t.mem = B' at *
      generalize t.wbuf = C' at *
      subst h7
      simp [List.append_assoc]
    · rw [hrec.slots, htl, List.length_set]
    · intro a haa hg hc
      refine hrec.clear a (by rw [h1.arrays.holds]; exact haa) (fun g hgg => ?_) (hcl a haa hg hc)
      rw [htp]; exact hg g (List.mem_cons_of_mem _ hgg)

/-- The state after a packet is sent (R260, R265, R266). -/
structure SentAll (s t : State) (segs : List Segment) (csum ic : Bool) (handle : Word) (cnt : Word) : Prop where
  bytes : sameBytesButRing s t .tx
  words : ∀ j (hj : j < segs.length),
    (t.descWord .tx (idx (s.tx.sub + natWord j) s.tx.n) 0 = ownWord ∧
    t.descWord .tx (idx (s.tx.sub + natWord j) s.tx.n) 1 = txDes1 (decide (j + 1 =
      segs.length) && ic) (decide (j + 1 = segs.length)) (decide (j = 0)) csum
      (erOf (s.descWord .tx (idx (s.tx.sub + natWord j) s.tx.n) 1)) segs[j].2 ∧
    t.descWord .tx (idx (s.tx.sub + natWord j) s.tx.n) 2 = dmaMapOf s.params segs[j].1 ∧
    t.descWord .tx (idx (s.tx.sub + natWord j) s.tx.n) 3 = 0) ∧
    t.txSlot (idx (s.tx.sub + natWord j) s.tx.n) =
      { addr := some (dmaMapOf s.params segs[j].1), len := segs[j].2, pkt := if j + 1 = segs.length then some handle else none, pub := true }
  others : ∀ i < s.tx.n, (∀ j < segs.length, i ≠ idx (s.tx.sub + natWord j) s.tx.n) → (∀ w < 4, t.descWord .tx i w = s.descWord .tx i w) ∧ t.txSlot i = s.txSlot i
  rest : t = { s with
        dma := { s.dma with ts := if s.dma.ts = .suspended then .running else s.dma.ts }
        tx := { s.tx with sub := s.tx.sub + natWord segs.length, coalCnt := cnt }
        txSlots := t.txSlots
        marks := s.marks ++ segs.map fun g => { dma := dmaMapOf s.params g.1, cpu := g.1, len := g.2 }
        regions := (segs.foldl (fun u g => addRegion g.1 g.2 u) s).regions
        mem := t.mem
        wbuf := [] }

/-- Sending a packet: staging, coalescing, publication, poll demand (R260, R265, R266). -/
theorem sendSegments_spec (k : Packet) (csum : Bool) (segs : List Segment) {s : State} (hm : s.memLegal)
    (hl : s.ringsLegal) (ha : s.tx.allocated = true) (hne : segs ≠ [])
    (hle : segs.length ≤ s.tx.n) (hd : ∀ j < segs.length, s.softDesc .tx (idx (s.tx.sub + natWord j) s.tx.n))
      (hap : ∀ g ∈ segs, s.bufferApart .tx g.1 g.2) :
    SentAll s (sendSegments k csum segs s) segs csum (coalesce s.eff.txCoal s.tx.coalCnt segs.length).2 k.handle (coalesce s.eff.txCoal s.tx.coalCnt segs.length).1 := by
  let c := coalesce s.eff.txCoal s.tx.coalCnt segs.length
  let t0 : State := { s with tx := { s.tx with coalCnt := c.1 } }
  have hn := hl.tx.size ha
  have hsl := hl.tx.slots ha
  have hb := ringSizeLegal_bounds hn
  have hlen0 : 0 < segs.length := List.length_pos_iff.2 hne
  have ht0 : SameArrays s t0 := fun r => by cases r <;> exact ⟨rfl, rfl, rfl⟩
  have ht0c : ∀ x, (s.ring .tx).holds x = true → s.deviceByte x = false → t0.deviceByte x = false :=
    fun x hx => deviceByte_same ht0 hx id (fun _ => rfl) rfl
  have h := stageSegments_spec csum c.2 k.handle segs 0 t0 hm (hl.arrays.of_same ht0) ha hn hsl hle
    (fun j hj => ⟨(hd j hj).slot, (hd j hj).own, fun x hx =>
      ht0c x (holds_desc (r := .tx) ha (hd j hj).slot hb.2 hx) ((hd j hj).clear x hx)⟩) hap
  have e : sendSegments k csum segs s = wrPoll .tx (publish .tx (idx s.tx.sub s.tx.n) (stageSegments csum c.2 k.handle segs 0 t0)) := rfl
  rw [e]
  generalize stageSegments csum c.2 k.handle segs 0 t0 = u at h
  have hi0 : idx (s.tx.sub + natWord 0) s.tx.n = idx s.tx.sub s.tx.n := by show idx (s.tx.sub + 0#32) _ = _; rw [BitVec.add_zero]
  have hin : idx s.tx.sub s.tx.n < s.tx.n := idx_lt (by omega)
  have hi : idx s.tx.sub s.tx.n < 1024 := by omega
  have hd0 := hd 0 hlen0
  rw [hi0] at hd0
  have hw0 := h.words 0 hlen0
  have hub : (u.ring .tx).base = s.tx.base := by rw [h.rest]; rfl
  have hup : u.params = s.params := by rw [h.rest]
  have hun : u.tx.n = s.tx.n := by rw [h.rest]
  have hua : ∀ j w, u.descAddr .tx j w = s.descAddr .tx j w := fun j w => by simp only [State.descAddr, hub]; rfl
  have huo : u.ownSeen .tx (idx s.tx.sub s.tx.n) = false := by
    have := hw0.1
    rw [show t0.tx.sub = s.tx.sub from rfl, show t0.tx.n = s.tx.n from rfl, hi0, if_pos rfl] at this
    rw [State.ownSeen, this]; exact hd0.own
  have huu : u.descClear .tx (idx s.tx.sub s.tx.n) := by
    intro x hx
    rw [hua] at hx
    have hh := holds_desc (r := .tx) (s := s) ha hin hb.2 hx
    exact h.clear x hh (fun g hg => ⟨(hap g hg).1 x hh, (hap g hg).2 x hh⟩) (ht0c x hh (hd0.clear x hx))
  have hus : SameArrays s u := fun r => by rw [h.rest]; cases r <;> exact ⟨rfl, rfl, rfl⟩
  have hp := publish_spec h.mem (hl.arrays.of_same hus) (by rw [(hus .tx).2.1]; exact hin) huu huo
  have hpm := (publish_keeps .tx (idx s.tx.sub s.tx.n) u).mem h.mem
  generalize publish .tx (idx s.tx.sub s.tx.n) u = p at *
  have hpb : (p.ring .tx).base = (u.ring .tx).base := by rw [hp.rest]; rfl
  have hpp : p.params = u.params := by rw [hp.rest]; rfl
  have hslot : ∀ j, p.txSlot j = if j = idx s.tx.sub s.tx.n then { u.txSlot j with pub := true } else u.txSlot j := by
    intro j
    rw [hp.rest]
    show (u.txSlots.set _ _).getD j _ = _
    by_cases hj : j = idx s.tx.sub s.tx.n
    · subst hj
      rw [if_pos rfl, getD_set_self]
      rw [h.slots]; show _ < s.txSlots.length; rw [hsl]; exact hin
    · rw [if_neg hj, getD_set_ne _ (Ne.symm hj)]; rfl
  have hfin : ∀ a, swByte (wrPoll .tx p) a = swByte p a := fun a => swByte_descFence hpm a
  have hfw : ∀ j w, (wrPoll .tx p).descWord .tx j w = p.descWord .tx j w := fun j w => descWord_congr hfin rfl rfl
  have hfs : ∀ j, (wrPoll .tx p).txSlot j = p.txSlot j := fun j => rfl
  have hoth : ∀ j w, j < s.tx.n → w < 4 → j ≠ idx s.tx.sub s.tx.n → p.descWord .tx j w = u.descWord .tx j w := fun j w hj hw hne => other_words hp.bytes hpp hpb hi (by omega) hw hne
  refine ⟨?_, ?_, ?_, ?_⟩
  · intro a haa
    rw [hfin]
    have : (u.ring .tx).holds a = false := by rw [h.rest]; exact haa
    have hur := ringBytes_of_desc (r := .tx) hp.bytes (by rw [h.rest]; exact ha) (by show _ < u.tx.n; rw [hun]; exact hin) (by show u.tx.n ≤ 1024; rw [hun]; exact hb.2) a this
    rw [hur]; exact h.bytes a haa
  · intro j hj
    have hw := h.words j hj
    rw [show t0.tx.sub = s.tx.sub from rfl, show t0.tx.n = s.tx.n from rfl] at hw
    rw [hfw, hfw, hfw, hfw, hfs, hslot]
    by_cases hj0 : j = 0
    · subst hj0
      rw [hi0] at hw ⊢
      rw [if_pos rfl, hp.words 0 (by decide), hp.words 1 (by decide), hp.words 2 (by decide), hp.words 3 (by decide), if_pos rfl, if_neg (by decide), if_neg (by decide), if_neg (by decide)]
      refine ⟨⟨rfl, hw.2.1, hw.2.2.1, hw.2.2.2.1⟩, ?_⟩
      rw [hw.2.2.2.2]
    · have hneq : idx (s.tx.sub + natWord j) s.tx.n ≠ idx s.tx.sub s.tx.n := by
        intro hc; rw [← hi0] at hc
        exact hj0 (idx_inj (ringSizeLegal_dvd hn) (by omega) (by omega) hc)
      have hlt : idx (s.tx.sub + natWord j) s.tx.n < s.tx.n := idx_lt (by omega)
      rw [if_neg hneq, hoth _ 0 hlt (by decide) hneq, hoth _ 1 hlt (by decide) hneq, hoth _ 2 hlt (by decide) hneq, hoth _ 3 hlt (by decide) hneq]
      have hk : ¬ (0 + j = 0) := by omega
      simp only [hk, if_false, decide_false] at hw
      simp only [hj0, decide_false]
      refine ⟨⟨hw.1, hw.2.1, hw.2.2.1, hw.2.2.2.1⟩, ?_⟩
      rw [hw.2.2.2.2]; simp; exact ⟨rfl, hj0⟩
  · intro i hi' hne'
    have hi0' : i ≠ idx s.tx.sub s.tx.n := by rw [← hi0]; exact hne' 0 hlen0
    have ho := h.others i hi' hne'
    refine ⟨fun w hw => ?_, ?_⟩
    · rw [hfw, hoth i w hi' hw hi0']; exact ho.1 w hw
    · rw [hfs, hslot, if_neg hi0']; exact ho.2
  · have h6 := hp.rest
    have h7 := h.rest
    have hreg : (segs.foldl (fun u g => addRegion g.1 g.2 u) t0).regions = (segs.foldl (fun u g => addRegion g.1 g.2 u) s).regions := addRegions_congr segs s t0 rfl
    rw [hreg] at h7
    show (storeTxPoll (descFence p)) = _
    have hres : ∀ q, resumed q = if q = .suspended then .running else q := fun q => rfl
    have e1 : storeTxPoll (descFence p) = { p with mem := (descFence p).mem, wbuf := [], dma := { p.dma with ts := if p.dma.ts = .suspended then .running else p.dma.ts } } := rfl
    have g1 : p.params = s.params := hpp.trans hup
    have g2 : p.csr = s.csr ∧ p.dma = s.dma ∧ p.rx = s.rx ∧ p.rxSlots = s.rxSlots ∧ p.eff = s.eff ∧ p.dev = s.dev ∧ p.link = s.link ∧ p.tun = s.tun ∧ p.stats = s.stats ∧ p.fault = s.fault ∧
       p.schedule = s.schedule ∧ p.wire = s.wire ∧ p.allocAnswers = s.allocAnswers ∧ p.draws = s.draws ∧ p.outputs = s.outputs ∧ p.busData = s.busData := by
      rw [h6, h7]; exact ⟨rfl, rfl, rfl, rfl, rfl, rfl, rfl, rfl, rfl, rfl, rfl, rfl, rfl, rfl, rfl, rfl⟩
    have g3 : p.tx = { s.tx with sub := s.tx.sub + natWord segs.length, coalCnt := c.1 } := by rw [h6, h7]; rfl
    have g4 : p.marks = s.marks ++ segs.map fun g => { dma := dmaMapOf s.params g.1, cpu := g.1, len := g.2 } := by rw [h6, h7]; rfl
    have g5 : p.regions = (segs.foldl (fun u g => addRegion g.1 g.2 u) s).regions := by rw [h6, h7]; rfl
    obtain ⟨a1, a2, a3, a4, a5, a6, a7, a8, a9, a10, a11, a12, a13, a14, a15, a16⟩ := g2
    show ({ p with mem := (descFence p).mem, wbuf := [], dma := { p.dma with ts := if p.dma.ts = .suspended then .running else p.dma.ts } } : State) = _
    simp only [g1, g3, g4, g5, a1, a2, a3, a4, a5, a6, a7, a8, a9, a10, a11, a12, a13, a14, a15, a16]
    rfl

end Sys2Proof.Machine
end

