-- ==== Sys2Proof/Laws/Reclaim.lean ====
section
/-! SUPPORT. The reclamation loop (R270) and TX recovery (R381). -/

namespace Sys2Proof.Machine

open Sys2Proof

/-- The state after `m` turns of the reclamation loop (R270). -/
structure ReclaimedRun (s t : State) (m : Nat) : Prop where
  bytes : sameBytesButRing s t .tx
  slots : t.txSlots.length = s.txSlots.length
  words : ∀ j < m, t.txSlot (idx (s.tx.comp + natWord j) s.tx.n) = TxSlot.empty ∧ ∀ k < 4,
    t.descWord .tx (idx (s.tx.comp + natWord j) s.tx.n) k =
      if k = 1 then s.descWord .tx (idx (s.tx.comp + natWord j) s.tx.n) 1 &&& 0x0800_0000 else if k = 3 then s.descWord .tx (idx (s.tx.comp + natWord j) s.tx.n) 3 else 0
  others : ∀ i < s.tx.n, (∀ j < m, i ≠ idx (s.tx.comp + natWord j) s.tx.n) → t.txSlot i = s.txSlot i ∧ ∀ k < 4,
    t.descWord .tx i k = s.descWord .tx i k
  rest : t = { s with
    tx := { s.tx with comp := s.tx.comp + natWord m }
    txSlots := t.txSlots
    stats := (List.range m).foldl (fun c j => reclaimStats (s.descWord .tx (idx (s.tx.comp + natWord j) s.tx.n) 0) (s.descWord .tx (idx (s.tx.comp + natWord j) s.tx.n) 1) (sizesOf (s.descWord .tx (idx (s.tx.comp + natWord j) s.tx.n) 1)) c) s.stats
    marks := (List.range m).foldl (fun g j => withoutBuffer g (s.txSlot (idx (s.tx.comp + natWord j) s.tx.n)).addr (s.txSlot (idx (s.tx.comp + natWord j) s.tx.n)).len) s.marks
    outputs := s.outputs ++ ((List.range m).filterMap fun j => (s.txSlot (idx (s.tx.comp + natWord j) s.tx.n)).pkt).map .release
    wbuf := t.wbuf }

theorem foldl_range_congr {α} {m : Nat} {f g : α → Nat → α} (h : ∀ j < m, ∀ a, f a j = g a j) (a : α) :
    (List.range m).foldl f a = (List.range m).foldl g a := by
  have : ∀ (l : List Nat) (a : α), (∀ j ∈ l, j < m) → l.foldl f a = l.foldl g a := by
    intro l
    induction l with
    | nil => intros; rfl
    | cons x l ih =>
      intro a hl
      simp only [List.foldl_cons]
      rw [h x (hl x (by simp)), ih _ (fun j hj => hl j (by simp [hj]))]
  exact this _ _ (fun j hj => List.mem_range.1 hj)

theorem filterMap_range_congr {β} {m : Nat} {f g : Nat → Option β} (h : ∀ j < m, f j = g j) :
    (List.range m).filterMap f = (List.range m).filterMap g := by
  have : ∀ (l : List Nat), (∀ j ∈ l, j < m) → l.filterMap f = l.filterMap g := by
    intro l hl
    induction l with
    | nil => rfl
    | cons x l ih =>
      simp only [List.filterMap_cons]
      rw [h x (hl x (by simp)), ih (fun j hj => hl j (by simp [hj]))]
  exact this _ (fun j hj => List.mem_range.1 hj)

/-- The reclamation loop (R270). -/
theorem reclaimLoop_spec (fuel : Nat) : ∀ s : State, s.arraysLegal → ringSizeLegal s.tx.n = true → s.tx.allocated = true →
    s.txSlots.length = s.tx.n →
    (∀ i < s.tx.n, s.descClear .tx i) → fuel < s.tx.n →
    (reclaimLoop fuel s).1 ≤ fuel ∧
    (∀ j < (reclaimLoop fuel s).1, s.ownSeen .tx (idx (s.tx.comp + natWord j) s.tx.n) = false ∧
      (s.txSlot (idx (s.tx.comp + natWord j) s.tx.n)).pub = true) ∧
    ((reclaimLoop fuel s).1 < fuel → ¬ (s.ownSeen .tx (idx (s.tx.comp + natWord (reclaimLoop fuel s).1) s.tx.n) =
      false ∧ (s.txSlot (idx (s.tx.comp + natWord (reclaimLoop fuel s).1) s.tx.n)).pub = true)) ∧
    ReclaimedRun s (reclaimLoop fuel s).2 (reclaimLoop fuel s).1 := by
  have nil : ∀ s : State, ReclaimedRun s s 0 := by
    intro s
    refine ⟨fun _ _ => rfl, rfl, fun j hj => absurd hj (by omega), fun i _ _ => ⟨rfl, fun _ _ => rfl⟩, ?_⟩
    have : s.tx.comp + natWord 0 = s.tx.comp := BitVec.add_zero _
    rw [this]
    simp
  induction fuel with
  | zero =>
    intro s _ _ _ _ _ _
    exact ⟨le_refl _, fun j hj => absurd hj (by simp [reclaimLoop]), fun h => absurd h (by simp [reclaimLoop]), nil s⟩
  | succ fuel ih =>
    intro s hL hn ha hsl hu hf
    have hb := ringSizeLegal_bounds hn
    have h0 : s.tx.comp + natWord 0 = s.tx.comp := BitVec.add_zero _
    have hin : idx s.tx.comp s.tx.n < s.tx.n := idx_lt (by omega)
    have hi : idx s.tx.comp s.tx.n < 1024 := by omega
    by_cases hc : s.ownSeen .tx (idx s.tx.comp s.tx.n) = false ∧ (s.txSlot (idx s.tx.comp s.tx.n)).pub = true
    · obtain ⟨t1, e1, h1⟩ := reclaimBody_spec hL hin (hu _ hin) hc.1
      have e : reclaimLoop (fuel + 1) s = ((reclaimLoop fuel t1).1 + 1, (reclaimLoop fuel t1).2) := by
        simp only [reclaimLoop, State.completed, hc.1, hc.2, Bool.not_false, Bool.and_self, if_true]
        rw [readDesc_eq (hu _ hin) (by decide) (.inl rfl), e1]
      have hr := h1.rest
      have q1 : t1.tx = { s.tx with comp := s.tx.comp + 1 } := by rw [hr]
      have q2 : t1.txSlots = s.txSlots.set (idx s.tx.comp s.tx.n) TxSlot.empty := by rw [hr]
      have qn : t1.tx.n = s.tx.n := by rw [q1]
      have qc : ∀ j, idx (t1.tx.comp + natWord j) t1.tx.n = idx (s.tx.comp + natWord (j + 1)) s.tx.n := by
        intro j; rw [q1]; exact congrArg (idx · s.tx.n) (add_natWord_succ _ _)
      have qu : ∀ i < t1.tx.n, t1.descClear .tx i := by
        intro i hi' x hx
        have hda : t1.descAddr .tx i 0 = s.descAddr .tx i 0 := by simp only [State.descAddr, State.ring, q1]
        rw [hda] at hx
        have hi'' : i < s.tx.n := by rw [← qn]; exact hi'
        exact h1.clear hL hin (hL.holds (r := .tx) hi'' hx) (hu i hi'' x hx)
      have qd : ∀ i k, i < s.tx.n → k < 4 → i ≠ idx s.tx.comp s.tx.n → t1.descWord .tx i k = s.descWord .tx i k := fun i k hi' hk hne =>
        other_words h1.bytes (by rw [hr]) (by simp only [State.ring, q1]) hi (by omega) hk hne
      have qs : ∀ i, i ≠ idx s.tx.comp s.tx.n → t1.txSlot i = s.txSlot i := by
        intro i hne
        simp only [State.txSlot, q2]; exact getD_set_ne _ (Ne.symm hne) _ _
      have qne : ∀ j, j + 1 < s.tx.n → idx (s.tx.comp + natWord (j + 1)) s.tx.n ≠ idx s.tx.comp s.tx.n := by
        intro j hj hc'
        rw [show idx s.tx.comp s.tx.n = idx (s.tx.comp + natWord 0) s.tx.n by rw [h0]] at hc'
        exact absurd (idx_inj (ringSizeLegal_dvd hn) hj (by omega) hc') (by omega)
      have qlt : ∀ j, idx (s.tx.comp + natWord j) s.tx.n < s.tx.n := fun j => idx_lt (by omega)
      obtain ⟨i1, i2, i3, i4⟩ := ih t1 (hL.of_same h1.arrays) (by rw [qn]; exact hn) (by rw [q1]; exact ha) (by rw [q2, qn, List.length_set]; exact hsl) qu (by rw [qn]; omega)
      rw [e]
      generalize (reclaimLoop fuel t1).1 = m at *
      generalize (reclaimLoop fuel t1).2 = t at *
      simp only
      have qo : ∀ j, j + 1 < s.tx.n → (t1.ownSeen .tx (idx (s.tx.comp + natWord (j + 1)) s.tx.n) = s.ownSeen .tx (idx (s.tx.comp + natWord (j + 1)) s.tx.n)) := by
        intro j hj; rw [State.ownSeen, qd _ 0 (qlt _) (by decide) (qne j hj)]; rfl
      refine ⟨by omega, ?_, ?_, ?_⟩
      · intro j hj
        cases j with
        | zero => rw [h0]; exact hc
        | succ j =>
          have := i2 j (by omega)
          rw [qc, qo j (by omega), qs _ (qne j (by omega))] at this
          exact this
      · intro hm
        have := i3 (by omega)
        rw [qc, qo m (by omega), qs _ (qne m (by omega))] at this
        exact this
      · refine ⟨?_, ?_, ?_, ?_, ?_⟩
        · intro a haa
          have hur := ringBytes_of_desc (r := .tx) h1.bytes ha hin hb.2 a haa
          rw [← hur]
          exact i4.bytes a (by simp only [State.ring, q1]; exact haa)
        · rw [i4.slots, q2, List.length_set]
        · intro j hj
          cases j with
          | zero =>
            rw [h0]
            have ho := i4.others (idx s.tx.comp s.tx.n) (by rw [qn]; exact hin) (by
              intro j hj'; rw [qc]; exact (qne j (by omega)).symm)
            refine ⟨?_, fun k hk => ?_⟩
            · rw [ho.1]; simp only [State.txSlot, q2]; exact getD_set_self _ (by rw [hsl]; exact hin) _ _
            · rw [ho.2 k hk]; exact h1.words k hk
          | succ j =>
            have hw := i4.words j (by omega)
            rw [qc] at hw
            refine ⟨hw.1, fun k hk => ?_⟩
            rw [hw.2 k hk, qd _ 1 (qlt _) (by decide) (qne j (by omega)), qd _ 3 (qlt _) (by decide) (qne j (by omega))]
        · intro i hi' hne
          have hi0 : i ≠ idx s.tx.comp s.tx.n := by rw [← h0]; exact hne 0 (by omega)
          have ho := i4.others i (by rw [qn]; exact hi') (by intro j hj; rw [qc]; exact hne (j + 1) (by omega))
          refine ⟨ho.1.trans (qs i hi0), fun k hk => ?_⟩
          rw [ho.2 k hk, qd i k hi' hk hi0]
        · have h4 := i4.rest
          have g1 : (List.range m).foldl (fun c j => reclaimStats (t1.descWord .tx (idx (t1.tx.comp + natWord j) t1.tx.n) 0) (t1.descWord .tx (idx (t1.tx.comp + natWord j) t1.tx.n) 1) (sizesOf (t1.descWord .tx (idx (t1.tx.comp + natWord j) t1.tx.n) 1)) c) t1.stats
              = (List.range (m + 1)).foldl (fun c j => reclaimStats (s.descWord .tx (idx (s.tx.comp + natWord j) s.tx.n) 0) (s.descWord .tx (idx (s.tx.comp + natWord j) s.tx.n) 1) (sizesOf (s.descWord .tx (idx (s.tx.comp + natWord j) s.tx.n) 1)) c) s.stats := by
            rw [List.range_succ_eq_map, List.foldl_cons, List.foldl_map, h0]
            have : t1.stats = reclaimStats (s.descWord .tx (idx s.tx.comp s.tx.n) 0) (s.descWord .tx (idx s.tx.comp s.tx.n) 1) (sizesOf (s.descWord .tx (idx s.tx.comp s.tx.n) 1)) s.stats := by rw [hr]
            rw [this]
            refine foldl_range_congr (fun j hj a => ?_) _
            rw [qc, qd _ 0 (qlt _) (by decide) (qne j (by omega)), qd _ 1 (qlt _) (by decide) (qne j (by omega))]
          have g2 : (List.range m).foldl (fun g j => withoutBuffer g (t1.txSlot (idx (t1.tx.comp + natWord j) t1.tx.n)).addr (t1.txSlot (idx (t1.tx.comp + natWord j) t1.tx.n)).len) t1.marks
              = (List.range (m + 1)).foldl (fun g j => withoutBuffer g (s.txSlot (idx (s.tx.comp + natWord j) s.tx.n)).addr (s.txSlot (idx (s.tx.comp + natWord j) s.tx.n)).len) s.marks := by
            rw [List.range_succ_eq_map, List.foldl_cons, List.foldl_map, h0]
            have : t1.marks = withoutBuffer s.marks (s.txSlot (idx s.tx.comp s.tx.n)).addr (s.txSlot (idx s.tx.comp s.tx.n)).len := by rw [hr]
            rw [this]
            refine foldl_range_congr (fun j hj a => ?_) _
            rw [qc, qs _ (qne j (by omega))]
          have g3 : t1.outputs ++ ((List.range m).filterMap fun j => (t1.txSlot (idx (t1.tx.comp + natWord j) t1.tx.n)).pkt).map .release
              = s.outputs ++ ((List.range (m + 1)).filterMap fun j => (s.txSlot (idx (s.tx.comp + natWord j) s.tx.n)).pkt).map .release := by
            rw [List.range_succ_eq_map, List.filterMap_cons, List.filterMap_map, h0]
            have : t1.outputs = s.outputs ++ (match (s.txSlot (idx s.tx.comp s.tx.n)).pkt with | some p => [.release p] | none => []) := congrArg State.outputs hr
            rw [this]
            rw [filterMap_range_congr (g := (fun j => (s.txSlot (idx (s.tx.comp + natWord j) s.tx.n)).pkt) ∘ Nat.succ) (fun j hj => by rw [qc, qs _ (qne j (by omega))]; rfl)]
            cases hpk : (s.txSlot (idx s.tx.comp s.tx.n)).pkt <;> simp
          have g4 : t1.tx.comp + natWord m = s.tx.comp + natWord (m + 1) := by rw [q1]; exact add_natWord_succ _ _
          rw [g1, g2, g3, g4] at h4
          rw [h4]
          clear h4 g1 g2 g3 g4 i4 i3 i2 i1 ih
          generalize (List.range (m + 1)).foldl (fun c j => reclaimStats (s.descWord .tx (idx (s.tx.comp + natWord j) s.tx.n) 0) (s.descWord .tx (idx (s.tx.comp + natWord j) s.tx.n) 1) (sizesOf (s.descWord .tx (idx (s.tx.comp + natWord j) s.tx.n) 1)) c) s.stats = A
          generalize (List.range (m + 1)).foldl (fun g j => withoutBuffer g (s.txSlot (idx (s.tx.comp + natWord j) s.tx.n)).addr (s.txSlot (idx (s.tx.comp + natWord j) s.tx.n)).len) s.marks = B
          rw [hr]
    · have e : reclaimLoop (fuel + 1) s = (0, s) := by
        have : s.completed (idx s.tx.comp s.tx.n) = false := by
          rw [State.completed]
          cases h1 : s.ownSeen .tx (idx s.tx.comp s.tx.n) <;> cases h2 : (s.txSlot (idx s.tx.comp s.tx.n)).pub <;> simp_all
        simp only [reclaimLoop, this, Bool.false_eq_true, if_false]
        rw [readDesc_eq (hu _ hin) (by decide) (.inl rfl)]
      rw [e]
      refine ⟨by omega, fun j hj => absurd hj (by simp), fun _ => ?_, nil s⟩
      rw [h0]; exact hc

theorem reclaim_counts {f : Nat → Word} {g : Nat → Word} (c : Stats) (m : Nat) :
    (List.range m).foldl (fun c j => reclaimStats (f j) (g j) (sizesOf (g j)) c) c = { c with
      txBytes := c.txBytes + BitVec.ofNat 64 (((List.range m).filter fun j => !bit (f j) 15).map fun j => bitsAt (g j) 0 13 + bitsAt (g j) 13 13).sum
      txPackets := c.txPackets + BitVec.ofNat 64 ((List.range m).countP fun j => !bit (f j) 15 && bit (g j) 30)
      txErrors := c.txErrors + BitVec.ofNat 64 ((List.range m).countP fun j => bit (f j) 15 && bit (g j) 30) } := by
  induction m with
  | zero =>
    show c = _
    obtain ⟨⟩ := c
    simp
  | succ m ih =>
    rw [List.range_succ, List.foldl_append, ih, List.foldl_cons, List.foldl_nil, reclaimStats_eq]
    rw [List.filter_append, List.map_append, List.sum_append, List.countP_append, List.countP_append]
    have hadd : ∀ a b : Nat, BitVec.ofNat 64 (a + b) = BitVec.ofNat 64 a + BitVec.ofNat 64 b := fun a b => BitVec.eq_of_toNat_eq (by simp [BitVec.toNat_ofNat, BitVec.toNat_add])
    have h1 : ∀ x : Counter, ∀ n : Nat, x + BitVec.ofNat 64 n + 1 = x + BitVec.ofNat 64 (n + 1) := by
      intro x n; rw [hadd, ← BitVec.add_assoc]; rfl
    cases h15 : bit (f m) 15 <;> cases h30 : bit (g m) 30 <;> simp [h15, h30, hadd, BitVec.add_assoc, sizesOf, bs1Of, bs2Of]

theorem putBit_putBit (v : Word) {i : Nat} (hi : i < 32) (a b : Bool) : putBit (putBit v i a) i b = putBit v i b
    := by
  apply word_ext
  intro j _
  rw [bit_putBit _ hi, bit_putBit _ hi, bit_putBit _ hi]
  split <;> rfl

/-- A fence before INIT_DESC_CHAIN changes nothing of what it leaves. -/
theorem chainEmptied_fence {s u t : State} {r : RingSel} (hm : s.memLegal) (hu : u =
    { s with mem := u.mem, wbuf := u.wbuf }) (hb : ∀ a, swByte u a = swByte s a)
    (h : chainEmptied u t r) : chainEmptied s t r := by
  have hring : ∀ q, u.ring q = s.ring q := by intro q; rw [hu]; cases q <;> rfl
  refine ⟨fun a ha => ?_, fun i hi k hk => ?_, ?_⟩
  · rw [h.bytes a (by rw [hring]; exact ha), hb]
  · have := h.words i (by rw [hring]; exact hi) k hk
    rw [hring] at this; exact this
  · have := h.rest
    generalize u.mem = M at hu
    generalize u.wbuf = W at hu
    subst hu
    exact this

/-- TX_RECOVERY (R381). -/
theorem recovery_spec {s : State} (hm : s.memLegal) (hl : s.ringsLegal) (hr : s.regsLegal) (hat : s.dev.attached =
    true) (ha : s.tx.allocated = true) :
    ∃ t, chainEmptied { s with csr := { s.csr with dmaCtrl := putBit s.csr.dmaCtrl 0 false, macConfig := putBit s.csr.macConfig 0 false }, dma := { s.dma with ts := .stopped } } t .tx ∧
      txRecovery s = done { t with
          csr := { t.csr with
            dmaCtrl := putBit s.csr.dmaCtrl 0 (s.dev.ifup && !s.dev.suspended)
            macConfig := putBit s.csr.macConfig 0 (s.dev.ifup && !s.dev.suspended) }
          dma := { t.dma with ts := if s.dev.ifup && !s.dev.suspended then .running else .stopped }
          dev := { s.dev with txQueueStopped := false }
          stats := { s.stats with txRecovery := s.stats.txRecovery + 1 } } := by
  have hk := dmaStop_keeps .tx s
  have hst := dmaStop_tx_eq hr
  obtain ⟨t, e, ht⟩ := initChain_spec (s := dmaStop .tx s) (r := .tx) (hk.mem hm) ((dmaStop_rings .tx s).legal hl) (by rw [hst]; exact ha) (by rw [hst]; rfl)
  have hik := initChain_keeps .tx (dmaStop .tx s)
  rw [e] at hik
  have htr : t.regsLegal := hik.regs (hk.regs hr)
  have ht' := chainEmptied_fence (s := { s with csr := { s.csr with dmaCtrl := putBit s.csr.dmaCtrl 0 false, macConfig := putBit s.csr.macConfig 0 false }, dma := { s.dma with ts := .stopped } }) hm (by rw [hst]; rfl) (by rw [hst]; exact fun a => swByte_descFence hm a) ht
  refine ⟨t, ht', ?_⟩
  have hb : (!s.dev.attached || !s.tx.allocated) = false := by simp [hat, ha]
  have hrest := ht'.rest
  have hwb : t.wbuf = [] := by rw [hrest]
  have f1 : t.csr.dmaCtrl = putBit s.csr.dmaCtrl 0 false := by rw [hrest]
  have f2 : t.csr.macConfig = putBit s.csr.macConfig 0 false := by rw [hrest]
  have f3 : t.dma.ts = .stopped := by rw [hrest]
  have f4 : t.dev = s.dev := by rw [hrest]
  have f5 : t.stats = s.stats := by rw [hrest]
  have e1 : txRecovery s = done (applyIf (s.dev.ifup && !s.dev.suspended) (dmaStart .tx) (recovered t)) := by
    simp only [txRecovery, hb, Bool.false_eq_true, if_false, e]
    show done (applyIf ((recovered t).dev.ifup && !(recovered t).dev.suspended) (dmaStart .tx) (recovered t)) = _
    rw [show (recovered t).dev = { s.dev with txQueueStopped := false } by simp only [recovered, f4]]
  rw [e1]
  congr 1
  cases hon : (s.dev.ifup && !s.dev.suspended)
  · show recovered t = _
    simp only [Bool.false_eq_true, if_false, recovered, f4, f5, ← f1, ← f2, ← f3]
  · show dmaStart .tx (recovered t) = _
    rw [dmaStart_tx_eq (s := recovered t) ⟨htr.csr, ⟨htr.start.tx, htr.start.rx⟩, htr.bases⟩]
    show ({ descFence (recovered t) with csr := { t.csr with dmaCtrl := putBit t.csr.dmaCtrl 0 true, macConfig := putBit t.csr.macConfig 0 true }, dma := { t.dma with ts := if t.dma.ts = .stopped then .running else t.dma.ts } } : State) = _
    rw [f1, f2, f3, putBit_putBit _ (by decide), putBit_putBit _ (by decide), if_pos rfl]
    have : descFence (recovered t) = recovered t := by
      show ({ recovered t with mem := t.wbuf.foldl _ t.mem, wbuf := [] } : State) = _
      simp only [hwb, List.foldl_nil]
      show _ = ({ recovered t with mem := t.mem, wbuf := t.wbuf } : State)
      rw [hwb]
    rw [this]
    simp only [recovered, f4, f5, if_true]

end Sys2Proof.Machine
end

