-- ==== Sys2Proof/Laws/Poll.lean ====
section
/-! SUPPORT. The poll loop and the refill pass (R300 to R305). -/

namespace Sys2Proof.Machine

open Sys2Proof

def takeStats (c : RxClass) (len : Nat) (n : Stats) : Stats :=
  if c = .discard then { n with rxErrors := n.rxErrors + 1 }
  else { n with
    rxPackets := n.rxPackets + 1
    rxBytes := n.rxBytes + BitVec.ofNat 64 len
    rxCsumOk := if c = RxClass.csumUnnecessary then n.rxCsumOk + 1 else n.rxCsumOk }

/-- The state after one frame is taken (R302, R303). -/
structure TakenOne (s t : State) (i : Nat) (c : RxClass) (len : Nat) (short : Bool) : Prop where
  slot : t.rxSlots = s.rxSlots.set i (if c ≠ .discard then { buf := none, addr := some 0, pub := false } else { s.rxSlot i with pub := false })
  rest : t = { s with
    rx := { s.rx with comp := s.rx.comp + 1 }
    rxSlots := t.rxSlots
    stats := takeStats c len s.stats
    outputs := s.outputs ++ (if c ≠ .discard then (s.rxSlot i).buf.map fun b => Output.deliver b len (stampOf c) else none).toList
    marks := if c ≠ .discard then withoutBuffer s.marks (s.rxSlot i).addr s.eff.bufSz else s.marks
    regions := if c ≠ .discard then givenAway s.regions (s.rxSlot i).buf else s.regions
    draws := s.draws + if short then 1 else 0 }

theorem list_set_set {α} (l : List α) (i : Nat) (x y : α) : (l.set i x).set i y = l.set i y := by simp

/-- The frame with status `d` is delivered with a length the spec does not state (R303, log 21). -/
def frameShort (ipc : Bool) (d : Word) : Bool := decide (classify ipc d ≠ .discard) && decide (flOf d < 4)

/-- The length a frame with status `d` is delivered with, `draws` free values into the run (R303). -/
def frameLen (d : Word) (draws : Nat) : Nat := if 4 ≤ flOf d then flOf d - 4 else Config.shortFrameLength draws

/-- Taking one frame (R302, R303). -/
theorem takeFrame_spec {s : State} {i : Nat} {d : Word} (hi : i < s.rxSlots.length) :
    TakenOne s (takeFrame i d s) i (classify s.ipc d) (frameLen d s.draws) (frameShort s.ipc d) := by
  by_cases hc : classify s.ipc d = .discard
  · refine ⟨?_, ?_⟩
    · simp only [takeFrame, hc, if_true]; rfl
    · simp only [takeFrame, hc, if_true, takeStats, ne_eq, not_true_eq_false, if_false, Option.toList_none, List.append_nil, frameShort, decide_false, Bool.false_and, Bool.false_eq_true, Nat.add_zero]; rfl
  · have hl : deliveredLen (flOf d) s.draws = (frameLen d s.draws, s.draws + if frameShort s.ipc d then 1 else 0) := by
      simp only [deliveredLen, frameLen, frameShort, ne_eq, hc, not_false_eq_true, decide_true, Bool.true_and, decide_eq_true_eq]
      by_cases h : 4 ≤ flOf d
      · rw [if_pos h, if_pos h, if_neg (by omega), Nat.add_zero]
      · rw [if_neg h, if_neg h, if_pos (by omega)]
    refine ⟨?_, ?_⟩
    · simp only [takeFrame, if_neg hc, ne_eq, hc, not_false_eq_true, if_true]
      have hb : (deliverFrame i (flOf d) (classify s.ipc d) s).rxSlots = s.rxSlots.set i { s.rxSlot i with buf := none, addr := some 0 } := by
        simp only [deliverFrame, State.setRxSlot]
        cases (s.rxSlot i).buf <;> cases (s.rxSlot i).addr <;> rfl
      show (deliverFrame i (flOf d) (classify s.ipc d) s).rxSlots.set i { (deliverFrame i (flOf d) (classify s.ipc d) s).rxSlot i with pub := false } = _
      have hs : (deliverFrame i (flOf d) (classify s.ipc d) s).rxSlot i = { s.rxSlot i with buf := none, addr := some 0 } := by
        simp only [State.rxSlot, hb]; exact getD_set_self _ hi _ _
      rw [hb, hs, list_set_set]
    · simp only [takeFrame, if_neg hc, ne_eq, hc, not_false_eq_true, if_true, takeStats, if_false]
      simp only [deliverFrame, State.setPub, State.setRxSlot, unmapIf_eq, hl]
      cases hb : (s.rxSlot i).buf with
      | none => simp only [Option.map_none, Option.toList_none, List.append_nil, givenAway]
      | some b => simp only [Option.map_some, Option.toList_some, givenAway]; rfl

/-! The frames a run takes, in order: the slot, its status, its class, how many of the first ones have no stated length, and the
length each is delivered with. -/

def takenIdx (s : State) (j : Nat) : Nat := idx (s.rx.comp + natWord j) s.rx.n

def takenWord (s : State) (j : Nat) : Word := s.descWord .rx (takenIdx s j) 0

def takenClass (s : State) (j : Nat) : RxClass := classify s.ipc (takenWord s j)

def takenShorts (s : State) (m : Nat) : Nat := (List.range m).countP fun j => frameShort s.ipc (takenWord s j)

def takenLen (s : State) (j : Nat) : Nat := frameLen (takenWord s j) (s.draws + takenShorts s j)

def takenSlot (s : State) (j : Nat) : RxSlot := s.rxSlot (takenIdx s j)

theorem takenIdx_zero (s : State) : takenIdx s 0 = idx s.rx.comp s.rx.n :=
  congrArg (idx · s.rx.n) (BitVec.add_zero s.rx.comp)

/-- The state after `m` frames are taken (R300). -/
structure TakenRun (s t : State) (m : Nat) : Prop where
  slots : t.rxSlots.length = s.rxSlots.length
  taken : ∀ j < m, t.rxSlot (takenIdx s j) =
    if takenClass s j ≠ .discard then { buf := none, addr := some 0, pub := false } else { takenSlot s j with pub := false }
  others : ∀ i < s.rx.n, (∀ j < m, i ≠ takenIdx s j) → t.rxSlot i = s.rxSlot i
  rest : t = { s with
    rx := { s.rx with comp := s.rx.comp + natWord m }
    rxSlots := t.rxSlots
    stats := (List.range m).foldl (fun c j => takeStats (takenClass s j) (takenLen s j) c) s.stats
    outputs := s.outputs ++ (List.range m).filterMap fun j => if takenClass s j ≠ .discard then (takenSlot s j).buf.map fun b => Output.deliver b (takenLen s j) (stampOf (takenClass s j)) else none
    marks := (List.range m).foldl (fun g j => if takenClass s j ≠ .discard then withoutBuffer g (takenSlot s j).addr s.eff.bufSz else g) s.marks
    regions := (List.range m).foldl (fun g j => if takenClass s j ≠ .discard then givenAway g (takenSlot s j).buf else g) s.regions
    draws := s.draws + takenShorts s m }

theorem TakenRun.nil (s : State) : TakenRun s s 0 := by
  refine ⟨rfl, fun j hj => absurd hj (by omega), fun i _ _ => rfl, ?_⟩
  have : s.rx.comp + natWord 0 = s.rx.comp := BitVec.add_zero _
  rw [this]
  simp [takenShorts]

/-- What the run sees after its first frame: the same frames, one place on. -/
structure TakenShift (s t : State) : Prop where
  ring : t.rx = { s.rx with comp := s.rx.comp + 1 }
  ipc : t.ipc = s.ipc
  eff : t.eff = s.eff
  draws : t.draws = s.draws + if frameShort s.ipc (takenWord s 0) then 1 else 0
  words : ∀ i k, t.descWord .rx i k = s.descWord .rx i k
  slots : ∀ i, i ≠ takenIdx s 0 → t.rxSlot i = s.rxSlot i

namespace TakenShift

variable {s t : State} (h : TakenShift s t)
include h

theorem n : t.rx.n = s.rx.n := by rw [h.ring]

theorem idx_succ (j : Nat) : takenIdx t j = takenIdx s (j + 1) := by
  simp only [takenIdx, h.ring]
  exact congrArg (idx · s.rx.n) (add_natWord_succ _ _)

theorem word (j : Nat) : takenWord t j = takenWord s (j + 1) := by
  simp only [takenWord, h.idx_succ, h.words]

theorem cls (j : Nat) : takenClass t j = takenClass s (j + 1) := by
  simp only [takenClass, h.word, h.ipc]

theorem shorts (m : Nat) : t.draws + takenShorts t m = s.draws + takenShorts s (m + 1) := by
  have : takenShorts s (m + 1) = (if frameShort s.ipc (takenWord s 0) then 1 else 0) + takenShorts t m := by
    simp only [takenShorts, List.range_succ_eq_map, List.countP_cons, List.countP_map, h.word, h.ipc]
    exact Nat.add_comm _ _
  rw [this, h.draws, Nat.add_assoc]

theorem len (j : Nat) : takenLen t j = takenLen s (j + 1) := by
  simp only [takenLen, h.word, h.shorts]

theorem ne {j : Nat} (hn : ringSizeLegal s.rx.n = true) (hj : j + 1 < s.rx.n) : takenIdx s (j + 1) ≠ takenIdx s 0 :=
  fun hc => absurd (idx_inj (ringSizeLegal_dvd hn) hj (by omega) hc) (by omega)

theorem slot {j : Nat} (hn : ringSizeLegal s.rx.n = true) (hj : j + 1 < s.rx.n) : takenSlot t j = takenSlot s (j + 1) := by
  simp only [takenSlot, h.idx_succ, h.slots _ (h.ne hn hj)]

end TakenShift

/-- The poll loop (R300, R301). -/
theorem pollLoop_spec (fuel : Nat) : ∀ s : State, ringSizeLegal s.rx.n = true → s.arraysLegal →
    s.rxSlots.length = s.rx.n →
    (∀ i < s.rx.n, s.descClear .rx i) → fuel < s.rx.n →
    (pollLoop fuel s).1 ≤ fuel ∧
    (∀ j < (pollLoop fuel s).1, s.ownSeen .rx (takenIdx s j) = false) ∧
    ((pollLoop fuel s).1 < fuel → s.ownSeen .rx (takenIdx s (pollLoop fuel s).1) = true) ∧
    TakenRun s (pollLoop fuel s).2 (pollLoop fuel s).1 := by
  induction fuel with
  | zero =>
    intro s _ _ _ _ _
    exact ⟨le_refl _, fun j hj => absurd hj (by simp [pollLoop]), fun h => absurd h (by simp [pollLoop]), .nil s⟩
  | succ fuel ih =>
    intro s hn hL hsl hu hf
    have hb := ringSizeLegal_bounds hn
    have h0 := takenIdx_zero s
    have hin : takenIdx s 0 < s.rx.n := idx_lt (by omega)
    by_cases hc : s.ownSeen .rx (takenIdx s 0) = true
    · have e : pollLoop (fuel + 1) s = (0, s) := by
        simp only [pollLoop, ← h0, hc, if_true]
        rw [readDesc_eq (hu _ hin) (by decide) (.inl rfl)]
      rw [e]
      exact ⟨by simp, fun j hj => absurd hj (by simp), fun _ => hc, .nil s⟩
    · rw [Bool.not_eq_true] at hc
      have h1 := takeFrame_spec (s := s) (i := takenIdx s 0) (d := takenWord s 0) (by rw [hsl]; exact hin)
      have e : pollLoop (fuel + 1) s = ((pollLoop fuel (takeFrame (takenIdx s 0) (takenWord s 0) s)).1 + 1, (pollLoop fuel (takeFrame (takenIdx s 0) (takenWord s 0) s)).2) := by
        simp only [pollLoop, ← h0, hc, Bool.false_eq_true, if_false]
        rw [readDesc_eq (hu _ hin) (by decide) (.inl rfl)]; rfl
      rw [e]
      have hcl : classify s.ipc (takenWord s 0) = takenClass s 0 := rfl
      have hl0 : frameLen (takenWord s 0) s.draws = takenLen s 0 := rfl
      rw [hcl, hl0] at h1
      generalize takeFrame (takenIdx s 0) (takenWord s 0) s = t1 at *
      have hr := h1.rest
      have q1 : t1.rx = { s.rx with comp := s.rx.comp + 1 } := by rw [hr]
      have qS : SameArrays s t1 := fun r => by
        cases r
        · simp only [State.ring, show t1.tx = s.tx by rw [hr]]; trivial
        · simp only [State.ring, q1]; trivial
      have qmk : t1.marks = if takenClass s 0 ≠ .discard then withoutBuffer s.marks (s.rxSlot (takenIdx s 0)).addr s.eff.bufSz else s.marks := by rw [hr]
      have hsh : TakenShift s t1 := {
        ring := q1
        ipc := by rw [hr]
        eff := by rw [hr]
        draws := by rw [hr]
        words := fun i k => descWord_congr (fun a => by rw [hr]; rfl) (by rw [hr]) (by simp only [State.ring, q1])
        slots := fun i hne => by simp only [State.rxSlot, h1.slot]; exact getD_set_ne _ (Ne.symm hne) _ _ }
      have qu : ∀ i < t1.rx.n, t1.descClear .rx i := by
        intro i hi'
        rw [hsh.n] at hi'
        refine (hu i hi').same hL hi' qS (fun a _ hm => ?_) (fun a => by rw [hr]; rfl) (by rw [hr])
        simp only [State.marked, qmk]
        split
        · exact withoutBuffer_marked hm
        · exact hm
      have qs0 : t1.rxSlot (takenIdx s 0) = if takenClass s 0 ≠ .discard then { buf := none, addr := some 0, pub := false } else { takenSlot s 0 with pub := false } := by
        rw [State.rxSlot, h1.slot]; exact getD_set_self _ (by rw [hsl]; exact hin) _ _
      obtain ⟨i1, i2, i3, i4⟩ := ih t1 (by rw [hsh.n]; exact hn) (hL.of_same qS) (by rw [h1.slot, hsh.n, List.length_set]; exact hsl) qu (by rw [hsh.n]; omega)
      generalize (pollLoop fuel t1).1 = m at *
      generalize (pollLoop fuel t1).2 = t at *
      refine ⟨by simp only; omega, ?_, ?_, ?_⟩
      · intro j hj
        cases j with
        | zero => exact hc
        | succ j =>
          have := i2 j (by simp only at hj; omega)
          rw [hsh.idx_succ, State.ownSeen, hsh.words] at this
          exact this
      · intro hm
        have := i3 (by simp only at hm; omega)
        rw [hsh.idx_succ, State.ownSeen, hsh.words] at this
        exact this
      · refine ⟨?_, ?_, ?_, ?_⟩
        · rw [i4.slots, h1.slot, List.length_set]
        · intro j hj
          cases j with
          | zero =>
            rw [i4.others (takenIdx s 0) (by rw [hsh.n]; exact hin) (by intro j hj'; rw [hsh.idx_succ]; exact (hsh.ne hn (by omega)).symm)]
            exact qs0
          | succ j =>
            have hw := i4.taken j (by omega)
            rw [hsh.idx_succ, hsh.cls, hsh.slot hn (by omega)] at hw
            exact hw
        · intro i hi' hne
          rw [i4.others i (by rw [hsh.n]; exact hi') (by intro j hj; rw [hsh.idx_succ]; exact hne (j + 1) (by omega))]
          exact hsh.slots i (hne 0 (by omega))
        · have h4 := i4.rest
          have g1 : (List.range m).foldl (fun c j => takeStats (takenClass t1 j) (takenLen t1 j) c) t1.stats
              = (List.range (m + 1)).foldl (fun c j => takeStats (takenClass s j) (takenLen s j) c) s.stats := by
            rw [List.range_succ_eq_map, List.foldl_cons, List.foldl_map, show t1.stats = takeStats (takenClass s 0) (takenLen s 0) s.stats by rw [hr]]
            exact foldl_range_congr (fun j hj a => by rw [hsh.cls, hsh.len]) _
          have g2 : (List.range m).foldl (fun g j => if takenClass t1 j ≠ .discard then withoutBuffer g (takenSlot t1 j).addr t1.eff.bufSz else g) t1.marks
              = (List.range (m + 1)).foldl (fun g j => if takenClass s j ≠ .discard then withoutBuffer g (takenSlot s j).addr s.eff.bufSz else g) s.marks := by
            rw [List.range_succ_eq_map, List.foldl_cons, List.foldl_map, qmk, hsh.eff]
            exact foldl_range_congr (fun j hj a => by rw [hsh.cls, hsh.slot hn (by omega)]) _
          have g5 : (List.range m).foldl (fun g j => if takenClass t1 j ≠ .discard then givenAway g (takenSlot t1 j).buf else g) t1.regions
              = (List.range (m + 1)).foldl (fun g j => if takenClass s j ≠ .discard then givenAway g (takenSlot s j).buf else g) s.regions := by
            rw [List.range_succ_eq_map, List.foldl_cons, List.foldl_map, show t1.regions = if takenClass s 0 ≠ .discard then givenAway s.regions (takenSlot s 0).buf else s.regions by rw [hr]; rfl]
            exact foldl_range_congr (fun j hj a => by rw [hsh.cls, hsh.slot hn (by omega)]) _
          have g3 : t1.outputs ++ ((List.range m).filterMap fun j => if takenClass t1 j ≠ .discard then (takenSlot t1 j).buf.map fun b => Output.deliver b (takenLen t1 j) (stampOf (takenClass t1 j)) else none)
              = s.outputs ++ ((List.range (m + 1)).filterMap fun j => if takenClass s j ≠ .discard then (takenSlot s j).buf.map fun b => Output.deliver b (takenLen s j) (stampOf (takenClass s j)) else none) := by
            rw [List.range_succ_eq_map, List.filterMap_cons, List.filterMap_map]
            have : t1.outputs = s.outputs ++ (if takenClass s 0 ≠ .discard then (takenSlot s 0).buf.map fun b => Output.deliver b (takenLen s 0) (stampOf (takenClass s 0)) else none).toList := congrArg State.outputs hr
            rw [this]
            rw [filterMap_range_congr (g := (fun j => if takenClass s j ≠ .discard then (takenSlot s j).buf.map fun b => Output.deliver b (takenLen s j) (stampOf (takenClass s j)) else none) ∘ Nat.succ) (fun j hj => by rw [hsh.cls, hsh.len, hsh.slot hn (by omega)]; rfl)]
            cases (if takenClass s 0 ≠ .discard then (takenSlot s 0).buf.map fun b => Output.deliver b (takenLen s 0) (stampOf (takenClass s 0)) else none) <;> simp
          have g4 : t1.rx.comp + natWord m = s.rx.comp + natWord (m + 1) := by rw [q1]; exact add_natWord_succ _ _
          rw [g1, g2, g3, g4, g5, hsh.shorts] at h4
          generalize (List.range (m + 1)).foldl (fun c j => takeStats (takenClass s j) (takenLen s j) c) s.stats = A at *
          generalize (List.range (m + 1)).foldl (fun g j => if takenClass s j ≠ .discard then withoutBuffer g (takenSlot s j).addr s.eff.bufSz else g) s.marks = B at *
          generalize (List.range (m + 1)).foldl (fun g j => if takenClass s j ≠ .discard then givenAway g (takenSlot s j).buf else g) s.regions = C at *
          generalize t.rxSlots = D at *
          rw [h4]
          clear h4 g1 g2 g3 g4 g5 i4 i3 i2 i1 ih qs0 qu hsh qmk q1 qS h1
          rw [hr]

/-! ### Refills (R223, R305) -/

theorem answer_succ (s : State) (j : Nat) :
    (s.allocAnswers.drop 1).getD j (Config.allocAnswer (s.draws + (1 - s.allocAnswers.length) + (j - (s.allocAnswers.drop 1).length))) =
      s.answer (j + 1) := by
  cases h : s.allocAnswers with
  | nil =>
    simp only [State.answer, h, List.drop_nil, List.getD_nil, List.length_nil, Nat.sub_zero]
    rw [Nat.add_assoc, Nat.add_comm 1 j]
  | cons x l =>
    simp only [State.answer, h, List.drop_succ_cons, List.drop_zero, List.length_cons, List.getD_cons_succ]
    rw [show 1 - (l.length + 1) = 0 by omega, show j + 1 - (l.length + 1) = j - l.length by omega]
    rfl

/-- One draw (R11). -/
theorem drawAnswer_spec (s : State) : drawAnswer s =
    (s.answer 0, { s with allocAnswers := s.allocAnswers.drop 1, draws := s.draws + (1 - s.allocAnswers.length) }) := by
  simp only [drawAnswer, State.answer]
  split
  · rename_i x l h
    simp only [h, List.getD_cons_zero, List.drop_succ_cons, List.drop_zero, List.length_cons]
    rw [show 1 - (l.length + 1) = 0 by omega]; rfl
  · rename_i h
    simp only [h, List.getD_nil, List.drop_nil, List.length_nil]; rfl

/-- What an allocation answers (R11, R83). -/
theorem allocBuf_spec (len : Nat) (s : State) :
    (∃ b, s.answer 0 = some b ∧ s.fresh 4 b len = true ∧ allocBuf len s = (some b, { s with
      allocAnswers := s.allocAnswers.drop 1
      draws := s.draws + (1 - s.allocAnswers.length)
      regions := s.regions ++ [{ base := b, len := len, owner := .pool }] })) ∨
    ((∀ b, s.answer 0 = some b → s.fresh 4 b len = false) ∧ allocBuf len s = (none, { s with
      allocAnswers := s.allocAnswers.drop 1
      draws := s.draws + (1 - s.allocAnswers.length) })) := by
  simp only [allocBuf, drawFresh, drawAnswer_spec]
  cases h : s.answer 0 with
  | none => exact .inr ⟨fun b hb => (by cases hb), rfl⟩
  | some b =>
    have hf : State.fresh { s with allocAnswers := s.allocAnswers.drop 1, draws := s.draws + (1 - s.allocAnswers.length) } 4 b len = s.fresh 4 b len := rfl
    simp only [hf]
    cases hq : s.fresh 4 b len with
    | true => exact .inl ⟨b, rfl, hq, rfl⟩
    | false => exact .inr ⟨fun b' hb => by cases hb; exact hq, rfl⟩

/-- The state after one refill (R223). -/
structure RefilledOne (s t : State) (i : Nat) (new : List Word) : Prop where
  mem : t.memLegal
  bytes : sameBytesButDesc s t .rx i
  words : ∀ k < 4, t.descWord .rx i k =
          if k = 0 then 0x8000_0000
          else if k = 1 then rxDes1 (bit (s.descWord .rx i 1) 27) (decide ((s.rx.coalCnt + 1).toNat < s.eff.rxCoal)) s.eff.bufSz
          else if k = 2 then (t.rxSlot i).addr.getD 0 else 0
  memory : ∀ x, inSpan (s.descAddr .rx i 0) 4 x = false → memRead t.mem x.toNat = swByte t x
  kept : ∀ b, (s.rxSlot i).buf = some b → new = [] ∧ (t.rxSlot i) = { s.rxSlot i with pub := true }
  fresh : (s.rxSlot i).buf = none → ∃ b, new = [b] ∧ (t.rxSlot i) = { buf := some b, addr := some (dmaMapOf s.params b), pub := true } ∧
    s.answer 0 = some b ∧ FreshAt s 4 b s.eff.bufSz
  others : ∀ j, j ≠ i → t.rxSlot j = s.rxSlot j
  slots : t.rxSlots.length = s.rxSlots.length
  rest : t = { s.withBuffers new with
    rx := { s.rx with sub := s.rx.sub + 1, coalCnt := coalNext s.eff.rxCoal s.rx.coalCnt }
    rxSlots := t.rxSlots
    allocAnswers := s.allocAnswers.drop new.length
    draws := s.draws + (new.length - s.allocAnswers.length)
    mem := t.mem
    wbuf := t.wbuf }

theorem RefilledOne.arrays {s t : State} {i : Nat} {new : List Word} (h : RefilledOne s t i new) : SameArrays s t := fun r => by
  rw [h.rest]; cases r <;> exact ⟨rfl, rfl, rfl⟩

/-- The array stays free of the hardware's bytes through a refill, if the buffer the slot keeps lies apart from it. -/
theorem RefilledOne.clear {s t : State} {i : Nat} {new : List Word} (h : RefilledOne s t i new) (hL : s.arraysLegal)
    (hi : i < s.rx.n) (hk : ∀ b, (s.rxSlot i).buf = some b → s.arrayApart .rx ((s.rxSlot i).addr.getD 0) s.eff.bufSz)
    (hu : s.arrayClear .rx) : t.arrayClear .rx := by
  intro a ha
  rw [h.arrays.holds] at ha
  have hm : t.marks = s.marks ++ new.map _ := congrArg State.marks h.rest
  have w1 := h.words 1 (by decide)
  have w2 := h.words 2 (by decide)
  simp only [show ¬ (1 = 0) by decide, if_false, if_true] at w1
  simp only [show ¬ (2 = 0) by decide, show ¬ (2 = 1) by decide, if_false, if_true] at w2
  have hsz := rxDes1_sizes (bit (s.descWord .rx i 1) 27) (decide ((s.rx.coalCnt + 1).toNat < s.eff.rxCoal)) s.eff.bufSz
  rw [← w1] at hsz
  have key : ∀ d, (t.rxSlot i).addr.getD 0 = d → inSpan d s.eff.bufSz a = false → t.descAddresses .rx i a = false := fun d hd hs =>
    not_addressed (by rw [hsz.1]; exact Nat.mod_le _ _) hsz.2 (w2.trans hd) hs
  have hp : t.params.endian = s.params.endian := by rw [h.rest]; rfl
  cases hb : (s.rxSlot i).buf with
  | some b =>
    obtain ⟨rfl, hs⟩ := h.kept b hb
    exact deviceByte_write (r := .rx) hL hi h.arrays ha (fun hx => by simp only [State.marked, hm, List.map_nil, List.append_nil]; exact hx) h.bytes hp
      (.inr (key _ (by rw [hs]) (hk b hb a ha))) (hu a ha)
  | none =>
    obtain ⟨b, rfl, hs, -, hf⟩ := h.fresh hb
    refine deviceByte_write (r := .rx) hL hi h.arrays ha (fun hx => ?_) h.bytes hp
      (.inr (key _ (by rw [hs]; rfl) (meetsArray_apart hf.images .rx ha))) (hu a ha)
    simp only [State.marked, hm, List.map_cons, List.map_nil, List.any_append, List.any_cons, List.any_nil, Bool.or_false] at *
    rw [hx, meetsArray_apart hf.arrays .rx ha]; rfl

/-- One refill with the oracle (R223). -/
theorem refillAlloc_spec {s : State} {i : Nat} (hm : s.memLegal) (hL : s.arraysLegal) (hsl : s.rxSlots.length = s.rx.n)
    (hfull : s.rx.inflight < s.rx.n - 1) (hi : i < s.rx.n) (hu : s.arrayClear .rx) (ho : s.ownSeen .rx i = false) :
    (∃ t new, refillAlloc i s = done t ∧ RefilledOne s t i new) ∨
    ((s.rxSlot i).buf = none ∧ (∀ b, s.answer 0 = some b → s.fresh 4 b s.eff.bufSz = false) ∧
      refillAlloc i s = failed { s with
        stats := { s.stats with rxAllocFail := s.stats.rxAllocFail + 1 }
        allocAnswers := s.allocAnswers.drop 1
        draws := s.draws + (1 - s.allocAnswers.length) }) := by
  have hud : s.descClear .rx i := State.arrayClear.desc (r := .rx) hu (hL.used .rx i hi) hi (hL.bound .rx)
  have c2 : ¬ (s.rx.n - 1 ≤ s.rx.inflight) := by omega
  cases hbuf : (s.rxSlot i).buf with
  | some b =>
    left
    have e : refillAlloc i s = done (armRx i s) := by
      simp only [refillAlloc]; rw [if_neg c2]; simp only [hbuf]
    have hp := armRx_spec hm hL hi hud ho
    have hk := (armRx_keeps i s).mem hm
    generalize armRx i s = t at *
    have hr := hp.rest
    have hslots : t.rxSlots = s.rxSlots.set i { s.rxSlot i with pub := true } := by rw [hr]; rfl
    have hslot : t.rxSlot i = { s.rxSlot i with pub := true } := by
      simp only [State.rxSlot, hslots]; exact getD_set_self _ (by rw [hsl]; exact hi) _ _
    refine ⟨t, [], e, hk, hp.bytes, fun k hk => ?_, hp.memory, fun b' _ => ⟨rfl, hslot⟩, fun h => absurd h (by rw [hbuf]; simp), ?_, ?_, ?_⟩
    · rw [hslot]; exact hp.words k hk
    · intro j hj; simp only [State.rxSlot, hslots]; exact getD_set_ne _ (Ne.symm hj) _ _
    · rw [hslots, List.length_set]
    · rw [hslots]
      simp only [State.withBuffers, List.map_nil, List.append_nil, List.length_nil, List.drop_zero, Nat.zero_sub, Nat.add_zero]
      exact hr
  | none =>
    rcases allocBuf_spec s.eff.bufSz s with ⟨b, hans, hfr, hal⟩ | ⟨hno, hal⟩
    swap
    · right
      refine ⟨rfl, hno, ?_⟩
      simp only [refillAlloc]; rw [if_neg c2]; simp only [hbuf, hal]
    left
    have hfr' := fresh_iff.1 hfr
    let s2 : State := { s with
      allocAnswers := s.allocAnswers.drop 1
      draws := s.draws + (1 - s.allocAnswers.length)
      regions := s.regions ++ [{ base := b, len := s.eff.bufSz, owner := .pool }] }
    have e : refillAlloc i s = done (armRx i (bindRx i b s2)) := by
      simp only [refillAlloc]; rw [if_neg c2]; simp only [hbuf, hal]; rfl
    have hadd : addRegion b s.eff.bufSz s2 = s2 := by
      unfold addRegion
      rw [if_pos]
      show (s.regions ++ [_]).any _ = true
      rw [List.any_append, Bool.or_eq_true]; right
      simp only [List.any_cons, List.any_nil, Bool.or_false, decide_eq_true_eq, BitVec.sub_self b]
      exact (Nat.zero_add _).le
    have hmap : mapBuf b s2.eff.bufSz s2 = { descFence s2 with marks := s.marks ++ [{ dma := dmaMapOf s.params b, cpu := b, len := s.eff.bufSz }] } := by
      rw [mapBuf_eq, mapBuf_regions, show s2.eff.bufSz = s.eff.bufSz from rfl, hadd]; rfl
    let y : RxSlot := { s.rxSlot i with buf := some b, addr := some (dmaMapOf s.params b) }
    have hbind : bindRx i b s2 = { descFence s2 with marks := s.marks ++ [{ dma := dmaMapOf s.params b, cpu := b, len := s.eff.bufSz }], rxSlots := s.rxSlots.set i y } := by
      simp only [bindRx, State.setRxSlot, hmap]; rfl
    have hm2 : s2.memLegal := hm
    have hbm := (bindRx_keeps i b s2).mem hm2
    have sb : ∀ a, swByte (bindRx i b s2) a = swByte s a := by
      intro a; rw [hbind]
      exact swByte_descFence hm2 a
    have hS : SameArrays s (bindRx i b s2) := .of_eq (by rw [hbind]; rfl) (by rw [hbind]; rfl)
    have hparams : (bindRx i b s2).params = s.params := by rw [hbind]; rfl
    have hrx : (bindRx i b s2).rx = s.rx := by rw [hbind]; rfl
    have hwd : ∀ j k, (bindRx i b s2).descWord .rx j k = s.descWord .rx j k := fun j k => descWord_congr sb hparams (by simp only [State.ring, hrx])
    have hda : ∀ j k, (bindRx i b s2).descAddr .rx j k = s.descAddr .rx j k := fun j k => by simp only [State.descAddr, State.ring, hrx]
    have hud2 : (bindRx i b s2).descClear .rx i := hud.same hL hi hS (fun a ha hx => by
      rw [hbind]
      have := meetsArray_apart hfr'.arrays .rx (hL.holds (r := .rx) hi ha)
      simp only [State.marked, List.any_append, List.any_cons, List.any_nil, Bool.or_false] at *
      rw [hx, this]; rfl) sb (by rw [hparams])
    have hp := armRx_spec hbm (hL.of_same hS) (by rw [hrx]; exact hi) hud2 (by rw [State.ownSeen, hwd]; exact ho)
    have hk := (armRx_keeps i (bindRx i b s2)).mem hbm
    have hbs : (bindRx i b s2).rxSlots = s.rxSlots.set i y := by rw [hbind]
    have hby : (bindRx i b s2).rxSlot i = y := by simp only [State.rxSlot, hbs]; exact getD_set_self _ (by rw [hsl]; exact hi) _ _
    have heff : (bindRx i b s2).eff = s.eff := by rw [hbind]; rfl
    rw [e]
    generalize armRx i (bindRx i b s2) = t at *
    have hr := hp.rest
    have hslots : t.rxSlots = s.rxSlots.set i { y with pub := true } := by
      rw [hr]
      show (bindRx i b s2).rxSlots.set i { (bindRx i b s2).rxSlot i with pub := true } = _
      rw [hby, hbs, list_set_set]
    have hslot : t.rxSlot i = { y with pub := true } := by
      simp only [State.rxSlot, hslots]; exact getD_set_self _ (by rw [hsl]; exact hi) _ _
    refine ⟨t, [b], rfl, hk, ?_, fun k hk => ?_, fun x hx => hp.memory x (by rw [hda]; exact hx), fun b' h => absurd h (by rw [hbuf]; simp), fun _ => ⟨b, rfl, hslot, hans, hfr'⟩, ?_, ?_, ?_⟩
    · intro a haa
      exact (hp.bytes a (by rw [hda]; exact haa)).trans (sb a)
    · rw [hslot, hp.words k hk, hwd, hrx, heff, hby]; rfl
    · intro j hj; simp only [State.rxSlot, hslots]; exact getD_set_ne _ (Ne.symm hj) _ _
    · rw [hslots, List.length_set]
    · have hr' : t = { bindRx i b s2 with
          rxSlots := t.rxSlots
          rx := { s.rx with sub := s.rx.sub + 1, coalCnt := coalNext s.eff.rxCoal s.rx.coalCnt }
          mem := t.mem, wbuf := t.wbuf } := by
        have h8 : (State.setPub (bindRx i b s2) .rx i true).rxSlots = t.rxSlots := by rw [hr]
        rw [← h8]
        have h9 := hr
        rw [hrx, heff] at h9
        exact h9
      rw [hbind] at hr'
      exact hr'

/-- Slot `k` from the submission cursor up. -/
def filledIdx (s : State) (j : Nat) : Nat := idx (s.rx.sub + natWord j) s.rx.n

/-- The first `k` slots from the submission cursor up that hold no buffer. -/
def filledEmpty (s : State) (k : Nat) : Nat := (List.range k).countP fun j => (s.rxSlot (filledIdx s j)).buf.isNone

/-- The state after `k` refills, of which the last draw `failed` or none did (R305). -/
structure RefilledRun (s t : State) (k : Nat) (failed : Bool) (new : List Word) : Prop where
  mem : t.memLegal
  bytes : sameBytesButRing s t .rx
  slots : t.rxSlots.length = s.rxSlots.length
  words : ∀ j < k, t.descWord .rx (filledIdx s j) 0 = 0x8000_0000 ∧
          t.descWord .rx (filledIdx s j) 1 =
            rxDes1 (bit (s.descWord .rx (filledIdx s j) 1) 27)
            (decide (((coalNext s.eff.rxCoal)^[j] s.rx.coalCnt + 1).toNat < s.eff.rxCoal)) s.eff.bufSz ∧
          t.descWord .rx (filledIdx s j) 2 = (t.rxSlot (filledIdx s j)).addr.getD 0 ∧
          t.descWord .rx (filledIdx s j) 3 = 0
  memory : ∀ j, k = j + 1 → ∀ x, inSpan (s.descAddr .rx (filledIdx s j) 0) 4 x = false → memRead t.mem x.toNat = swByte t x
  idle : k = 0 → t.mem = s.mem ∧ t.wbuf = s.wbuf
  kept : ∀ j < k, ∀ b, (s.rxSlot (filledIdx s j)).buf = some b →
    t.rxSlot (filledIdx s j) = { s.rxSlot (filledIdx s j) with pub := true }
  fresh : ∀ j < k, (s.rxSlot (filledIdx s j)).buf = none → ∃ b, new[filledEmpty s j]? = some b ∧
    t.rxSlot (filledIdx s j) = { buf := some b, addr := some (dmaMapOf s.params b), pub := true }
  count : new.length = filledEmpty s k
  oracle : s.refillsWith new failed
  stopped : failed = true → (s.rxSlot (filledIdx s k)).buf = none
  others : ∀ i < s.rx.n, (∀ j < k, i ≠ filledIdx s j) → t.rxSlot i = s.rxSlot i ∧ ∀ w < 4, t.descWord .rx i w = s.descWord .rx i w
  rest : t = { s.withBuffers new with
    rx := { s.rx with sub := s.rx.sub + natWord k, coalCnt := (coalNext s.eff.rxCoal)^[k] s.rx.coalCnt }
    rxSlots := t.rxSlots
    stats := { s.stats with rxAllocFail := if failed then s.stats.rxAllocFail + 1 else s.stats.rxAllocFail }
    allocAnswers := s.allocAnswers.drop (new.length + failed.toNat)
    draws := s.draws + (new.length + failed.toNat - s.allocAnswers.length)
    mem := t.mem
    wbuf := t.wbuf }

/-- What the refills after the first see: the same slots, one place on, and what the oracle has left. -/
structure FilledShift (s t : State) (n1 : List Word) : Prop where
  ring : t.rx = { s.rx with sub := s.rx.sub + 1, coalCnt := coalNext s.eff.rxCoal s.rx.coalCnt }
  eff : t.eff = s.eff
  params : t.params = s.params
  txr : t.tx = s.tx
  marks : t.marks = (s.withBuffers n1).marks
  regions : t.regions = (s.withBuffers n1).regions
  short : n1.length ≤ 1
  answers : t.allocAnswers = s.allocAnswers.drop n1.length
  draws : t.draws = s.draws + (n1.length - s.allocAnswers.length)
  slots : ∀ i, i ≠ filledIdx s 0 → t.rxSlot i = s.rxSlot i
  empty : n1.length = if (s.rxSlot (filledIdx s 0)).buf.isNone then 1 else 0
  given : ∀ b, n1[0]? = some b → s.answer 0 = some b ∧ s.fresh 4 b s.eff.bufSz = true

namespace FilledShift

variable {s t : State} {n1 : List Word} (h : FilledShift s t n1)
include h

theorem n : t.rx.n = s.rx.n := by rw [h.ring]

theorem idx_succ (j : Nat) : filledIdx t j = filledIdx s (j + 1) := by
  simp only [filledIdx, h.ring]
  exact congrArg (idx · s.rx.n) (add_natWord_succ _ _)

theorem ne {j : Nat} (hn : ringSizeLegal s.rx.n = true) (hj : j + 1 < s.rx.n) : filledIdx s (j + 1) ≠ filledIdx s 0 :=
  fun hc => absurd (idx_inj (ringSizeLegal_dvd hn) hj (by omega) hc) (by omega)

theorem slot {j : Nat} (hn : ringSizeLegal s.rx.n = true) (hj : j + 1 < s.rx.n) :
    t.rxSlot (filledIdx t j) = s.rxSlot (filledIdx s (j + 1)) := by
  rw [h.idx_succ, h.slots _ (h.ne hn hj)]

theorem count {k : Nat} (hn : ringSizeLegal s.rx.n = true) (hk : k + 1 ≤ s.rx.n) :
    filledEmpty s (k + 1) = n1.length + filledEmpty t k := by
  simp only [filledEmpty, List.range_succ_eq_map, List.countP_cons, List.countP_map, h.empty]
  rw [Nat.add_comm]
  congr 1
  refine List.countP_congr fun j hj => ?_
  have hj := List.mem_range.1 hj
  simp only [Function.comp, h.slot hn (show j + 1 < s.rx.n by omega)]

theorem answer (j : Nat) : t.answer j = s.answer (n1.length + j) := by
  have hs := h.short
  rcases Nat.lt_or_ge n1.length 1 with h0 | h1
  · have h0 : n1.length = 0 := by omega
    simp only [State.answer, h.answers, h.draws, h0, List.drop_zero, Nat.zero_sub, Nat.add_zero, Nat.zero_add]
  · have h1 : n1.length = 1 := by omega
    rw [h1, Nat.add_comm, ← answer_succ]
    simp only [State.answer, h.answers, h.draws, h1]

theorem withBuffers (bs : List Word) (b : Word) : (t.withBuffers bs).fresh 4 b t.eff.bufSz = (s.withBuffers (n1 ++ bs)).fresh 4 b s.eff.bufSz := by
  have em : (t.withBuffers bs).marks = (s.withBuffers (n1 ++ bs)).marks := by
    simp only [State.withBuffers, h.marks, h.eff, h.params, List.map_append, List.append_assoc]
  have er : (t.withBuffers bs).regions = (s.withBuffers (n1 ++ bs)).regions := by
    simp only [State.withBuffers, h.regions, h.eff, List.map_append, List.append_assoc]
  simp only [State.fresh, State.meetsArray, State.meetsMark, em, er, h.eff]
  simp only [State.withBuffers, h.ring, h.txr, h.params]

theorem refillsWith {new : List Word} {failed : Bool} (hw : t.refillsWith new failed) : s.refillsWith (n1 ++ new) failed where
  given j b hb := by
    rcases Nat.lt_or_ge j n1.length with hj | hj
    · have : j = 0 := by have := h.short; omega
      subst this
      rw [List.getElem?_append_left hj] at hb
      obtain ⟨g1, g2⟩ := h.given b hb
      refine ⟨g1, ?_⟩
      simpa [State.withBuffers] using g2
    · rw [List.getElem?_append_right hj] at hb
      obtain ⟨g1, g2⟩ := hw.given _ b hb
      rw [h.answer, Nat.add_sub_cancel' hj] at g1
      rw [h.withBuffers] at g2
      refine ⟨g1, ?_⟩
      rw [List.take_append, List.take_of_length_le hj]; exact g2
  refused hf b hb := by
    rw [List.length_append, ← h.answer] at hb
    have := hw.refused hf b hb
    rwa [h.withBuffers] at this

end FilledShift

/-- Refills up to the first that fails (R305). -/
theorem refillMany_spec (fuel : Nat) : ∀ s : State, s.memLegal → ringSizeLegal s.rx.n = true → s.arraysLegal →
    s.rxSlots.length = s.rx.n → s.arrayClear .rx →
    (∀ i < s.rx.n, ∀ b, (s.rxSlot i).buf = some b → s.arrayApart .rx ((s.rxSlot i).addr.getD 0) s.eff.bufSz) →
    fuel + s.rx.inflight ≤ s.rx.n - 1 → (∀ j < fuel, s.ownSeen .rx (filledIdx s j) = false) →
    ∃ k new, k ≤ fuel ∧ ((refillMany fuel s).1 = true → k = fuel) ∧ ((refillMany fuel s).1 = false → k < fuel) ∧
      RefilledRun s (refillMany fuel s).2 k (!(refillMany fuel s).1) new := by
  induction fuel with
  | zero =>
    intro s hm hn hL hsl hu hkp hf ho
    refine ⟨0, [], le_refl _, fun _ => rfl, fun h => by simp [refillMany] at h, hm, fun _ _ => rfl, rfl, fun j hj => absurd hj (by omega), fun j hj => absurd hj (by omega), fun _ => ⟨rfl, rfl⟩, fun j hj => absurd hj (by omega), fun j hj => absurd hj (by omega), rfl, ⟨fun j b hb => by simp at hb, fun hb => by simp [refillMany] at hb⟩, fun hb => by simp [refillMany] at hb, fun i _ _ => ⟨rfl, fun _ _ => rfl⟩, ?_⟩
    have : s.rx.sub + natWord 0 = s.rx.sub := BitVec.add_zero _
    rw [this]
    simp [refillMany, State.withBuffers]
  | succ fuel ih =>
    intro s hm hn hL hsl hu hkp hf ho
    have hb := ringSizeLegal_bounds hn
    have hin : filledIdx s 0 < s.rx.n := idx_lt (by omega)
    have h0 : idx s.rx.sub s.rx.n = filledIdx s 0 := (congrArg (idx · s.rx.n) (BitVec.add_zero s.rx.sub)).symm
    rcases refillAlloc_spec hm hL hsl (by omega) hin hu (ho 0 (by omega)) with ⟨t1, n1, e1, h1⟩ | ⟨hbn, hno, e1⟩
    · have e : refillMany (fuel + 1) s = refillMany fuel t1 := by
        simp only [refillMany, h0, e1]; rfl
      rw [e]
      have hr := h1.rest
      have hsh : FilledShift s t1 n1 := {
        ring := by rw [hr]
        eff := by rw [hr]; rfl
        params := by rw [hr]; rfl
        txr := by rw [hr]; rfl
        marks := by rw [hr]
        regions := by rw [hr]
        short := by
          cases hbb : (s.rxSlot (filledIdx s 0)).buf with
          | none => obtain ⟨b, rfl, -⟩ := h1.fresh hbb; exact le_refl _
          | some b => rw [(h1.kept b hbb).1]; exact Nat.zero_le _
        answers := by rw [hr]
        draws := by rw [hr]
        slots := h1.others
        empty := by
          cases hbb : (s.rxSlot (filledIdx s 0)).buf with
          | none => obtain ⟨b, rfl, -⟩ := h1.fresh hbb; rfl
          | some b => rw [(h1.kept b hbb).1]; rfl
        given := fun b hb' => by
          cases hbb : (s.rxSlot (filledIdx s 0)).buf with
          | none =>
            obtain ⟨b0, rfl, -, g1, g2⟩ := h1.fresh hbb
            simp only [List.getElem?_cons_zero, Option.some.injEq] at hb'
            subst hb'
            exact ⟨g1, fresh_iff.2 g2⟩
          | some b0 => rw [(h1.kept b0 hbb).1] at hb'; simp at hb' }
      have q1 := hsh.ring
      have qn := hsh.n
      have qd : ∀ i k, i < s.rx.n → k < 4 → i ≠ filledIdx s 0 → t1.descWord .rx i k = s.descWord .rx i k := fun i k hi' hk hne =>
        other_words h1.bytes (by rw [hsh.params]) (by simp only [State.ring, q1]) (by omega) (by omega) hk hne
      have qlt : ∀ j, filledIdx s j < s.rx.n := fun j => idx_lt (by omega)
      have qinf : t1.rx.inflight = s.rx.inflight + 1 := by
        have : Ring.inflight { s.rx with sub := s.rx.sub + natWord 1, coalCnt := coalNext s.eff.rxCoal s.rx.coalCnt } = s.rx.inflight + 1 := by
          have h9 := inflight_sub_add (g := s.rx) (k := 1) (by omega)
          exact h9
        rw [q1]; exact this
      have qe := hsh.eff
      have qp := hsh.params
      have qk : ∀ i < t1.rx.n, ∀ b, (t1.rxSlot i).buf = some b → t1.arrayApart .rx ((t1.rxSlot i).addr.getD 0) t1.eff.bufSz := by
        intro i hi b hbb x hx
        rw [qn] at hi
        rw [h1.arrays.holds] at hx
        rw [qe]
        by_cases hi0 : i = filledIdx s 0
        · subst hi0
          cases hb0 : (s.rxSlot (filledIdx s 0)).buf with
          | some b0 => rw [(h1.kept b0 hb0).2]; exact hkp _ hin b0 hb0 x hx
          | none =>
            obtain ⟨b0, -, g0, -, g2⟩ := h1.fresh hb0
            rw [g0]; exact meetsArray_apart g2.images .rx hx
        · rw [h1.others i hi0] at hbb ⊢
          exact hkp i hi b hbb x hx
      obtain ⟨k, new, i1, i2, i3, i4⟩ := ih t1 h1.mem (by rw [qn]; exact hn) (hL.of_same h1.arrays) (by rw [h1.slots, qn]; exact hsl) (h1.clear hL hin (hkp _ hin) hu) qk (by rw [qn, qinf]; omega) (by
        intro j hj
        rw [hsh.idx_succ, State.ownSeen, qd _ 0 (qlt _) (by decide) (hsh.ne hn (by omega))]
        exact ho (j + 1) (by omega))
      generalize (refillMany fuel t1).1 = ok at *
      generalize (refillMany fuel t1).2 = t at *
      have o0 : t.rxSlot (filledIdx s 0) = t1.rxSlot (filledIdx s 0) ∧ ∀ w < 4, t.descWord .rx (filledIdx s 0) w = t1.descWord .rx (filledIdx s 0) w :=
        i4.others (filledIdx s 0) (by rw [qn]; exact hin) (by intro j hj'; rw [hsh.idx_succ]; exact (hsh.ne hn (by omega)).symm)
      refine ⟨k + 1, n1 ++ new, by omega, fun h => by rw [i2 h], fun h => by have := i3 h; omega, i4.mem, ?_, ?_, ?_, ?_, ?_, ?_, ?_, ?_, hsh.refillsWith i4.oracle, ?_, ?_, ?_⟩
      · intro a haa
        have hur := ringBytes_of_desc (r := .rx) h1.bytes (hL.used .rx _ hin) hin hb.2 a haa
        rw [← hur]
        exact i4.bytes a (by rw [h1.arrays.holds]; exact haa)
      · rw [i4.slots, h1.slots]
      · intro j hj
        cases j with
        | zero =>
          rw [o0.2 0 (by decide), o0.2 1 (by decide), o0.2 2 (by decide), o0.2 3 (by decide), o0.1, h1.words 0 (by decide), h1.words 1 (by decide), h1.words 2 (by decide), h1.words 3 (by decide)]
          exact ⟨rfl, rfl, rfl, rfl⟩
        | succ j =>
          have hw := i4.words j (by omega)
          rw [hsh.idx_succ, qe, qd _ 1 (qlt _) (by decide) (hsh.ne hn (by omega)), q1] at hw
          exact hw
      · intro j hj x hx
        obtain rfl : k = j := by omega
        cases k with
        | zero =>
          obtain ⟨z1, z2⟩ := i4.idle rfl
          rw [z1, swByte_congr z1 z2]
          exact h1.memory x hx
        | succ j =>
          refine i4.memory j rfl x ?_
          rw [hsh.idx_succ, show t1.descAddr .rx = s.descAddr .rx by funext i k; simp only [State.descAddr, State.ring, q1]]
          exact hx
      · intro h; omega
      · intro j hj b hbb
        cases j with
        | zero =>
          rw [o0.1]; exact (h1.kept b hbb).2
        | succ j =>
          have hw := i4.kept j (by omega) b (by rw [hsh.slot hn (by omega)]; exact hbb)
          rw [hsh.slot hn (by omega), hsh.idx_succ] at hw
          exact hw
      · intro j hj hbb
        cases j with
        | zero =>
          obtain ⟨b, rfl, hb2, -⟩ := h1.fresh hbb
          exact ⟨b, rfl, o0.1.trans hb2⟩
        | succ j =>
          obtain ⟨b, hb1, hb2⟩ := i4.fresh j (by omega) (by rw [hsh.slot hn (by omega)]; exact hbb)
          rw [hsh.idx_succ, qp] at hb2
          refine ⟨b, ?_, hb2⟩
          rw [hsh.count hn (by omega), List.getElem?_append_right (by omega), Nat.add_sub_cancel_left]; exact hb1
      · rw [hsh.count hn (by omega), List.length_append, i4.count]
      · intro h
        have := i4.stopped h
        have hlt : k < fuel := i3 (by simpa using h)
        rw [hsh.slot hn (by omega)] at this
        exact this
      · intro i hi' hne
        have hi0 : i ≠ filledIdx s 0 := hne 0 (by omega)
        have ho' := i4.others i (by rw [qn]; exact hi') (by intro j hj; rw [hsh.idx_succ]; exact hne (j + 1) (by omega))
        refine ⟨ho'.1.trans (h1.others i hi0), fun w hw => ?_⟩
        rw [ho'.2 w hw, qd i w hi' hw hi0]
      · have h4 := i4.rest
        have g1 : t1.rx.sub + natWord k = s.rx.sub + natWord (k + 1) := by rw [q1]; exact add_natWord_succ _ _
        have g2 : (coalNext t1.eff.rxCoal)^[k] t1.rx.coalCnt = (coalNext s.eff.rxCoal)^[k + 1] s.rx.coalCnt := by rw [q1, qe]; rfl
        have g3 : (t1.withBuffers new).marks = (s.withBuffers (n1 ++ new)).marks := by
          simp only [State.withBuffers, hsh.marks, hsh.eff, hsh.params, List.map_append, List.append_assoc]
        have g5 : (t1.withBuffers new).regions = (s.withBuffers (n1 ++ new)).regions := by
          simp only [State.withBuffers, hsh.regions, hsh.eff, List.map_append, List.append_assoc]
        have g6 : t1.stats = s.stats := by rw [hr]; rfl
        have g7 : t1.allocAnswers.drop (new.length + (!ok).toNat) = s.allocAnswers.drop ((n1 ++ new).length + (!ok).toNat) := by
          rw [hsh.answers, List.drop_drop, List.length_append, Nat.add_assoc]
        have g8 : t1.draws + (new.length + (!ok).toNat - t1.allocAnswers.length) = s.draws + ((n1 ++ new).length + (!ok).toNat - s.allocAnswers.length) := by
          rw [hsh.draws, hsh.answers, List.length_drop, List.length_append]; omega
        rw [g1, g2, g6, g7, g8] at h4
        have h5 : t1.withBuffers new = { t1 with marks := (s.withBuffers (n1 ++ new)).marks, regions := (s.withBuffers (n1 ++ new)).regions } := by
          rw [← g3, ← g5]; rfl
        rw [h5] at h4
        generalize (coalNext s.eff.rxCoal)^[k + 1] s.rx.coalCnt = A at *
        rw [show s.withBuffers (n1 ++ new) = { s with marks := (s.withBuffers (n1 ++ new)).marks, regions := (s.withBuffers (n1 ++ new)).regions } from rfl]
        generalize (s.withBuffers (n1 ++ new)).marks = B at *
        generalize (s.withBuffers (n1 ++ new)).regions = C at *
        have z : t1 = { s with rx := t1.rx, rxSlots := t1.rxSlots, marks := t1.marks, regions := t1.regions, allocAnswers := t1.allocAnswers, draws := t1.draws, mem := t1.mem, wbuf := t1.wbuf } := by rw [hr]; rfl
        rw [q1] at h4
        rw [z] at h4
        exact h4
    · have e : refillMany (fuel + 1) s = (false, { s with
        stats := { s.stats with rxAllocFail := s.stats.rxAllocFail + 1 }
        allocAnswers := s.allocAnswers.drop 1
        draws := s.draws + (1 - s.allocAnswers.length) }) := by
        simp only [refillMany, h0, e1]; rfl
      rw [e]
      refine ⟨0, [], by omega, fun h => by simp at h, fun _ => by omega, hm, fun a _ => rfl, rfl, fun j hj => absurd hj (by omega), fun j hj => absurd hj (by omega), fun _ => ⟨rfl, rfl⟩, fun j hj => absurd hj (by omega), fun j hj => absurd hj (by omega), rfl, ⟨fun j b hb => by simp at hb, fun _ b hb => ?_⟩, fun _ => hbn, fun i _ _ => ⟨rfl, fun w _ => rfl⟩, ?_⟩
      · have := hno b hb
        simpa [State.withBuffers] using this
      · have : s.rx.sub + natWord 0 = s.rx.sub := BitVec.add_zero _
        rw [this]
        simp [State.withBuffers]

theorem take_counts {f : Nat → RxClass} {len : Nat → Nat} (c : Stats) (m : Nat) :
    (List.range m).foldl (fun c j => takeStats (f j) (len j) c) c = { c with
      rxErrors := c.rxErrors + BitVec.ofNat 64 ((List.range m).countP fun j => !decide (f j ≠ .discard))
      rxPackets := c.rxPackets + BitVec.ofNat 64 ((List.range m).countP fun j => decide (f j ≠ .discard))
      rxBytes := c.rxBytes + BitVec.ofNat 64 (((List.range m).filter fun j => decide (f j ≠ .discard)).map len).sum
      rxCsumOk := c.rxCsumOk + BitVec.ofNat 64 ((List.range m).countP fun j => decide (f j = .csumUnnecessary)) } := by
  induction m with
  | zero =>
    show c = _
    obtain ⟨⟩ := c
    simp
  | succ m ih =>
    rw [List.range_succ, List.foldl_append, ih, List.foldl_cons, List.foldl_nil]
    rw [List.filter_append, List.map_append, List.sum_append, List.countP_append, List.countP_append, List.countP_append]
    have hadd : ∀ a b : Nat, BitVec.ofNat 64 (a + b) = BitVec.ofNat 64 a + BitVec.ofNat 64 b := fun a b => BitVec.eq_of_toNat_eq (by simp [BitVec.toNat_ofNat, BitVec.toNat_add])
    cases hf : f m <;> simp [hf, hadd, BitVec.add_assoc, takeStats]

theorem sub_eq_comp (g : Ring) : g.sub = g.comp + natWord g.inflight := by
  have : natWord g.inflight = g.sub - g.comp := by
    apply BitVec.eq_of_toNat_eq
    simp only [natWord, Ring.inflight, BitVec.toNat_ofNat]
    exact Nat.mod_eq_of_lt (BitVec.isLt _)
  rw [this]
  bv_omega

theorem natWord_add_toNat (c : Word) (a b : Nat) : c + natWord a + natWord b = c + natWord (a + b) := by
  rw [natWord_add, BitVec.add_assoc]

theorem window_pos {g : Ring} (hn : ringSizeLegal g.n = true) (k : Nat) :
    (idx (g.comp + natWord k) g.n + g.n - idx g.comp g.n) % g.n = k % g.n := by
  have hb := ringSizeLegal_bounds hn
  rw [idx_add (ringSizeLegal_dvd hn)]
  have hc : idx g.comp g.n = g.comp.toNat % g.n := rfl
  rw [hc]
  have h1 : g.comp.toNat % g.n < g.n := Nat.mod_lt _ (by omega)
  have h2 : ((g.comp.toNat + k) % g.n + g.n - g.comp.toNat % g.n) ≡ k [MOD g.n] := by
    apply Nat.ModEq.add_right_cancel' (g.comp.toNat % g.n)
    rw [Nat.sub_add_cancel (by have := Nat.mod_lt (g.comp.toNat + k) (show 0 < g.n by omega); omega)]
    have e1 : (g.comp.toNat + k) % g.n + g.n ≡ g.comp.toNat + k [MOD g.n] := by
      have : (g.comp.toNat + k) % g.n + g.n ≡ (g.comp.toNat + k) + 0 [MOD g.n] := Nat.ModEq.add (Nat.mod_modEq _ _) (by simp [Nat.ModEq])
      simpa using this
    have e2 : k + g.comp.toNat % g.n ≡ g.comp.toNat + k [MOD g.n] := by
      rw [Nat.add_comm k]
      exact Nat.ModEq.add_right k (Nat.mod_modEq _ _)
    exact e1.trans e2.symm
  exact h2

theorem idx_period {c : Word} {n k : Nat} (hn : ringSizeLegal n = true) : idx (c + natWord (k + n)) n =
    idx (c + natWord k) n := by
  rw [idx_add (ringSizeLegal_dvd hn), idx_add (ringSizeLegal_dvd hn), ← Nat.add_assoc, Nat.add_mod_right]

theorem ier_put {v : Word} (h : v &&& ~~~ierMask = 0) : putBit v 6 true &&& ierMask = putBit v 6 true := by
  apply word_ext
  intro j hj
  have h2 : bit (v &&& ~~~ierMask) j = false := by rw [h]; simp [bit]
  rw [bit_and, bit_putBit _ (by decide)]
  rw [bit_and] at h2
  have h3 : bit (~~~ierMask) j = !bit ierMask j := by simp [bit, hj]
  rw [h3] at h2
  by_cases h6 : j = 6
  · subst h6; rw [if_pos rfl, Bool.true_and]; decide
  · rw [if_neg (Ne.symm h6)]
    cases h4 : bit v j <;> cases h5 : bit ierMask j <;> simp_all

end Sys2Proof.Machine
end

