-- ==== Sys2Proof/Laws/Dispatch.lean ====
section
/-! SUPPORT. The threshold, the ISR, the tunables, CLOSE, SUSPEND and RESUME (R370 to R378, R420 to R430). -/

namespace Sys2Proof.Machine

open Sys2Proof

/-- RAISE_TX_THRESHOLD, as one update (R378). -/
theorem raiseThreshold_eq {s : State} (hr : s.regsLegal) : raiseThreshold s = (if bit s.csr.dmaCtrl 2 = false ∧
    s.csr.dmaTxThresh.toNat < 256 then
      { st := { descFence s with csr := { s.csr with dmaTxThresh := natWord (s.csr.dmaTxThresh.toNat + 64) }, tun := { s.tun with tc := s.csr.dmaTxThresh.toNat + 64 } }, res := natWord (s.csr.dmaTxThresh.toNat + 64) }
      else { st := s, res := natWord s.csr.dmaTxThresh.toNat }) := by
  have hlt : ∀ v : Word, v = 64 ∨ v = 128 ∨ v = 192 ∨ v = 256 → bitsAt v 0 9 = v.toNat ∧ (v.toNat < 256 → legalThresh (natWord (v.toNat + 64)) = natWord (v.toNat + 64) ∧ bitsAt (natWord (v.toNat + 64)) 0 9 = v.toNat + 64) := by
    rintro v (rfl | rfl | rfl | rfl) <;> decide
  obtain ⟨h1, h2⟩ := hlt _ hr.csr.thresh
  simp only [raiseThreshold, h1]
  by_cases hc : bit s.csr.dmaCtrl 2 = false ∧ s.csr.dmaTxThresh.toNat < 256
  · obtain ⟨h3, h4⟩ := h2 hc.2
    have : (!bit s.csr.dmaCtrl 2 && decide (s.csr.dmaTxThresh.toNat < 256)) = true := by simp [hc]
    rw [if_pos hc, if_pos this]
    simp only [wrThresh, storeThresh, h3, h4]; rfl
  · have : (!bit s.csr.dmaCtrl 2 && decide (s.csr.dmaTxThresh.toNat < 256)) = false := by
      cases hb : bit s.csr.dmaCtrl 2
      · simp only [Bool.not_false, Bool.true_and, decide_eq_false_iff_not]; exact fun h => hc ⟨hb, h⟩
      · rfl
    rw [if_neg hc]
    simp only [this, Bool.false_eq_true, if_false, h1]

theorem ier_clear {v : Word} (h : v &&& ~~~ierMask = 0) : putBit v 6 false &&& ierMask = putBit v 6 false := by
  apply and_of_legal
  show (v &&& ~~~(oneBit 6)) &&& ~~~ierMask = 0
  exact and_and_zero _ h

theorem applyIf_eq (c : Bool) (f : State → State) (s : State) : applyIf c f s = if c then f s else s := rfl

/-- The ISR up to its recovery, as one update (R371 to R379). -/
theorem isrRun_before_recovery {s : State} (hm : s.memLegal) (hr : s.regsLegal) :
    let v := s.csr.statusSrc
    let tc := s.csr.dmaTxThresh.toNat
    let raises := bit v 5 && !bit s.csr.dmaCtrl 2 && decide (tc < 256)
    let count := fun (c : Counter) (i : Nat) => if bit v i then c + 1 else c
    isrRun s = { st := applyIf (bit v 1 || bit v 13) (fun u => (txRecovery u).st) { descFence s with
      csr := { s.csr with
        statusSrc := 0
        dmaTxThresh := if raises then natWord (tc + 64) else s.csr.dmaTxThresh
        dmaIer := if bit v 6 then putBit s.csr.dmaIer 6 false else s.csr.dmaIer }
      tun := { s.tun with tc := if raises then tc + 64 else s.tun.tc }
      dev := { s.dev with
        rxPollScheduled := s.dev.rxPollScheduled || bit v 6
        txReclaimPending := s.dev.txReclaimPending || bit v 0 }
      stats := { s.stats with
        txUnderflow := count s.stats.txUnderflow 5
        txJabber := count s.stats.txJabber 3
        rxOverflow := count s.stats.rxOverflow 4
        rxBufUnav := count s.stats.rxBufUnav 7
        txProcessStopped := count s.stats.txProcessStopped 1
        rxProcessStopped := count s.stats.rxProcessStopped 8
        fatalBusError := count s.stats.fatalBusError 13 } }, res := v } := by
  intro v tc raises count
  have hv : v &&& srcMask = v := and_of_legal hr.csr.source
  have hz : v &&& ~~~v = 0 := by
    apply word_ext; intro j hj
    rw [bit_and]
    have : bit (~~~v) j = !bit v j := by simp [bit, hj]
    rw [this]; cases bit v j <;> simp [bit]
  let a : State := { descFence s with
      csr := { s.csr with statusSrc := 0 }
      stats := { s.stats with
        txUnderflow := count s.stats.txUnderflow 5
        txJabber := count s.stats.txJabber 3
        rxOverflow := count s.stats.rxOverflow 4
        rxBufUnav := count s.stats.rxBufUnav 7
        txProcessStopped := count s.stats.txProcessStopped 1
        rxProcessStopped := count s.stats.rxProcessStopped 8
        fatalBusError := count s.stats.fatalBusError 13 } }
  have ha : countSources v (wrStatus v s) = a := by
    have : wrStatus v s = { descFence s with csr := { s.csr with statusSrc := 0 } } := by
      show ({ descFence s with csr := { s.csr with statusSrc := s.csr.statusSrc &&& ~~~v } } : State) = _
      rw [hz]
    rw [this]; rfl
  have har : a.regsLegal := ⟨{ hr.csr with source := (by show (0 : Word) &&& ~~~srcMask = 0; decide) }, ⟨hr.start.tx, hr.start.rx⟩, hr.bases⟩
  let b : State := { a with
      csr := { a.csr with dmaTxThresh := if raises then natWord (tc + 64) else s.csr.dmaTxThresh }
      tun := { s.tun with tc := if raises then tc + 64 else s.tun.tc } }
  have hb : applyIf (bit v Source.unf.pos) (fun u => (raiseThreshold u).st) a = b := by
    have h5 : Source.unf.pos = 5 := rfl
    rw [h5, applyIf_eq]
    simp only [raiseThreshold_eq har]
    by_cases h : bit v 5
    · rw [if_pos h]
      by_cases h2 : bit a.csr.dmaCtrl 2 = false ∧ a.csr.dmaTxThresh.toNat < 256
      · rw [if_pos h2]
        have : raises = true := by
          have h3 : bit s.csr.dmaCtrl 2 = false := h2.1
          have h4 : tc < 256 := h2.2
          simp [raises, h, h3, h4]
        simp only [b, this, if_true]; rfl
      · rw [if_neg h2]
        have : raises = false := by
          simp only [raises, h, Bool.true_and]
          cases hb : bit s.csr.dmaCtrl 2
          · simp only [Bool.not_false, Bool.true_and, decide_eq_false_iff_not]; exact fun h => h2 ⟨hb, h⟩
          · rfl
        simp only [b, this, Bool.false_eq_true, if_false]; rfl
    · rw [if_neg h]
      have : raises = false := by simp only [raises]; simp [h]
      simp only [b, this, Bool.false_eq_true, if_false]; rfl
  let c : State := { b with
      csr := { b.csr with dmaIer := if bit v 6 then putBit s.csr.dmaIer 6 false else s.csr.dmaIer }
      dev := { s.dev with rxPollScheduled := s.dev.rxPollScheduled || bit v 6 } }
  have hc : applyIf (bit v Source.ri.pos) scheduleRxPoll b = c := by
    have h5 : Source.ri.pos = 6 := rfl
    rw [h5, applyIf_eq]
    by_cases h : bit v 6
    · rw [if_pos h]
      have h2 : scheduleRxPoll b = { b with csr := { b.csr with dmaIer := putBit s.csr.dmaIer 6 false &&& ierMask }, dev := { s.dev with rxPollScheduled := true } } := rfl
      rw [h2, ier_clear hr.csr.enables]
      simp [c, h]
    · rw [if_neg h]
      have : bit v 6 = false := by simpa using h
      simp only [c, this, Bool.or_false, Bool.false_eq_true, if_false]; rfl
  let d : State := { c with dev := { s.dev with rxPollScheduled := s.dev.rxPollScheduled || bit v 6, txReclaimPending := s.dev.txReclaimPending || bit v 0 } }
  have hd : applyIf (bit v Source.ti.pos) scheduleReclaim c = d := by
    have h5 : Source.ti.pos = 0 := rfl
    rw [h5, applyIf_eq]
    by_cases h : bit v 0
    · rw [if_pos h]
      simp only [scheduleReclaim, d, h, Bool.or_true]; rfl
    · rw [if_neg h]
      have : bit v 0 = false := by simpa using h
      simp only [d, this, Bool.or_false]; rfl
  show (let v := s.csr.statusSrc &&& srcMask
        let counted := countSources v (wrStatus v s)
        let raised := applyIf (bit v Source.unf.pos) (fun u => (raiseThreshold u).st) counted
        let polled := applyIf (bit v Source.ri.pos) scheduleRxPoll raised
        let reclaiming := applyIf (bit v Source.ti.pos) scheduleReclaim polled
        ({ st := applyIf (bit v Source.tps.pos || bit v Source.fbi.pos) (fun u => (txRecovery u).st) reclaiming, res := v } : Ret)) = _
  rw [show s.csr.statusSrc &&& srcMask = v from hv]
  simp only
  rw [ha, hb, hc, hd]
  rfl

theorem setTunable_sets {s : State} {id : BitVec 16} {k : Nat} {legal : Prop} {t : Tunables} (hs : s.fault = none)
    (hat : s.dev.attached = true) (hk : k ≤ 8)
    (h1 : legal → s.tun.set k s.csr.arg0.toNat = some t) (h2 : ¬ legal → s.tun.set k s.csr.arg0.toNat = none)
      (hid : id.toNat = k) :
    (legal → exec (.setTunable id) s = .next { s with csr := { s.csr with result := 0 }, tun := t }) ∧
    (¬ legal → exec (.setTunable id) s = .next { s with csr := { s.csr with result := 2 } }) := by
  have hle : ¬ maxTunableId < id.toNat := by unfold maxTunableId; omega
  refine ⟨fun h => ?_, fun h => ?_⟩
  · have e : exec (.setTunable id) s = complete s (done { s with tun := t }) := by
      simp only [exec, execSetTunable]; rw [if_neg hle, whenAttached_of hat, hid, h1 h]
    rw [e]; exact complete_done (by exact hs)
  · have e : exec (.setTunable id) s = complete s (failed s) := by
      simp only [exec, execSetTunable]; rw [if_neg hle, whenAttached_of hat, hid, h2 h]
    rw [e]; exact complete_failed_eq hs

/-- Quiescing and stopping both processes, as one update (R421). -/
theorem quiesced_stop {s : State} (hr : s.regsLegal) (d : Dev) :
    dmaStop .rx (dmaStop .tx { quiesce s with dev := d }) = { descFence s with
      csr := { s.csr with
              dmaIer := 0
              dmaCtrl := putBit (putBit s.csr.dmaCtrl 0 false) 1 false
              macConfig := putBit (putBit s.csr.macConfig 0 false) 1 false }
      dma := { s.dma with ts := .stopped, rs := .stopped }
      dev := d } := by
  let q : State := { quiesce s with dev := d }
  have hq : q = { descFence s with csr := { s.csr with dmaIer := 0 }, dev := d } := rfl
  have hqr : q.regsLegal := ⟨{ hr.csr with enables := (by show (0 : Word) &&& ~~~ierMask = 0; decide) }, ⟨hr.start.tx, hr.start.rx⟩, hr.bases⟩
  show dmaStop .rx (dmaStop .tx q) = _
  have hr2 : (dmaStop .tx q).regsLegal := (dmaStop_keeps .tx q).regs hqr
  rw [dmaStop_rx_eq hr2, dmaStop_tx_eq hqr]
  rfl

/-- Steps 3 and 4 of CLOSE (R420). -/
theorem drain_spec {s : State} (hm : s.memLegal) (hl : s.ringsLegal) (h1 : s.tx.allocated = true)
    (h2 : s.rx.allocated = true) (h3 : s.dma.ts = .stopped) (h4 : s.dma.rs = .stopped) :
    ∃ a b, chainEmptied s a .tx ∧ chainEmptied a b .rx ∧ drainAndFree s = { b with
          tx := { b.tx with allocated := false, n := 0 }
          rx := { b.rx with allocated := false, n := 0 }
          txSlots := []
          rxSlots := [] } := by
  obtain ⟨a, ea, ha⟩ := initChain_spec (r := .tx) hm hl h1 h3
  have hka := initChain_keeps .tx s
  have hra := initChain_kept .tx s
  rw [ea] at hka hra
  have har := ha.rest
  obtain ⟨b, eb, hb⟩ := initChain_spec (s := a) (r := .rx) (hka.mem hm) (hra.legal hl) (by rw [har]; exact h2) (by rw [har]; exact h4)
  refine ⟨a, b, ha, hb, ?_⟩
  show freeRing .rx (freeRing .tx (initChain .rx (initChain .tx s).st).st) = _
  rw [ea]
  show freeRing .rx (freeRing .tx (initChain .rx a).st) = _
  rw [eb]
  rfl

theorem legalDmaCtrl_old {a b v : Word} (h : bit a 31 = bit b 31) : legalDmaCtrl a v = legalDmaCtrl b v := by
  simp only [legalDmaCtrl, h]

theorem bitsAt_put {c : Word} {k : Nat} (b : Bool) (hk : k < 4) : bitsAt (putBit c k b) 8 6 = bitsAt c 8 6 := by
  apply bitsAt_eq_of
  intro i hi
  rw [bit_putBit _ (by omega), if_neg (by omega)]

theorem reserved_put {c m : Word} {k : Nat} {b : Bool} (hk : k < 32) (hm : bit m k = false) (h : c &&& m = 0) :
    putBit c k b &&& m = 0 := by
  apply word_ext
  intro j hj
  rw [bit_and, bit_putBit _ hk]
  split
  · rename_i e; subst e; rw [hm]; simp [bit]
  · have := congrArg (fun v => bit v j) h
    simpa [bit_and] using this

theorem procAfter_put {p : ProcState} {c : Word} {i : Nat} (h : bit c i = false ↔ p = .stopped) (b : Bool) :
    procAfter p (bit c i) b = if b then (if p = .stopped then .running else p) else .stopped := by
  cases hb : bit c i <;> cases b <;> cases p <;> simp_all [procAfter]

theorem pmt_put {v : Word} {b : Bool} (h : v &&& 0xFFFF_FFF8 = 0) : putBit v 0 b &&& 7 = putBit v 0 b := by
  apply and_of_legal (m := 7)
  exact reserved_put (by decide) (by decide) h

/-- RESUME of kept rings, as one update (R425). -/
theorem restore_eq {s : State} (hr : s.regsLegal) (hd : Dev) : restoreRun { s with dev := hd } = { descFence s with
    csr := { s.csr with
          pmt := putBit s.csr.pmt 0 false
          macConfig := putBit (putBit s.csr.macConfig 0 hd.savedCtrl.te) 1 hd.savedCtrl.re
          dmaCtrl := putBit (putBit s.csr.dmaCtrl 0 hd.savedCtrl.st) 1 hd.savedCtrl.sr
          dmaIer := 0x0001_A1FB }
    dma := { s.dma with
          ts := if hd.savedCtrl.st then (if s.dma.ts = .stopped then .running else s.dma.ts) else .stopped
          rs := if hd.savedCtrl.sr then (if s.dma.rs = .stopped then .running else s.dma.rs) else .stopped }
    dev := hd } := by
  have h1 : putBit s.csr.pmt 0 false &&& 7 = putBit s.csr.pmt 0 false := pmt_put hr.csr.pmt
  have hmc : legalMacConfig s.params (putBit (putBit s.csr.macConfig 0 hd.savedCtrl.te) 1 hd.savedCtrl.re) = putBit (putBit s.csr.macConfig 0 hd.savedCtrl.te) 1 hd.savedCtrl.re := by
    refine legalMacConfig_put (by decide) (reserved_put (by decide) (by decide) hr.csr.macConfig) ?_ ?_
    · intro h; rw [bit_putBit _ (by decide)]; exact hr.csr.portSelect h
    · intro h; rw [bit_putBit _ (by decide)]; exact hr.csr.offload h
  have hdc : legalDmaCtrl s.csr.dmaCtrl (putBit (putBit (putBit s.csr.dmaCtrl 0 hd.savedCtrl.st) 1 hd.savedCtrl.sr) 31 false) = putBit (putBit s.csr.dmaCtrl 0 hd.savedCtrl.st) 1 hd.savedCtrl.sr := by
    rw [legalDmaCtrl_old (b := putBit s.csr.dmaCtrl 0 hd.savedCtrl.st) (by rw [bit_putBit _ (by decide)]; rfl)]
    refine legalDmaCtrl_put (by decide) (reserved_put (by decide) (by decide) hr.csr.dmaCtrl) ?_
    rw [bitsAt_put _ (by decide)]; exact hr.csr.pbl
  have b0 : bit (putBit (putBit (putBit s.csr.dmaCtrl 0 hd.savedCtrl.st) 1 hd.savedCtrl.sr) 31 false) 0 = hd.savedCtrl.st := by
    rw [bit_putBit _ (by decide), bit_putBit _ (by decide), bit_putBit _ (by decide)]; rfl
  have b1 : bit (putBit (putBit (putBit s.csr.dmaCtrl 0 hd.savedCtrl.st) 1 hd.savedCtrl.sr) 31 false) 1 = hd.savedCtrl.sr := by
    rw [bit_putBit _ (by decide), bit_putBit _ (by decide)]; rfl
  have e : restoreRun { s with dev := hd } = { descFence s with
    csr := { s.csr with
          pmt := putBit s.csr.pmt 0 false &&& 7
          macConfig := legalMacConfig s.params (putBit (putBit s.csr.macConfig 0 hd.savedCtrl.te) 1 hd.savedCtrl.re)
          dmaCtrl := legalDmaCtrl s.csr.dmaCtrl (putBit (putBit (putBit s.csr.dmaCtrl 0 hd.savedCtrl.st) 1 hd.savedCtrl.sr) 31 false)
          dmaIer := ierMask &&& ierMask }
    dma := { s.dma with
          ts := procAfter s.dma.ts (bit s.csr.dmaCtrl 0) (bit (putBit (putBit (putBit s.csr.dmaCtrl 0 hd.savedCtrl.st) 1 hd.savedCtrl.sr) 31 false) 0)
          rs := procAfter s.dma.rs (bit s.csr.dmaCtrl 1) (bit (putBit (putBit (putBit s.csr.dmaCtrl 0 hd.savedCtrl.st) 1 hd.savedCtrl.sr) 31 false) 1) }
    dev := hd } := rfl
  rw [e, h1, hmc, hdc, b0, b1, procAfter_put hr.start.tx, procAfter_put hr.start.rx]
  rfl

end Sys2Proof.Machine
end

