-- ==== Sys2Proof/Laws/Opening.lean ====
section
/-! SUPPORT. OPEN (R412, R413, R416): its phases, said once each. -/

namespace Sys2Proof.Machine

open Sys2Proof

theorem allocBuf_some {len : Nat} {s : State} {b : Word} (h : (drawAnswer s).1 = some b) (hf : s.fresh 4 b len =
    true) : (allocBuf len s).1 = some b := by
  unfold allocBuf; simp only [drawFresh_of h hf]

theorem drawAnswer_cons {s : State} {x : Option Word} {l : List (Option Word)} (h : s.allocAnswers = x :: l) :
    drawAnswer s = (x, { s with allocAnswers := l }) := by
  unfold drawAnswer; simp only [h]

theorem fresh_withBuffers {s : State} {b : Word} {bs : List Word} (h : s.fresh 4 b s.eff.bufSz = true)
    (hc : ∀ c ∈ bs, spansMeet c s.eff.bufSz b s.eff.bufSz = false) : (s.withBuffers bs).fresh 4 b s.eff.bufSz = true := by
  have h := fresh_iff.1 h
  refine fresh_iff.2 ⟨h.aligned, h.inSpace, h.arrays, h.images, ?_, ?_⟩
  · show (s.regions ++ bs.map _).any _ = false
    rw [List.any_append, h.regions, List.any_map]
    simpa [List.any_eq_false] using hc
  · show (s.marks ++ bs.map _).any _ = false
    rw [List.any_append, show s.marks.any _ = false from h.marks, List.any_map]
    simpa [List.any_eq_false] using hc

/-- Refills where the oracle grants every draw (R412). -/
theorem refillMany_all {bufs : List Word} {s : State} {rest : List (Option Word)} (hm : s.memLegal)
    (hn : ringSizeLegal s.rx.n = true) (hL : s.arraysLegal) (hsl : s.rxSlots.length = s.rx.n) (hu : s.arrayClear .rx)
    (hf : bufs.length + s.rx.inflight ≤ s.rx.n - 1) (ho : ∀ j < bufs.length, s.ownSeen .rx (filledIdx s j) = false)
    (hbn : ∀ i < s.rx.n, (s.rxSlot i).buf = none) (hans : s.allocAnswers = bufs.map some ++ rest)
    (hfr : ∀ b ∈ bufs, s.fresh 4 b s.eff.bufSz = true)
    (hpw : bufs.Pairwise (fun x y => spansMeet x s.eff.bufSz y s.eff.bufSz = false)) :
    (refillMany bufs.length s).1 = true ∧ RefilledRun s (refillMany bufs.length s).2 bufs.length false bufs := by
  have hb := ringSizeLegal_bounds hn
  obtain ⟨k, new, h1, h2, h3, h4⟩ := refillMany_spec bufs.length s hm hn hL hsl hu
    (fun i hi b hb => by rw [hbn i hi] at hb; cases hb) hf ho
  have hem : filledEmpty s k = k := by
    simp only [filledEmpty]
    rw [List.countP_eq_length.2 (fun j _ => by simp only [hbn (filledIdx s j) (idx_lt (by omega)), Option.isNone_none]), List.length_range]
  have hlen : new.length = k := h4.count.trans hem
  have hansw : ∀ j (hj : j < bufs.length), s.answer j = some bufs[j] := by
    intro j hj
    simp only [State.answer, hans, List.getD_eq_getElem?_getD]
    rw [List.getElem?_append_left (by simpa using hj)]
    simp [hj]
  have hnew : new = bufs.take k := by
    apply List.ext_getElem
    · rw [List.length_take, hlen]; omega
    · intro j hj hj'
      have hj2 : j < bufs.length := by omega
      have := (h4.oracle.given j new[j] (by simp [hj])).1
      rw [hansw j hj2] at this
      simpa using (Option.some.inj this).symm
  have hok : (refillMany bufs.length s).1 = true := by
    by_contra hc
    have hc : (refillMany bufs.length s).1 = false := by simpa using hc
    have hk := h3 hc
    have := h4.oracle.refused (by rw [hc]; rfl) bufs[k] (by rw [hlen]; exact hansw k hk)
    rw [fresh_withBuffers (hfr _ (List.getElem_mem hk))] at this
    · cases this
    · intro c hc
      rw [hnew] at hc
      obtain ⟨j, hj, rfl⟩ := List.mem_iff_getElem.1 hc
      rw [List.length_take] at hj
      rw [List.getElem_take]
      exact List.pairwise_iff_getElem.1 hpw j k (by omega) hk (by omega)
  obtain rfl := h2 hok
  rw [hok] at h4
  rw [hnew, List.take_length] at h4
  exact ⟨hok, h4⟩

/-- The coalescing counter after `j` refills from 0 (R223). -/
theorem coalNext_iter {L : Nat} (h1 : 1 ≤ L) (h2 : L ≤ 256) : ∀ j, (coalNext L)^[j] 0 = natWord (j % L) := by
  intro j
  induction j with
  | zero => simp [natWord]
  | succ j ih =>
    rw [Function.iterate_succ_apply', ih]
    have hl : j % L < L := Nat.mod_lt _ (by omega)
    have ht : (natWord (j % L) + 1).toNat = j % L + 1 := by
      have := natWord_add (j % L) 1
      rw [show (1 : Word) = natWord 1 from rfl, ← this, natWord_toNat (by omega)]
    simp only [coalNext, ht]
    have hm : (j + 1) % L = if j % L + 1 < L then j % L + 1 else 0 := by
      rw [Nat.add_mod]
      split
      · rename_i h
        have : 1 % L = 1 := Nat.mod_eq_of_lt (by omega)
        rw [this, Nat.mod_eq_of_lt h]
      · rename_i h
        have e : j % L = L - 1 := by omega
        by_cases hL : L = 1
        · subst hL; simp [Nat.mod_one]
        · rw [e, Nat.mod_eq_of_lt (show 1 < L by omega), show L - 1 + 1 = L by omega, Nat.mod_self]
    rw [hm]
    split
    · rw [show j % L + 1 = j % L + 1 from rfl, natWord_add]; rfl
    · rfl

/-- A fresh range holds no device-owned byte. -/
theorem fresh_unmarked {s : State} {al len : Nat} {m x : Word} (h : s.fresh al m len = true) (hx : inSpan m len x =
    true) : s.marked x = false := by
  simp only [State.fresh, Bool.and_eq_true, Bool.not_eq_true'] at h
  have h1 := h.2
  simp only [State.meetsMark, List.any_eq_false] at h1
  simp only [State.marked, List.any_eq_false]
  intro k hk
  have := apart_of_spansMeet (by simpa using h1 k hk) hx
  simp [this]

theorem filterMap_empty (n : Nat) : (List.replicate n TxSlot.empty).filterMap (·.pkt) = [] := by
  induction n with
  | zero => rfl
  | succ n ih => rw [List.replicate_succ, List.filterMap_cons]; exact ih

theorem foldl_emptyTx (n : Nat) (ms : List Mark) :
    (List.replicate n TxSlot.empty).foldl (fun m x => withoutBuffer m x.addr x.len) ms = ms := by
  induction n with
  | zero => rfl
  | succ n ih => rw [List.replicate_succ, List.foldl_cons]; exact ih

theorem foldl_emptyRx (n l : Nat) (ms : List Mark) :
    (List.replicate n RxSlot.empty).foldl (fun m x => if x.buf.isSome then withoutBuffer m x.addr l else m) ms = ms
    := by
  induction n with
  | zero => rfl
  | succ n ih => rw [List.replicate_succ, List.foldl_cons]; exact ih

theorem foldl_emptyRegions (n : Nat) (g : List Region) :
    (List.replicate n RxSlot.empty).foldl (fun g x => withoutRegion g x.buf) g = g := by
  induction n with
  | zero => rfl
  | succ n ih => rw [List.replicate_succ, List.foldl_cons]; exact ih

/-- The state after OPEN has both rings and both chains (R412). -/
structure TwoRings (s i : State) (n m : Nat) (x y : Word) : Prop where
  mem : i.memLegal
  legal : i.ringsLegal
  clear : i.arrayClear .rx
  bytes : ∀ a, inSpan x (16 * n) a = false → inSpan y (16 * m) a = false → swByte i a = swByte s a
  txWords : ∀ j < n, ∀ k < 4, i.descWord .tx j k = if k = 1 ∧ j = n - 1 then 0x0800_0000 else 0
  rxWords : ∀ j < m, ∀ k < 4, i.descWord .rx j k = if k = 1 ∧ j = m - 1 then 0x0800_0000 else 0
  rest : i = { s with
    dma := { s.dma with txIdx := 0, rxIdx := 0 }
    tx := { allocated := true, n := n, base := x, sub := 0, comp := 0, coalCnt := 0 }
    rx := { allocated := true, n := m, base := y, sub := 0, comp := 0, coalCnt := 0 }
    txSlots := List.replicate n TxSlot.empty
    rxSlots := List.replicate m RxSlot.empty
    allocAnswers := (drawAnswer (drawAnswer s).2).2.allocAnswers
    draws := (drawAnswer (drawAnswer s).2).2.draws
    mem := i.mem
    wbuf := [] }

theorem drawAnswer_congr {s t : State} (h1 : t.allocAnswers = s.allocAnswers) (h2 : t.draws = s.draws) :
    (drawAnswer t).1 = (drawAnswer s).1 ∧ (drawAnswer t).2.allocAnswers = (drawAnswer s).2.allocAnswers ∧
      (drawAnswer t).2.draws = (drawAnswer s).2.draws := by
  unfold drawAnswer
  cases h : s.allocAnswers <;> simp [h1, h2, h]

/-- A descriptor whose bytes are kept keeps its words. -/
theorem descWord_of_bytes {s t : State} {r : RingSel} {j k : Nat} (hp : t.params = s.params) (hr : (t.ring r).base =
    (s.ring r).base) (hk : k < 4)
    (h : ∀ z, inSpan (s.descAddr r j 0) 16 z = true → swByte t z = swByte s z) : t.descWord r j k = s.descWord r j k
      := by
  have ha : t.descAddr r j k = s.descAddr r j k := by simp only [State.descAddr, hr]
  have hb : ∀ b < 4, swByte t (s.descAddr r j k + natWord b) = swByte s (s.descAddr r j k + natWord b) := fun b hb => h _ (inSpan_descByte s r j hk hb)
  simp only [State.descWord, ha, swWord, hp]
  have h0 := hb 0 (by decide)
  have h1 := hb 1 (by decide)
  have h2 := hb 2 (by decide)
  have h3 := hb 3 (by decide)
  rw [show s.descAddr r j k + natWord 0 = s.descAddr r j k from BitVec.add_zero _] at h0
  rw [show natWord 1 = (1 : Word) from rfl] at h1
  rw [show natWord 2 = (2 : Word) from rfl] at h2
  rw [show natWord 3 = (3 : Word) from rfl] at h3
  rw [h0, h1, h2, h3]

/-- OPEN's two allocations and two chains (R412). -/
theorem allocateBoth_spec {s : State} {n m : Nat} {x y : Word} (hm : s.memLegal) (hl : s.ringsLegal)
    (ht : s.tx.allocated = false) (hr : s.rx.allocated = false)
    (hts : s.dma.ts = .stopped) (hrs : s.dma.rs = .stopped) (hn : n ∈ [4, 8, 16, 32, 64, 128, 256, 512, 1024])
      (hm' : m ∈ [4, 8, 16, 32, 64, 128, 256, 512, 1024])
    (h1 : (drawAnswer s).1 = some x) (f1 : s.fresh 16 x (16 * n) = true)
    (h2 : (drawAnswer (drawAnswer s).2).1 = some y) (f2 : (allocate .tx n s).st.fresh 16 y (16 * m) = true) :
    (allocate .tx n s).res = codeOk ∧ (allocate .rx m (allocate .tx n s).st).res = codeOk ∧
      TwoRings s (initChain .rx (initChain .tx (allocate .rx m (allocate .tx n s).st).st).st).st n m x y := by
  obtain ⟨a, ea, ba, ra⟩ := allocate_spec (r := .tx) hm ht hts hn h1 f1
  have hka := (allocate_keeps .tx n s).mem hm
  have hla := (allocate_shape .tx n s).legal hl
  rw [ea] at f2 hka hla ⊢
  have hca := drawAnswer_congr (s := (drawAnswer s).2) (t := a) (by rw [ra]) (by rw [ra])
  obtain ⟨b, eb, bb, rb⟩ := allocate_spec (s := a) (r := .rx) (n := m) (m := y) hka (by rw [ra]; exact hr) (by rw [ra]; exact hrs) hm' (by rw [hca.1]; exact h2) f2
  have hkb := (allocate_keeps .rx m a).mem hka
  have hlb := (allocate_shape .rx m a).legal hla
  dsimp only
  rw [eb] at hkb hlb ⊢
  rw [hca.2.1, hca.2.2] at rb
  have ra' : a = { s with
            dma := { s.dma with txIdx := 0 }
            tx := { s.tx with allocated := true, n := n, base := x, sub := 0, comp := 0 }
            txSlots := List.replicate n TxSlot.empty
            allocAnswers := a.allocAnswers
            draws := a.draws
            mem := a.mem
            wbuf := [] } := by
    have q1 : a.allocAnswers = (drawAnswer s).2.allocAnswers := by rw [ra]
    have q2 : a.draws = (drawAnswer s).2.draws := by rw [ra]
    rw [q1, q2]; exact ra
  have rb' : b = { s with
            dma := { s.dma with txIdx := 0, rxIdx := 0 }
            tx := { s.tx with allocated := true, n := n, base := x, sub := 0, comp := 0 }
            rx := { s.rx with allocated := true, n := m, base := y, sub := 0, comp := 0 }
            txSlots := List.replicate n TxSlot.empty
            rxSlots := List.replicate m RxSlot.empty
            allocAnswers := (drawAnswer (drawAnswer s).2).2.allocAnswers
            draws := (drawAnswer (drawAnswer s).2).2.draws
            mem := b.mem
            wbuf := [] } := by
    rw [ra'] at rb
    exact rb
  clear rb
  have hpb : ∀ c, swByte b c = memRead b.mem c.toNat := fun c => by
    have : b.wbuf = [] := by rw [rb']
    unfold swByte; rw [this]; rfl
  have hpa : ∀ c, swByte a c = memRead a.mem c.toNat := fun c => by
    have : a.wbuf = [] := by rw [ra']
    unfold swByte; rw [this]; rfl
  obtain ⟨c, ec, hc⟩ := initChain_spec (s := b) (r := .tx) hkb hlb (by rw [rb']; rfl) (by rw [rb']; exact hts)
  have hkc := (initChain_keeps .tx b).mem hkb
  have hlc := (initChain_kept .tx b).legal hlb
  dsimp only
  rw [ec] at hkc hlc ⊢
  have rc := hc.rest
  have rc' : c = { b with
      tx := { s.tx with allocated := true, n := n, base := x, sub := 0, comp := 0, coalCnt := 0 }
      mem := c.mem } := by
    rw [rb'] at rc
    simp only [filterMap_empty, foldl_emptyTx, List.map_nil, List.append_nil, if_true] at rc
    rw [rb']
    exact rc
  obtain ⟨d, ed, hd⟩ := initChain_spec (s := c) (r := .rx) hkc hlc (by rw [rc', rb']; rfl) (by rw [rc', rb']; exact hrs)
  have hkd := (initChain_keeps .rx c).mem hkc
  have hld := (initChain_kept .rx c).legal hlc
  dsimp only [done]
  rw [ed] at hkd hld ⊢
  dsimp only [done] at hkd hld ⊢
  have rd := hd.rest
  have rd' : d = { b with
      tx := { s.tx with allocated := true, n := n, base := x, sub := 0, comp := 0, coalCnt := 0 }
      rx := { s.rx with allocated := true, n := m, base := y, sub := 0, comp := 0, coalCnt := 0 }
      mem := d.mem } := by
    rw [rc', rb'] at rd
    simp only [foldl_emptyRegions, foldl_emptyRx, reduceCtorEq, if_true, if_false] at rd
    rw [rb']
    exact rd
  have htx : ∀ j < n, ∀ k < 4, d.descWord .tx j k = if k = 1 ∧ j = n - 1 then 0x0800_0000 else 0 := by
    intro j hj k hk
    have hw := hc.words j (by rw [rb']; exact hj) k hk
    rw [show (b.ring .tx).n = n by rw [rb']; rfl] at hw
    have : d.descWord .tx j k = c.descWord .tx j k := by
      refine descWord_of_bytes (by rw [rd', rc']) (by rw [rd', rc']; rfl) hk fun z hz => ?_
      have h9 : (c.ring .tx).holds z = true := holds_desc (by rw [rc']; rfl) (by rw [rc']; exact hj) (by rw [rc']; exact (ringSizeLegal_bounds (n := n) (by simpa [ringSizeLegal] using hn)).2) hz
      have h8 : inSpan x (16 * n) z = true := by rw [rc'] at h9; simpa [State.ring, Ring.holds] using h9
      refine hd.bytes z ?_
      have h7 : (c.ring .rx).holds z = inSpan y (16 * m) z := by rw [rc', rb']; simp [State.ring, Ring.holds]
      rw [h7]
      have h6 : spansMeet x (16 * n) y (16 * m) = false := by
        have h5 := (fresh_iff.1 f2).arrays
        simp only [State.meetsArray, Bool.or_eq_false_iff] at h5
        have q1 : a.tx.allocated = true := by rw [ra']
        have q2 : a.tx.base = x := by rw [ra']
        have q3 : a.tx.n = n := by rw [ra']
        rw [q1, q2, q3] at h5
        simpa using h5.1
      rw [spansMeet_comm] at h6
      exact apart_of_spansMeet h6 h8
    rw [this, hw]
  have hrx : ∀ j < m, ∀ k < 4, d.descWord .rx j k = if k = 1 ∧ j = m - 1 then 0x0800_0000 else 0 := by
    intro j hj k hk
    have hw := hd.words j (by rw [rc', rb']; exact hj) k hk
    rw [show (c.ring .rx).n = m by rw [rc', rb']; rfl] at hw
    exact hw
  refine ⟨rfl, rfl, hkd, hld, ?_, ?_, htx, hrx, ?_⟩
  · intro z hz
    have hz' : inSpan y (16 * m) z = true := by
      have : (d.ring .rx).holds z = inSpan y (16 * m) z := by rw [rd']; rfl
      rw [this] at hz; exact hz
    have hmk : d.marked z = false := by
      rw [← fresh_unmarked f2 hz']
      have q1 : d.marks = s.marks := by rw [rd', rb']
      have q2 : a.marks = s.marks := by rw [ra']
      simp only [State.marked, q1, q2]
    by_contra hc'
    have hc' : d.deviceByte z = true := by simpa using hc'
    rcases (deviceByte_array hz).1 hc' with h | ⟨q, j, -, hj, ho, -⟩
    · rw [hmk] at h; cases h
    · have : d.descWord q j 0 = 0 := by
        cases q
        · rw [htx j (by rw [rd'] at hj; exact hj) 0 (by decide), if_neg (fun h => absurd h.1 (by decide))]
        · rw [hrx j (by rw [rd'] at hj; exact hj) 0 (by decide), if_neg (fun h => absurd h.1 (by decide))]
      rw [State.ownSeen, this] at ho
      simp [ownOf, bit] at ho
  · intro z hz1 hz2
    rw [hd.bytes z (by rw [rc', rb']; simpa [State.ring, Ring.holds] using hz2), hc.bytes z (by rw [rb']; simpa [State.ring, Ring.holds] using hz1), hpb, bb, hz2, hpa, ba, hz1]
    rfl
  · rw [rb'] at rd'
    exact rd'

theorem dmaModeIdle_eq {s : State} (p tc : Word) :
    dmaMode p false false tc s = { descFence s with csr := { s.csr with
      dmaCtrl := legalDmaCtrl s.csr.dmaCtrl (putBit ((s.csr.dmaCtrl &&& (0x8000_0003 : Word)) ||| (0 : Word) |||
        (0 : Word) ||| natWord (bitsAt p 0 6) <<< 8) 31 false)
      dmaTxThresh := legalThresh tc } } := by
  have hlt : bitsAt p 0 6 < 64 := Nat.mod_lt _ (by decide)
  have z : ∀ i, bitIf false i = 0 := fun i => rfl
  have hb : ∀ j < 2, bit (putBit ((s.csr.dmaCtrl &&& (0x8000_0003 : Word)) ||| (0 : Word) ||| (0 : Word) ||| natWord (bitsAt p 0 6) <<< 8) 31 false) j = bit s.csr.dmaCtrl j := by
    have mk : ∀ j : Fin 32, bit (0x8000_0003 : Word) j = (decide (j.val = 0) || decide (j.val = 1) || decide (j.val = 31)) := by decide
    intro j hj
    rw [bit_putBit _ (by decide), if_neg (by omega)]
    simp only [bit_or, bit_and, bit_field_out hlt (show j < 8 ∨ 14 ≤ j by omega), mk ⟨j, by omega⟩]
    have : j = 0 ∨ j = 1 := by omega
    rcases this with rfl | rfl <;> simp [bit]
  simp only [dmaMode, z, wrDmaCtrl, storeDmaCtrl, descFence_csr, descFence_dma, hb 0 (by decide), hb 1 (by decide), procAfter_same]
  rfl

/-- OPEN's last phase, as one update (R412). -/
theorem startSession_eq {s : State} (hr : s.regsLegal) (h1 : s.dma.ts = .stopped) (h2 : s.dma.rs = .stopped) :
    startSession s = { descFence s with
      csr := { s.csr with
        dmaCtrl := putBit (putBit (legalDmaCtrl s.csr.dmaCtrl (putBit ((s.csr.dmaCtrl &&& (0x8000_0003 : Word)) |||
          (0 : Word) ||| (0 : Word) ||| natWord (bitsAt (natWord s.params.pbl.val) 0 6) <<< 8) 31 false)) 0 true) 1 true
        dmaTxThresh := legalThresh (natWord s.tun.tc)
        statusSrc := s.csr.statusSrc &&& ~~~srcMask
        dmaIer := 0x0001_A1FB
        macConfig := putBit (putBit (legalMacConfig s.params (putBit s.csr.macConfig 8 s.dev.csumCap)) 0 true) 1 true
        macFlow := flowWord s.tun &&& 0xFFFF_0003 }
      dma := { s.dma with ts := .running, rs := .running }
      dev := { s.dev with ifup := true, rxPollScheduled := false, txReclaimPending := false, txQueueStopped := false } } := by
  have e1 := dmaModeIdle_eq (s := s) (natWord s.params.pbl.val) (natWord s.tun.tc)
  have k1 := (dmaMode_keeps (natWord s.params.pbl.val) false false (natWord s.tun.tc) s).regs hr
  have e2 : startSession s = (let s1 := dmaMode (natWord s.params.pbl.val) false false (natWord s.tun.tc) s
    let s6 := dmaStart .rx (dmaStart .tx { descFence s1 with
      csr := { s1.csr with statusSrc := s1.csr.statusSrc &&& ~~~srcMask, dmaIer := ierMask &&& ierMask, macConfig := legalMacConfig s1.params (putBit s1.csr.macConfig 8 s1.dev.csumCap), macFlow := flowWord s.tun &&& 0xFFFF_0003 }
      dev := { s1.dev with rxPollScheduled := false, txReclaimPending := false, txQueueStopped := false } })
    { s6 with dev := { s6.dev with ifup := true } }) := rfl
  have k2 : ∀ s1 : State, s1.regsLegal → ({ descFence s1 with
      csr := { s1.csr with statusSrc := s1.csr.statusSrc &&& ~~~srcMask, dmaIer := ierMask &&& ierMask, macConfig := legalMacConfig s1.params (putBit s1.csr.macConfig 8 s1.dev.csumCap), macFlow := flowWord s.tun &&& 0xFFFF_0003 }
      dev := { s1.dev with rxPollScheduled := false, txReclaimPending := false, txQueueStopped := false } } : State).regsLegal := by
    intro s1 h
    have a1 := (wrMacFlow_keeps (flowWord s.tun) s1).regs h
    have a2 := (wrMacConfig_keeps (putBit s1.csr.macConfig 8 s1.dev.csumCap) _).regs a1
    have a3 := (wrStatus_keeps srcMask _).regs a2
    have a4 := (wrIer_keeps ierMask _).regs a3
    exact (setDev_keeps _ _).regs a4
  rw [e2]
  dsimp only
  generalize dmaMode (natWord s.params.pbl.val) false false (natWord s.tun.tc) s = s1 at *
  have k3 := k2 s1 k1
  generalize hd : legalDmaCtrl s.csr.dmaCtrl (putBit ((s.csr.dmaCtrl &&& (0x8000_0003 : Word)) ||| (0 : Word) ||| (0 : Word) ||| natWord (bitsAt (natWord s.params.pbl.val) 0 6) <<< 8) 31 false) = C at *
  generalize flowWord s.tun &&& 0xFFFF_0003 = F at *
  generalize legalThresh (natWord s.tun.tc) = T at *
  have ek : ierMask &&& ierMask = (0x0001_A1FB : Word) := by decide
  rw [ek] at *
  have q1 : s1.params = s.params := by rw [e1]; rfl
  have q2 : s1.csr = { s.csr with dmaCtrl := C, dmaTxThresh := T } := by rw [e1]
  have q3 : s1.dma = s.dma := by rw [e1]; rfl
  have q4 : s1.dev = s.dev := by rw [e1]; rfl
  rw [q1, q2, q4] at k3 ⊢
  have q5 : { descFence s1 with csr := { s.csr with dmaCtrl := C, dmaTxThresh := T, statusSrc := s.csr.statusSrc &&& ~~~srcMask, dmaIer := 0x0001_A1FB, macConfig := legalMacConfig s.params (putBit s.csr.macConfig 8 s.dev.csumCap), macFlow := F }, dev := { s.dev with rxPollScheduled := false, txReclaimPending := false, txQueueStopped := false } }
     = { descFence s with csr := { s.csr with dmaCtrl := C, dmaTxThresh := T, statusSrc := s.csr.statusSrc &&& ~~~srcMask, dmaIer := 0x0001_A1FB, macConfig := legalMacConfig s.params (putBit s.csr.macConfig 8 s.dev.csumCap), macFlow := F }, dev := { s.dev with rxPollScheduled := false, txReclaimPending := false, txQueueStopped := false } } := by
    rw [e1]; rfl
  generalize hM : legalMacConfig s.params (putBit s.csr.macConfig 8 s.dev.csumCap) = M at *
  have k4 : ({ descFence s with csr := { s.csr with dmaCtrl := C, dmaTxThresh := T, statusSrc := s.csr.statusSrc &&& ~~~srcMask, dmaIer := 0x0001_A1FB, macConfig := M, macFlow := F }, dev := { s.dev with rxPollScheduled := false, txReclaimPending := false, txQueueStopped := false } } : State).regsLegal := by
    rw [← q5]; exact k3
  refine Eq.trans (congrArg (fun z : State => let s6 := dmaStart .rx (dmaStart .tx z); ({ s6 with dev := { s6.dev with ifup := true } } : State)) q5) ?_
  have k6 := (dmaStart_keeps .tx _).regs k4
  have e6 := dmaStart_tx_eq k4
  generalize dmaStart .tx _ = s6 at e6 k6 ⊢
  have e7 := dmaStart_rx_eq k6
  dsimp only
  rw [e7, e6]
  simp only [descFence_dma, h1, h2, if_true]
  rfl

theorem open_dmaCtrl {c : Word} {p : Nat} (h1 : c &&& 0x7FFF_C0F0 = 0) (h2 : bit c 0 = false) (h3 : bit c 1 = false)
    (hp : p ∈ [1, 2, 4, 8, 16, 32]) :
    putBit (putBit (legalDmaCtrl c (putBit ((c &&& (0x8000_0003 : Word)) ||| (0 : Word) |||
      (0 : Word) ||| natWord (bitsAt (natWord p) 0 6) <<< 8) 31 false)) 0 true) 1 true =
      (c &&& (0x8000_0000 : Word)) ||| natWord p <<< 8 ||| (3 : Word) := by
  have hpp : bitsAt (natWord p) 0 6 = p ∧ p < 64 := by
    simp only [List.mem_cons, List.not_mem_nil, or_false] at hp
    rcases hp with rfl | rfl | rfl | rfl | rfl | rfl <;> decide
  rw [hpp.1]
  generalize hv : putBit ((c &&& (0x8000_0003 : Word)) ||| (0 : Word) ||| (0 : Word) ||| natWord p <<< 8) 31 false = v
  have mk : ∀ j : Fin 32, bit (0x8000_0003 : Word) j = (decide (j.val = 0) || decide (j.val = 1) || decide (j.val = 31)) := by decide
  have mk0 : ∀ j : Fin 32, bit (0x8000_0000 : Word) j = decide (j.val = 31) := by decide
  have mk3 : ∀ j : Fin 32, bit (3 : Word) j = (decide (j.val = 0) || decide (j.val = 1)) := by decide
  have hvb : ∀ j < 31, bit v j = bit (natWord p <<< 8) j := by
    intro j hj
    subst hv
    rw [bit_putBit _ (by decide), if_neg (by omega)]
    simp only [bit_or, bit_and, mk ⟨j, by omega⟩]
    by_cases h : j = 0
    · subst h; rw [h2]; simp [bit]
    · by_cases h' : j = 1
      · subst h'; rw [h3]; simp [bit]
      · have : j ≠ 31 := by omega
        simp [h, h', this, bit]
  have hf : bitsAt v 8 6 = p := by
    have : bitsAt v 8 6 = bitsAt (natWord p <<< 8) 8 6 := bitsAt_eq_of fun k hk => hvb _ (by omega)
    rw [this]
    simp only [List.mem_cons, List.not_mem_nil, or_false] at hp
    rcases hp with rfl | rfl | rfl | rfl | rfl | rfl <;> decide
  have f31 : bit v 31 = false := by subst hv; rw [bit_putBit _ (by decide)]; rfl
  apply word_ext
  intro j hj
  rw [bit_putBit _ (by decide), bit_putBit _ (by decide), bit_legalDmaCtrl _ _ hj, hf, if_pos (show [1, 2, 4, 8, 16, 32].contains p = true by simpa using hp), f31, bit_or, bit_or, bit_and, show bit (0x8000_0000 : Word) j = decide (j = 31) from mk0 ⟨j, hj⟩, show bit (3 : Word) j = (decide (j = 0) || decide (j = 1)) from mk3 ⟨j, hj⟩]
  by_cases a1 : j = 1
  · subst a1; simp
  by_cases a0 : j = 0
  · subst a0; simp
  by_cases a4 : j < 4
  · rw [if_neg (Ne.symm a1), if_neg (Ne.symm a0), if_pos a4, hvb _ (by omega), bit_field_out hpp.2 (by omega)]
    have : j ≠ 31 := by omega
    simp [a0, a1, this]
  by_cases a8 : 8 ≤ j ∧ j < 14
  · rw [if_neg (Ne.symm a1), if_neg (Ne.symm a0), if_neg a4, if_pos a8, hvb _ (by omega)]
    have : j ≠ 31 := by omega
    simp [a0, a1, this]
  rw [if_neg (Ne.symm a1), if_neg (Ne.symm a0), if_neg a4, if_neg a8, bit_field_out hpp.2 (by omega)]
  by_cases a31 : j = 31
  · subst a31; simp
  · simp [a0, a1, a31]

theorem open_thresh {t : Nat} (h : t ∈ [64, 128, 192, 256]) : legalThresh (natWord t) = natWord t := by
  simp only [List.mem_cons, List.not_mem_nil, or_false] at h
  rcases h with rfl | rfl | rfl | rfl <;> decide

theorem open_macConfig {p : Params} {c : Word} {b : Bool} (h1 : c &&& 0xFFFF_FEE0 = 0) (h2 : p.variant = .mac100 →
    bit c 4 = true) :
    legalMacConfig p (putBit c 8 b) = putBit c 8 (b && p.csumOffload) := by
  apply word_ext
  intro j hj
  rw [legalMacConfig_bit _ _ hj, bit_putBit _ (by decide), bit_putBit _ (by decide), bit_putBit _ (by decide), bit_putBit _ (by decide)]
  by_cases a4 : j < 4
  · simp [a4, show 8 ≠ j by omega]
  by_cases a : j = 4
  · subst a
    cases hv : p.variant <;> simp [hv]
    exact h2 hv
  by_cases a8 : j = 8
  · subst a8; simp [Bool.and_comm]
  rw [if_neg a4, if_neg a, if_neg a8, if_neg (Ne.symm a8)]
  refine (bit_reserved h1 ?_).symm
  have : ∀ k : Fin 32, ¬ k.val < 4 → k.val ≠ 4 → k.val ≠ 8 → bit (0xFFFF_FEE0 : Word) k.val = true := by decide
  exact this ⟨j, hj⟩ a4 a a8

theorem open_macFlow {t : Tunables} (h : t.pause ≤ 0xFFFF) : flowWord t &&& 0xFFFF_0003 = flowWord t := by
  apply and_of_legal
  apply word_ext
  intro j hj
  have mk : ∀ k : Fin 32, bit (~~~(0xFFFF_0003 : Word)) k.val = (decide (2 ≤ k.val) && decide (k.val < 16)) := by decide
  simp only [flowWord, bit_and, bit_or, bit_bitIf _ (show 0 < 32 by decide), bit_bitIf _ (show 1 < 32 by decide), mk ⟨j, hj⟩]
  by_cases a : 2 ≤ j ∧ j < 16
  · have : bit (natWord t.pause <<< 16) j = false := by
      simp only [bit, natWord, BitVec.getLsbD_shiftLeft]
      have : j < 16 := a.2
      simp [this]
    have h0 : bit (0#32) j = false := by simp [bit]
    simp [this, h0, show 0 ≠ j by omega, show 1 ≠ j by omega]
  · have : (decide (2 ≤ j) && decide (j < 16)) = false := by simpa using a
    have h0 : bit (0#32) j = false := by simp [bit]
    rw [this]; simp only [Bool.and_false]; exact h0.symm

theorem clampTo_eq {b : Bool} {p : Prop} [Decidable p] (h : b = true ↔ p) (v d : Nat) : clampTo b v d =
    if p then v else d := by
  unfold clampTo
  by_cases hp : p
  · rw [if_pos (h.2 hp), if_pos hp]
  · rw [if_neg (fun hb => hp (h.1 hb)), if_neg hp]

/-- The clamped tunables (R416). -/
theorem clamped_eq (v : Variant) (g : Tunables) : g.clamped v =
    let sizes := [4, 8, 16, 32, 64, 128, 256, 512, 1024]
    let nTx := if g.nTx ∈ sizes then g.nTx else 128
    let nRx := if g.nRx ∈ sizes then g.nRx else 128
    let mtuMax := if v = .gmac then 9000 else 1500
    { nTx := nTx
      nRx := nRx
      bufSz := if 64 ≤ g.bufSz ∧ g.bufSz ≤ 8191 then g.bufSz else 1536
      tc := if g.tc ∈ [64, 128, 192, 256] then g.tc else 64
      flowCtrl := if g.flowCtrl ≤ 3 then g.flowCtrl else 3
      pause := if g.pause ≤ 0xFFFF then g.pause else 0xFFFF
      txCoal := if 1 ≤ g.txCoal ∧ g.txCoal ≤ min 256 (nTx - 1) then g.txCoal else 1
      rxCoal := if 1 ≤ g.rxCoal ∧ g.rxCoal ≤ min 256 (nRx - 1) then g.rxCoal else 1
      watchdog := if 1 ≤ g.watchdog ∧ g.watchdog ≤ 2 ^ 31 - 1 then g.watchdog else 5000
      mtu := if 46 ≤ g.mtu ∧ g.mtu ≤ mtuMax then g.mtu else 1500 } := by
  have e1 : clampTo (ringSizeLegal g.nTx) g.nTx 128 = if g.nTx ∈ [4, 8, 16, 32, 64, 128, 256, 512, 1024] then g.nTx else 128 := clampTo_eq (by simp [ringSizeLegal]) _ _
  have e2 : clampTo (ringSizeLegal g.nRx) g.nRx 128 = if g.nRx ∈ [4, 8, 16, 32, 64, 128, 256, 512, 1024] then g.nRx else 128 := clampTo_eq (by simp [ringSizeLegal]) _ _
  simp only [Tunables.clamped, e1, e2]
  congr 1
  · exact clampTo_eq (by simp [bufSzLegal]) _ _
  · exact clampTo_eq (by simp [thresholdLegal]) _ _
  · exact clampTo_eq (by simp) _ _
  · exact clampTo_eq (by simp) _ _
  · exact clampTo_eq (by simp [coalLegal]) _ _
  · exact clampTo_eq (by simp [coalLegal]) _ _
  · exact clampTo_eq (by simp [watchdogLegal]) _ _
  · refine clampTo_eq ?_ _ _
    simp only [mtuLegal, mtuLimit]
    cases v <;> exact decide_eq_true_iff

/-- The clamped tunables are legal (R416). -/
theorem clamped_bounds (v : Variant) (g : Tunables) :
    (g.clamped v).nTx ∈ [4, 8, 16, 32, 64, 128, 256, 512, 1024] ∧ (g.clamped v).nRx ∈ [4, 8, 16, 32, 64, 128, 256,
      512, 1024] ∧
    (64 ≤ (g.clamped v).bufSz ∧ (g.clamped v).bufSz ≤ 8191) ∧ (g.clamped v).tc ∈ [64, 128, 192, 256] ∧
      (g.clamped v).pause ≤ 0xFFFF ∧
    (1 ≤ (g.clamped v).rxCoal ∧ (g.clamped v).rxCoal ≤ 256) := by
  rw [clamped_eq]
  refine ⟨?_, ?_, ?_, ?_, ?_, ?_⟩ <;> dsimp only
  · split <;> [assumption; decide]
  · split <;> [assumption; decide]
  · split <;> omega
  · split <;> [assumption; decide]
  · split <;> omega
  · have : ∀ (p : Prop) [Decidable p] (x m : Nat), (p → 1 ≤ x ∧ x ≤ min 256 m) → 1 ≤ (if p then x else 1) ∧ (if p then x else 1) ≤ 256 := by
      intro p _ x m h
      split
      · rename_i hp; exact ⟨(h hp).1, le_trans (h hp).2 (min_le_left _ _)⟩
      · decide
    exact this _ _ _ id

theorem openSession_eq {s : State} (h1 : s.dev.attached = true) (h2 : s.dev.ifup = false) (h3 : s.dev.suspended =
    false) : openSession s = openRun s := by
  unfold openSession; rw [h1, h2, h3]; rfl

theorem rxSlots_ext {l : List RxSlot} {bufs : List Word} {f : Word → RxSlot} (hl : l.length = bufs.length + 1)
    (h1 : ∀ j < bufs.length, l.getD j RxSlot.empty = f (bufs.getD j 0)) (h2 : l.getD bufs.length RxSlot.empty =
      RxSlot.empty) : l = bufs.map f ++ [RxSlot.empty] := by
  apply List.ext_getElem
  · simp [hl]
  · intro j hj hj'
    have hj2 : j < bufs.length + 1 := by omega
    by_cases hb : j < bufs.length
    · have := h1 j hb
      rw [List.getD_eq_getElem?_getD, List.getElem?_eq_getElem hj, Option.getD_some, List.getD_eq_getElem?_getD, List.getElem?_eq_getElem hb, Option.getD_some] at this
      rw [this, List.getElem_append_left (by simpa using hb)]; simp
    · have e : j = bufs.length := by omega
      subst e
      rw [List.getD_eq_getElem?_getD, List.getElem?_eq_getElem hj, Option.getD_some] at h2
      rw [h2]; simp

/-- ALLOCATE fails with nothing changed but the answers taken, or all its conditions hold (R220). -/
theorem allocate_cases (r : RingSel) (n : Nat) (s : State) :
    (∃ u, allocate r n s = failed u ∧ u = { s with allocAnswers := u.allocAnswers, draws := u.draws }) ∨
    ((s.ring r).allocated = false ∧ s.proc r = .stopped ∧ n ∈ [4, 8, 16, 32, 64, 128, 256, 512, 1024] ∧ ∃ m, (drawAnswer s).1 = some m ∧ s.fresh 16 m (16 * n) = true) := by
  by_cases hc : ((s.ring r).allocated || decide (s.proc r ≠ .stopped) || !ringSizeLegal n) = true
  · left
    exact ⟨s, by simp only [allocate]; rw [if_pos hc], rfl⟩
  · have hc' : ((s.ring r).allocated || decide (s.proc r ≠ .stopped) || !ringSizeLegal n) = false := by simpa using hc
    have hh := hc'
    simp only [Bool.or_eq_false_iff, decide_eq_false_iff_not, not_not, Bool.not_eq_false'] at hc'
    obtain ⟨⟨c1, c2⟩, c3⟩ := hc'
    have key : (∃ m, (drawAnswer s).1 = some m ∧ s.fresh 16 m (16 * n) = true) ∨ ((drawAnswer s).1 = none ∨ ∃ m, (drawAnswer s).1 = some m ∧ s.fresh 16 m (16 * n) = false) := by
      cases hd : (drawAnswer s).1 with
      | none => right; left; rfl
      | some m =>
        cases hf : s.fresh 16 m (16 * n) with
        | true => left; exact ⟨m, rfl, hf⟩
        | false => right; right; exact ⟨m, rfl, hf⟩
    rcases key with h | h
    · right
      exact ⟨c1, c2, by simpa [ringSizeLegal] using c3, h⟩
    · left
      refine ⟨(drawAnswer s).2, ?_, drawAnswer_eq s⟩
      simp only [allocate, hh, drawFresh_none h]; rfl

theorem stopBoth_eq {s : State} (hr : s.regsLegal) : wrDmaCtrl (putBit (putBit s.csr.dmaCtrl 0 false) 1 false) s =
    { descFence s with
    csr := { s.csr with dmaCtrl := putBit (putBit s.csr.dmaCtrl 0 false) 1 false }
    dma := { s.dma with ts := .stopped, rs := .stopped } } := by
  have hdc : legalDmaCtrl s.csr.dmaCtrl (putBit (putBit (putBit s.csr.dmaCtrl 0 false) 1 false) 31 false) = putBit (putBit s.csr.dmaCtrl 0 false) 1 false := by
    rw [legalDmaCtrl_old (b := putBit s.csr.dmaCtrl 0 false) (by rw [bit_putBit _ (by decide)]; rfl)]
    refine legalDmaCtrl_put (by decide) (reserved_put (by decide) (by decide) hr.csr.dmaCtrl) ?_
    rw [bitsAt_put _ (by decide)]; exact hr.csr.pbl
  have b0 : bit (putBit (putBit (putBit s.csr.dmaCtrl 0 false) 1 false) 31 false) 0 = false := by
    rw [bit_putBit _ (by decide), bit_putBit _ (by decide), bit_putBit _ (by decide)]; rfl
  have b1 : bit (putBit (putBit (putBit s.csr.dmaCtrl 0 false) 1 false) 31 false) 1 = false := by
    rw [bit_putBit _ (by decide), bit_putBit _ (by decide)]; rfl
  simp only [wrDmaCtrl, storeDmaCtrl, descFence_csr, descFence_dma]
  rw [hdc, b0, b1, procAfter_put hr.start.tx, procAfter_put hr.start.rx]
  rfl

/-- The state `t` after an OPEN that came as far as `u` and was aborted (R413). -/
structure Aborted (u t : State) : Prop where
  fault : t.fault = u.fault
  dev : t.dev = { u.dev with ifup := false }
  csr : t.csr = { u.csr with dmaCtrl := putBit (putBit u.csr.dmaCtrl 0 false) 1 false }
  ts : t.dma.ts = .stopped
  rs : t.dma.rs = .stopped
  tx : t.tx.allocated = false
  rx : t.rx.allocated = false
  stats : t.stats = u.stats

theorem freeIf_eq (r : RingSel) (s : State) : (freeIfAllocated r s).csr = s.csr ∧ (freeIfAllocated r s).dma =
    s.dma ∧ (freeIfAllocated r s).stats = s.stats ∧ (freeIfAllocated r s).fault = s.fault ∧
    (freeIfAllocated r s).dev = s.dev ∧ ((freeIfAllocated r s).ring r).allocated = false ∧ (∀ q, q ≠ r →
      (freeIfAllocated r s).ring q = s.ring q) := by
  unfold freeIfAllocated
  cases h : (s.ring r).allocated <;> cases r
  · exact ⟨rfl, rfl, rfl, rfl, rfl, h, fun q hq => rfl⟩
  · exact ⟨rfl, rfl, rfl, rfl, rfl, h, fun q hq => rfl⟩
  · exact ⟨rfl, rfl, rfl, rfl, rfl, rfl, fun q hq => by cases q <;> first | rfl | exact absurd rfl hq⟩
  · exact ⟨rfl, rfl, rfl, rfl, rfl, rfl, fun q hq => by cases q <;> first | rfl | exact absurd rfl hq⟩

theorem freeIf_tun (r : RingSel) (s : State) : (freeIfAllocated r s).tun = s.tun ∧ (freeIfAllocated r s).eff = s.eff := by
  unfold freeIfAllocated
  cases h : (s.ring r).allocated <;> cases r <;> exact ⟨rfl, rfl⟩

/-- OPEN's abort (R413). -/
theorem abortOpen_spec {u : State} (hm : u.memLegal) (hl : u.ringsLegal) (hr : u.regsLegal) : ∃ t, abortOpen u =
    failed t ∧ Aborted u t ∧ t.tun = u.tun ∧ t.eff = u.eff := by
  have hst := stopBoth_eq hr
  have key : ∃ v, (initChain .rx (wrDmaCtrl (putBit (putBit u.csr.dmaCtrl 0 false) 1 false) u)).st = v ∧ v.fault = u.fault ∧ v.dev = u.dev ∧
      v.csr = { u.csr with dmaCtrl := putBit (putBit u.csr.dmaCtrl 0 false) 1 false } ∧ v.dma.ts = .stopped ∧ v.dma.rs = .stopped ∧ v.stats = u.stats ∧
      v.tun = u.tun ∧ v.eff = u.eff := by
    have hk := wrDmaCtrl_keeps (putBit (putBit u.csr.dmaCtrl 0 false) 1 false) u
    rw [hst] at hk ⊢
    cases ha : u.rx.allocated with
    | false =>
      refine ⟨_, rfl, ?_⟩
      have : initChain .rx { descFence u with csr := { u.csr with dmaCtrl := putBit (putBit u.csr.dmaCtrl 0 false) 1 false }, dma := { u.dma with ts := .stopped, rs := .stopped } } = failed { descFence u with csr := { u.csr with dmaCtrl := putBit (putBit u.csr.dmaCtrl 0 false) 1 false }, dma := { u.dma with ts := .stopped, rs := .stopped } } := by
        simp only [initChain]
        rw [if_pos]
        have : (State.ring { descFence u with csr := { u.csr with dmaCtrl := putBit (putBit u.csr.dmaCtrl 0 false) 1 false }, dma := { u.dma with ts := .stopped, rs := .stopped } } .rx).allocated = false := ha
        rw [this]; rfl
      rw [this]
      exact ⟨rfl, rfl, rfl, rfl, rfl, rfl, rfl, rfl⟩
    | true =>
      obtain ⟨t, et, ht⟩ := initChain_spec (s := { descFence u with csr := { u.csr with dmaCtrl := putBit (putBit u.csr.dmaCtrl 0 false) 1 false }, dma := { u.dma with ts := .stopped, rs := .stopped } }) (r := .rx)
        (hk.mem hm) (ShapeKept.legal (s := u) (.of_rings rfl rfl rfl rfl) hl) ha rfl
      rw [et]
      have hr := ht.rest
      have e1 : t.csr = { u.csr with dmaCtrl := putBit (putBit u.csr.dmaCtrl 0 false) 1 false } := by rw [hr]
      refine ⟨t, rfl, by rw [hr]; rfl, by rw [hr]; rfl, by rw [e1], by rw [hr], by rw [hr], by rw [hr]; rfl, by rw [hr]; rfl, by rw [hr]; rfl⟩
  obtain ⟨v, ev, k1, k2, k3, k4, k5, k6, k7, k8⟩ := key
  have e : abortOpen u = failed { freeIfAllocated .rx (freeIfAllocated .tx v) with dev := { (freeIfAllocated .rx (freeIfAllocated .tx v)).dev with ifup := false } } := by
    simp only [abortOpen, ev]
  obtain ⟨a1, a2, a3, a4, a5, a6, a7⟩ := freeIf_eq .tx v
  obtain ⟨b1, b2, b3, b4, b5, b6, b7⟩ := freeIf_eq .rx (freeIfAllocated .tx v)
  refine ⟨_, e, ⟨?_, ?_, ?_, ?_, ?_, ?_, ?_, ?_⟩, ?_, ?_⟩
  · exact b4.trans (a4.trans k1)
  · show ({ (freeIfAllocated .rx (freeIfAllocated .tx v)).dev with ifup := false } : Dev) = _
    rw [b5, a5, k2]
  · show (freeIfAllocated .rx (freeIfAllocated .tx v)).csr = { u.csr with dmaCtrl := putBit (putBit u.csr.dmaCtrl 0 false) 1 false }
    rw [b1, a1]; exact k3
  · show (freeIfAllocated .rx (freeIfAllocated .tx v)).dma.ts = _
    rw [b2, a2]; exact k4
  · show (freeIfAllocated .rx (freeIfAllocated .tx v)).dma.rs = _
    rw [b2, a2]; exact k5
  · have := b7 .tx (by decide)
    show (freeIfAllocated .rx (freeIfAllocated .tx v)).tx.allocated = false
    have h9 : (freeIfAllocated .rx (freeIfAllocated .tx v)).tx = (freeIfAllocated .tx v).tx := this
    rw [h9]; exact a6
  · exact b6
  · exact b3.trans (a3.trans k6)
  · exact (freeIf_tun .rx _).1.trans ((freeIf_tun .tx v).1.trans k7)
  · exact (freeIf_tun .rx _).2.trans ((freeIf_tun .tx v).2.trans k8)

/-- How an aborted OPEN ends (R413). -/
theorem opened_error {s u : State} {x : Ret} (hs : s.fault = none) (hif : s.dev.ifup = false) (hu : u.fault = none)
    (hd : u.dev = s.dev)
    (hc : u.csr = s.csr) (hst : u.stats =
      s.stats ∨ u.stats = { s.stats with rxAllocFail := s.stats.rxAllocFail + 1 })
    {t : State} (hx : x = failed t) (h : Aborted u t) {c : Tunables} {e : Effective} (htun : t.tun = c) (heff : t.eff = e) :
    ∃ z, complete s x = .next z ∧ z.fault = none ∧ z.csr.result = 2 ∧ z.dev = s.dev ∧ bit z.csr.dmaCtrl 0 = false ∧ bit z.csr.dmaCtrl 1 = false ∧
          z.dma.ts = .stopped ∧ z.dma.rs = .stopped ∧ z.tx.allocated = false ∧ z.rx.allocated = false ∧
          z.csr.macConfig = s.csr.macConfig ∧ z.csr.macFlow = s.csr.macFlow ∧ z.csr.dmaIer = s.csr.dmaIer ∧
          z.csr.statusSrc = s.csr.statusSrc ∧ z.csr.dmaTxThresh = s.csr.dmaTxThresh ∧
          z.tun = c ∧ z.eff = e ∧
          (z.stats = s.stats ∨ z.stats = { s.stats with rxAllocFail := s.stats.rxAllocFail + 1 }) := by
  subst hx
  have hf : t.fault = none := h.fault.trans hu
  refine ⟨_, complete_eq (x := failed t) hf, hf, rfl, ?_, ?_, ?_, h.ts, h.rs, h.tx, h.rx, ?_, ?_, ?_, ?_, ?_, htun, heff, ?_⟩
  · show t.dev = _
    rw [h.dev, hd]
    have : ∀ d : Dev, d.ifup = false → { d with ifup := false } = d := by intro d hd; cases d; cases hd; rfl
    exact this _ hif
  · show bit t.csr.dmaCtrl 0 = false
    rw [h.csr]; show bit (putBit (putBit u.csr.dmaCtrl 0 false) 1 false) 0 = false
    rw [bit_putBit _ (by decide), bit_putBit _ (by decide)]; rfl
  · show bit t.csr.dmaCtrl 1 = false
    rw [h.csr]; show bit (putBit (putBit u.csr.dmaCtrl 0 false) 1 false) 1 = false
    rw [bit_putBit _ (by decide)]; rfl
  · show t.csr.macConfig = _; rw [h.csr, hc]
  · show t.csr.macFlow = _; rw [h.csr, hc]
  · show t.csr.dmaIer = _; rw [h.csr, hc]
  · show t.csr.statusSrc = _; rw [h.csr, hc]
  · show t.csr.dmaTxThresh = _; rw [h.csr, hc]
  · show t.stats = _ ∨ t.stats = _; rw [h.stats]; exact hst

end Sys2Proof.Machine
end

