-- ==== Sys2Proof/Laws/Engine.lean ====
section
/-! SUPPORT. The DMA engine: the TX chain as it reads it, and its writes (R330 to R342). -/

namespace Sys2Proof.Machine

open Sys2Proof

/-- The engine finds a whole frame READY (R333). -/
theorem walk_ready {s : State} (rest : List Nat) : ∀ (j0 j fuel : Nat) (seen : List Nat), (seen ≠ [] →
    bit (s.dmaDescWord .tx j0 1) 29 = true) → (seen = [] → j = j0) → (j :: rest).length ≤ fuel →
    s.wholeFrame seen.isEmpty (j :: rest) → walkChain s j0 fuel j seen = .ready (seen.reverse ++ j :: rest) := by
  induction rest with
  | nil =>
    intro j0 j fuel seen h0 h1 hf hw
    obtain ⟨fuel, rfl⟩ : ∃ k, fuel = k + 1 := ⟨fuel - 1, by simp at hf; omega⟩
    obtain ⟨⟨i0, i1⟩, ho, hfs, hls⟩ := (hw : s.inFrame j seen.isEmpty true)
    have e0 : s.dmaOutside (s.dmaDesc .tx j 0) 4 = none := i0
    have e1 : s.dmaOutside (s.dmaDesc .tx j 1) 4 = none := i1
    have e2 : ownOf (s.dmaWord (s.dmaDesc .tx j 0)) = true := ho
    have e3 : fsOf (s.dmaWord (s.dmaDesc .tx j 1)) = seen.isEmpty := hfs
    have e4 : lsOf (s.dmaWord (s.dmaDesc .tx j 1)) = true := hls
    simp [walkChain, e0, e1, e2, e3, e4]
  | cons k rest ih =>
    intro j0 j fuel seen h0 h1 hf hw
    obtain ⟨fuel, rfl⟩ : ∃ k, fuel = k + 1 := ⟨fuel - 1, by simp at hf; omega⟩
    obtain ⟨⟨⟨i0, i1⟩, ho, hfs, hls⟩, hk, hw'⟩ := (hw : s.inFrame j seen.isEmpty false ∧ k = s.chainNext .tx j ∧ s.wholeFrame false (k :: rest))
    have e0 : s.dmaOutside (s.dmaDesc .tx j 0) 4 = none := i0
    have e1 : s.dmaOutside (s.dmaDesc .tx j 1) 4 = none := i1
    have e2 : ownOf (s.dmaWord (s.dmaDesc .tx j 0)) = true := ho
    have e3 : fsOf (s.dmaWord (s.dmaDesc .tx j 1)) = seen.isEmpty := hfs
    have e4 : lsOf (s.dmaWord (s.dmaDesc .tx j 1)) = false := hls
    have e5 : s.nextIdx .tx j = k := hk.symm
    have hj0 : bit (s.dmaDescWord .tx j0 1) 29 = true := by
      cases hse : seen with
      | nil => rw [← h1 hse, hfs, hse]; rfl
      | cons a l => exact h0 (by simp [hse])
    have hkf : bit (s.dmaDescWord .tx k 1) 29 = false := by
      cases rest with
      | nil => exact (hw' : s.inFrame k false true).fs
      | cons a l => exact (hw' : s.inFrame k false false ∧ _).1.fs
    have hne : k ≠ j0 := by rintro rfl; rw [hkf] at hj0; exact absurd hj0 (by decide)
    have := ih j0 k fuel (j :: seen) (fun _ => hj0) (fun h => absurd h (by simp)) (by simp at hf ⊢; omega) hw'
    simp [walkChain, e0, e1, e2, e3, e4, e5, hne, this]

/-- The engine finds a whole frame READY (R333). -/
theorem chain_ready {s : State} {js : List Nat} (h : s.chainReady js) : s.txChain = .ready js := by
  cases js with
  | nil => exact absurd h.frame (by simp [State.wholeFrame])
  | cons j rest =>
    have hj : j = s.dma.txIdx := by simpa using h.start
    subst hj
    exact walk_ready rest s.dma.txIdx s.dma.txIdx 1024 [] (fun h => absurd rfl h) (fun _ => rfl) h.short h.frame

/-- The engine finds a frame without its end INCOMPLETE (R333). -/
theorem walk_part {s : State} (rest : List Nat) : ∀ (j0 j fuel : Nat) (seen : List Nat), (seen ≠ [] →
    bit (s.dmaDescWord .tx j0 0) 31 = true ∧ bit (s.dmaDescWord .tx j0 1) 29 = true) → (seen = [] → j = j0) →
    (j :: rest).length ≤ fuel →
    s.partFrame seen.isEmpty (j :: rest) → walkChain s j0 fuel j seen = .incomplete := by
  induction rest with
  | nil =>
    intro j0 j fuel seen h0 h1 hf hw
    obtain ⟨fuel, rfl⟩ : ∃ k, fuel = k + 1 := ⟨fuel - 1, by simp at hf; omega⟩
    obtain ⟨i0, ho⟩ := (hw : s.dmaInside .tx j 0 ∧ _)
    have e0 : s.dmaOutside (s.dmaDesc .tx j 0) 4 = none := i0
    have e2 : ownOf (s.dmaWord (s.dmaDesc .tx j 0)) = false := ho
    simp [walkChain, e0, e2]
  | cons k rest ih =>
    intro j0 j fuel seen h0 h1 hf hw
    obtain ⟨fuel, rfl⟩ : ∃ k, fuel = k + 1 := ⟨fuel - 1, by simp at hf; omega⟩
    obtain ⟨⟨⟨i0, i1⟩, ho, hfs, hls⟩, hk, hw'⟩ := (hw : s.inFrame j seen.isEmpty false ∧ k = s.chainNext .tx j ∧ s.partFrame false (k :: rest))
    have e0 : s.dmaOutside (s.dmaDesc .tx j 0) 4 = none := i0
    have e1 : s.dmaOutside (s.dmaDesc .tx j 1) 4 = none := i1
    have e2 : ownOf (s.dmaWord (s.dmaDesc .tx j 0)) = true := ho
    have e3 : fsOf (s.dmaWord (s.dmaDesc .tx j 1)) = seen.isEmpty := hfs
    have e4 : lsOf (s.dmaWord (s.dmaDesc .tx j 1)) = false := hls
    have e5 : s.nextIdx .tx j = k := hk.symm
    have hj0 : bit (s.dmaDescWord .tx j0 0) 31 = true ∧ bit (s.dmaDescWord .tx j0 1) 29 = true := by
      cases hse : seen with
      | nil => rw [← h1 hse, hfs, hse]; exact ⟨ho, rfl⟩
      | cons a l => exact h0 (by simp [hse])
    have hne : k ≠ j0 := by
      rintro rfl
      cases rest with
      | nil =>
        have := (hw' : s.dmaInside .tx k 0 ∧ _).2
        rw [this] at hj0; exact absurd hj0.1 (by decide)
      | cons a l =>
        have := (hw' : s.inFrame k false false ∧ _).1.fs
        rw [this] at hj0; exact absurd hj0.2 (by decide)
    have := ih j0 k fuel (j :: seen) (fun _ => hj0) (fun h => absurd h (by simp)) (by simp at hf ⊢; omega) hw'
    simp [walkChain, e0, e1, e2, e3, e4, e5, hne, this]

/-- The engine finds a frame without its end INCOMPLETE (R333). -/
theorem chain_part {s : State} {js : List Nat} (h : s.chainIncomplete js) : s.txChain = .incomplete := by
  cases js with
  | nil => exact absurd h.frame (by simp [State.partFrame])
  | cons j rest =>
    have hj : j = s.dma.txIdx := by simpa using h.start
    subst hj
    exact walk_part rest s.dma.txIdx s.dma.txIdx 1024 [] (fun h => absurd rfl h) (fun _ => rfl) h.short h.frame

/-- Reading the chain leaves every region where a descriptor does (R330). -/
theorem walk_outside {s : State} {x : Word} (rest : List Nat) : ∀ (j0 j fuel : Nat) (seen : List Nat), (seen ≠ [] →
    s.dmaInside .tx j0 0 ∧ s.dmaInside .tx j0 1 ∧ bit (s.dmaDescWord .tx j0 1) 29 = true) → (seen = [] → j = j0) →
    (j :: rest).length ≤ fuel →
    s.leavingFrame seen.isEmpty x (j :: rest) → walkChain s j0 fuel j seen = .outside x := by
  induction rest with
  | nil =>
    intro j0 j fuel seen h0 h1 hf hw
    obtain ⟨fuel, rfl⟩ : ∃ k, fuel = k + 1 := ⟨fuel - 1, by simp at hf; omega⟩
    rcases (hw : s.dmaOutside (s.dmaDesc .tx j 0) 4 = some x ∨ s.dmaInside .tx j 0 ∧ _) with e0 | ⟨i0, ho, e1⟩
    · simp [walkChain, e0]
    · have e0 : s.dmaOutside (s.dmaDesc .tx j 0) 4 = none := i0
      have e2 : ownOf (s.dmaWord (s.dmaDesc .tx j 0)) = true := ho
      simp [walkChain, e0, e1, e2]
  | cons k rest ih =>
    intro j0 j fuel seen h0 h1 hf hw
    obtain ⟨fuel, rfl⟩ : ∃ k, fuel = k + 1 := ⟨fuel - 1, by simp at hf; omega⟩
    obtain ⟨⟨⟨i0, i1⟩, ho, hfs, hls⟩, hk, hw'⟩ := (hw : s.inFrame j seen.isEmpty false ∧ k = s.chainNext .tx j ∧ s.leavingFrame false x (k :: rest))
    have e0 : s.dmaOutside (s.dmaDesc .tx j 0) 4 = none := i0
    have e1 : s.dmaOutside (s.dmaDesc .tx j 1) 4 = none := i1
    have e2 : ownOf (s.dmaWord (s.dmaDesc .tx j 0)) = true := ho
    have e3 : fsOf (s.dmaWord (s.dmaDesc .tx j 1)) = seen.isEmpty := hfs
    have e4 : lsOf (s.dmaWord (s.dmaDesc .tx j 1)) = false := hls
    have e5 : s.nextIdx .tx j = k := hk.symm
    have hj0 : s.dmaInside .tx j0 0 ∧ s.dmaInside .tx j0 1 ∧ bit (s.dmaDescWord .tx j0 1) 29 = true := by
      cases hse : seen with
      | nil => rw [← h1 hse, hfs, hse]; exact ⟨i0, i1, rfl⟩
      | cons a l => exact h0 (by simp [hse])
    have hne : k ≠ j0 := by
      rintro rfl
      cases rest with
      | nil =>
        rcases (hw' : s.dmaOutside (s.dmaDesc .tx k 0) 4 = some x ∨ s.dmaInside .tx k 0 ∧ _) with h | ⟨-, -, h⟩
        · rw [show s.dmaOutside (s.dmaDesc .tx k 0) 4 = none from hj0.1] at h; cases h
        · rw [show s.dmaOutside (s.dmaDesc .tx k 1) 4 = none from hj0.2.1] at h; cases h
      | cons a l =>
        have := (hw' : s.inFrame k false false ∧ _).1.fs
        rw [this] at hj0; exact absurd hj0.2.2 (by decide)
    have := ih j0 k fuel (j :: seen) (fun _ => hj0) (fun h => absurd h (by simp)) (by simp at hf ⊢; omega) hw'
    simp [walkChain, e0, e1, e2, e3, e4, e5, hne, this]

/-- The engine leaves every region where its chain does (R330). -/
theorem chain_outside {s : State} {js : List Nat} {x : Word} (h : s.chainOutside js x) : s.txChain = .outside x := by
  cases js with
  | nil => exact absurd h.frame (by simp [State.leavingFrame])
  | cons j rest =>
    have hj : j = s.dma.txIdx := by simpa using h.start
    subst hj
    exact walk_outside rest s.dma.txIdx s.dma.txIdx 1024 [] (fun h => absurd rfl h) (fun _ => rfl) h.short h.frame

/-- The engine finds a frame with a wrong link MALFORMED (R333). -/
theorem walk_broken {s : State} {j0 : Nat} (rest : List Nat) : ∀ (j fuel : Nat) (seen : List Nat), (j :: rest).length ≤ fuel →
    s.brokenFrame j0 seen.isEmpty (j :: rest) → walkChain s j0 fuel j seen = .malformed := by
  induction rest with
  | nil =>
    intro j fuel seen hf hw
    obtain ⟨fuel, rfl⟩ : ∃ k, fuel = k + 1 := ⟨fuel - 1, by simp at hf; omega⟩
    obtain ⟨⟨i0, i1⟩, ho, hb⟩ := (hw : (s.dmaInside .tx j 0 ∧ s.dmaInside .tx j 1) ∧ _)
    have e0 : s.dmaOutside (s.dmaDesc .tx j 0) 4 = none := i0
    have e1 : s.dmaOutside (s.dmaDesc .tx j 1) 4 = none := i1
    have e2 : ownOf (s.dmaWord (s.dmaDesc .tx j 0)) = true := ho
    rcases hb with hb | ⟨hl, hn⟩
    · have e3 : fsOf (s.dmaWord (s.dmaDesc .tx j 1)) ≠ seen.isEmpty := hb
      simp [walkChain, e0, e1, e2, e3]
    · have e4 : lsOf (s.dmaWord (s.dmaDesc .tx j 1)) = false := hl
      have e5 : s.nextIdx .tx j = j0 := hn
      simp [walkChain, e0, e1, e2, e4, e5]
  | cons k rest ih =>
    intro j fuel seen hf hw
    obtain ⟨fuel, rfl⟩ : ∃ k, fuel = k + 1 := ⟨fuel - 1, by simp at hf; omega⟩
    obtain ⟨⟨⟨i0, i1⟩, ho, hfs, hls⟩, hk, hw'⟩ := (hw : s.inFrame j seen.isEmpty false ∧ k = s.chainNext .tx j ∧ s.brokenFrame j0 false (k :: rest))
    have e0 : s.dmaOutside (s.dmaDesc .tx j 0) 4 = none := i0
    have e1 : s.dmaOutside (s.dmaDesc .tx j 1) 4 = none := i1
    have e2 : ownOf (s.dmaWord (s.dmaDesc .tx j 0)) = true := ho
    have e3 : fsOf (s.dmaWord (s.dmaDesc .tx j 1)) = seen.isEmpty := hfs
    have e4 : lsOf (s.dmaWord (s.dmaDesc .tx j 1)) = false := hls
    have e5 : s.nextIdx .tx j = k := hk.symm
    have := ih k fuel (j :: seen) (by simp at hf ⊢; omega) hw'
    simp [walkChain, e0, e1, e2, e3, e4, e5, this]

/-- The engine finds a frame that goes on past its last visit MALFORMED (R333). -/
theorem walk_endless {s : State} {j0 : Nat} (rest : List Nat) : ∀ (j : Nat) (seen : List Nat),
    s.endlessFrame seen.isEmpty (j :: rest) → walkChain s j0 (j :: rest).length j seen = .malformed := by
  induction rest with
  | nil =>
    intro j seen hw
    obtain ⟨⟨i0, i1⟩, ho, hfs, hls⟩ := (hw : s.inFrame j seen.isEmpty false)
    have e0 : s.dmaOutside (s.dmaDesc .tx j 0) 4 = none := i0
    have e1 : s.dmaOutside (s.dmaDesc .tx j 1) 4 = none := i1
    have e2 : ownOf (s.dmaWord (s.dmaDesc .tx j 0)) = true := ho
    have e3 : fsOf (s.dmaWord (s.dmaDesc .tx j 1)) = seen.isEmpty := hfs
    have e4 : lsOf (s.dmaWord (s.dmaDesc .tx j 1)) = false := hls
    simp [walkChain, e0, e1, e2, e3, e4]
  | cons k rest ih =>
    intro j seen hw
    obtain ⟨⟨⟨i0, i1⟩, ho, hfs, hls⟩, hk, hw'⟩ := (hw : s.inFrame j seen.isEmpty false ∧ k = s.chainNext .tx j ∧ s.endlessFrame false (k :: rest))
    have e0 : s.dmaOutside (s.dmaDesc .tx j 0) 4 = none := i0
    have e1 : s.dmaOutside (s.dmaDesc .tx j 1) 4 = none := i1
    have e2 : ownOf (s.dmaWord (s.dmaDesc .tx j 0)) = true := ho
    have e3 : fsOf (s.dmaWord (s.dmaDesc .tx j 1)) = seen.isEmpty := hfs
    have e4 : lsOf (s.dmaWord (s.dmaDesc .tx j 1)) = false := hls
    have e5 : s.nextIdx .tx j = k := hk.symm
    have := ih k (j :: seen) hw'
    rw [show (j :: k :: rest).length = (k :: rest).length + 1 from rfl]
    generalize (k :: rest).length = f at this ⊢
    simp [walkChain, e0, e1, e2, e3, e4, e5, this]

/-- The engine finds a chain MALFORMED (R333). -/
theorem chain_malformed {s : State} {js : List Nat} (h : s.chainMalformed js) : s.txChain = .malformed := by
  cases js with
  | nil => rcases h.frame with h | ⟨_, h⟩ <;> simp [State.brokenFrame, State.endlessFrame] at h
  | cons j rest =>
    have hj : j = s.dma.txIdx := by simpa using h.start
    subst hj
    rcases h.frame with hf | ⟨hl, hf⟩
    · exact walk_broken rest _ 1024 [] h.short hf
    · have := walk_endless (j0 := s.dma.txIdx) rest _ [] hf
      rw [hl] at this; exact this

def putCell (m : Memory) (p : Option Nat × Byte) : Memory := match p.1 with | some k => memWrite m k p.2 | none => m

theorem putCell_none {m : Memory} {p : Option Nat × Byte} (h : p.1 = none) : putCell m p = m := by simp [putCell, h]

theorem putCell_some {m : Memory} {p : Option Nat × Byte} {k : Nat} (h : p.1 = some k) : putCell m p =
    memWrite m k p.2 :=
  by simp [putCell, h]

def putCells (ps : List (Option Nat × Byte)) (m : Memory) : Memory := ps.foldl putCell m

def CellsOk (ps : List (Option Nat × Byte)) : Prop := ∀ p ∈ ps, ∀ k, p.1 = some k → k < 2 ^ 32

theorem putCell_wf {p : Option Nat × Byte} {m : Memory} (hp : ∀ k, p.1 = some k → k < 2 ^ 32) (h : Memory.wf m =
    true) : Memory.wf (putCell m p) = true := by
  cases hq : p.1 with
  | none => rw [putCell_none hq]; exact h
  | some k => rw [putCell_some hq]; exact memWrite_wf (hp k hq) p.2 h

theorem putCells_other {ps : List (Option Nat × Byte)} {x : Nat} : ∀ {m : Memory}, CellsOk ps → Memory.wf m = true →
    (∀ p ∈ ps, p.1 ≠ some x) → memRead (putCells ps m) x = memRead m x := by
  induction ps with
  | nil => intro m _ _ _; rfl
  | cons p ps ih =>
    intro m hc h hx
    show memRead (putCells ps (putCell m p)) x = _
    rw [ih (fun q hq => hc q (by simp [hq])) (putCell_wf (hc p (by simp)) h) (fun q hq => hx q (by simp [hq]))]
    cases hq : p.1 with
    | none => rw [putCell_none hq]
    | some k =>
      rw [putCell_some hq, memRead_memWrite x k p.2 h, if_neg]
      rintro rfl; exact hx p (by simp) hq

theorem putCells_at {ps : List (Option Nat × Byte)} {x : Nat} {b : Byte} : ∀ {m : Memory}, CellsOk ps →
    Memory.wf m = true → (∀ p ∈ ps, p.1 = some x → p.2 = b) → (∃ p ∈ ps, p.1 = some x) → memRead (putCells ps m) x =
    b := by
  induction ps with
  | nil => intro m _ _ _ ⟨p, hp, _⟩; exact absurd hp (by simp)
  | cons p ps ih =>
    intro m hc h hb he
    show memRead (putCells ps (putCell m p)) x = b
    by_cases hm : ∃ q ∈ ps, q.1 = some x
    · exact ih (fun q hq => hc q (by simp [hq])) (putCell_wf (hc p (by simp)) h) (fun q hq => hb q (by simp [hq])) hm
    · obtain ⟨q, hq, hqx⟩ := he
      have hqp : q = p := by
        rcases List.mem_cons.1 hq with rfl | hq'
        · rfl
        · exact absurd ⟨q, hq', hqx⟩ hm
      subst hqp
      rw [putCells_other (fun r hr => hc r (by simp [hr])) (putCell_wf (hc q (by simp)) h) (fun r hr hrx => hm ⟨r, hr, hrx⟩), putCell_some hqx, memRead_memWrite x x q.2 h, if_pos rfl, hb q (by simp) hqx]

def writeCells (s : State) (d : Word) : List Byte → List (Option Nat × Byte)
  | [] => []
  | b :: bs => (s.dmaCell d, b) :: writeCells s (d + 1) bs

/-- A DMA agent's write, cell by cell (R330). -/
theorem dmaWrite_cells (bs : List Byte) : ∀ (d : Word) (s : State), dmaWrite d bs s =
    { s with mem := putCells (writeCells s d bs).reverse s.mem } := by
  induction bs with
  | nil => intro d s; rfl
  | cons b bs ih =>
    intro d s
    simp only [dmaWrite, writeCells, List.reverse_cons]
    rw [ih (d + 1) s]
    have : putCells ((writeCells s (d + 1) bs).reverse ++ [(s.dmaCell d, b)]) s.mem = putCell (putCells (writeCells s (d + 1) bs).reverse s.mem) (s.dmaCell d, b) := by
      simp only [putCells, List.foldl_append, List.foldl_cons, List.foldl_nil]
    rw [this]
    cases hc : s.dmaCell d
    · simp [putCell]
    · simp [putCell]

theorem mem_writeCells {s : State} {d : Word} {bs : List Byte} {p : Option Nat × Byte} : p ∈ writeCells s d bs ↔
    ∃ k, ∃ h : k < bs.length, p = (s.dmaCell (d + natWord k), bs[k]) := by
  induction bs generalizing d with
  | nil => simp [writeCells]
  | cons b bs ih =>
    simp only [writeCells, List.mem_cons, ih]
    constructor
    · rintro (h | ⟨k, hk, h⟩)
      · exact ⟨0, by simp, by rw [h]; simp [natWord]⟩
      · refine ⟨k + 1, by simp; omega, ?_⟩
        rw [h, ← add_natWord_succ]; simp
    · rintro ⟨k, hk, h⟩
      cases k with
      | zero => left; rw [h]; simp [natWord]
      | succ k =>
        right; refine ⟨k, by simp at hk; omega, ?_⟩
        rw [h, ← add_natWord_succ]; simp

theorem writeCells_ok (s : State) (d : Word) (bs : List Byte) : CellsOk (writeCells s d bs) := by
  intro p hp k hk
  obtain ⟨j, hj, rfl⟩ := mem_writeCells.1 hp
  exact dmaCell_lt hk

theorem putCells_append (a b : List (Option Nat × Byte)) (m : Memory) : putCells (a ++ b) m =
    putCells b (putCells a m) := by
  simp [putCells, List.foldl_append]

def closeCells (s : State) (js : List Nat) (v : Word) : List (Option Nat × Byte) :=
  js.flatMap fun j => (writeCells s (s.dmaDesc .tx j 0) (splitWord s.params.endian v)).reverse

/-- Closing the descriptors of a chain, as cell writes (R330). -/
theorem closeAll_eq (js : List Nat) (v : Word) : ∀ s : State, js.foldl (fun u j => closeDesc .tx j v u) s =
    { s with mem := putCells (closeCells s js v) s.mem } := by
  induction js with
  | nil => intro s; rfl
  | cons j js ih =>
    intro s
    rw [List.foldl_cons, ih]
    have e : closeDesc .tx j v s = { s with mem := putCells (writeCells s (s.dmaDesc .tx j 0) (splitWord s.params.endian v)).reverse s.mem } := dmaWrite_cells _ _ _
    have wc : ∀ (M : Memory) (d : Word) (bs : List Byte), writeCells { s with mem := M } d bs = writeCells s d bs := by
      intro M d bs
      induction bs generalizing d with
      | nil => rfl
      | cons b bs ih => simp only [writeCells, ih]; rfl
    have c : ∀ M : Memory, closeCells { s with mem := M } js v = closeCells s js v := by
      intro M
      show List.flatMap (fun j => (writeCells { s with mem := M } (s.dmaDesc .tx j 0) (splitWord s.params.endian v)).reverse) js = _
      simp only [wc]; rfl
    have hcons : closeCells s (j :: js) v = (writeCells s (s.dmaDesc .tx j 0) (splitWord s.params.endian v)).reverse ++ closeCells s js v := rfl
    rw [e, c, hcons, putCells_append]

theorem closeCells_ok (s : State) (js : List Nat) (v : Word) : CellsOk (closeCells s js v) := by
  intro p hp k hk
  obtain ⟨j, hj, hp⟩ := List.mem_flatMap.1 hp
  exact writeCells_ok s _ _ p (List.mem_reverse.1 hp) k hk

theorem writeCells_congr {s t : State} (h : ∀ d, t.dmaCell d = s.dmaCell d) (d : Word) (bs : List Byte) :
    writeCells t d bs = writeCells s d bs := by
  induction bs generalizing d with
  | nil => rfl
  | cons b bs ih => simp only [writeCells, ih, h]

theorem closeCells_congr {s t : State} (h : ∀ d, t.dmaCell d = s.dmaCell d) (hb : t.tx.base = s.tx.base)
    (hp : t.params = s.params) (js : List Nat) (v : Word) : closeCells t js v = closeCells s js v := by
  simp only [closeCells, State.dmaDesc, State.dmaBase, State.ring, hb, hp, writeCells_congr h]

theorem holds_cell {s : State} {d : Word} (h : s.tx.holds d = true) : s.dmaCell d = some d.toNat := by
  simp [State.dmaCell, h]

theorem des0_offset {s : State} {j j' b b' : Nat} (hb : b < 4) (hb' : b' < 4) (h : s.dmaDesc .tx j 0 + natWord b =
    s.dmaDesc .tx j' 0 + natWord b') : b = b' := by
  have e1 : ∀ j b, s.dmaDesc .tx j 0 + natWord b = s.dmaBase .tx + natWord (16 * j + b) := by
    intro j b
    show s.dmaBase .tx + natWord (16 * j + 4 * 0) + natWord b = _
    rw [natWord_add (16 * j) b, BitVec.add_assoc]; rfl
  rw [e1, e1] at h
  have h2 : natWord (16 * j + b) = natWord (16 * j' + b') := by
    generalize natWord (16 * j + b) = A at *
    generalize natWord (16 * j' + b') = B at *
    generalize s.dmaBase .tx = C at *
    bv_omega
  have h3 : (16 * j + b) % 2 ^ 32 = (16 * j' + b') % 2 ^ 32 := by
    have := congrArg BitVec.toNat h2
    simpa [natWord, BitVec.toNat_ofNat] using this
  omega

/-- Closing the descriptors of a chain (R330). -/
theorem chainClosed_of {s t : State} (js : List Nat) (v : Word) (hm : s.memLegal) (ht : t.mem =
    putCells (closeCells s js v) s.mem)
    (hp : t.params = s.params) (hx : t.tx = s.tx) : chainClosed s t js v
      := by
  have hok := closeCells_ok s js v
  refine ⟨fun hin j hj => ?_, fun x hx => ?_⟩
  · have hd : ∀ j, t.dmaDesc .tx j 0 = s.dmaDesc .tx j 0 := by intro j; simp only [State.dmaDesc, State.dmaBase, State.ring, hx]
    have key : ∀ b (hb : b < 4), t.dmaByte (s.dmaDesc .tx j 0 + natWord b) = (splitWord s.params.endian v).getD b 0 := by
      intro b hb
      have hh := hin j hj b hb
      have hc : t.dmaCell (s.dmaDesc .tx j 0 + natWord b) = some (s.dmaDesc .tx j 0 + natWord b).toNat := holds_cell (by rw [hx]; exact hh)
      simp only [State.dmaByte, hc]
      rw [ht]
      have hl : b < (splitWord s.params.endian v).length := by rw [splitWord_length]; exact hb
      have hgd : (splitWord s.params.endian v).getD b 0 = (splitWord s.params.endian v)[b] := by
        rw [List.getD_eq_getElem?_getD, List.getElem?_eq_getElem hl]; rfl
      refine putCells_at hok hm ?_ ?_
      · intro p hp hpx
        obtain ⟨j', hj', hp⟩ := List.mem_flatMap.1 hp
        obtain ⟨b', hb', rfl⟩ := mem_writeCells.1 (List.mem_reverse.1 hp)
        have hb4 : b' < 4 := by rw [splitWord_length] at hb'; exact hb'
        simp only [holds_cell (hin j' hj' b' hb4), Option.some.injEq] at hpx
        have : s.dmaDesc .tx j' 0 + natWord b' = s.dmaDesc .tx j 0 + natWord b := BitVec.eq_of_toNat_eq hpx
        have := des0_offset hb4 hb this
        subst this
        rw [hgd]
      · refine ⟨(s.dmaCell (s.dmaDesc .tx j 0 + natWord b), (splitWord s.params.endian v)[b]), ?_, holds_cell hh⟩
        exact List.mem_flatMap.2 ⟨j, hj, List.mem_reverse.2 (mem_writeCells.2 ⟨b, hl, rfl⟩)⟩
    have k0 := key 0 (by decide)
    have k1 := key 1 (by decide)
    have k2 := key 2 (by decide)
    have k3 := key 3 (by decide)
    rw [show s.dmaDesc .tx j 0 + natWord 0 = s.dmaDesc .tx j 0 from BitVec.add_zero _] at k0
    simp only [State.dmaDescWord, State.dmaWord, hd, hp]
    rw [k0]
    rw [show t.dmaByte (s.dmaDesc .tx j 0 + 1) = _ from k1, show t.dmaByte (s.dmaDesc .tx j 0 + 2) = _ from k2, show t.dmaByte (s.dmaDesc .tx j 0 + 3) = _ from k3]
    exact joinBytes_splitWord _ _
  · rw [ht]
    refine putCells_other hok hm ?_
    intro p hp hpx
    obtain ⟨j', hj', hp⟩ := List.mem_flatMap.1 hp
    obtain ⟨b', hb', rfl⟩ := mem_writeCells.1 (List.mem_reverse.1 hp)
    exact hx j' hj' b' (by rw [splitWord_length] at hb'; exact hb') hpx

/-- The frame's bytes as the engine reads them (R333). -/
theorem frameBytes_eq (s : State) (js : List Nat) : frameBytes s js = s.chainBytes js := by
  induction js with
  | nil => rfl
  | cons j js ih =>
    have : ∀ (l : List Nat), frameBytes s (j :: l) = ((if bs2Of (s.dmaWord (s.dmaDesc .tx j 1)) = 0 then [(s.dmaWord (s.dmaDesc .tx j 2), bs1Of (s.dmaWord (s.dmaDesc .tx j 1)))] else [(s.dmaWord (s.dmaDesc .tx j 2), bs1Of (s.dmaWord (s.dmaDesc .tx j 1))), (s.dmaWord (s.dmaDesc .tx j 3), bs2Of (s.dmaWord (s.dmaDesc .tx j 1)))]).flatMap fun g => s.dmaBytes g.1 g.2) ++ frameBytes s l := by
      intro l
      simp only [frameBytes, frameSpans, List.flatMap_cons, List.flatMap_append]
    rw [this, ih]
    show _ = (s.dmaBytes (s.dmaDescWord .tx j 2) (bs1Of (s.dmaWord (s.dmaDesc .tx j 1))) ++ s.dmaBytes (s.dmaDescWord .tx j 3) (bs2Of (s.dmaWord (s.dmaDesc .tx j 1)))) ++ s.chainBytes js
    congr 1
    by_cases h : bs2Of (s.dmaWord (s.dmaDesc .tx j 1)) = 0
    · rw [if_pos h, h]
      show s.dmaBytes _ _ ++ [] = s.dmaBytes _ _ ++ []
      rfl
    · rw [if_neg h]
      show s.dmaBytes _ _ ++ (s.dmaBytes _ _ ++ []) = _
      rw [List.append_nil]; rfl

theorem head_of_ready {s : State} {js : List Nat} (h : s.chainReady js) : js.headD 0 = s.dma.txIdx := by
  have := h.start
  cases js <;> simp_all

theorem latchIf_eq (c : Bool) (b : Source) (s : State) : latchIf c b s =
    { s with csr := { s.csr with statusSrc := if c then s.csr.statusSrc ||| oneBit b.pos else s.csr.statusSrc } }
    := by
  cases c <;> rfl

theorem closeFrame_eq (js : List Nat) (v : Word) (s : State) : closeFrame js v s = { s with
    csr := { s.csr with statusSrc := if bit (s.dmaDescWord .tx (js.getLastD 0) 1) 31 then s.csr.statusSrc ||| 1 else s.csr.statusSrc }
    dma := { s.dma with txIdx := s.chainNext .tx (js.getLastD 0) }
    mem := putCells (closeCells s js v) s.mem } := by
  simp only [closeFrame, closeAll_eq, latchIf_eq]
  rfl

theorem txEnabled_of {s : State} (hs : s.fault = none) (hp : bit s.csr.pmt 0 = false) (ht : s.dma.ts = .running)
    (he : bit s.csr.macConfig 0 = true) : s.txEnabled = true := by
  simp [State.txEnabled, State.txRunning, State.dmaAwake, hs, hp, ht, he]

theorem dmaOutside_none {s : State} {d : Word} {n : Nat} (h : s.dmaOutside d n = none) : ∀ k < n, ∃ x,
    s.dmaCell (d + natWord k) = some x := by
  intro k hk
  simp only [State.dmaOutside, List.find?_eq_none, List.mem_map, List.mem_range, Bool.not_eq_true] at h
  have := h (d + natWord k) ⟨k, hk, rfl⟩
  exact Option.isSome_iff_exists.1 (by cases hq : s.dmaCell (d + natWord k) <;> simp_all)

theorem writeReceived_two (bytes : List Byte) (a c : Word) (m n : Nat) (s : State) :
    writeReceived bytes [(a, m), (c, n)] s =
      { s with mem := putCells ((writeCells s a (bytes.take m)).reverse ++ (writeCells s c ((bytes.drop m).take n)).reverse) s.mem } := by
  simp only [writeReceived]
  rw [dmaWrite_cells, dmaWrite_cells, putCells_append]
  rw [writeCells_congr (s := s) (t := { s with mem := putCells (writeCells s a (bytes.take m)).reverse s.mem }) (fun _ => rfl)]

theorem writeReceived_one (bytes : List Byte) (a : Word) (m : Nat) (s : State) :
    writeReceived bytes [(a, m)] s = { s with mem := putCells (writeCells s a (bytes.take m)).reverse s.mem } := by
  simp only [writeReceived]
  rw [dmaWrite_cells]

end Sys2Proof.Machine
end

