-- ==== Sys2Proof/Tests/Slice0.lean ====
section
/-! SUPPORT. The model's own tests: ill-formed terms, words written out from R139 and R140, single steps whose results are
those of spec/95_test_vectors.md (named V-…; P1 to P6 are its programs), and for every obligation with hypotheses a
witness that meets them. -/

-- One theorem after another: side by side, their checks want more threads than the memory limit has stacks for.
set_option Elab.async false

namespace Sys2Proof.Machine.Test

open Sys2Proof Sys2Proof.Machine

/-! ### WellFormed (R141) -/

theorem test_tunable_9_is_ill_formed : (Instr.setTunable 9).wellFormed = false := by decide +kernel

theorem test_tunable_8_is_well_formed : (Instr.setTunable 8).wellFormed = true := by decide +kernel

theorem test_counter_19_is_ill_formed : (Instr.readStat 19).wellFormed = false := by decide +kernel

theorem test_counter_18_is_well_formed : (Instr.readStat 18).wellFormed = true := by decide +kernel

/-! ### Decode: OPC in 31:24, RING in bit 23, IDX in 15:0 (R139, R140) -/

/-- The instruction a word decodes to, if it is one. -/
def read (w : Word) : Option Instr := (decodeWord w).toOption

/-- The reason a word does not decode, if it does not. -/
def reason (w : Word) : Option DecodeError :=
  match decodeWord w with
  | .ok _ => none
  | .error e => some e

theorem test_decode_descriptor_queries :
    read 0x0100_0000 = some (.initDescChain .tx) ∧ read 0x0180_0000 = some (.initDescChain .rx) ∧
      read 0x0200_0005 = some (.getOwn .tx 5) ∧ read 0x0280_0005 = some (.getOwn .rx 5) ∧
      read 0x0300_FFFF = some (.setOwn .tx 0xFFFF) ∧ read 0x0380_0000 = some (.setOwn .rx 0) ∧
      read 0x0400_0001 = some (.getTxLen 1) ∧ read 0x0580_0003 = some (.rxStatus 3) := by decide +kernel

theorem test_decode_register_operations :
    read 0x0600_0000 = some .dmaMode ∧ read 0x0700_0000 = some .setMacAddr ∧ read 0x0800_0000 = some .setFilter ∧
      read 0x0980_0002 = some (.rxCoalEnable 2) ∧ read 0x0A80_0002 = some (.rxCoalDisable 2) ∧
      read 0x0B00_0000 = some .readIrqStatus ∧ read 0x0C00_0000 = some .clearIrqStatus ∧
      read 0x0D00_0003 = some (.setWol 3) := by decide +kernel

theorem test_decode_process_operations :
    read 0x0E00_0000 = some (.dmaStart .tx) ∧ read 0x0E80_0000 = some (.dmaStart .rx) ∧
      read 0x0F00_0000 = some (.dmaStop .tx) ∧ read 0x0F80_0000 = some (.dmaStop .rx) ∧
      read 0x1000_0000 = some .irqEnable ∧ read 0x1100_0000 = some .adjustLink ∧
      read 0x1200_0000 = some .irqDisable ∧ read 0x1300_0000 = some .readLink ∧
      read 0x1400_0000 = some (.pollDemand .tx) ∧ read 0x1480_0000 = some (.pollDemand .rx) := by decide +kernel

theorem test_decode_ring_operations :
    read 0x2000_0000 = some (.allocate .tx) ∧ read 0x2080_0000 = some (.allocate .rx) ∧
      read 0x2100_0005 = some (.submit 5) ∧ read 0x2200_0007 = some (.reclaim 7) ∧
      read 0x2380_0003 = some (.refill 3) ∧ read 0x2400_0000 = some (.avail .tx) ∧
      read 0x2480_0000 = some (.avail .rx) := by decide +kernel

theorem test_decode_paths :
    read 0x3000_0000 = some .transmit ∧ read 0x3100_0000 = some .txReclaim ∧ read 0x3200_0000 = some .watchdogExpire ∧
      read 0x4000_0040 = some (.poll 64) ∧ read 0x5000_0000 = some .isr ∧ read 0x5100_0000 = some .txRecovery ∧
      read 0x5200_0000 = some .raiseTxThreshold := by decide +kernel

theorem test_decode_lifecycle :
    read 0x6000_0000 = some .attach ∧ read 0x6100_0000 = some .openDev ∧ read 0x6200_0000 = some .closeDev ∧
      read 0x6300_0001 = some (.suspend 1) ∧ read 0x6400_0000 = some .resume ∧
      read 0x6500_0008 = some (.setTunable 8) ∧ read 0x6600_0000 = some .setMtu ∧ read 0x6700_0000 = some .detach ∧
      read 0x6800_0012 = some (.readStat 18) := by decide +kernel

/-- Agent-step codes are bits 31:24 alone (R140). -/
theorem test_decode_agent_steps :
    read 0x8000_0000 = some .dmaTxFrame ∧ read 0x8100_0000 = some .dmaTxSuspend ∧
      read 0x8200_0000 = some .dmaTxUnderflow ∧ read 0x8300_0000 = some .dmaTxJabber ∧
      read 0x8400_0000 = some .dmaTxStopFault ∧ read 0x8500_0000 = some .dmaRxFrame ∧
      read 0x8600_0000 = some .dmaRxNoDesc ∧ read 0x8700_0000 = some .dmaRxOverflow ∧
      read 0x8800_0000 = some .dmaRxStopFault ∧ read 0x89FF_FFFF = some .dmaFatalBusError := by decide +kernel

/-- V-ENC-8, V-ENC-10 to V-ENC-17, by the check each fails. -/
theorem test_decode_illegal_words :
    reason 0x0000_0000 = some (.unknownOpcode 0) ∧ reason 0x1500_0000 = some (.unknownOpcode 0x15) ∧
      reason 0x4100_0000 = some (.unknownOpcode 0x41) ∧ reason 0xFF00_0000 = some (.unknownOpcode 0xFF) ∧
      reason 0x0601_0000 = some .reservedBits ∧ reason 0x0500_0003 = some .ringNotAllowed ∧
      reason 0x2180_0000 = some .ringNotAllowed ∧ reason 0x0680_0000 = some .ringNotAllowed ∧
      reason 0x3000_0001 = some .indexNotZero ∧ reason 0x6500_0009 = some .tunableId ∧
      reason 0x6800_0013 = some .counterId := by decide +kernel

/-- Bytes are taken in `DESC_ENDIAN` order, and three are too few (R82, R120). -/
theorem test_decode_bytes :
    (decodeBytes .le [0x05, 0x00, 0x00, 0x21, 0xAA]).toOption = some (.submit 5, [0xAA]) ∧
      (decodeBytes .be [0x21, 0x00, 0x00, 0x05]).toOption = some (.submit 5, []) ∧
      (decodeBytes .le [0x05, 0x00, 0x00]).toOption = none := by decide +kernel

theorem test_decode_table_word :
    decodeTableWord 32 0x23800003 = some (.refill 3) ∧ decodeTableWord 32 0x80000000 = some .dmaTxFrame ∧
      decodeTableWord 32 0x15000000 = none := by decide +kernel


/-! ### Small states

`up` is the state S1 of spec/95_test_vectors.md with rings of 4 descriptors: an attached, open device, TX empty at 0x1000, RX
at 0x2000 with three armed buffers at 0x1_0000, a packet record's region at 0x3000 and packet bytes at 0x4000. -/

/-- The bytes of `up`: ER of the two last descriptors, and three armed RX descriptors of 0x600-byte buffers. -/
def upBytes : Memory :=
  [(0x1037, 0x08), (0x2003, 0x80), (0x2005, 0x06), (0x200A, 0x01), (0x2013, 0x80), (0x2015, 0x06), (0x2019, 0x08),
   (0x201A, 0x01), (0x2023, 0x80), (0x2025, 0x06), (0x2029, 0x10), (0x202A, 0x01), (0x2037, 0x08)]

/-- A free TX slot. -/
def txFree : TxSlot := { addr := none, len := 0, pkt := none, pub := false }

/-- An RX slot armed with the buffer at `a`. -/
def rxArmed (a : Word) : RxSlot := { buf := some a, addr := some a, pub := true }

/-- An empty RX slot. -/
def rxFree : RxSlot := { buf := none, addr := none, pub := false }

/-- After ATTACH on the platform `p` (R410). -/
def attachedOn (p : Params) : State :=
  { State.resetWith p with
    dev := { (State.resetWith p).dev with attached := true, ops := p.variant, csumCap := p.csumOffload }
    tun := { nTx := 128, nRx := 128, bufSz := 1536, tc := 64, flowCtrl := 3, pause := 0xFFFF, txCoal := 1, rxCoal := 1,
             watchdog := 5000, mtu := 1500 } }

/-- The device of S0 after ATTACH. -/
def present : State := attachedOn Params.default

/-- S1 with rings of 4. -/
def up : State :=
  { present with
    csr := { present.csr with
      dmaCtrl := 0x0000_0803, dmaIer := 0x0001_A1FB, macConfig := 0x0000_0103, macFlow := 0xFFFF_0003 }
    dma := { ts := .suspended, rs := .running, txIdx := 0, rxIdx := 0 }
    tx := { allocated := true, n := 4, base := 0x1000, sub := 0, comp := 0, coalCnt := 0 }
    rx := { allocated := true, n := 4, base := 0x2000, sub := 3, comp := 0, coalCnt := 0 }
    txSlots := [txFree, txFree, txFree, txFree]
    rxSlots := [rxArmed 0x1_0000, rxArmed 0x1_0800, rxArmed 0x1_1000, rxFree]
    dev := { present.dev with ifup := true }
    mem := upBytes
    marks := [{ dma := 0x1_0000, cpu := 0x1_0000, len := 1536 }, { dma := 0x1_0800, cpu := 0x1_0800, len := 1536 },
      { dma := 0x1_1000, cpu := 0x1_1000, len := 1536 }]
    regions := [{ base := 0x1_0000, len := 1536, owner := .pool }, { base := 0x1_0800, len := 1536, owner := .pool },
      { base := 0x1_1000, len := 1536, owner := .pool }, { base := 0x3000, len := 64, owner := .upper },
      { base := 0x4000, len := 256, owner := .upper }] }

/-- `s` with operands in ARG0..ARG3. -/
def args (a b c d : Word) (s : State) : State :=
  { s with csr := { s.csr with arg0 := a, arg1 := b, arg2 := c, arg3 := d } }

/-- `s` with source latches set. -/
def latched (v : Word) (s : State) : State := { s with csr := { s.csr with statusSrc := v } }

/-- `s` with the DMA processes in given states, their start bits as R52 and R53 have them. -/
def procs (ts rs : ProcState) (s : State) : State :=
  { s with
    dma := { s.dma with ts := ts, rs := rs }
    csr := { s.csr with dmaCtrl := 0x0000_0800 ||| bitIf (ts ≠ .stopped) 0 ||| bitIf (rs ≠ .stopped) 1 } }

/-- `up` with the first descriptors of TX published as one-descriptor frames of 60 bytes, IC, LS and FS set, handle 7 and
on (V-RING-5); the first `n` of three slots. -/
def sent (n : Nat) (own : Bool) : State :=
  let d := fun (k : Nat) (b : Byte) =>
    (if own then [(0x1003 + 16 * k, (0x80 : Byte))] else []) ++
      [(0x1004 + 16 * k, 0x3C), (0x1007 + 16 * k, 0xE0), (0x1009 + 16 * k, b)]
  let slot := fun (a p : Word) => ({ addr := some a, len := 60, pkt := some p, pub := true } : TxSlot)
  let m := fun (a : Word) => ({ dma := a, cpu := a, len := 60 } : Mark)
  { up with
    mem := ((if 0 < n then d 0 0x40 else []) ++ (if 1 < n then d 1 0x41 else []) ++ (if 2 < n then d 2 0x42 else [])) ++
      upBytes
    tx := { up.tx with sub := natWord n }
    txSlots := ([slot 0x4000 7, slot 0x4100 8, slot 0x4200 9].take n) ++ List.replicate (4 - n) txFree
    marks := up.marks ++ ([m 0x4000, m 0x4100, m 0x4200].take n)
    regions := up.regions ++ [{ base := 0x4100, len := 256, owner := .upper }, { base := 0x4200, len := 256, owner := .upper }]
    dma := { up.dma with ts := .running } }

/-! What a test looks at. -/

/-- The next state of an outcome, if there is one. -/
def nextOf (x : Host.Outcome State Fault Refusal) : Option State :=
  match x with
  | .next t => some t
  | .fault _ => none
  | .refused _ => none

/-- The next state when the word `w` is fetched and run. -/
def run (w : Nat) (s : State) : Option State := nextOf (step (s.withFetchWord 32 w))

/-- Registers after an outcome. -/
def regs (x : Option State) (cs : List Csr) : Option (List Word) := x.map fun t => cs.map (readCsr t)

/-- Words of a descriptor after an outcome, as software sees them. -/
def desc (x : Option State) (r : RingSel) (i : Nat) : Option (List Word) :=
  x.map fun t => [t.descWord r i 0, t.descWord r i 1, t.descWord r i 2, t.descWord r i 3]

/-- RESULT and RESULT1. -/
def results : List Csr := [.result, .result1]

/-! ### Encoding, illegal words and registers (V-ENC, V-CSR, V-RST) -/

/-- V-RST-1, V-RST-3. -/
theorem test_reset_registers :
    [Csr.dmaCtrl, .dmaTxThresh, .dmaStatus, .dmaIer, .result, .curTxDesc].map (readCsr State.reset) =
      [0x0000_0800, 0x0000_0040, 0, 0, 0, 0] := by decide +kernel

/-- V-RST-2: MAC_CONFIG of a MAC100. -/
theorem test_reset_mac100 :
    readCsr (State.resetWith (Params.of .mac100)) .macConfig = 0x10 := by decide +kernel

/-- V-ENC-8, V-ENC-9, V-ENC-20: ERR_ILLEGAL and CMD_ERR, before the `attached` check. -/
theorem test_illegal_words_run :
    regs (run 0x0000_0000 up) [.result, .dmaCtrl] = some [0xFFFF_FFFF, 0x8000_0803] ∧
      regs (nextOf (hostCsrWrite 4 0x60 0x8000_0000 up)) [.result, .dmaCtrl] = some [0xFFFF_FFFF, 0x8000_0803] ∧
      regs (run 0x0500_0003 State.reset) [.result] = some [0xFFFF_FFFF] := by decide +kernel

/-- V-ENC-18, V-ENC-19: ERROR leaves CMD_ERR alone. -/
theorem test_errors_run :
    regs (run 0x0200_0004 up) [.result, .dmaCtrl] = some [2, 0x0000_0803] ∧
      regs (run 0x0B00_0000 State.reset) [.result] = some [2] := by decide +kernel

/-- V-ENC-21: CMD_ERR is cleared by a written 1. -/
theorem test_cmd_err_is_w1c :
    (nextOf (hostCsrWrite 4 0x00 0x8000_0803 (illegalCommand up))).map (fun t => (readCsr t .dmaCtrl, t.dma.ts)) =
      some (0x0000_0803, .suspended) := by decide +kernel

/-- V-CSR-1 to V-CSR-3. -/
theorem test_threshold_is_warl :
    [0, 127, 128, 255, 256, 511, 0x1000, 0x140].map (fun v : Word => regs (nextOf (hostCsrWrite 4 0x04 v up))
      [.dmaTxThresh]) = [some [64], some [64], some [128], some [192], some [256], some [256], some [64], some [256]] := by
  decide +kernel

/-- V-CSR-9 to V-CSR-11. -/
theorem test_status_register :
    readCsr (latched 0x61 (procs .running .running up)) .dmaStatus = 0x0013_8061 ∧
      regs (nextOf (hostCsrWrite 4 0x08 0x41 (latched 0x61 (procs .running .running up)))) [.dmaStatus] =
        some [0x0012_8020] ∧
      readCsr (latched 0x60 (procs .running .running up)) .dmaStatus = 0x0013_8060 := by decide +kernel

/-- V-CSR-12 to V-CSR-15. -/
theorem test_interrupt_line :
    let line := fun (src ier : Word) => (latched src { up with csr := { up.csr with dmaIer := ier } }).irqMac
    line 0x01 0x0001_A1FB = true ∧ line 0x40 0x0001_A1BB = false ∧ line 0x01 0x0000_A1FB = false ∧
      line 0x21 0x0000_A1FB = true ∧ line 0x2000 0x0001_21FB = false := by decide +kernel

/-- V-CSR-16, V-CSR-17. -/
theorem test_base_register :
    regs (nextOf (hostCsrWrite 4 0x10 0x0012_0000 up)) [.txDescBase] = some [0x1000] ∧
      regs (nextOf (hostCsrWrite 4 0x10 0x0010_0007 (procs .stopped .running up))) [.txDescBase, .curTxDesc] =
        some [0x0010_0000, 0x0010_0000] := by decide +kernel

/-- base(RX) is the register: after a write of it, the descriptors and their region are at its value (R32, R81, R330). -/
theorem test_descriptors_follow_the_base_register :
    (nextOf (hostCsrWrite 4 0x14 0x9000 (procs .running .stopped up))).map (fun t =>
      ([t.descAddr .rx 1 2, t.dmaDesc .rx 1 2], t.descWord .rx 0 0, [t.inRegion 0x9000, t.inRegion 0x2000])) =
      some ([0x9018, 0x9018], 0, [true, false]) := by decide +kernel

/-- V-CSR-18, and a demand on a SUSPENDED process (R43). -/
theorem test_poll_demand_register :
    (nextOf (hostCsrWrite 4 0x18 1 (procs .stopped .running up))).map (·.dma.ts) = some .stopped ∧
      (nextOf (hostCsrWrite 4 0x18 0 up)).map (·.dma.ts) = some .running := by decide +kernel

/-- V-CSR-19, V-CSR-20. -/
theorem test_platform_bits :
    regs (nextOf (hostCsrWrite 4 0x28 0x0000_0103 (attachedOn (Params.of .mac100)))) [.macConfig, .hwFeature] = some [0x13, 0] ∧
      readCsr up .hwFeature = 3 := by decide +kernel

/-- V-CSR-21, V-CSR-22. -/
theorem test_reserved_and_write_only :
    (nextOf (hostCsrRead 4 0x24 up)).map (·.busData) = some 0 ∧
      (nextOf (hostCsrRead 4 0x60 up)).map (·.busData) = some 0 ∧
      nextOf (hostCsrWrite 4 0x24 5 up) = some up := by decide +kernel

/-! ### The operations table (V-OPS) -/

/-- V-OPS-1, V-OPS-3. -/
theorem test_init_desc_chain :
    (List.range 4).map (desc (run 0x0100_0000 (procs .stopped .running (sent 3 true))) .tx) =
      [some [0, 0, 0, 0], some [0, 0, 0, 0], some [0, 0, 0, 0], some [0, 0x0800_0000, 0, 0]] := by decide +kernel

/-- V-OPS-2. -/
theorem test_init_desc_chain_running : regs (run 0x0100_0000 up) [.result] = some [2] := by decide +kernel

/-- V-OPS-4. -/
theorem test_get_own :
    regs (run 0x0280_0000 up) [.result] = some [1] ∧ regs (run 0x0280_0003 up) [.result] = some [0] := by decide +kernel

/-- `up` with TX slot 0 staged: FS, 100 bytes (V-RING-13). -/
def stagedTx : State :=
  { up with
    mem := [(0x1004, 0x64), (0x1007, 0x20), (0x1009, 0x40)] ++ upBytes
    tx := { up.tx with sub := 1 }
    txSlots := [{ addr := some 0x4000, len := 100, pkt := none, pub := false }, txFree, txFree, txFree] }

/-- V-RING-13. -/
theorem test_set_own :
    desc (run 0x0300_0000 stagedTx) .tx 0 = some [0x8000_0000, 0x2000_0064, 0x4000, 0] := by decide +kernel

/-- V-OPS-27. -/
theorem test_set_own_not_staged : regs (run 0x0300_0000 up) [.result] = some [2] := by decide +kernel

/-- V-OPS-5. -/
theorem test_get_tx_len :
    regs (run 0x0400_0000 (sent 1 false)) [.result] = some [60] ∧
      regs (run 0x0400_0000 (sent 1 true)) [.result] = some [2] := by decide +kernel

/-- `up` with RX slot 0 closed by DMA: the bytes of its des0, then its buffer is still mapped. -/
def received (b0 b1 b2 b3 : Byte) : State :=
  { up with
    mem := [(0x1037, 0x08)] ++ ([(0x2000, b0), (0x2001, b1), (0x2002, b2), (0x2003, b3)].filter fun c => c.2 ≠ 0) ++
      upBytes.drop 2
    dma := { up.dma with rxIdx := 1 } }

/-- V-OPS-6, V-OPS-8. -/
theorem test_rx_status :
    regs (run 0x0580_0000 (received 0x01 0x03 0x40 0x00)) results = some [1, 64] ∧
      regs (run 0x0580_0000 up) [.result] = some [2] := by decide +kernel

/-- V-OPS-7; CSV counts only while IPC = 1 (D29). -/
theorem test_frame_classes :
    [0x0040_0300, 0x0040_0380, 0x0040_8302, 0x0040_0201, 0x0600_C300].map (fun d : Word => (classify true d).code) =
      [0, 2, 3, 3, 3] ∧ [true, false].map (fun ipc => (classify ipc 0x0040_0301).code) = [1, 0] := by decide +kernel

/-- V-CSR-4 to V-CSR-7: PBL. -/
theorem test_dma_mode_burst :
    [3, 64, 33, 32].map (fun a : Word => (run 0x0600_0000 (args a 0 64 0 up)).map fun t =>
      bitsAt (readCsr t .dmaCtrl) 8 6) = [some 8, some 8, some 8, some 32] := by decide +kernel

/-- V-CSR-8. -/
theorem test_dma_mode :
    regs (run 0x0600_0000 (args 16 1 64 0 up)) [.dmaCtrl, .dmaTxThresh] = some [0x0000_1007, 0x40] := by decide +kernel

/-- V-OPS-12. -/
theorem test_set_mac_addr :
    regs (run 0x0700_0000 (args 0x3344_5566 0x0011_2233 0 0 up)) [.macAddrHi, .macAddrLo] =
      some [0x0000_2233, 0x3344_5566] := by decide +kernel

/-- V-OPS-13. -/
theorem test_set_filter :
    regs (run 0x0800_0000 (args 0xF 1 2 0 up)) [.frameFilter, .mcHashLo, .mcHashHi] = some [7, 1, 2] := by decide +kernel

/-- V-OPS-9. -/
theorem test_rx_coal_enable :
    desc (run 0x0980_0003 up) .rx 3 = some [0, 0x0C00_0000, 0, 0] := by decide +kernel

/-- V-OPS-11. -/
theorem test_rx_coal_enable_armed : regs (run 0x0980_0000 up) [.result] = some [2] := by decide +kernel

/-- V-OPS-10: DIC is cleared, the size and ER are kept. -/
theorem test_rx_coal_disable :
    desc (run 0x0A80_0003 { up with mem := upBytes.dropLast ++ [(0x2035, 0x06), (0x2037, 0x0C)] }) .rx 3 =
      some [0, 0x0800_0600, 0, 0] := by decide +kernel

/-- V-OPS-14. -/
theorem test_read_irq_status : regs (run 0x0B00_0000 up) [.result] = some [0x0022_0000] := by decide +kernel

/-- V-OPS-15. -/
theorem test_clear_irq_status :
    regs (run 0x0C00_0000 (args 0x41 0 0 0 (latched 0x61 up))) [.result, .dmaStatus] = some [0, 0x0022_8020] := by
  decide +kernel

/-- V-OPS-16. -/
theorem test_set_wol :
    regs (run 0x0D00_0003 up) [.result, .pmt] = some [0, 6] ∧
      regs (run 0x0D00_0004 up) [.result, .pmt] = some [2, 0] := by decide +kernel

/-- V-OPS-17. -/
theorem test_dma_stop :
    regs (run 0x0F00_0000 up) [.dmaCtrl, .macConfig, .dmaStatus] = some [0x0802, 0x0102, 0x0002_0000] := by decide +kernel

/-- V-OPS-18. -/
theorem test_dma_start :
    regs (run 0x0E00_0000 { procs .stopped .running up with csr := { up.csr with dmaCtrl := 0x802, macConfig := 0x102 } })
      [.dmaCtrl, .macConfig, .dmaStatus] = some [0x0803, 0x0103, 0x0012_0000] := by decide +kernel

/-- V-OPS-19. -/
theorem test_irq_enable :
    regs (run 0x1000_0000 (args 0xFFFF_FFFF 0 0 0 { up with csr := { up.csr with dmaIer := 0 } })) [.dmaIer] =
      some [0x0001_A1FB] := by decide +kernel

/-- V-OPS-20. -/
theorem test_irq_disable : regs (run 0x1200_0000 (args 0x40 0 0 0 up)) [.dmaIer] = some [0x0001_A1BB] := by decide +kernel

/-- V-OPS-21, V-OPS-22. -/
theorem test_adjust_link :
    regs (run 0x1100_0000 (args 1 100 1 0 up)) [.macConfig] = some [0x0000_011F] ∧
      regs (run 0x1100_0000 (args 1 1000 1 0 up)) [.macConfig] = some [0x0000_0107] := by decide +kernel

/-- V-OPS-24, V-OPS-25. -/
theorem test_adjust_link_down :
    (run 0x1100_0000 (args 0 0 0 0 { up with link := { up := true, speed := .s1000, duplex := .full } })).map (·.link) =
        some { up := false, speed := .none, duplex := .full } ∧
      regs (run 0x1100_0000 (args 1 55 0 0 up)) [.result] = some [2] := by decide +kernel

/-- V-OPS-22. -/
theorem test_read_link :
    regs (run 0x1300_0000 { up with link := { up := true, speed := .s1000, duplex := .full } }) results =
      some [3, 1000] := by decide +kernel

/-- V-OPS-26. -/
theorem test_poll_demand : (run 0x1400_0000 up).map (·.dma.ts) = some .running := by decide +kernel

/-! ### The ring operations (V-RING) -/

/-- V-RING-1 with a ring of 4. -/
theorem test_allocate :
    (run 0x2000_0000 (args 4 0 0 0 { present with allocAnswers := [some 0x1000] })).map
      (fun t => (t.tx, readCsr t .result, readCsr t .result1, readCsr t .txDescBase)) =
      some ({ allocated := true, n := 4, base := 0x1000, sub := 0, comp := 0, coalCnt := 0 }, 0, 0x1000, 0x1000) := by
  decide +kernel

/-- V-RING-2, V-RING-3, V-RING-4. -/
theorem test_allocate_errors :
    [100, 2048, 2].map (fun n : Word => regs (run 0x2000_0000 (args n 0 0 0 present)) [.result]) =
        [some [2], some [2], some [2]] ∧
      regs (run 0x2000_0000 (args 4 0 0 0 (procs .stopped .running up))) [.result] = some [2] ∧
      regs (run 0x2080_0000 (args 128 0 0 0 { present with allocAnswers := [none] })) [.result] = some [2] := by
  decide +kernel

/-- V-RING-5. -/
theorem test_submit :
    desc (run 0x2100_0000 (args 0x4000 60 0x1E 7 up)) .tx 0 = some [0x8000_0000, 0xE000_003C, 0x4000, 0] := by
  decide +kernel

/-- V-RING-9: ER is kept; V-RING-8: no slot is left. -/
theorem test_submit_at_the_end_of_the_ring :
    let s := args 0x4000 60 0x1E 7 { up with tx := { up.tx with sub := 3, comp := 1 } }
    let b := args 0x4000 60 0x1E 7 { up with tx := { up.tx with sub := 3, comp := 0 } }
    desc (run 0x2100_0003 s) .tx 3 = some [0x8000_0000, 0xE800_003C, 0x4000, 0] ∧
      (run 0x2100_0003 b).map (fun t => (readCsr t .result, t.stats.txBusy)) = some (1, 1) := by decide +kernel

/-- V-RING-14. -/
theorem test_reclaim :
    (run 0x2200_0000 (sent 1 false)).map (fun t =>
      ([readCsr t .result, readCsr t .result1], [t.stats.txPackets, t.stats.txBytes], t.outputs, t.tx.comp)) =
      some ([0, 60], [1, 60], [.release 7], 1) := by decide +kernel

/-- V-RING-15, V-RING-17. -/
theorem test_reclaim_errors :
    (run 0x2200_0000 { sent 1 false with mem := [(0x1000, 0x02), (0x1001, 0x80)] ++ (sent 1 false).mem }).map (fun t =>
        (readCsr t .result, t.stats.txErrors, t.stats.txBytes, t.outputs)) = some (0x8002, 1, 0, [.release 7]) ∧
      regs (run 0x2200_0000 (sent 1 true)) [.result] = some [2] ∧
      regs (run 0x2200_0001 (sent 2 true)) [.result] = some [2] := by decide +kernel

/-- V-RING-21: slot 3 takes an allocated buffer once a frame has been consumed. -/
theorem test_refill :
    desc (run 0x2380_0003 { up with rx := { up.rx with comp := 1 }, allocAnswers := [some 0x1_1800] }) .rx 3 =
      some [0x8000_0000, 0x0800_0600, 0x1_1800, 0] := by decide +kernel

/-- V-RING-20, V-RING-22. -/
theorem test_refill_busy_and_fail :
    regs (run 0x2380_0003 up) [.result] = some [1] ∧
      (run 0x2380_0003 { up with rx := { up.rx with comp := 1 }, allocAnswers := [none] }).map (fun t =>
        (readCsr t .result, t.stats.rxAllocFail, t.rx.sub)) = some (2, 1, 3) := by decide +kernel

/-- V-RING-24, and the same on a full ring, which is BUSY first (R223, R230). -/
theorem test_refill_of_a_kept_slot :
    let kept := { up with rxSlots := [rxArmed 0x1_0000, rxArmed 0x1_0800, rxArmed 0x1_1000, { rxFree with buf := some 0x1_1800 }] }
    regs (run 0x2380_0003 (args 0x4000 0 0 0 { kept with rx := { kept.rx with comp := 1 } })) [.result] = some [2] ∧
      regs (run 0x2380_0003 (args 0x4000 0 0 0 kept)) [.result] = some [1] ∧
      regs (run 0x2380_0003 (args 0 0 0 0 kept)) [.result] = some [1] := by decide +kernel

/-- V-RING-10, V-RING-11. -/
theorem test_avail :
    let s := fun (a b : Word) => { up with tx := { up.tx with n := 128, sub := a, comp := b } }
    regs (run 0x2400_0000 (s 200 73)) results = some [0, 127] ∧
      regs (run 0x2400_0000 (s 0x0000_0005 0xFFFF_FFFE)) results = some [120, 7] := by decide +kernel

/-- V-RING-25. -/
theorem test_avail_unallocated : regs (run 0x2480_0000 present) [.result] = some [2] := by decide +kernel

/-! ### Transmit, reclamation, recovery (V-TX, V-DSP, P3, P5) -/

/-- `up` with a packet record at 0x3000: head at 0x4000 of `len` bytes (low, high), handle 7, no fragments. -/
def withRecord (lo hi : Byte) : State :=
  args 0x3000 0 0 0 { up with
    mem := [(0x1037, 0x08)] ++ upBytes.tail ++ [(0x3001, 0x40)] ++
      ([(0x3004, lo), (0x3005, hi)].filter fun c => c.2 ≠ 0) ++ [(0x300C, 0x07)] }

/-- P1 step 1: slot 0, the cursor and the kick. -/
theorem test_transmit :
    (run 0x3000_0000 (withRecord 60 0)).map (fun t => (desc (some t) .tx 0, t.tx.sub, t.dma.ts, readCsr t .result)) =
      some (some [0x8000_0000, 0xE000_003C, 0x4000, 0], 1, .running, 0) := by decide +kernel

/-- V-TX-4: a head of 6000 bytes is split. -/
theorem test_transmit_split :
    (run 0x3000_0000 (withRecord 0x70 0x17)).map (fun t =>
      [t.descWord .tx 0 1, t.descWord .tx 1 1, t.descWord .tx 1 2]) =
      some [0x2000_1000, 0xC000_0770, 0x5000] := by decide +kernel

/-- V-TX-1 to V-TX-6, V-TX-8: segmentation with TX_BUF_CAP = 4096. -/
theorem test_segments :
    let k := fun (len : Nat) (frags : List (Word × Nat)) => txSegments Params.default
      { headAddr := 0x4000, headLen := len, nrFrags := frags.length, csumReq := false, reserved := 0, handle := 7,
        frags := frags }
    k 60 [] = some [(0x4000, 60)] ∧ k 4096 [] = some [(0x4000, 4096)] ∧ k 4097 [] = some [(0x4000, 4096), (0x5000, 1)] ∧
      k 8192 [] = some [(0x4000, 4096), (0x5000, 4096)] ∧ k 8193 [] = none ∧ k 0 [] = none ∧
      k 60 [(0x9000, 0)] = none ∧ k 60 [(0x9000, 4097)] = none := by decide +kernel

/-- V-TX-6 (HEAD_LEN 0), V-TX-21. -/
theorem test_transmit_errors :
    (run 0x3000_0000 (withRecord 0 0)).map (fun t => (readCsr t .result, t.stats.txErrors, t.tx.sub)) = some (2, 1, 0) ∧
      regs (run 0x3000_0000 (args 0x3000 0 0 0 present)) [.result] = some [2] := by decide +kernel

/-- V-TX-10. -/
theorem test_transmit_busy :
    (run 0x3000_0000 { withRecord 60 0 with tx := { up.tx with sub := 3 } }).map (fun t =>
      (readCsr t .result, t.dev.txQueueStopped, t.stats.txBusy, t.tx.sub)) = some (1, true, 1, 3) := by decide +kernel

/-- P5 step 5: three completed descriptors are reclaimed in order. -/
theorem test_tx_reclaim :
    (run 0x3100_0000 (sent 3 false)).map (fun t => ([readCsr t .result, t.tx.comp], t.stats.txPackets, t.outputs)) =
      some ([3, 3], 3, [.release 7, .release 8, .release 9]) := by decide +kernel

/-- V-TX-17, V-TX-19: nothing to reclaim; one free slot of 4 is not more than N / 4. -/
theorem test_tx_reclaim_empty :
    regs (run 0x3100_0000 up) [.result] = some [0] ∧
      (run 0x3100_0000 { sent 3 true with
        tx := { up.tx with sub := 2 }, dev := { up.dev with txQueueStopped := true } }).map (·.dev.txQueueStopped) =
        some true := by decide +kernel

/-- V-TX-20. -/
theorem test_watchdog_expire :
    (run 0x3200_0000 (sent 3 true)).map (fun t =>
      ([t.stats.txTimeout, t.stats.txRecovery, t.stats.txPackets], [t.tx.sub, t.tx.comp], t.outputs)) =
      some ([1, 1, 0], [0, 0], [.release 7, .release 8, .release 9]) := by decide +kernel

/-- P1 step 8: the frame is delivered, slot 3 is armed, and the poll rearms. -/
theorem test_poll :
    (run 0x4000_0040 { received 0x01 0x03 0x40 0x00 with
        allocAnswers := [some 0x1_1800], csr := { up.csr with dmaIer := 0x0001_A1BB }
        dev := { up.dev with rxPollScheduled := true } }).map (fun t =>
      ([readCsr t .result, readCsr t .dmaIer, t.rx.sub, t.rx.comp], desc (some t) .rx 3, t.outputs, t.dev.rxPollScheduled)) =
      some ([1, 0x0001_A1FB, 4, 1], some [0x8000_0000, 0x0800_0600, 0x1_1800, 0],
        [.deliver 0x1_0000 60 .verified], false) := by decide +kernel

/-- P2: a frame with ES is discarded, and its slot keeps its buffer. -/
theorem test_poll_discard :
    (run 0x4000_0040 { received 0x02 0x83 0x40 0x00 with allocAnswers := [some 0x1_1800] }).map (fun t =>
      (t.stats.rxErrors, desc (some t) .rx 0, t.outputs, t.rx.sub)) =
      some (1, some [0x0040_8302, 0x0000_0600, 0x1_0000, 0], [], 4) := by decide +kernel

/-- V-DSP-1. -/
theorem test_isr :
    (run 0x5000_0000 (latched 0x41 up)).map (fun t =>
      ([readCsr t .result, readCsr t .dmaStatus, readCsr t .dmaIer], t.dev.rxPollScheduled, t.dev.txReclaimPending)) =
      some ([0x41, 0x0022_0000, 0x0001_A1BB], true, true) := by decide +kernel

/-- V-DSP-4: one recovery for two causes. -/
theorem test_isr_recovers :
    (run 0x5000_0000 (latched 0x2002 (sent 3 true))).map (fun t =>
      ([t.stats.txProcessStopped, t.stats.fatalBusError, t.stats.txRecovery], [t.tx.sub, t.tx.comp], t.tx.avail)) =
      some ([1, 1, 1], [0, 0], 3) := by decide +kernel

/-- P3 step 3. -/
theorem test_tx_recovery :
    (run 0x5100_0000 (sent 3 true)).map (fun t =>
      (regs (some t) [.dmaCtrl, .macConfig, .dmaStatus, .curTxDesc], desc (some t) .tx 3, t.stats.txRecovery, t.outputs)) =
      some (some [0x0803, 0x0103, 0x0012_0000, 0x1000], some [0, 0x0800_0000, 0, 0], 1,
        [.release 7, .release 8, .release 9]) := by decide +kernel

/-- V-DSP-3, V-DSP-9. -/
theorem test_raise_tx_threshold :
    regs (run 0x5200_0000 up) [.result, .dmaTxThresh] = some [128, 128] ∧
      regs (run 0x5200_0000 { up with csr := { up.csr with dmaTxThresh := 256 } }) [.result] = some [256] ∧
      regs (run 0x5200_0000 { up with csr := { up.csr with dmaCtrl := 0x0807 } }) [.result] = some [64] := by
  decide +kernel

/-! ### Lifecycle (V-LC) -/

/-- V-LC-1. -/
theorem test_attach :
    run 0x6000_0000 State.reset = some present ∧ regs (run 0x6000_0000 present) [.result] = some [2] := by decide +kernel

/-- The state from which OPEN with rings of 4 reaches S1. -/
def opening : State :=
  { present with
    tun := { present.tun with nTx := 4, nRx := 4 }
    allocAnswers := [some 0x1000, some 0x2000, some 0x1_0000, some 0x1_0800, some 0x1_1000] }

/-- S1's registers, reached by OPEN. -/
theorem test_open_registers :
    regs (run 0x6100_0000 opening)
      [.result, .dmaCtrl, .dmaTxThresh, .dmaStatus, .dmaIer, .macConfig, .macFlow, .txDescBase, .rxDescBase] =
      some [0, 0x0803, 0x40, 0x0012_0000, 0x0001_A1FB, 0x0103, 0xFFFF_0003, 0x1000, 0x2000] := by decide +kernel

/-- S1's rings, reached by OPEN. -/
theorem test_open_rings :
    (run 0x6100_0000 opening).map (fun t => (t.mem, t.rx, t.rxSlots)) = some (upBytes, up.rx, up.rxSlots) := by
  decide +kernel

/-- V-LC-3 with the second buffer failing. -/
theorem test_open_fails :
    (run 0x6100_0000 { opening with allocAnswers := [some 0x1000, some 0x2000, some 0x1_0000, none] }).map (fun t =>
      (regs (some t) [.result, .dmaCtrl], [t.tx.allocated, t.rx.allocated, t.dev.ifup], t.stats.rxAllocFail, t.regions)) =
      some (some [2, 0x0800], [false, false, false], 1, []) := by decide +kernel

/-- The same with a BUF_SZ to be fixed and an MTU out of range: a failed OPEN leaves both clamped and written back (R413, R416). -/
theorem test_failed_open_clamps_the_tunables :
    let s := { opening with
      tun := { opening.tun with bufSz := 2048, mtu := 1 }
      allocAnswers := [some 0x1000, some 0x2000, some 0x1_0000, none] }
    (run 0x6100_0000 s).map (fun t => (readCsr t .result, [t.tun.bufSz, t.tun.mtu], [t.eff.bufSz, t.eff.mtu])) =
      some (2, [2048, 1500], [2048, 1500]) := by decide +kernel

/-- V-LC-10: only the upper layer's regions are left. -/
theorem test_close :
    (run 0x6200_0000 up).map (fun t =>
      (regs (some t) [.result, .dmaCtrl, .macConfig, .dmaIer], [t.tx.allocated, t.rx.allocated, t.dev.ifup],
        t.regions.map (·.base), t.marks)) =
      some (some [0, 0x0800, 0x0100, 0], [false, false, false], [0x3000, 0x4000], []) := by decide +kernel

/-- V-LC-12: the descriptors stay published. -/
theorem test_suspend_wol :
    (run 0x6300_0001 (sent 3 true)).map (fun t =>
      (regs (some t) [.result, .dmaIer, .dmaStatus, .pmt], (List.range 3).map (t.ownSeen .tx), t.dev.suspended)) =
      some (some [0, 0, 0, 1], [true, true, true], true) := by decide +kernel

/-- V-LC-14, V-LC-15. -/
theorem test_suspend_shutdown :
    (run 0x6300_0000 up).map (fun t => (readCsr t .result, [t.tx.allocated, t.dev.ifup, t.dev.fullShutdown])) =
        some (0, [false, false, true]) ∧
      regs (run 0x6300_0002 up) [.result] = some [2] := by decide +kernel

/-- `up` after SUSPEND 1. -/
def asleep : State :=
  { procs .stopped .stopped up with
    csr := { up.csr with dmaCtrl := 0x0800, macConfig := 0x0100, dmaIer := 0, pmt := 1 }
    dev := { up.dev with suspended := true, savedCtrl := { st := true, sr := true, te := true, re := true } } }

/-- V-LC-13, V-LC-16. -/
theorem test_resume :
    regs (run 0x6400_0000 asleep) [.result, .dmaCtrl, .macConfig, .dmaIer, .pmt] =
        some [0, 0x0803, 0x0103, 0x0001_A1FB, 0] ∧
      regs (run 0x6400_0000 up) [.result] = some [2] := by decide +kernel

/-- V-LC-4. -/
theorem test_set_tunable_ring :
    regs (run 0x6500_0000 (args 100 0 0 0 present)) [.result] = some [2] ∧
      (run 0x6500_0000 (args 256 0 0 0 present)).map (fun t => (readCsr t .result, t.tun.nTx)) = some (0, 256) := by
  decide +kernel

/-- V-LC-5. -/
theorem test_set_tunable_coalescing :
    regs (run 0x6500_0006 (args 128 0 0 0 present)) [.result] = some [2] ∧
      (run 0x6500_0006 (args 127 0 0 0 present)).map (fun t => (readCsr t .result, t.tun.txCoal)) = some (0, 127) := by
  decide +kernel

/-- V-LC-7, V-LC-8, V-LC-9. -/
theorem test_set_mtu :
    regs (run 0x6600_0000 (args 9000 0 0 0 (attachedOn (Params.of .mac100)))) [.result] = some [2] ∧
      (run 0x6600_0000 (args 9000 0 0 0 present)).map (fun t => (readCsr t .result, t.tun.mtu)) = some (0, 9000) ∧
      regs (run 0x6600_0000 (args 1500 0 0 0 up)) [.result] = some [2] := by decide +kernel

/-- V-LC-11. -/
theorem test_detach :
    regs (run 0x6700_0000 up) [.result] = some [2] ∧
      (run 0x6700_0000 present).map (fun t => (readCsr t .result, t.dev.attached)) = some (0, false) := by decide +kernel

/-- V-LC-18. -/
theorem test_read_stat :
    regs (run 0x6800_0006 { up with stats := { up.stats with fatalBusError := 0x1_0000_0005 } }) results =
      some [5, 1] := by decide +kernel

/-! ### The DMA engine (V-DMA) -/

/-- V-DMA-1. -/
theorem test_dma_tx_frame :
    (run 0x8000_0000 (sent 1 true)).map (fun t =>
      ([t.descWord .tx 0 0, readCsr t .dmaStatus, readCsr t .curTxDesc],
        t.outputs.map (fun o => match o with | .emit b => b.length | _ => 0))) =
      some ([0, 0x0013_0001, 0x1010], [60]) := by decide +kernel

/-- FS is 0 in the frame's first descriptor (V-DMA-12). -/
def malformed : State :=
  { sent 1 true with mem := [(0x1003, 0x80), (0x1004, 0x3C), (0x1007, 0x40), (0x1009, 0x40)] ++ upBytes }

/-- V-DMA-12: a MALFORMED chain takes no step but 0x84. -/
theorem test_dma_tx_malformed :
    [0x8000_0000, 0x8100_0000, 0x8200_0000, 0x8300_0000].map (fun w => run w malformed) =
      List.replicate 4 (some malformed) := by
  decide +kernel

/-- S1: descriptor 0 has OWN = 0. -/
theorem test_dma_tx_suspend : (run 0x8100_0000 { up with dma := { up.dma with ts := .running } }).map (·.dma) =
    some up.dma := by decide +kernel

/-- V-DMA-2. -/
theorem test_dma_tx_underflow :
    (run 0x8200_0000 (sent 1 true)).map (fun t => [t.descWord .tx 0 0, readCsr t .dmaStatus]) =
      some [0x0000_8002, 0x0023_8021] := by decide +kernel

/-- V-DMA-4. -/
theorem test_dma_tx_jabber :
    (run 0x8300_0000 (sent 1 true)).map (fun t => [t.descWord .tx 0 0, readCsr t .dmaStatus]) =
      some [0x0000_C000, 0x0013_8009] := by decide +kernel

/-- V-DMA-5. -/
theorem test_dma_tx_stop_fault :
    regs (run 0x8400_0000 up) [.dmaCtrl, .dmaStatus] = some [0x0802, 0x0002_8002] := by decide +kernel

/-- V-DMA-6. -/
theorem test_dma_rx_stop_fault :
    regs (run 0x8800_0000 up) [.dmaCtrl, .dmaStatus] = some [0x0801, 0x0020_8100] := by decide +kernel

/-- V-DMA-7, V-DMA-8. -/
theorem test_dma_fatal_bus_error :
    regs (run 0x8900_0000 up) [.dmaCtrl, .dmaStatus] = some [0x0802, 0x0002_A000] ∧
      regs (run 0x8900_0000 { up with params := { up.params with fbeStopsRx := true } }) [.dmaCtrl, .dmaStatus] =
        some [0x0800, 0x0000_A000] := by decide +kernel

/-- `up` with a frame on the wire. -/
def arriving (n : Nat) (c : Verdict) : State :=
  { up with wire := [{ bytes := List.replicate n 0xAB, fcs := 0x1122_3344, crcErr := false, csum := c }] }

/-- V-DMA-15. -/
theorem test_dma_rx_frame :
    (run 0x8500_0000 (arriving 60 .good)).map (fun t =>
      ([t.descWord .rx 0 0, readCsr t .dmaStatus, readCsr t .curRxDesc], t.dmaBytes 0x1_003A 5, t.wire.length)) =
      some ([0x0040_0301, 0x0023_0040, 0x2010], [0xAB, 0xAB, 0x44, 0x33, 0x22], 0) := by decide +kernel

/-- R80, R88: a DMA address is the `DMA_MAP` image of the CPU address it reaches. -/
theorem test_dma_map :
    let s := { up with params := { Params.default with dmaMap := [{ cpu := 0x4000, dma := 0x9000_4000, len := 256 }] } }
    s.dmaCell 0x9000_4010 = some 0x4010 ∧ s.dmaCell 0x4010 = none ∧ s.dmaCell 0x3010 = some 0x3010 := by decide +kernel

/-- R81: a mapped byte that lies in no region any more is out of bounds. -/
theorem test_dma_freed_buffer :
    up.dmaCell 0x1_0010 = some 0x1_0010 ∧ (freeBuf 0x1_0000 up).marked 0x1_0010 = true ∧
      (freeBuf 0x1_0000 up).dmaCell 0x1_0010 = none := by decide +kernel

/-- V-DMA-9. -/
theorem test_dma_rx_no_desc :
    (run 0x8600_0000 { arriving 60 .good with dma := { up.dma with rxIdx := 3 } }).map (fun t =>
      (readCsr t .dmaStatus, t.stats.rxDropped, t.dma.rxIdx)) = some (0x0024_8080, 1, 3) := by
  decide +kernel

/-- V-DMA-10, V-DMA-11. -/
theorem test_dma_rx_overflow :
    (run 0x8700_0000 (arriving 60 .good)).map (fun t => (readCsr t .dmaStatus, decide (t.mem = upBytes), t.wire)) =
        some (0x0022_8010, true, []) ∧
      run 0x8500_0000 { arriving 60 .good with csr := { up.csr with macConfig := 0x0101 } } =
        some { up with csr := { up.csr with macConfig := 0x0101 } } := by decide +kernel

/-! ### Model faults (V-FLT) -/

/-- The fault an outcome's next state records. -/
def faultOf (x : Host.Outcome State Fault Refusal) : Option Fault := (nextOf x).bind (·.fault)

/-- V-FLT-1, V-FLT-2. -/
theorem test_own_violation :
    faultOf (hostMemWrite 0x2000 0 up) = some (.ownViolation 0x2000) ∧
      faultOf (hostMemRead 0x2004 up) = some (.ownViolation 0x2004) := by decide +kernel

/-- V-FLT-3, V-FLT-4. -/
theorem test_missing_fence :
    let s := pushWrite 0x1004 [0x3C, 0x00, 0x00, 0xE0] up
    faultOf (hostMemWrite 0x1000 0x8000_0000 s) = some (.missingFence 0x1000) ∧
      (nextOf (hostMemWrite 0x1000 0x8000_0000 (descFence s))).map (fun t => (t.fault, (t.txSlot 0).pub)) =
        some (none, true) := by decide +kernel

/-- V-FLT-5: a mapped head. -/
theorem test_mapped_read : faultOf (hostMemRead 0x4000 (sent 1 true)) = some (.ownViolation 0x4000) := by decide +kernel

/-- A host-built TX descriptor 0: hardware-owned, 16 bytes at `a`, which no `map` has marked. -/
def built (a : Word) (own : Bool) : State :=
  pushWrite 0x1008 (splitWord .le a) (pushWrite 0x1004 [16, 0, 0, 0] (if own then pushWrite 0x1003 [0x80] up else up))

/-- R95, R493: the buffer of a hardware-owned descriptor, to a command and to the host. -/
theorem test_hardware_buffer :
    faultOf (step ((built 0x1032 true).withFetchWord 32 0x0200_0003)) = some (.ownViolation 0x1032) ∧
      faultOf (hostMemWrite 0x4040 0 (built 0x4043 true)) = some (.ownViolation 0x4043) ∧
      faultOf (hostMemWrite 0x4040 0 (built 0x4043 false)) = none := by decide +kernel

/-- V-FLT-6. -/
theorem test_bad_csr_access :
    faultOf (hostCsrRead 2 0x08 up) = some (.badCsrAccess 0x08) ∧
      faultOf (hostCsrRead 4 0x0A up) = some (.badCsrAccess 0x0A) := by decide +kernel

/-- V-FLT-7: a descriptor outside every region. -/
theorem test_dma_out_of_bounds :
    faultOf (step ({ up with dma := { up.dma with ts := .running, txIdx := 4 } }.withFetchWord 32 0x8000_0000)) =
      some (.dmaOutOfBounds 0x1040) := by decide +kernel

/-- V-FLT-8. -/
theorem test_no_step_after_a_fault :
    run 0x6000_0000 { State.reset with fault := some (.badCsrAccess 0x0A) } = none := by decide +kernel


/-! ### Witnesses: states that meet the premises of the obligations

`Meets` is what most statements ask of a state. -/

/-- No fault, and every invariant; the device is attached. -/
abbrev Meets (s : State) : Prop :=
  s.sound ∧ s.memLegal ∧ s.regsLegal ∧ s.ringsLegal ∧ s.sessionLegal ∧ s.dev.attached = true

/-- `State.regsLegal` as a test. -/
def regsOk (s : State) : Bool :=
  let c := s.csr
  let p := s.params
  [c.dmaCtrl &&& 0x7FFF_C0F0 == 0, [1, 2, 4, 8, 16, 32].contains (bitsAt c.dmaCtrl 8 6),
    [64, 128, 192, 256].contains c.dmaTxThresh, c.statusSrc &&& ~~~srcMask == 0, c.dmaIer &&& ~~~ierMask == 0,
    s.tx.base &&& 0xF == 0, s.rx.base &&& 0xF == 0, c.macConfig &&& 0xFFFF_FEE0 == 0,
    p.variant != .mac100 || bit c.macConfig 4, p.csumOffload || !bit c.macConfig 8, c.macFlow &&& 0x0000_FFFC == 0,
    c.macAddrHi &&& 0xFFFF_0000 == 0, c.frameFilter &&& 0xFFFF_FFF8 == 0, c.pmt &&& 0xFFFF_FFF8 == 0,
    bit c.dmaCtrl 0 != decide (s.dma.ts = .stopped), bit c.dmaCtrl 1 != decide (s.dma.rs = .stopped)].all (· == true)

/-- `Ring.legal` as a test. -/
def ringOk (g : Ring) (slots : Nat) : Bool :=
  if g.allocated then
    ringSizeLegal g.n && g.base.toNat % 16 == 0 && slots == g.n && decide (g.inflight ≤ g.n - 1)
  else g.n == 0

/-- `State.ringsLegal` as a test. -/
def ringsOk (s : State) : Bool :=
  ringOk s.tx s.txSlots.length && ringOk s.rx s.rxSlots.length &&
    !spansMeet s.tx.base (16 * s.tx.n) s.rx.base (16 * s.rx.n)

/-- `State.sessionLegal` as a test. -/
def sessionOk (s : State) : Bool :=
  (!(s.dev.ifup || s.dev.suspended) || s.dev.attached) && (!s.dev.ifup || (s.tx.allocated && s.rx.allocated)) &&
    (!s.dev.fullShutdown || (s.dev.suspended && !s.dev.ifup))

/-- `Meets` as a test. -/
def meets (s : State) : Bool :=
  s.fault.isNone && Memory.wf s.mem && regsOk s && ringsOk s && sessionOk s && s.dev.attached

theorem regsLegal_of {s : State} (h : regsOk s = true) : s.regsLegal := by
  simp only [regsOk, List.all_cons, List.all_nil, Bool.and_true, Bool.and_eq_true, beq_iff_eq, List.contains_eq_mem,
    decide_eq_true_eq, Bool.or_eq_true, bne_iff_ne, Bool.not_eq_eq_eq_not, Bool.not_true] at h
  obtain ⟨h1, h2, h3, h4, h5, h6, h7, h8, h9, h10, h11, h12, h13, h14, h15, h16⟩ := h
  refine ⟨⟨h1, h2, ?_, h4, h5, h8, ?_, ?_, h11, h12, h13, h14⟩, ⟨?_, ?_⟩, h6, h7⟩
  · simpa using h3
  · rcases h9 with h | h <;> simp_all
  · rcases h10 with h | h <;> simp_all
  · cases hb : bit s.csr.dmaCtrl 0 <;> simp_all
  · cases hb : bit s.csr.dmaCtrl 1 <;> simp_all

theorem ringLegal_of {g : Ring} {n : Nat} (h : ringOk g n = true) : g.legal n := by
  cases ha : g.allocated <;> simp [ringOk, ha] at h <;> constructor <;> simp_all

theorem holds_span {g : Ring} {x : Word} (h : g.holds x = true) : inSpan g.base (16 * g.n) x = true := by
  simp only [Ring.holds, Bool.and_eq_true] at h
  exact h.2

theorem ringsLegal_of {s : State} (h : ringsOk s = true) : s.ringsLegal := by
  simp only [ringsOk, Bool.and_eq_true, Bool.not_eq_eq_eq_not, Bool.not_true] at h
  refine ⟨⟨ringLegal_of h.1.1, ringLegal_of h.1.2⟩, fun a ha => ?_⟩
  by_contra hc
  have h1 := holds_span ha
  rw [apart_of_spansMeet h.2 (holds_span (by simpa using hc))] at h1
  cases h1

theorem memLegal_of {s : State} (h : Memory.wf s.mem = true) : s.memLegal := h

theorem sessionLegal_of {s : State} (h : sessionOk s = true) : s.sessionLegal := by
  simp only [sessionOk, Bool.and_eq_true, Bool.or_eq_true, Bool.not_eq_eq_eq_not, Bool.not_true] at h
  obtain ⟨⟨h1, h2⟩, h3⟩ := h
  refine ⟨fun h => ?_, fun h => ?_, fun h => ?_⟩
  · rcases h1 with h1 | h1 <;> simp_all
  · simp_all
  · simp_all

theorem meets_of {s : State} (h : meets s = true) : Meets s := by
  simp only [meets, Bool.and_eq_true] at h
  obtain ⟨⟨⟨⟨⟨h1, h2⟩, h3⟩, h4⟩, h5⟩, h6⟩ := h
  exact ⟨by simpa [State.sound] using h1, h2, regsLegal_of h3, ringsLegal_of h4, sessionLegal_of h5, h6⟩

/-- No byte of the `len` bytes from `b` up is the hardware's, as a test. -/
def clearOk (s : State) (b : Word) (len : Nat) : Bool :=
  (s.marks.all fun m => !spansMeet m.cpu m.len b len) &&
    [RingSel.tx, .rx].all fun r => (List.range (s.ring r).n).all fun i =>
      !s.ownSeen r i ||
        (!spansMeet (s.descWord r i 2) (bs1Of (s.descWord r i 1)) b len &&
          !spansMeet (s.descWord r i 3) (bs2Of (s.descWord r i 1)) b len)

theorem deviceByte_of {s : State} {b : Word} {len : Nat} (h : clearOk s b len = true) {a : Word}
    (ha : inSpan b len a = true) {q : RingSel} (hq : (s.ring q).holds a = true) : s.deviceByte a = false := by
  have e : s.dmaImage a = a := by
    have : (s.tx.holds a || s.rx.holds a) = true := by cases q <;> simp_all [State.ring]
    simp [State.dmaImage, this]
  simp only [clearOk, Bool.and_eq_true, List.all_eq_true, List.mem_range, Bool.or_eq_true, Bool.not_eq_eq_eq_not,
    Bool.not_true] at h
  simp only [State.deviceByte, State.hardwareBuffer, Bool.or_eq_false_iff, State.marked, List.any_eq_false, Bool.not_eq_true]
  refine ⟨fun m hm => apart_of_spansMeet (h.1 m hm) ha, fun r hr => ?_⟩
  simp only [Bool.and_eq_false_iff, List.any_eq_false, List.mem_range, Bool.not_eq_true, State.descAddresses, e,
    Bool.or_eq_false_iff]
  refine .inr fun i hi => ?_
  rcases h.2 r hr i hi with h1 | h1
  · exact .inl h1
  · exact .inr ⟨apart_of_spansMeet h1.1 ha, .inr (apart_of_spansMeet h1.2 ha)⟩

/-- Descriptor `i` is one of an allocated ring's, and clear, as a test. -/
def descOk (s : State) (r : RingSel) (i : Nat) : Bool :=
  (s.ring r).allocated && decide (i < (s.ring r).n) && decide ((s.ring r).n ≤ 1024) && clearOk s (s.descAddr r i 0) 16

theorem descClear_of {s : State} {r : RingSel} {i : Nat} (h : descOk s r i = true) : s.descClear r i := by
  simp only [descOk, Bool.and_eq_true, decide_eq_true_eq] at h
  exact fun a ha => deviceByte_of h.2 ha (holds_desc h.1.1.1 h.1.1.2 h.1.2 ha)

theorem arrayClear_of {s : State} {r : RingSel} (h : clearOk s (s.ring r).base (16 * (s.ring r).n) = true) :
    s.arrayClear r :=
  fun _ ha => deviceByte_of h (holds_span ha) ha

theorem arrayApart_of {s : State} {r : RingSel} {a : Word} {len : Nat}
    (h : spansMeet a len (s.ring r).base (16 * (s.ring r).n) = false) : s.arrayApart r a len :=
  fun _ hx => apart_of_spansMeet h (holds_span hx)

theorem softDesc_of {s : State} {r : RingSel} {i : Nat} (h : (!s.ownSeen r i && descOk s r i) = true) :
    s.softDesc r i := by
  simp only [Bool.and_eq_true, Bool.not_eq_eq_eq_not, Bool.not_true] at h
  have h2 := h.2
  simp only [descOk, Bool.and_eq_true, decide_eq_true_eq] at h2
  exact ⟨h2.1.1.2, h.1, descClear_of h.2⟩

/-! Encoding and steps. -/

theorem witness_DecodeOfEncode :
    (Instr.setTunable 8).wellFormed = true ∧ (Instr.readStat 18).wellFormed = true ∧
      (Instr.getOwn .rx 0xFFFF).wellFormed = true := by decide +kernel

theorem witness_DecodedWordIsEncoded :
    (decodeWord 0x6500_0008 = .ok (.setTunable 8) ∧ (Instr.setTunable 8).isCommand = true) ∧
      decodeWord 0x80FF_FFFF = .ok .dmaTxFrame ∧ Instr.dmaTxFrame.isCommand = false := ⟨⟨rfl, rfl⟩, rfl, rfl⟩

theorem witness_IllegalWordsChangeOnlyResult :
    legalCommandWord 0x8000_0000 = false ∧ legalCommandWord 0x6500_0009 = false ∧ legalCommandWord 0x6500_0008 = true ∧
      legalCommandWord 0x2180_0000 = false ∧ legalCommandWord 0x0580_FFFF = true := by decide +kernel

theorem witness_StepRunsTheDecodedInstruction :
    State.reset.sound ∧ (Instr.attach.wellFormed = true ∧ Instr.attach.isCommand = true) ∧
      Instr.dmaTxFrame.wellFormed = true ∧ Instr.dmaTxFrame.isCommand = false := ⟨rfl, ⟨rfl, rfl⟩, rfl, rfl⟩

theorem witness_FaultIsStickyAndEndsTheRun :
    State.reset.fault = none ∧
      ({ State.reset with fault := some (.badCsrAccess 10) } : State).fault = some (.badCsrAccess 10) := ⟨rfl, rfl⟩

/-- A next step that is a 16-bit read of DMA_STATUS. -/
def badRead : State := { up with schedule := [.csrRead 2 0x08] }

theorem witness_FaultingStepChangesOnlyTheFault :
    badRead.sound ∧ ∃ t, step badRead = .next t ∧ t.fault = some (.badCsrAccess 0x08) := ⟨rfl, _, rfl, rfl⟩

theorem witness_DescriptorWords : 8191 ≤ 8191 ∧ 16383 ≤ 16383 := ⟨le_rfl, le_rfl⟩

theorem witness_StepKeepsTheRegistersLegal :
    let s := { up with schedule := [.csrWrite 4 0x00 0xFFFF_FFFF] }
    s.regsLegal ∧ ∃ t, step s = .next t := ⟨regsLegal_of (by decide +kernel), _, rfl⟩

theorem witness_StepKeepsTheRingsLegal :
    let s := { up with schedule := [.csrWrite 4 0x60 0x6200_0000] }
    s.ringsLegal ∧ s.ringsInSpace ∧ s.sessionLegal ∧ s.baseWritten = false ∧ ∃ t, step s = .next t :=
  ⟨ringsLegal_of (by decide +kernel), fun r _ => by cases r <;> decide, sessionLegal_of (by decide +kernel), rfl, _, rfl⟩

/-- A write of a base register that moves the TX array onto the RX array, and one that leaves it where it is. -/
theorem witness_StepKeepsTheRingsLegal_baseWritten :
    let s := fun (b : Word) => { procs .stopped .running up with schedule := [.csrWrite 4 0x10 b] }
    (s 0x2000).ringsShaped ∧ (s 0x2000).sessionLegal ∧ (s 0x2000).baseWritten = true ∧
      ∃ t, step (s 0x1000) = .next t ∧ ∀ r, ((s 0x1000).ring r).allocated = true → (t.ring r).base = ((s 0x1000).ring r).base :=
  ⟨(ringsLegal_of (by decide +kernel)).shaped, sessionLegal_of (by decide +kernel), rfl, _, rfl, fun r _ => by cases r <;> rfl⟩

theorem witness_StepKeepsMemoryCanonical :
    let s := { pushWrite 0x4000 [1, 0, 2, 0] up with schedule := [.drain 0] }
    s.memLegal ∧ ∃ t, step s = .next t := ⟨memLegal_of (by decide +kernel), _, rfl⟩

theorem witness_ArgumentsAndResultsKept :
    (∃ t, exec .dmaTxStopFault up = .next t) ∧ Instr.dmaTxStopFault.isCommand = false ∧
      (∃ t, runEvent .isr up = .next t) ∧ (∃ t, runEvent .txReclaim up = .next t) ∧
      (∃ t, runEvent (.poll 64) up = .next t) ∧ ∃ t, runEvent .watchdog up = .next t :=
  ⟨⟨_, rfl⟩, rfl, ⟨_, rfl⟩, ⟨_, rfl⟩, ⟨_, rfl⟩, _, rfl⟩

/-- `up` with a poll scheduled. -/
def scheduled : State := { up with dev := { up.dev with rxPollScheduled := true } }

/-- Each agent enabled and not. -/
theorem witness_AgentTurns :
    (Meets (latched 0x41 up) ∧ (latched 0x41 up).irqMac = true ∧ up.irqMac = false ∧ up.dev.ifup = true ∧
        up.dev.suspended = false) ∧
      (Meets scheduled ∧ scheduled.dev.rxPollScheduled = true ∧ 1 ≤ (1 : BitVec 16).toNat ∧ 1 ≤ (0xFFFF : BitVec 16).toNat ∧
        ¬ 1 ≤ (0 : BitVec 16).toNat) ∧
      (Meets (sent 1 true) ∧ (sent 1 true).tx.sub ≠ (sent 1 true).tx.comp ∧ up.tx.sub = up.tx.comp) ∧
      up.dev.txReclaimPending = false := by
  refine ⟨⟨meets_of (by decide +kernel), ?_⟩, ⟨meets_of (by decide +kernel), ?_⟩, ⟨meets_of (by decide +kernel), ?_⟩, rfl⟩ <;>
    decide +kernel

theorem witness_CommandsThatMayNotRun :
    (State.reset.sound ∧ State.reset.sessionLegal ∧ State.reset.dev.attached = false ∧
      (Instr.poll 64).isCommand = true ∧ Instr.openDev.isCommand = true) ∧
    up.sound ∧ (up.ring .tx).n ≤ (4 : BitVec 16).toNat ∧ (up.ring .rx).n ≤ (4 : BitVec 16).toNat :=
  ⟨⟨rfl, sessionLegal_of (by decide +kernel), rfl, rfl, rfl⟩, rfl, by decide +kernel, by decide +kernel⟩

/-! Host accesses. Statements about CSR writes ask for `memLegal` only, WriteOfABaseRegister for each process STOPPED or not. -/

theorem witness_CsrWrites :
    up.memLegal ∧ up.regsLegal ∧ up.dma.ts ≠ .stopped ∧ (procs .stopped .stopped up).memLegal ∧
      (procs .stopped .stopped up).dma.ts = .stopped := by
  exact ⟨memLegal_of (by decide +kernel), regsLegal_of (by decide +kernel), by decide, memLegal_of (by decide +kernel), rfl⟩

theorem witness_ReadsAndIgnoredWrites :
    up.memLegal ∧ ((0x20 : BitVec 8).toNat % 4 = 0 ∧ (0x20 : BitVec 8) ∈ [0x20, 0x24, 0x54, 0x58, 0x5C]) ∧
      ((0x7C : BitVec 8).toNat % 4 = 0 ∧ 0x7C ≤ (0x7C : BitVec 8).toNat) ∧
      ((0xFC : BitVec 8).toNat % 4 = 0 ∧ 0x7C ≤ (0xFC : BitVec 8).toNat) ∧ (0x78 : BitVec 8).toNat % 4 = 0 := by
  refine ⟨memLegal_of (by decide +kernel), ?_⟩
  decide +kernel

/-- `up` with one more region, which ends where the TX array begins. -/
def beforeRing : State := { up with regions := up.regions ++ [{ base := 0x0F00, len := 256, owner := .upper }] }

theorem witness_HostAccessesThatStop :
    (up.sound ∧ 2 ≠ 4 ∧ (0x0A : BitVec 8).toNat % 4 ≠ 0) ∧ up.outside 0x40FE 4 = some 0x4100 ∧
      (up.outside 0x1001 4 = none ∧ touchesDesc up 0x1001 = true ∧ up.descAt 0x1001 = some (.tx, 0, 1)) ∧
      beforeRing.outside 0x0FFE 4 = none ∧ touchesDesc beforeRing 0x0FFE = true ∧
      beforeRing.descAt 0x0FFE = none := by
  refine ⟨⟨rfl, ?_⟩, ?_⟩ <;> decide +kernel

theorem hardwareOwns_of {s : State} {a : Word} (h : s.deviceByte a = true) : s.hardwareOwns a := deviceByte_iff.1 h

theorem not_hardwareOwns_of {s : State} {a : Word} (h : s.deviceByte a = false) : ¬ s.hardwareOwns a := fun hc => by
  rw [deviceByte_iff.2 hc] at h
  cases h

theorem softBytes_of {s : State} {a : Word} {n : Nat} (h : ((List.range n).all fun k => !s.deviceByte (a + natWord k)) = true) :
    ∀ k < n, ¬ s.hardwareOwns (a + natWord k) := fun k hk =>
  not_hardwareOwns_of (by simpa using List.all_eq_true.1 h k (List.mem_range.2 hk))

/-- The first owned byte of a word is its first or its last; or none is. -/
theorem witness_HostBufferWrite :
    ((pushWrite 0x4000 [1, 2, 3, 4] up).memLegal ∧
      (pushWrite 0x4000 [1, 2, 3, 4] up).wbuf[0]? = some { addr := 0x4000, bytes := [1, 2, 3, 4] }) ∧
    (Meets (sent 1 true) ∧ (sent 1 true).outside 0x4000 4 = none ∧ touchesDesc (sent 1 true) 0x4000 = false ∧
      (sent 1 true).hardwareOwns 0x4000) ∧
    (Meets (built 0x4043 true) ∧ (built 0x4043 true).outside 0x4040 4 = none ∧
      touchesDesc (built 0x4043 true) 0x4040 = false ∧ (built 0x4043 true).hardwareOwns (0x4040 + natWord 3) ∧
      (built 0x4043 true).marked (0x4040 + natWord 3) = false ∧
      ∀ j < 3, ¬ (built 0x4043 true).hardwareOwns (0x4040 + natWord j)) ∧
    up.outside 0x40FC 4 = none ∧ touchesDesc up 0x40FC = false ∧ ∀ k < 4, ¬ up.hardwareOwns (0x40FC + natWord k) :=
  ⟨⟨memLegal_of (by decide +kernel), rfl⟩,
    ⟨meets_of (by decide +kernel), by decide +kernel, by decide +kernel, hardwareOwns_of (by decide +kernel)⟩,
    ⟨meets_of (by decide +kernel), by decide +kernel, by decide +kernel, hardwareOwns_of (by decide +kernel),
      by decide +kernel, softBytes_of (by decide +kernel)⟩,
    by decide +kernel, by decide +kernel, softBytes_of (by decide +kernel)⟩

/-- The bytes of a word in both orders (R82). -/
theorem test_word_bytes :
    let bytes := fun (e : Endian) =>
      (nextOf (hostMemWrite 0x40FC 0x1122_3344 { up with params := { up.params with endian := e } })).map fun t =>
        (List.range 4).map fun k => swByte t (0x40FC + natWord k)
    bytes .le = some [0x44, 0x33, 0x22, 0x11] ∧ bytes .be = some [0x11, 0x22, 0x33, 0x44] := by decide +kernel

/-- A pending write of des1 of TX descriptor 0. -/
def pendingDes1 : State := pushWrite 0x1004 [0x3C, 0x00, 0x00, 0xE0] up

/-- The hardware's buffer begins at the third byte of des1 of TX descriptor 3. -/
def overRing : State := built 0x1036 true

theorem witness_HostDescriptorWrite :
    (Meets overRing ∧ 3 < overRing.tx.n ∧ overRing.hardwareOwns (overRing.descAddr .tx 3 1 + natWord 2) ∧
      ∀ j < 2, ¬ overRing.hardwareOwns (overRing.descAddr .tx 3 1 + natWord j)) ∧
    (Meets up ∧ 2 < up.rx.n ∧ (∀ b < 4, ¬ up.hardwareOwns (up.descAddr .rx 2 3 + natWord b)) ∧ up.ownSeen .rx 2 = true) ∧
    (Meets pendingDes1 ∧ (∀ b < 4, ¬ pendingDes1.hardwareOwns (pendingDes1.descAddr .tx 0 0 + natWord b)) ∧
      pendingDes1.ownSeen .tx 0 = false ∧ bit (0x8000_0000 : Word) 31 = true ∧ pendingDes1.writePending .tx 0) ∧
    (∀ b < 4, ¬ up.hardwareOwns (up.descAddr .tx 3 0 + natWord b)) ∧ up.ownSeen .tx 3 = false ∧
      ¬ up.writePending .tx 3 :=
  ⟨⟨meets_of (by decide +kernel), by decide +kernel, hardwareOwns_of (by decide +kernel), softBytes_of (by decide +kernel)⟩,
    ⟨meets_of (by decide +kernel), by decide +kernel, softBytes_of (by decide +kernel), by decide +kernel⟩,
    ⟨meets_of (by decide +kernel), softBytes_of (by decide +kernel), by decide +kernel, by decide +kernel,
      unfenced_iff.1 (by decide +kernel)⟩,
    softBytes_of (by decide +kernel), by decide +kernel, fun h => absurd (unfenced_iff.2 h) (by decide +kernel)⟩

/-- R91's other half: the pending write is to the buffer's last byte, or to the byte after it. -/
theorem witness_PendingBufferWrite :
    (pushWrite 0x400F [1] (descFence (built 0x4000 false))).writePending .tx 0 ∧
      ¬ (pushWrite 0x4010 [1] (descFence (built 0x4000 false))).writePending .tx 0 :=
  ⟨unfenced_iff.1 (by decide +kernel), fun h => absurd (unfenced_iff.2 h) (by decide +kernel)⟩

theorem witness_HostDescriptorRead :
    (Meets up ∧ 0 < up.rx.n ∧ up.ownSeen .rx 0 = true) ∧
    (Meets overRing ∧ overRing.ownSeen .tx 3 = false ∧ overRing.hardwareOwns (overRing.descAddr .tx 3 1 + natWord 2) ∧
      ∀ j < 2, ¬ overRing.hardwareOwns (overRing.descAddr .tx 3 1 + natWord j)) ∧
    (∀ b < 4, ¬ up.hardwareOwns (up.descAddr .rx 0 0 + natWord b)) ∧
    up.ownSeen .tx 3 = false ∧ ∀ b < 4, ¬ up.hardwareOwns (up.descAddr .tx 3 3 + natWord b) :=
  ⟨⟨meets_of (by decide +kernel), by decide, by decide +kernel⟩,
    ⟨meets_of (by decide +kernel), by decide +kernel, hardwareOwns_of (by decide +kernel), softBytes_of (by decide +kernel)⟩,
    softBytes_of (by decide +kernel), by decide +kernel, softBytes_of (by decide +kernel)⟩

/-! The operations table and the ring operations. -/

/-- FilterAndWakeCommands, InterruptCommands, DmaProcessCommands, DmaModeCommand and StatusRegister ask no more. -/
theorem witness_RegisterCommands : Meets up ∧ (3 : BitVec 16).toNat < 4 ∧ 4 ≤ (4 : BitVec 16).toNat :=
  ⟨meets_of (by decide +kernel), by decide, by decide⟩

theorem witness_LinkCommands :
    (Meets (args 0 0 0 0 up) ∧ bit (args 0 0 0 0 up).csr.arg0 0 = false) ∧
    (Meets (args 1 55 0 0 up) ∧ bit (args 1 55 0 0 up).csr.arg0 0 = true ∧
      ¬ ((55 : Word) = 10 ∨ (55 : Word) = 100 ∨ (55 : Word) = 1000 ∧ up.params.variant = .gmac)) ∧
    Meets (args 1 1000 1 0 up) ∧ bit (args 1 1000 1 0 up).csr.arg0 0 = true ∧ up.params.variant = .gmac := by
  refine ⟨⟨meets_of (by decide +kernel), ?_⟩, ⟨meets_of (by decide +kernel), ?_⟩, meets_of (by decide +kernel), ?_⟩ <;>
    decide +kernel

theorem witness_DescriptorQueries :
    Meets (sent 1 true) ∧ (sent 1 true).ownSeen .tx 0 = true ∧ (sent 1 true).descClear .tx 0 ∧
      (sent 1 true).ownSeen .tx 3 = false ∧ (sent 1 true).descClear .tx 3 ∧
      (received 0x01 0x03 0x40 0x00).ownSeen .rx 0 = false ∧ ((received 0x01 0x03 0x40 0x00).rxSlot 0).pub = true ∧
      (received 0x01 0x03 0x40 0x00).descClear .rx 0 ∧ (present.ring .rx).allocated = false := by
  refine ⟨meets_of (by decide +kernel), ?_, descClear_of (by decide +kernel), ?_, descClear_of (by decide +kernel), ?_, ?_,
    descClear_of (by decide +kernel), rfl⟩ <;> decide +kernel

/-- A staged slot whose descriptor the host has given to the hardware already. -/
def stagedOwned : State := { stagedTx with mem := (0x1003, 0x80) :: stagedTx.mem }

theorem witness_SetOwnCommand :
    (Meets up ∧ up.staged .tx 0 = false) ∧ (Meets (sent 1 true) ∧ (sent 1 true).staged .tx 0 = false) ∧
    (Meets stagedOwned ∧ stagedOwned.staged .tx 0 = true ∧ stagedOwned.descClear .tx 0 ∧ stagedOwned.ownSeen .tx 0 = true) ∧
    Meets stagedTx ∧ stagedTx.staged .tx 0 = true ∧ stagedTx.descClear .tx 0 ∧ stagedTx.ownSeen .tx 0 = false :=
  ⟨⟨meets_of (by decide +kernel), by decide +kernel⟩, ⟨meets_of (by decide +kernel), by decide +kernel⟩,
    ⟨meets_of (by decide +kernel), by decide +kernel, descClear_of (by decide +kernel), by decide +kernel⟩,
    meets_of (by decide +kernel), by decide +kernel, descClear_of (by decide +kernel), by decide +kernel⟩

theorem witness_ReceiveCoalescingCommands :
    Meets up ∧ (3 : BitVec 16).toNat < up.rx.n ∧ up.descClear .rx 3 ∧ up.ownSeen .rx 3 = false ∧
      up.descClear .rx 0 ∧ up.ownSeen .rx 0 = true := by
  refine ⟨meets_of (by decide +kernel), by decide +kernel, descClear_of (by decide +kernel), by decide +kernel,
    descClear_of (by decide +kernel), by decide +kernel⟩

theorem witness_MapAndUnmap : up.memLegal ∧ up.marks ≠ [] ∧ ∀ m ∈ up.marks, m.len + 60 ≤ 2 ^ 32 :=
  ⟨memLegal_of (by decide +kernel), by decide, by decide⟩

theorem witness_InitDescChainCommand :
    (Meets (procs .stopped .running (sent 3 true)) ∧ (procs .stopped .running (sent 3 true)).proc .tx = .stopped) ∧
      Meets up ∧ up.proc .tx ≠ .stopped ∧ Meets present ∧ (present.ring .tx).allocated = false :=
  ⟨⟨meets_of (by decide +kernel), rfl⟩, meets_of (by decide +kernel), by decide, meets_of (by decide +kernel), rfl⟩

/-- ARG0 = 4 and the oracle's next answer is `x`. -/
def asking (x : Option Word) : State := args 4 0 0 0 { present with allocAnswers := [x] }

theorem witness_AllocateCommand :
    (Meets up ∧ (up.ring .tx).allocated = true ∧ (100 : Nat) ∉ [4, 8, 16, 32, 64, 128, 256, 512, 1024]) ∧
      (Meets (asking none) ∧ (drawAnswer (asking none)).1 = none) ∧
      (Meets (asking (some 0x1008)) ∧ (asking (some 0x1008)).fresh 16 0x1008 64 = false) ∧
      Meets (asking (some 0x1000)) ∧ (asking (some 0x1000)).proc .tx = .stopped ∧
      (drawAnswer (asking (some 0x1000))).1 = some 0x1000 ∧ (asking (some 0x1000)).fresh 16 0x1000 64 = true := by
  refine ⟨⟨meets_of (by decide +kernel), ?_⟩, ⟨meets_of (by decide +kernel), ?_⟩, ⟨meets_of (by decide +kernel), ?_⟩,
    meets_of (by decide +kernel), ?_⟩ <;> decide +kernel

/-- The shortest buffer, staged, and the longest, published. -/
theorem witness_SubmitCommand : ∀ s ∈ [args 0x4000 1 0x0E 7 up, args 0x4000 8191 0x1E 0 up],
    Meets s ∧ s.tx.allocated = true ∧ (0 : BitVec 16).toNat = idx s.tx.sub s.tx.n ∧ 1 ≤ s.csr.arg1.toNat ∧
      s.csr.arg1.toNat ≤ 8191 ∧ s.csr.arg2 >>> 5 = 0 ∧ 1 ≤ s.tx.avail ∧ s.meetsMark s.csr.arg0 s.csr.arg1.toNat = false ∧
      s.softDesc .tx 0 ∧ s.arrayApart .tx s.csr.arg0 s.csr.arg1.toNat := by
  intro s h
  rcases List.mem_cons.1 h with rfl | h
  · exact ⟨meets_of (by decide +kernel), by decide +kernel, by decide +kernel, by decide +kernel, by decide +kernel,
      by decide +kernel, by decide +kernel, by decide +kernel, softDesc_of (by decide +kernel),
      arrayApart_of (by decide +kernel)⟩
  · rcases List.mem_singleton.1 h with rfl
    exact ⟨meets_of (by decide +kernel), by decide +kernel, by decide +kernel, by decide +kernel, by decide +kernel,
      by decide +kernel, by decide +kernel, by decide +kernel, softDesc_of (by decide +kernel),
      arrayApart_of (by decide +kernel)⟩

/-- A full TX ring, and a buffer that is mapped. -/
theorem witness_RejectedSubmit :
    let full := args 0x4000 60 0x1E 7 { up with tx := { up.tx with sub := 3 } }
    let mapped := args 0x1_0000 60 0x1E 7 up
    (Meets full ∧ (3 : BitVec 16).toNat = idx full.tx.sub full.tx.n ∧ full.tx.avail = 0) ∧
      (Meets mapped ∧ 1 ≤ mapped.tx.avail ∧ mapped.meetsMark mapped.csr.arg0 60 = true) ∧
      Meets (args 0x4000 8192 0x1E 7 up) ∧ 8191 < (8192 : Word).toNat ∧ (0x20 : Word) >>> 5 ≠ 0 := by
  refine ⟨⟨meets_of (by decide +kernel), ?_⟩, ⟨meets_of (by decide +kernel), ?_⟩, meets_of (by decide +kernel), ?_⟩ <;>
    decide +kernel

/-- `up` after its first frame was consumed: slot 3 is empty and next to be refilled. -/
def oneTaken : State := { up with rx := { up.rx with comp := 1 } }

/-- The same at a slot that kept its buffer. -/
def oneKept : State :=
  { up with
    rx := { up.rx with sub := 4, comp := 2 }
    mem := (received 0x02 0x83 0x40 0x00).mem
    rxSlots := [{ rxArmed 0x1_0000 with pub := false }, rxFree, rxArmed 0x1_1000, rxFree] }

/-- A full ring whose next slot keeps a buffer. -/
def keptFull : State :=
  { up with rxSlots := [rxArmed 0x1_0000, rxArmed 0x1_0800, rxArmed 0x1_1000, { rxFree with buf := some 0x1_1800 }] }

theorem witness_RejectedRefill :
    (Meets up ∧ up.rx.n - 1 ≤ up.rx.inflight) ∧
      (Meets (args 0x4000 0 0 0 keptFull) ∧ keptFull.rx.n - 1 ≤ keptFull.rx.inflight ∧
        (3 : BitVec 16).toNat = idx keptFull.rx.sub keptFull.rx.n ∧ (keptFull.rxSlot 3).buf.isSome = true) ∧
      (Meets (args 0x4000 0 0 0 oneKept) ∧ oneKept.rx.inflight < oneKept.rx.n - 1 ∧
        (0 : BitVec 16).toNat = idx oneKept.rx.sub oneKept.rx.n ∧ (oneKept.rxSlot 0).buf.isSome = true) ∧
      (Meets { oneTaken with allocAnswers := [none] } ∧ (oneTaken.rxSlot 3).buf = none ∧
        (allocBuf 1536 { oneTaken with allocAnswers := [none] }).1 = none) ∧
      Meets (args 0x1_0800 0 0 0 oneTaken) ∧ oneTaken.meetsMark 0x1_0800 1536 = true ∧
      Meets present ∧ present.rx.allocated = false := by
  refine ⟨⟨meets_of (by decide +kernel), ?_⟩, ⟨meets_of (by decide +kernel), ?_⟩, ⟨meets_of (by decide +kernel), ?_⟩,
    ⟨meets_of (by decide +kernel), ?_⟩, meets_of (by decide +kernel), ?_, meets_of (by decide +kernel), ?_⟩ <;> decide +kernel

/-- Descriptor 0 is completed, in flight, and not published any more. -/
def unpublished : State := { sent 1 false with txSlots := stagedTx.txSlots }

theorem witness_ReclaimCommand :
    (Meets (sent 2 true) ∧ 1 < (sent 2 true).tx.n ∧ 1 ≠ idx (sent 2 true).tx.comp (sent 2 true).tx.n) ∧
    (Meets up ∧ up.tx.inflight = 0) ∧
    (Meets (sent 1 true) ∧ 0 = idx (sent 1 true).tx.comp 4 ∧ 0 < (sent 1 true).tx.inflight ∧ (sent 1 true).descClear .tx 0 ∧
      (sent 1 true).ownSeen .tx 0 = true) ∧
    (Meets unpublished ∧ unpublished.descClear .tx 0 ∧ (unpublished.txSlot 0).pub = false) ∧
    Meets (sent 1 false) ∧ (sent 1 false).descClear .tx 0 ∧ 0 = idx (sent 1 false).tx.comp 4 ∧
      0 < (sent 1 false).tx.inflight ∧ (sent 1 false).ownSeen .tx 0 = false ∧ ((sent 1 false).txSlot 0).pub = true :=
  ⟨⟨meets_of (by decide +kernel), by decide +kernel, by decide +kernel⟩, ⟨meets_of (by decide +kernel), by decide +kernel⟩,
    ⟨meets_of (by decide +kernel), by decide +kernel, by decide +kernel, descClear_of (by decide +kernel), by decide +kernel⟩,
    ⟨meets_of (by decide +kernel), descClear_of (by decide +kernel), by decide +kernel⟩,
    meets_of (by decide +kernel), descClear_of (by decide +kernel), by decide +kernel, by decide +kernel, by decide +kernel,
    by decide +kernel⟩

/-- A kept buffer, a given buffer, an allocated buffer. -/
theorem witness_RefillCommand :
    (Meets oneKept ∧ 0 = idx oneKept.rx.sub 4 ∧ oneKept.rx.inflight < 3 ∧ oneKept.softDesc .rx 0 ∧
      (oneKept.rxSlot 0).buf.isSome = true ∧ oneKept.csr.arg0 = 0) ∧
    (Meets (args 0x7000 0 0 0 oneTaken) ∧ 3 = idx oneTaken.rx.sub 4 ∧ oneTaken.rx.inflight < 3 ∧
      (args 0x7000 0 0 0 oneTaken).softDesc .rx 3 ∧ (oneTaken.rxSlot 3).buf = none ∧
      (args 0x7000 0 0 0 oneTaken).meetsMark 0x7000 1536 = false ∧
      (args 0x7000 0 0 0 oneTaken).arrayApart .rx 0x7000 1536) ∧
    Meets { oneTaken with allocAnswers := [some 0x1_1800] } ∧
      (allocBuf 1536 { oneTaken with allocAnswers := [some 0x1_1800] }).1 = some 0x1_1800 := by
  refine ⟨⟨meets_of (by decide +kernel), by decide +kernel, by decide +kernel, softDesc_of (by decide +kernel), ?_⟩,
    ⟨meets_of (by decide +kernel), by decide +kernel, by decide +kernel, softDesc_of (by decide +kernel),
      by decide +kernel, by decide +kernel, arrayApart_of (by decide +kernel)⟩, meets_of (by decide +kernel), ?_⟩ <;>
    decide +kernel

/-! Transmit, reclamation and recovery. -/

theorem witness_PacketSegmentation :
    let k : Packet :=
      { headAddr := 0x4000, headLen := 8192, nrFrags := 1, csumReq := false, reserved := 0, handle := 7,
        frags := [(0x8000, 4096)] }
    txSegments Params.default k = some [(0x4000, 4096), (0x5000, 4096), (0x8000, 4096)] ∧
      txSegments Params.default { k with headLen := 8193 } = none := by decide +kernel

/-- A record with one fragment and a reserved bit set (R135). -/
theorem test_packet_record :
    let s := pushWrite 0x3000 [0, 0x40, 0, 0, 0x3C, 0, 0, 0, 1, 0, 3, 0x80, 7, 0, 0, 0, 0, 0x90, 0, 0, 0x10, 0, 0, 0] up
    readRecord s 0x3000 =
        { headAddr := 0x4000, headLen := 60, nrFrags := 1, csumReq := true, reserved := 0x4001, handle := 7,
          frags := [(0x9000, 16)] } ∧
      recordLen s 0x3000 = 24 ∧ 1 ≤ s.params.maxFrags := by decide +kernel

theorem witness_TransmitRejected :
    (Meets present ∧ present.dev.ifup = false) ∧
      (Meets (args 0x3F00 0 0 0 up) ∧ up.outside 0x3F00 (recordLen up 0x3F00) = some 0x3F00) ∧
      (Meets (args 0x4000 0 0 0 (sent 1 true)) ∧ (sent 1 true).outside 0x4000 16 = none ∧ recordLen (sent 1 true) 0x4000 = 16 ∧
        (sent 1 true).readFault 0x4000 16 = some (.ownViolation 0x4000)) ∧
      (Meets (withRecord 0 0) ∧ (withRecord 0 0).readFault 0x3000 16 = none ∧
        txSegments Params.default (readRecord (withRecord 0 0) 0x3000) = none) ∧
      (let full := { withRecord 60 0 with tx := { up.tx with sub := 3 } }
       Meets full ∧ txSegments Params.default (readRecord full 0x3000) = some [(0x4000, 60)] ∧ full.tx.avail < 1) ∧
      -- the head is mapped already
      let mapped := { withRecord 60 0 with marks := (sent 1 true).marks }
      Meets mapped ∧ mapped.outside 0x3000 16 = none ∧ mapped.readFault 0x3000 16 = none ∧
        txSegments Params.default (readRecord mapped 0x3000) = some [(0x4000, 60)] ∧ 1 ≤ mapped.tx.avail ∧
        (readRecord mapped 0x3000).csumReq = false ∧ segmentsOverlap mapped [(0x4000, 60)] = some 0x4000 := by
  refine ⟨⟨meets_of (by decide +kernel), ?_⟩, ⟨meets_of (by decide +kernel), ?_⟩, ⟨meets_of (by decide +kernel), ?_⟩,
    ⟨meets_of (by decide +kernel), ?_⟩, ⟨meets_of (by decide +kernel), ?_⟩, meets_of (by decide +kernel), ?_⟩ <;>
    decide +kernel

/-- A packet of two segments, whose second half lies beyond the regions. -/
theorem witness_TransmitAccepted :
    let s := withRecord 0x70 0x17
    let segs : List Segment := [(0x4000, 4096), (0x5000, 1904)]
    let c := softwareCsum (readRecord s 0x3000) segs s
    Meets s ∧ s.dev.ifup = true ∧ s.dev.suspended = false ∧ s.csr.arg0.toNat % 4 = 0 ∧
      s.outside 0x3000 (recordLen s 0x3000) = none ∧ s.readFault 0x3000 (recordLen s 0x3000) = none ∧
      txSegments s.params (readRecord s 0x3000) = some segs ∧ segs.length ≤ s.tx.avail ∧
      (∀ j < segs.length, c.softDesc .tx (idx (s.tx.sub + natWord j) s.tx.n)) ∧ (∀ g ∈ segs, s.bufferApart .tx g.1 g.2) ∧
      c.fault = none ∧ segmentsOverlap c segs = none := by
  refine ⟨meets_of (by decide +kernel), rfl, rfl, by decide +kernel, by decide +kernel, by decide +kernel,
    by decide +kernel, by decide +kernel, fun j hj => ?_, fun g hg => ?_, by decide +kernel, by decide +kernel⟩
  · have : j = 0 ∨ j = 1 := by simp at hj; omega
    rcases this with rfl | rfl <;> exact softDesc_of (by decide +kernel)
  · simp only [List.mem_cons, List.not_mem_nil, or_false] at hg
    rcases hg with rfl | rfl <;> exact ⟨arrayApart_of (by decide +kernel), arrayApart_of (by decide +kernel)⟩

/-- A packet of 60 bytes whose checksum hardware does not insert: IPC = 0. -/
def softSum : State :=
  let s := withRecord 60 0
  { s with
    csr := { s.csr with macConfig := 0x0003 }
    mem := (s.mem.filter fun c => c.1 ≠ 0x300C) ++ [(0x300A, 0x01), (0x300C, 0x07)] }

theorem witness_TransmitAcceptedSoftSum :
    let k := readRecord softSum 0x3000
    let segs : List Segment := [(0x4000, 60)]
    let c := softwareCsum k segs softSum
    Meets softSum ∧ k.csumReq = true ∧ softSum.readFault 0x3000 (recordLen softSum 0x3000) = none ∧
      txSegments softSum.params k = some segs ∧ c.softDesc .tx 0 ∧ c.fault = none ∧ segmentsOverlap c segs = none := by
  refine ⟨meets_of (by decide +kernel), by decide +kernel, by decide +kernel, by decide +kernel,
    softDesc_of (by decide +kernel), by decide +kernel, by decide +kernel⟩

/-- The head is mapped already, and `SW_CSUM` may not read it; and a record with too many fragments. -/
theorem witness_TransmitRejectedSoftSum :
    (let s := { softSum with marks := (sent 1 true).marks }
     Meets s ∧ s.readFault 0x3000 16 = none ∧ txSegments s.params (readRecord s 0x3000) = some [(0x4000, 60)] ∧ 1 ≤ s.tx.avail ∧
      (softwareCsum (readRecord s 0x3000) [(0x4000, 60)] s).fault = some (.ownViolation 0x4000)) ∧
      let s := pushWrite 0x3008 [0xFF] (withRecord 60 0)
      Meets s ∧ s.params.maxFrags < (readRecord s 0x3000).nrFrags := by
  refine ⟨⟨meets_of (by decide +kernel), by decide +kernel, by decide +kernel, by decide +kernel, by decide +kernel⟩,
    meets_of (by decide +kernel), by decide +kernel⟩

/-- Packet bytes that set OWN of TX descriptor 3: published, or too early for a pending des1 (R91, R169). -/
theorem test_packet_bytes_over_a_descriptor :
    let c := fun (s : State) => writePacket [0, 0, 0, 0x80] [(0x1030, 4)] s
    ((c up).fault, ((c up).txSlot 3).pub, (up.txSlot 3).pub) = (none, true, false) ∧
      (c (pushWrite 0x1034 [0x3C] up)).fault = some (.missingFence 0x1030) := by decide +kernel

/-- The same, a byte software may not write, and two segments apart from the arrays. -/
theorem witness_PacketWrites :
    let early := pushWrite 0x1034 [0x3C] up
    let c := fun (s : State) => writePacket [0, 0, 0, 0x80] [(0x1030, 4)] s
    (Meets up ∧ up.writeFault 0x1030 4 = none ∧ up.ownSeen .tx 3 = false ∧ (c up).ownSeen .tx 3 = true ∧
      ¬ (c up).writePendingIn up.wbuf .tx 3) ∧
    (Meets early ∧ early.writeFault 0x1030 4 = none ∧ early.ownSeen .tx 3 = false ∧ (c early).ownSeen .tx 3 = true ∧
      (c early).writePendingIn early.wbuf .tx 3) ∧
    Meets (sent 1 true) ∧ (sent 1 true).writeFault 0x4000 4 = some (.ownViolation 0x4000) :=
  ⟨⟨meets_of (by decide +kernel), by decide +kernel, by decide +kernel, by decide +kernel,
      fun h => absurd (pendingFor_iff.2 h) (by decide +kernel)⟩,
    ⟨meets_of (by decide +kernel), by decide +kernel, by decide +kernel, by decide +kernel,
      pendingFor_iff.1 (by decide +kernel)⟩, meets_of (by decide +kernel), by decide +kernel⟩

/-- One segment, and two with a gap between them. -/
theorem witness_SoftwareChecksumInPlace : ∀ segs ∈ ([[(0x4000, 60)], [(0x4000, 60), (0x4080, 16)]] : List (List Segment)),
    let s := { up with csr := { up.csr with macConfig := 0x0003 } }
    Meets s ∧ bit s.csr.macConfig 8 = false ∧
      (∀ g ∈ segs, g.2 ≤ 8191 ∧ s.readFault g.1 g.2 = none ∧ s.writeFault g.1 g.2 = none) ∧
      segs.Pairwise (fun x y => spansMeet x.1 x.2 y.1 y.2 = false) ∧ ∀ g ∈ segs, ∀ r, s.arrayApart r g.1 g.2 := by
  intro segs h
  have hs : segs ∈ ([[(0x4000, 60)], [(0x4000, 60), (0x4080, 16)]] : List (List Segment)) := h
  refine ⟨meets_of (by decide +kernel), by decide +kernel, ?_, ?_, fun g hg r => arrayApart_of ?_⟩
  · exact List.all_eq_true.1 (by decide +kernel : ([[(0x4000, 60)], [(0x4000, 60), (0x4080, 16)]] : List (List Segment)).all
      (fun segs => decide (∀ g ∈ segs, g.2 ≤ 8191 ∧
        ({ up with csr := { up.csr with macConfig := 0x0003 } } : State).readFault g.1 g.2 = none ∧
        ({ up with csr := { up.csr with macConfig := 0x0003 } } : State).writeFault g.1 g.2 = none)) = true) _ hs
      |> of_decide_eq_true
  · simp only [List.mem_cons, List.not_mem_nil, or_false] at hs
    rcases hs with rfl | rfl <;> decide
  · simp only [List.mem_cons, List.not_mem_nil, or_false] at hs
    rcases hs with rfl | rfl <;> simp only [List.mem_cons, List.not_mem_nil, or_false] at hg <;>
      [subst hg; rcases hg with rfl | rfl] <;> cases r <;> decide +kernel

theorem witness_TxReclaimCommand :
    let pending := fun s : State => { s with dev := { s.dev with txReclaimPending := true } }
    (Meets (pending present) ∧ present.tx.allocated = false) ∧ Meets (pending (sent 3 false)) ∧
      (sent 3 false).tx.allocated = true ∧ (pending (sent 3 false)).arrayClear .tx :=
  ⟨⟨meets_of (by decide +kernel), rfl⟩, meets_of (by decide +kernel), rfl, arrayClear_of (by decide +kernel)⟩

theorem witness_RecoveryCommands :
    (Meets up ∧ up.tx.allocated = true ∧ up.dev.ifup = true) ∧
      Meets present ∧ present.tx.allocated = false ∧ present.dev.ifup = false :=
  ⟨⟨meets_of (by decide +kernel), rfl, rfl⟩, meets_of (by decide +kernel), rfl, rfl⟩

/-! The DMA engine. -/

/-- Two descriptors of one frame: FS in the first, IC and LS in the second (P6). -/
def chained : State :=
  { sent 2 true with
    mem := [(0x1003, 0x80), (0x1004, 0x3C), (0x1007, 0x20), (0x1009, 0x40), (0x1013, 0x80), (0x1014, 0x3C), (0x1017, 0xC0),
      (0x1019, 0x41)] ++ upBytes }

theorem chained_ready : chained.chainReady [0, 1] :=
  ⟨rfl, by decide, ⟨⟨by unfold State.dmaInside; decide +kernel, by unfold State.dmaInside; decide +kernel⟩,
      by decide +kernel, by decide +kernel, by decide +kernel⟩, by decide +kernel,
    ⟨⟨by unfold State.dmaInside; decide +kernel, by unfold State.dmaInside; decide +kernel⟩,
      by decide +kernel, by decide +kernel, by decide +kernel⟩⟩

/-- The same with the second buffer outside every region. -/
def chainedOutside : State := { chained with regions := up.regions, marks := [] }

theorem chainedOutside_ready : chainedOutside.chainReady [0, 1] :=
  ⟨rfl, by decide, ⟨⟨by unfold State.dmaInside; decide +kernel, by unfold State.dmaInside; decide +kernel⟩,
      by decide +kernel, by decide +kernel, by decide +kernel⟩, by decide +kernel,
    ⟨⟨by unfold State.dmaInside; decide +kernel, by unfold State.dmaInside; decide +kernel⟩,
      by decide +kernel, by decide +kernel, by decide +kernel⟩⟩

theorem witness_DmaTxFrameStep :
    (Meets chained ∧ bit chained.csr.pmt 0 = false ∧ chained.dma.ts = .running ∧ bit chained.csr.macConfig 0 = true ∧
      chained.chainReady [0, 1] ∧ frameOutside chained [0, 1] = none) ∧
      Meets chainedOutside ∧ chainedOutside.chainReady [0, 1] ∧ frameOutside chainedOutside [0, 1] = some 0x4100 :=
  ⟨⟨meets_of (by decide +kernel), by decide +kernel, rfl, by decide +kernel, chained_ready, by decide +kernel⟩,
    meets_of (by decide +kernel), chainedOutside_ready, by decide +kernel⟩

/-- Threshold mode is on in `chained`. -/
theorem witness_DmaTxAbortedFrames :
    (Meets chained ∧ chained.chainReady [0, 1] ∧ bit chained.csr.dmaCtrl 2 = false ∧ frameOutside chained [0, 1] = none) ∧
      Meets chainedOutside ∧ chainedOutside.chainReady [0, 1] ∧ frameOutside chainedOutside [0, 1] = some 0x4100 :=
  ⟨⟨meets_of (by decide +kernel), chained_ready, by decide +kernel, by decide +kernel⟩, meets_of (by decide +kernel),
    chainedOutside_ready, by decide +kernel⟩

/-- The first descriptor of a frame is published, the second is not. -/
def halfChained : State :=
  { chained with
    mem := [(0x1003, 0x80), (0x1004, 0x3C), (0x1007, 0x20), (0x1009, 0x40), (0x1014, 0x3C), (0x1017, 0xC0),
      (0x1019, 0x41)] ++ upBytes }

theorem malformed_chain : malformed.chainMalformed [0] :=
  ⟨rfl, by decide, .inl ⟨⟨by unfold State.dmaInside; decide +kernel, by unfold State.dmaInside; decide +kernel⟩,
    by decide +kernel, .inl (by decide +kernel)⟩⟩

/-- The last descriptor of the ring begins a frame, and software cleared its ER: the next lies past the array (V-FLT-7). -/
def pastArray : State :=
  { up with
    mem := [(0x1033, 0x80), (0x1037, 0x20)] ++ upBytes.tail
    tx := { up.tx with sub := 4, comp := 3 }
    dma := { up.dma with ts := .running, txIdx := 3 } }

theorem pastArray_inFrame : pastArray.inFrame 3 true false :=
  ⟨⟨by unfold State.dmaInside; decide +kernel, by unfold State.dmaInside; decide +kernel⟩, by decide +kernel, by decide +kernel,
    by decide +kernel⟩

theorem pastArray_outside : pastArray.chainOutside [3, 4] 0x1040 :=
  ⟨rfl, by decide, pastArray_inFrame, by decide +kernel, .inl (by decide +kernel)⟩

/-- The same where a region holds the next descriptor's des0, which DMA owns, and not its des1. -/
def pastDes0 : State :=
  { pastArray with
    mem := [(0x1033, 0x80), (0x1037, 0x20), (0x1043, 0x80)] ++ upBytes.tail
    regions := up.regions ++ [{ base := 0x1040, len := 4, owner := .upper }] }

theorem pastDes0_outside : pastDes0.chainOutside [3, 4] 0x1044 :=
  ⟨rfl, by decide, ⟨⟨by unfold State.dmaInside; decide +kernel, by unfold State.dmaInside; decide +kernel⟩, by decide +kernel,
    by decide +kernel, by decide +kernel⟩, by decide +kernel,
    .inr ⟨by unfold State.dmaInside; decide +kernel, by decide +kernel, by decide +kernel⟩⟩

theorem test_dma_tx_past_the_array :
    (run 0x8000_0000 pastArray).map (·.fault) = some (some (.dmaOutOfBounds 0x1040)) ∧
      (run 0x8100_0000 pastDes0).map (·.fault) = some (some (.dmaOutOfBounds 0x1044)) := by decide +kernel

theorem witness_DmaTxWaitsOutside :
    (Meets pastArray ∧ bit pastArray.csr.pmt 0 = false ∧ bit pastArray.csr.macConfig 0 = true ∧
      bit pastArray.csr.dmaCtrl 2 = false ∧ pastArray.chainOutside [3, 4] 0x1040) ∧
      Meets pastDes0 ∧ pastDes0.chainOutside [3, 4] 0x1044 :=
  ⟨⟨meets_of (by decide +kernel), by decide +kernel, by decide +kernel, by decide +kernel, pastArray_outside⟩,
    meets_of (by decide +kernel), pastDes0_outside⟩

theorem witness_DmaTxWaitsAndStopFaults :
    (halfChained.sound ∧ bit halfChained.csr.pmt 0 = false ∧ halfChained.dma.ts = .running ∧
        halfChained.chainIncomplete [0, 1]) ∧
      (chained.sound ∧ chained.chainReady [0, 1]) ∧ (malformed.sound ∧ malformed.chainMalformed [0]) ∧
      bit ({ up.csr with macConfig := 0x0102 } : Csrs).macConfig 0 = false ∧
      bit ({ up.csr with dmaCtrl := 0x0807 } : Csrs).dmaCtrl 2 = true ∧
      (up.sound ∧ bit up.csr.pmt 0 = false ∧ up.dma.ts = .suspended ∧ up.dma.rs ≠ .stopped) ∧
      (asleep.sound ∧ bit asleep.csr.pmt 0 = true) ∧
      Meets (procs .stopped .stopped up) ∧ (procs .stopped .stopped up).dma.rs = .stopped := by
  refine ⟨⟨rfl, ?_, rfl, rfl, by decide, ⟨⟨by unfold State.dmaInside; decide +kernel, by unfold State.dmaInside; decide +kernel⟩,
      by decide +kernel, by decide +kernel, by decide +kernel⟩, by decide +kernel,
      ⟨by unfold State.dmaInside; decide +kernel, by decide +kernel⟩⟩, ⟨rfl, chained_ready⟩, ⟨rfl, malformed_chain⟩, ?_, ?_,
      ⟨rfl, ?_⟩, ⟨rfl, ?_⟩, meets_of (by decide +kernel), rfl⟩ <;>
    decide +kernel

/-- The cells a received frame goes to, as DmaRxFrameStep lists them for a frame that fits BS1. -/
def cellsOf (s : State) (w : Nat) : List (Option Nat) :=
  ((List.range w).map (fun k => s.dmaDescWord .rx 0 2 + natWord k) ++
    (List.range 4).map fun b => s.dmaDesc .rx 0 0 + natWord b).map s.dmaCell

theorem witness_DmaRxFrameStep :
    (Meets (arriving 60 .good) ∧ bit up.csr.macConfig 1 = true ∧ up.dma.rs ≠ .stopped ∧ bit up.csr.pmt 0 = false ∧
      (arriving 60 .good).dmaInside .rx 0 0 ∧ bit ((arriving 60 .good).dmaDescWord .rx 0 0) 31 = true ∧
      receiveOutside (arriving 60 .good) 0 64 = none ∧ (cellsOf (arriving 60 .good) 64).Nodup) ∧
      Meets { arriving 60 .good with marks := [], regions := [] } ∧
      receiveOutside { arriving 60 .good with marks := [], regions := [] } 0 64 = some 0x1_0000 := by
  refine ⟨⟨meets_of (by decide +kernel), ?_, ?_, ?_, by unfold State.dmaInside; decide +kernel, ?_⟩,
    meets_of (by decide +kernel), ?_⟩ <;> decide +kernel

/-- The shortest and the longest frame the wire offers. -/
theorem witness_FrameLengths : ∀ n ∈ [1, 16379], 1 ≤ (List.replicate n (0xAB : Byte)).length ∧
    (List.replicate n (0xAB : Byte)).length ≤ 16379 := by
  intro n hn
  simp only [List.mem_cons, List.not_mem_nil, or_false] at hn
  simp only [List.length_replicate]
  omega

theorem witness_DmaRxLostFrames :
    (asleep.sound ∧ bit asleep.csr.macConfig 1 = false ∧ asleep.dma.rs = .stopped ∧ bit asleep.csr.pmt 0 = true) ∧
      (let s := { arriving 60 .good with dma := { up.dma with rxIdx := 3 } }
       s.dmaInside .rx 3 0 ∧ bit (s.dmaDescWord .rx 3 0) 31 = false) ∧
      (let s := { arriving 60 .good with dma := { up.dma with rxIdx := 4 } }
       Meets s ∧ s.dmaOutside (s.dmaDesc .rx 4 0) 4 = some 0x2040) ∧
      (arriving 60 .good).dmaInside .rx 0 0 ∧ bit ((arriving 60 .good).dmaDescWord .rx 0 0) 31 = true := by
  refine ⟨⟨rfl, ?_⟩, ⟨by unfold State.dmaInside; decide +kernel, ?_⟩, ⟨meets_of (by decide +kernel), ?_⟩,
    by unfold State.dmaInside; decide +kernel, ?_⟩ <;>
    decide +kernel

/-! The receive path, the dispatcher and the lifecycle. -/

theorem witness_PollCommand :
    (Meets present ∧ present.dev.ifup = false) ∧ (Meets asleep ∧ asleep.dev.suspended = true) ∧
      let s := received 0x01 0x03 0x40 0x00
      Meets s ∧ s.dev.ifup = true ∧ s.dev.suspended = false ∧ s.arrayClear .rx ∧
        (∀ i < s.rx.n, ∀ b, (s.rxSlot i).buf = some b → s.arrayApart .rx ((s.rxSlot i).addr.getD 0) s.eff.bufSz) ∧
        ∀ i < s.rx.n, s.rx.inWindow i = false → s.ownSeen .rx i = false := by
  refine ⟨⟨meets_of (by decide +kernel), rfl⟩, ⟨meets_of (by decide +kernel), rfl⟩, meets_of (by decide +kernel), rfl, rfl,
    arrayClear_of (by decide +kernel), fun i hi b _ => arrayApart_of ?_, ?_⟩
  · have : ∀ i < 4, spansMeet (((received 0x01 0x03 0x40 0x00).rxSlot i).addr.getD 0) 1536 0x2000 64 = false := by
      decide +kernel
    exact this i hi
  · decide +kernel

/-- `up`, and an oracle that grants one buffer and then fails. -/
def granting : State := { up with allocAnswers := [some 0x1_1800, none] }

theorem granting_first : granting.answer 0 = some 0x1_1800 := rfl

theorem granting_fresh : (granting.withBuffers []).fresh 4 0x1_1800 granting.eff.bufSz = true := by decide +kernel

theorem granting_second : granting.answer 1 = none := rfl

/-- What POLL's refills then find. -/
theorem witness_refillsWith : granting.refillsWith [0x1_1800] true where
  given j b h := by
    match j, h with
    | 0, h =>
      rw [List.getElem?_cons_zero] at h
      rw [← Option.some.inj h]
      exact ⟨granting_first, granting_fresh⟩
    | j + 1, h => simp at h
  refused _ b h := by
    rw [show granting.answer [(0x1_1800 : Word)].length = none from granting_second] at h
    cases h

theorem witness_IsrAndThresholdCommands :
    (Meets up ∧ bit up.csr.dmaCtrl 2 = false ∧ up.csr.dmaTxThresh.toNat < 256) ∧
      (Meets { up with csr := { up.csr with dmaCtrl := 0x0807, dmaTxThresh := 256 } }) ∧
      (Meets (latched 0x41 up) ∧ bit (latched 0x41 up).csr.statusSrc 1 = false ∧
        bit (latched 0x41 up).csr.statusSrc 13 = false) ∧
      (Meets (latched 0x2000 present) ∧ present.tx.allocated = false) ∧
      Meets (latched 0x2002 (sent 3 true)) ∧ bit (latched 0x2002 (sent 3 true)).csr.statusSrc 1 = true := by
  refine ⟨⟨meets_of (by decide +kernel), ?_⟩, meets_of (by decide +kernel), ⟨meets_of (by decide +kernel), ?_⟩,
    ⟨meets_of (by decide +kernel), ?_⟩, meets_of (by decide +kernel), ?_⟩ <;> decide +kernel

theorem witness_AttachAndDetach :
    (State.reset.sound ∧ State.reset.dev.attached = false) ∧
      (Meets present ∧ present.dev.ifup = false ∧ present.dev.suspended = false) ∧
      (Meets up ∧ up.dev.ifup = true) ∧ Meets asleep ∧ asleep.dev.suspended = true :=
  ⟨⟨rfl, rfl⟩, ⟨meets_of (by decide +kernel), rfl, rfl⟩, ⟨meets_of (by decide +kernel), rfl⟩, meets_of (by decide +kernel), rfl⟩

/-- Every clause of TunablesAndStatistics at both ends of its range: the values R428 allows, and those next to them. -/
theorem witness_TunablesAndStatistics :
    (present.sound ∧ present.dev.attached = true) ∧
    ([(0, 4), (0, 1024), (1, 4), (1, 1024), (2, 64), (2, 8191), (3, 64), (3, 256), (4, 0), (4, 3), (5, 0), (5, 0xFFFF),
        (6, 1), (6, 127), (7, 1), (7, 127), (8, 1), (8, 0x7FFF_FFFF)].all fun x : BitVec 16 × Word =>
      (nextOf (exec (.setTunable x.1) (args x.2 0 0 0 present))).any fun t => t.csr.result == 0) = true ∧
    ([(0, 2), (0, 2048), (1, 2), (1, 2048), (2, 63), (2, 8192), (3, 0), (3, 320), (4, 4), (5, 0x1_0000), (6, 0), (6, 128),
        (7, 0), (7, 128), (8, 0), (8, 0x8000_0000)].all fun x : BitVec 16 × Word =>
      (nextOf (exec (.setTunable x.1) (args x.2 0 0 0 present))).any fun t => t.csr.result == 2) = true ∧
    ((8 < (9 : BitVec 16).toNat) ∧ 18 < (19 : BitVec 16).toNat) ∧
    (46 ≤ (46 : Word).toNat ∧ (9000 : Word).toNat ≤ 9000 ∧ ¬ 46 ≤ (45 : Word).toNat) := by
  refine ⟨⟨rfl, rfl⟩, ?_⟩
  decide +kernel

theorem witness_CloseCommand :
    (Meets up ∧ up.dev.ifup = true ∧ up.dev.suspended = false) ∧ (Meets present ∧ present.dev.ifup = false) ∧
      Meets asleep ∧ asleep.dev.suspended = true :=
  ⟨⟨meets_of (by decide +kernel), rfl, rfl⟩, ⟨meets_of (by decide +kernel), rfl⟩, meets_of (by decide +kernel), rfl⟩

/-- Suspended with its rings freed. -/
def shutDown : State :=
  { present with dev := { present.dev with suspended := true, fullShutdown := true } }

theorem witness_SuspendAndResume :
    (Meets up ∧ up.dev.ifup = true ∧ up.dev.suspended = false) ∧ (Meets present ∧ present.dev.ifup = false) ∧
      1 < (2 : BitVec 16).toNat ∧ Meets asleep ∧ asleep.dev.suspended = true ∧ asleep.dev.fullShutdown = false :=
  ⟨⟨meets_of (by decide +kernel), rfl, rfl⟩, ⟨meets_of (by decide +kernel), rfl⟩, by decide, meets_of (by decide +kernel), rfl,
    rfl⟩

theorem opening_granted : opening.openGranted opening.tun 0x1000 0x2000 [0x1_0000, 0x1_0800, 0x1_1000] [] where
  answers := rfl
  count := rfl
  tx := by decide +kernel
  rx := by decide +kernel
  buffers := List.all_eq_true.1 (by decide +kernel)
  image := by decide +kernel
  images b hb := by
    have h : ([0x1_0000, 0x1_0800, 0x1_1000] : List Word).all (fun b =>
        !spansMeet 0x1000 (16 * opening.tun.nTx) (dmaMapOf opening.params b) opening.tun.bufSz &&
          !spansMeet 0x2000 (16 * opening.tun.nRx) (dmaMapOf opening.params b) opening.tun.bufSz) = true := by decide +kernel
    simpa using List.all_eq_true.1 h b hb
  apart := by decide +kernel

theorem witness_OpenCommand :
    (Meets opening ∧ opening.dev.ifup = false ∧ opening.dev.suspended = false ∧ opening.tx.allocated = false ∧
      opening.rx.allocated = false ∧ opening.dma.ts = .stopped ∧ opening.dma.rs = .stopped ∧
      opening.tun.clamped .gmac = opening.tun ∧
      opening.openGranted opening.tun 0x1000 0x2000 [0x1_0000, 0x1_0800, 0x1_1000] []) ∧
      Meets up ∧ up.dev.ifup = true :=
  ⟨⟨meets_of (by decide +kernel), rfl, rfl, rfl, rfl, rfl, rfl, by decide +kernel, opening_granted⟩,
    meets_of (by decide +kernel), rfl⟩

theorem witness_OpenOutcomes :
    (Meets opening ∧ opening.dev.ifup = false ∧ opening.dev.suspended = false) ∧
      (Meets { opening with allocAnswers := [none] } ∧ (drawAnswer { opening with allocAnswers := [none] }).1 = none) ∧
      Meets shutDown ∧ shutDown.dev.suspended = true ∧ shutDown.dev.fullShutdown = true ∧ shutDown.dev.ifup = false :=
  ⟨⟨meets_of (by decide +kernel), rfl, rfl⟩, ⟨meets_of (by decide +kernel), rfl⟩, meets_of (by decide +kernel), rfl, rfl, rfl⟩

end Sys2Proof.Machine.Test
end

section
/-! PROOF. What every instruction keeps of the command interface, and what a software agent's turn does (O14). -/

namespace Sys2Proof.Machine

open Sys2Proof

/-! ### Commands: the operands, the parameters, the schedule and the last read are kept (R12, R50) -/

theorem complete_interfaceKept {s t : State} {x : Ret} (h : complete s x = .next t) (hx : InterfaceKept s x.st) :
    InterfaceKept s t := by
  rw [complete_next h]
  exact finish_interfaceKept hx

/-- A command that begins with the `attached` check. -/
theorem attached_interfaceKept {s t : State} {x : Ret} (h : complete s (whenAttached s x) = .next t)
    (hx : Keeps s x.st) : InterfaceKept s t :=
  complete_interfaceKept h (whenAttached_interfaceKept hx.interfaceKept)

/-- A command on a slot. -/
theorem slot_interfaceKept {s t : State} {r : RingSel} {i : BitVec 16} {f : Nat → Ret}
    (h : complete s (whenAttached s (withSlot r i s f)) = .next t) (hf : ∀ k, Keeps s (f k).st) : InterfaceKept s t :=
  complete_interfaceKept h (whenAttached_interfaceKept (withSlot_interfaceKept fun k => (hf k).interfaceKept))

/-- A command that runs where its precondition holds and is an ERROR elsewhere. -/
theorem guarded_interfaceKept {s t : State} {c : Prop} [Decidable c] {x : Ret}
    (h : complete s (if c then x else failed s) = .next t) (hx : Keeps s x.st) : InterfaceKept s t :=
  complete_interfaceKept h (ite_interfaceKept hx.interfaceKept (failed_interfaceKept s))

theorem execSetOwn_interfaceKept {r : RingSel} {i : BitVec 16} {s t : State} (h : execSetOwn r i s = .next t) :
    InterfaceKept s t := by
  refine slot_interfaceKept h fun k => ?_
  dsimp only
  split
  · exact .refl s
  · split
    · exact readDesc_keeps r k 0 s
    · exact (readDesc_keeps r k 0 s).trans (publish_keeps r k _)

theorem execGetTxLen_interfaceKept {i : BitVec 16} {s t : State} (h : execGetTxLen i s = .next t) :
    InterfaceKept s t := by
  refine slot_interfaceKept h fun k => ?_
  dsimp only
  split
  · exact readDesc_keeps .tx k 0 s
  · exact (readDesc_keeps .tx k 0 s).trans (readDesc_keeps .tx k 1 _)

theorem execRxStatus_interfaceKept {i : BitVec 16} {s t : State} (h : execRxStatus i s = .next t) :
    InterfaceKept s t := by
  refine slot_interfaceKept h fun k => ?_
  dsimp only
  split <;> exact readDesc_keeps .rx k 0 s

theorem execSetWol_interfaceKept {mode : BitVec 16} {s t : State} (h : execSetWol mode s = .next t) :
    InterfaceKept s t := by
  refine attached_interfaceKept h ?_
  split
  · exact .refl s
  · exact wrPmt_keeps _ s

theorem execAvail_interfaceKept {r : RingSel} {s t : State} (h : execAvail r s = .next t) : InterfaceKept s t := by
  refine attached_interfaceKept h ?_
  split <;> exact .refl s

theorem execSubmit_interfaceKept {i : BitVec 16} {s t : State} (h : execSubmit i s = .next t) :
    InterfaceKept s t := by
  simp only [execSubmit] at h
  split at h
  · exact complete_interfaceKept h (failed_interfaceKept s)
  · split at h
    · exact complete_interfaceKept h (countBusy_keeps s).interfaceKept
    · split at h
      · cases h
      · exact complete_interfaceKept h (submitAt_keeps _ _ _ _ _ s).interfaceKept

theorem execRefill_interfaceKept {i : BitVec 16} {s t : State} (h : execRefill i s = .next t) :
    InterfaceKept s t := by
  simp only [execRefill] at h
  split at h
  · exact complete_interfaceKept h (failed_interfaceKept s)
  · split at h
    · cases h
    · exact complete_interfaceKept h
        (ite_interfaceKept (refillAlloc_keeps _ s).interfaceKept (refillGiven_keeps _ _ s).interfaceKept)

theorem transmitSegments_interfaceKept {s t : State} {k : Packet} {segs : List Segment}
    (h : transmitSegments s k segs = .next t) : InterfaceKept s t := by
  simp only [transmitSegments] at h
  split at h
  · exact complete_interfaceKept h (rejectBusy_keeps s).interfaceKept
  · split at h
    · cases h
    · exact complete_interfaceKept h
        ((softwareCsum_keeps k segs s).trans (sendSegments_keeps k _ segs _)).interfaceKept

theorem execTransmit_interfaceKept {s t : State} (h : execTransmit s = .next t) : InterfaceKept s t := by
  simp only [execTransmit] at h
  split at h
  · exact complete_interfaceKept h (failed_interfaceKept s)
  · split at h
    · cases h
    · split at h
      · cases h
        exact (raise_keeps _ s).interfaceKept
      · split at h
        · exact complete_interfaceKept h (rejectRecord_keeps s).interfaceKept
        · exact transmitSegments_interfaceKept h

theorem execSetTunable_interfaceKept {id : BitVec 16} {s t : State} (h : execSetTunable id s = .next t) :
    InterfaceKept s t := by
  refine complete_interfaceKept h (ite_interfaceKept (illegalRet_interfaceKept s) (whenAttached_interfaceKept ?_))
  split
  · exact (setTun_keeps _ s).interfaceKept
  · exact failed_interfaceKept s

theorem execReadStat_interfaceKept {id : BitVec 16} {s t : State} (h : execReadStat id s = .next t) :
    InterfaceKept s t :=
  complete_interfaceKept h (ite_interfaceKept (illegalRet_interfaceKept s)
    (whenAttached_interfaceKept (Keeps.refl s).interfaceKept))

theorem setMacAddr_keeps (lo hi : Word) (s : State) :
    Keeps s (storeMacAddrHi hi (storeMacAddrLo lo (descFence s))) :=
  (descFence_keeps s).trans ((storeMacAddrLo_keeps lo _).trans (storeMacAddrHi_keeps hi _))

theorem setFilter_keeps (mode lo hi : Word) (s : State) :
    Keeps s (storeHashHi hi (storeHashLo lo (storeFilter mode (descFence s)))) :=
  (descFence_keeps s).trans
    ((storeFilter_keeps mode _).trans ((storeHashLo_keeps lo _).trans (storeHashHi_keeps hi _)))

theorem command_interfaceKept {i : Instr} (hc : i.isCommand = true) {s t : State} (h : exec i s = .next t) :
    InterfaceKept s t := by
  cases i with
  | initDescChain r => exact attached_interfaceKept h (initChain_keeps r s)
  | getOwn r n => exact slot_interfaceKept h fun k => readDesc_keeps r k 0 s
  | setOwn r n => exact execSetOwn_interfaceKept h
  | getTxLen n => exact execGetTxLen_interfaceKept h
  | rxStatus n => exact execRxStatus_interfaceKept h
  | dmaMode => exact attached_interfaceKept h (dmaMode_keeps _ _ _ _ s)
  | setMacAddr => exact attached_interfaceKept h (setMacAddr_keeps _ _ s)
  | setFilter => exact attached_interfaceKept h (setFilter_keeps _ _ _ s)
  | rxCoalEnable n => exact slot_interfaceKept h fun k => setDic_keeps k true s
  | rxCoalDisable n => exact slot_interfaceKept h fun k => setDic_keeps k false s
  | readIrqStatus => exact attached_interfaceKept h (.refl s)
  | clearIrqStatus => exact attached_interfaceKept h (wrStatus_keeps _ s)
  | setWol mode => exact execSetWol_interfaceKept h
  | dmaStart r => exact attached_interfaceKept h (dmaStart_keeps r s)
  | dmaStop r => exact attached_interfaceKept h (dmaStop_keeps r s)
  | irqEnable => exact attached_interfaceKept h (wrIer_keeps _ s)
  | adjustLink => exact attached_interfaceKept h (adjustLink_keeps _ _ _ s)
  | irqDisable => exact attached_interfaceKept h (wrIer_keeps _ s)
  | readLink => exact attached_interfaceKept h (.refl s)
  | pollDemand r => exact attached_interfaceKept h (wrPoll_keeps r s)
  | allocate r => exact attached_interfaceKept h (allocate_keeps r _ s)
  | submit n => exact execSubmit_interfaceKept h
  | reclaim n => exact slot_interfaceKept h fun k => reclaimAt_keeps k s
  | refill n => exact execRefill_interfaceKept h
  | avail r => exact execAvail_interfaceKept h
  | transmit => exact execTransmit_interfaceKept h
  | txReclaim => exact complete_interfaceKept h (txReclaim_keeps s).interfaceKept
  | watchdogExpire => exact guarded_interfaceKept h (watchdogStep_keeps s)
  | poll b => exact complete_interfaceKept h (pollRun_keeps b.toNat s).interfaceKept
  | isr => exact attached_interfaceKept h (isrRun_keeps s)
  | txRecovery => exact complete_interfaceKept h (txRecovery_keeps s).interfaceKept
  | raiseTxThreshold => exact attached_interfaceKept h (raiseThreshold_keeps s)
  | attach =>
    exact complete_interfaceKept h (ite_interfaceKept (failed_interfaceKept s) (attachDev_keeps s).interfaceKept)
  | openDev => exact complete_interfaceKept h (openSession_keeps s).interfaceKept
  | closeDev => exact guarded_interfaceKept h (closeRun_keeps s)
  | suspend wol => exact guarded_interfaceKept h (suspendRun_keeps _ s)
  | resume => exact guarded_interfaceKept h (resumeRun_keeps s)
  | setTunable id => exact execSetTunable_interfaceKept h
  | setMtu => exact guarded_interfaceKept h (setTun_keeps _ s)
  | detach => exact guarded_interfaceKept h (setDev_keeps _ s)
  | readStat id => exact execReadStat_interfaceKept h
  | _ => cases hc

/-- No instruction changes the operands, the parameters, the schedule or the last read (R12, R50). -/
theorem exec_interfaceKept {i : Instr} {s t : State} (h : exec i s = .next t) : InterfaceKept s t := by
  cases hc : i.isCommand with
  | true => exact command_interfaceKept hc h
  | false => exact (agent_keeps i hc s t h).interfaceKept

/-! ### Turns of the software agents (R12, R40, R275, R307, R370) -/

theorem agentTurn_keeps {e : Bool} {x : State → Ret} {s t : State} (hx : Keeps s (x s).st)
    (h : agentTurn e x s = .next t) : Keeps s t := by
  cases e with
  | false => cases h; exact .refl s
  | true => cases h; exact settle_keeps hx

/-- The turn of any software agent keeps all that `Keeps` says, RESULT and RESULT1 among it. -/
theorem softwareAgent_keeps {e : Event} (he : e = .isr ∨ e = .txReclaim ∨ (∃ b, e = .poll b) ∨ e = .watchdog)
    {s t : State} (h : runEvent e s = .next t) : Keeps s t := by
  obtain rfl | rfl | ⟨b, rfl⟩ | rfl := he
  · exact agentTurn_keeps (isrRun_keeps s) h
  · exact agentTurn_keeps (reclaimRun_keeps s) h
  · exact agentTurn_keeps (pollRun_keeps b.toNat s) h
  · exact agentTurn_keeps (watchdogStep_keeps s) h

/-- An agent whose operation is the command `i` wherever it is enabled: its enabled turn is that command but for RESULT and
RESULT1, and any other turn passes (R12, log 13). -/
theorem agentTurn_command {e : Bool} {enabled : Prop} (he : e = true ↔ enabled) {x : State → Ret} {i : Instr}
    {s : State} (hk : Keeps s (x s).st) (hi : enabled → exec i s = complete s (x s)) :
    (enabled → ∃ u, exec i s = .next u ∧ agentTurn e x s =
        .next { u with csr := { u.csr with result := s.csr.result, result1 := s.csr.result1 } }) ∧
      (¬ enabled → agentTurn e x s = .next s) := by
  constructor
  · intro h
    obtain ⟨u, hu, hs⟩ := agentTurn_of hk
    exact ⟨u, (hi h).trans hu, by rw [agentTurn, if_pos (he.2 h), hs]⟩
  · intro h
    rw [agentTurn, if_neg (mt he.1 h)]

theorem operational_iff {s : State} : s.operational = true ↔ s.dev.ifup = true ∧ s.dev.suspended = false := by
  simp [State.operational]

theorem isrEnabled_iff {s : State} :
    s.isrEnabled = true ↔ s.irqMac = true ∧ s.dev.ifup = true ∧ s.dev.suspended = false := by
  simp [State.isrEnabled, operational_iff]

theorem pollEnabled_iff {s : State} {b : BitVec 16} : s.pollEnabled b = true ↔
    s.dev.rxPollScheduled = true ∧ (s.dev.ifup = true ∧ s.dev.suspended = false) ∧ 1 ≤ b.toNat := by
  simp [State.pollEnabled, operational_iff, and_assoc]

theorem watchdogEnabled_iff {s : State} :
    s.watchdogEnabled = true ↔ (s.dev.ifup = true ∧ s.dev.suspended = false) ∧ s.tx.sub ≠ s.tx.comp := by
  simp [State.watchdogEnabled, operational_iff]

theorem exec_isr_of_attached {s : State} (ha : s.dev.attached = true) : exec .isr s = complete s (isrRun s) :=
  congrArg (complete s) (whenAttached_of ha)

theorem exec_watchdogExpire_of_ifup {s : State} (ha : s.dev.attached = true) (hu : s.dev.ifup = true) :
    exec .watchdogExpire s = complete s (watchdogStep s) :=
  congrArg (complete s) (if_pos (by simp [ha, hu]))

/-- Settles O14: each instruction's frame, each agent's frame, and an agent's turn as its command or as no change. -/
theorem argumentsAndResultsKept : Obligations.ArgumentsAndResultsKept := by
  refine ⟨fun i s t h => ?_, fun s t e he h => ?_, fun s b hs => ⟨?_, ?_, ?_, fun hp => ?_⟩⟩
  · have k := exec_interfaceKept h
    exact ⟨k.args, k.params, k.schedule, k.busData, fun hc =>
      have a := agent_keeps i hc s t h
      ⟨a.result, a.result1⟩⟩
  · have k := softwareAgent_keeps he h
    exact ⟨k.result, k.result1⟩
  · exact agentTurn_command isrEnabled_iff (isrRun_keeps s) fun ⟨_, hu, _⟩ =>
      exec_isr_of_attached (hs.attached (.inl hu))
  · exact agentTurn_command pollEnabled_iff (pollRun_keeps b.toNat s) fun _ => rfl
  · exact agentTurn_command watchdogEnabled_iff (watchdogStep_keeps s) fun ⟨⟨hu, _⟩, _⟩ =>
      exec_watchdogExpire_of_ifup (hs.attached (.inl hu)) hu
  · rw [runEvent, hp]
    rfl

end Sys2Proof.Machine
end

section
/-! PROOF. One step of the machine: no step after a fault (O6), the entry a word makes runs as the word's instruction (O5), and
every step leaves the registers legal (O11). -/

namespace Sys2Proof.Machine

open Sys2Proof

/-! ### What a step is (R60, R480, log 15) -/

theorem step_of_fault {s : State} {f : Fault} (hf : s.fault = some f) : step s = .fault f := by
  simp only [step, hf]

/-- A step that ends in a next state took the first entry of the schedule, or found none. -/
theorem step_next_cases {s t : State} (h : step s = .next t) :
    t = s ∨ ∃ e rest, s.schedule = e :: rest ∧ runEvent e { s with schedule := rest } = .next t := by
  obtain hf | ⟨f, hf⟩ := s.fault.eq_none_or_eq_some
  · cases he : s.schedule with
    | nil =>
      rw [step_nil hf he] at h
      cases h
      exact .inl rfl
    | cons e rest =>
      rw [step_cons hf he] at h
      exact .inr ⟨e, rest, rfl, h⟩
  · rw [step_of_fault hf] at h
    cases h

/-- A step of a sound machine takes the entry put first on its schedule. -/
theorem step_schedule {s : State} (hs : s.sound) (e : Event) (rest : List Event) :
    step { s with schedule := e :: rest } = runEvent e { s with schedule := rest } :=
  step_cons (s := { s with schedule := e :: rest }) hs rfl

/-- Settles O6: `raise` keeps a fault that is recorded, and `step` looks at it first. -/
theorem faultIsStickyAndEndsTheRun : Obligations.FaultIsStickyAndEndsTheRun := by
  refine fun s f g => ⟨fun hn => ?_, fun hf => ⟨?_, step_of_fault hf⟩⟩
  · rw [raise_fault, hn]
    rfl
  · rw [raise_fault, hf]
    rfl

/-! ### The word of an instruction (R139, R140) -/

theorem decodeWord_commandWord (o : BitVec 8) (r : BitVec 1) (i : BitVec 16) :
    decodeWord (commandWord o r i) = decodeFields { opc := o, ring := r.getLsbD 0, rsvd := 0, idx := i } :=
  congrArg decodeFields (fieldsOf_commandWord o r i)

theorem decodeWord_encode {i : Instr} (hi : i.wellFormed = true) : decodeWord (encode i) = .ok i := by
  cases i with
  | initDescChain r | dmaStart r | dmaStop r | pollDemand r | allocate r | avail r =>
    cases r <;> exact decodeWord_commandWord _ _ _
  | getOwn r _ | setOwn r _ => cases r <;> exact decodeWord_commandWord _ _ _
  | setTunable id | readStat id => exact (decodeWord_commandWord _ _ _).trans (if_pos (of_decide_eq_true hi))
  | _ => exact decodeWord_commandWord _ _ _

theorem issueCommand_of_decode {w : Word} {i : Instr} (hd : decodeWord w = .ok i) (hc : i.isCommand = true)
    (s : State) : issueCommand w s = exec i s := by
  simp only [issueCommand, hd, hc, if_true]

theorem dmaTurn_of_decode {w : Word} {i : Instr} (hd : decodeWord w = .ok i) (hc : i.isCommand = false)
    (s : State) : dmaTurn w s = exec i s := by
  simp only [dmaTurn, hd, hc, Bool.false_eq_true, if_false]

/-- A write of CMD runs the command after the fence of a CSR write (R50, R92). -/
theorem runEvent_cmdWrite {w : Word} {i : Instr} (hd : decodeWord w = .ok i) (hc : i.isCommand = true) (s : State) :
    runEvent (.csrWrite 4 0x60 w) s = exec i (descFence s) :=
  issueCommand_of_decode hd hc (descFence s)

theorem entryOf_of_decode {w : Word} {i : Instr} (hd : decodeWord w = .ok i) :
    entryOf w = if i.isCommand then .csrWrite 4 0x60 w else .agentStep w := by
  simp only [entryOf, hd, cmdOffset]

/-- The next step of a machine whose fetch word is `w` is the entry that makes `w` run (log 16). -/
theorem step_withFetchWord {s : State} (hs : s.sound) (w : Word) :
    step (s.withFetchWord 32 w.toNat) = runEvent (entryOf w) s := by
  have hw : BitVec.ofNat 32 (w.toNat % 2 ^ 32) = w := by
    rw [Nat.mod_eq_of_lt w.isLt, BitVec.ofNat_toNat, BitVec.setWidth_eq]
  rw [State.withFetchWord, hw]
  exact step_schedule hs (entryOf w) s.schedule

/-- Settles O5: the entry decodes to the instruction, so its event is `exec` of it. -/
theorem stepRunsTheDecodedInstruction : Obligations.StepRunsTheDecodedInstruction := by
  intro i s rest hs hi
  have hd := decodeWord_encode hi
  refine ⟨fun hc => ?_, fun hc => ?_, ?_⟩
  · exact (step_schedule hs _ rest).trans (runEvent_cmdWrite hd hc _)
  · exact (step_schedule hs _ rest).trans (dmaTurn_of_decode hd hc _)
  · rw [step_withFetchWord hs, entryOf_of_decode hd]
    cases hc : i.isCommand with
    | true => exact runEvent_cmdWrite hd hc s
    | false => exact dmaTurn_of_decode hd hc s

/-! ### Memory's form and the legal registers through one event (R31, R37 to R47, R52, R53, R80) -/

/-- Memory stays in canonical form and the registers stay legal. -/
structure FormKept (s t : State) : Prop where
  mem : s.memLegal → t.memLegal
  regs : s.regsLegal → t.regsLegal

theorem FormKept.refl (s : State) : FormKept s s := ⟨id, id⟩

theorem FormKept.trans {s t u : State} (h : FormKept s t) (k : FormKept t u) : FormKept s u :=
  ⟨k.mem ∘ h.mem, k.regs ∘ h.regs⟩

theorem Keeps.formKept {s t : State} (h : Keeps s t) : FormKept s t := ⟨h.mem, h.regs⟩

theorem InterfaceKept.formKept {s t : State} (h : InterfaceKept s t) : FormKept s t := ⟨h.mem, h.regs⟩

theorem StepKeeps.formKept {s t : State} (h : StepKeeps s t) : FormKept s t := ⟨h.mem, h.regs⟩

theorem busData_formKept (s : State) (w : Word) : FormKept s { s with busData := w } :=
  ⟨id, fun h => ⟨h.csr, ⟨h.start.tx, h.start.rx⟩, h.bases⟩⟩

theorem schedule_formKept (s : State) (l : List Event) : FormKept s { s with schedule := l } :=
  ⟨id, fun h => ⟨h.csr, ⟨h.start.tx, h.start.rx⟩, h.bases⟩⟩

theorem storeCsr_formKept (c : Csr) (v : Word) (s : State) : FormKept s (storeCsr c v s) :=
  ⟨(storeCsr_keeps c v s).1, (storeCsr_keeps c v s).2⟩

theorem issueCommand_formKept {w : Word} {s t : State} (h : issueCommand w s = .next t) : FormKept s t := by
  unfold issueCommand at h
  split at h
  · split at h
    · exact (exec_interfaceKept h).formKept
    · cases h
      exact (illegalCommand_stepKeeps s).formKept
  · cases h
    exact (illegalCommand_stepKeeps s).formKept

theorem dmaTurn_formKept {w : Word} {s t : State} (h : dmaTurn w s = .next t) : FormKept s t := by
  unfold dmaTurn at h
  split at h
  · split at h
    · cases h
      exact .refl s
    · exact (exec_interfaceKept h).formKept
  · cases h
    exact .refl s

theorem hostCsrWrite_formKept {width : Nat} {off : BitVec 8} {v : Word} {s t : State}
    (h : hostCsrWrite width off v s = .next t) : FormKept s t := by
  unfold hostCsrWrite at h
  split at h
  · cases h
    exact (raise_keeps _ s).formKept
  · have hfence := (descFence_keeps s).formKept
    split at h
    · exact hfence.trans (issueCommand_formKept h)
    · cases h
      exact hfence.trans (storeCsr_formKept _ v _)
    · cases h
      exact hfence

theorem hostCsrRead_formKept {width : Nat} {off : BitVec 8} {s t : State}
    (h : hostCsrRead width off s = .next t) : FormKept s t := by
  unfold hostCsrRead at h
  split at h <;> cases h
  · exact (raise_keeps _ s).formKept
  · exact busData_formKept s _

theorem hostMemWrite_formKept {a v : Word} {s t : State} (h : hostMemWrite a v s = .next t) : FormKept s t := by
  unfold hostMemWrite at h
  split at h
  · cases h
  · split at h
    · split at h
      · split at h <;> cases h
        exact (writeDesc_keeps _ _ _ v s).formKept
      · cases h
    · split at h <;> cases h
      · exact (raise_keeps _ s).formKept
      · exact (pushWrite_keeps _ _ s).formKept

theorem hostMemRead_formKept {a : Word} {s t : State} (h : hostMemRead a s = .next t) : FormKept s t := by
  unfold hostMemRead at h
  split at h
  · cases h
  · split at h
    all_goals
      split at h
      · cases h
      · split at h <;> cases h
        · exact (raise_keeps _ s).formKept
        · exact busData_formKept s _

theorem runEvent_formKept {e : Event} {s t : State} (h : runEvent e s = .next t) : FormKept s t := by
  cases e with
  | csrWrite width off v => exact hostCsrWrite_formKept h
  | csrRead width off => exact hostCsrRead_formKept h
  | memWrite a v => exact hostMemWrite_formKept h
  | memRead a => exact hostMemRead_formKept h
  | fence => cases h; exact (descFence_keeps s).formKept
  | drain k => cases h; exact (drainOne_keeps k s).formKept
  | isr => exact (softwareAgent_keeps (.inl rfl) h).formKept
  | txReclaim => exact (softwareAgent_keeps (.inr (.inl rfl)) h).formKept
  | poll b => exact (softwareAgent_keeps (.inr (.inr (.inl ⟨b, rfl⟩))) h).formKept
  | watchdog => exact (softwareAgent_keeps (.inr (.inr (.inr rfl))) h).formKept
  | agentStep code => exact dmaTurn_formKept h
  | supply a bytes => cases h; exact (supplyBuffer_keeps a bytes s).formKept
  | withdraw a => cases h; exact (withdrawBuffer_keeps a s).formKept

theorem step_formKept {s t : State} (h : step s = .next t) : FormKept s t := by
  obtain rfl | ⟨e, rest, _, hrun⟩ := step_next_cases h
  · exact .refl _
  · exact (schedule_formKept s rest).trans (runEvent_formKept hrun)

/-- Settles O11: every event keeps the registers legal, and a step is at most one event. -/
theorem stepKeepsTheRegistersLegal : Obligations.StepKeepsTheRegistersLegal :=
  fun _ _ hs h => (step_formKept h).regs hs

end Sys2Proof.Machine
end

section
/-! PROOF. The registers as the host reads and writes them (O16 to O21), and the interrupt line (O23). -/

namespace Sys2Proof.Machine

open Sys2Proof

/-! ### DMA_CTRL, the base registers and the poll demands (R37, R42, R43, R52, R53) -/

theorem procAfter_eq (p : ProcState) (old new : Bool) :
    procAfter p old new =
      if old = false ∧ new = true then .running else if old = true ∧ new = false then .stopped else p := by
  cases old <;> cases new <;> rfl

/-- PBL is WARL to 8 (R37). -/
theorem legalDmaCtrl_pbl (old v : Word) :
    bitsAt (legalDmaCtrl old v) 8 6 = if bitsAt v 8 6 ∈ [1, 2, 4, 8, 16, 32] then bitsAt v 8 6 else 8 := by
  by_cases hp : [1, 2, 4, 8, 16, 32].contains (bitsAt v 8 6) = true
  · rw [if_pos (List.contains_iff_mem.1 hp)]
    refine bitsAt_eq_of fun k hk => ?_
    rw [bit_legalDmaCtrl _ _ (by omega), if_neg (by omega), if_pos (by omega), if_pos hp]
  · rw [if_neg (mt List.contains_iff_mem.2 hp)]
    refine Eq.trans (b := bitsAt 0x800 8 6) (bitsAt_eq_of fun k hk => ?_) (by decide)
    rw [bit_legalDmaCtrl _ _ (by omega), if_neg (by omega), if_pos (by omega), if_neg hp]
    interval_cases k <;> rfl

/-- Settles O16: the write is a fence and `storeDmaCtrl`, whose word is `legalDmaCtrl`. -/
theorem writeOfDmaCtrl : Obligations.WriteOfDmaCtrl := by
  intro s v hm
  refine ⟨descFence s, legalDmaCtrl s.csr.dmaCtrl v, fenced_descFence hm, ?_, fun k hk => ?_,
    legalDmaCtrl_pbl _ v, ?_, (legalDmaCtrl_spec _ v).1⟩
  · rw [← procAfter_eq, ← procAfter_eq]
    rfl
  · rw [bit_legalDmaCtrl _ _ (by omega), if_pos hk]
  · rw [bit_legalDmaCtrl _ _ (by decide)]
    rfl

/-- Settles O17: the write is a fence and `storeTxBase` or `storeRxBase`. -/
theorem writeOfABaseRegister : Obligations.WriteOfABaseRegister :=
  ⟨fun s _ hm => ⟨descFence s, fenced_descFence hm, rfl, rfl⟩, fun _ => ⟨rfl, rfl⟩⟩

/-- Settles O18: the write is a fence and `storeTxPoll` or `storeRxPoll`. -/
theorem writeOfAPollDemand : Obligations.WriteOfAPollDemand :=
  fun s _ hm => ⟨⟨descFence s, fenced_descFence hm, rfl, rfl⟩, rfl, rfl⟩

/-! ### DMA_STATUS (R38, R51) -/

theorem Source.pos_lt_15 (b : Source) : b.pos < 15 := by cases b <;> decide

/-- Below the summaries DMA_STATUS reads the source latches. -/
theorem bit_statusWord_source (src : Word) (t r : ProcState) {k : Nat} (hk : k < 15) :
    bit (statusWord src t r) k = bit src k := by
  rw [bit_statusWord_parts _ _ _ _ (by omega), bit_procCode r 17 k (by decide) (by omega),
    bit_procCode t 20 k (by decide) (by omega)]
  simp [show 15 ≠ k by omega, show 16 ≠ k by omega]

/-- No latch lies at or above the summaries. -/
theorem source_bit_high {src : Word} (h : src &&& ~~~srcMask = 0) {k : Nat} (hlo : 15 ≤ k) : bit src k = false := by
  by_cases hk : k < 32
  · have hmask : ∀ j : Fin 32, 15 ≤ j.val → bit srcMask j = false := by decide
    exact src_bit h (hmask ⟨k, hk⟩ hlo) hk
  · exact bit_of_le src (by omega)

theorem bit_statusWord_ais {src : Word} (h : src &&& ~~~srcMask = 0) (t r : ProcState) :
    bit (statusWord src t r) 15 = aisOf src := by
  rw [bit_statusWord_parts _ _ _ _ (by decide), source_bit_high h (by decide),
    bit_procCode r 17 15 (by decide) (by decide), bit_procCode t 20 15 (by decide) (by decide)]
  simp

theorem bit_statusWord_nis {src : Word} (h : src &&& ~~~srcMask = 0) (t r : ProcState) :
    bit (statusWord src t r) 16 = nisOf src := by
  rw [bit_statusWord_parts _ _ _ _ (by decide), source_bit_high h (by decide),
    bit_procCode r 17 16 (by decide) (by decide), bit_procCode t 20 16 (by decide) (by decide)]
  simp

/-- Above the summaries DMA_STATUS reads the two process-state codes. -/
theorem bit_statusWord_proc {src : Word} (h : src &&& ~~~srcMask = 0) (t r : ProcState) {k : Nat} (hlo : 17 ≤ k)
    (hk : k < 32) : bit (statusWord src t r) k = (bit (r.code <<< 17) k || bit (t.code <<< 20) k) := by
  rw [bit_statusWord_parts _ _ _ _ hk, source_bit_high h (by omega)]
  simp [show 15 ≠ k by omega, show 16 ≠ k by omega]

theorem bit_shiftLeft_add (v : Word) {lo k : Nat} (hk : lo + k < 32) : bit (v <<< lo) (lo + k) = bit v k := by
  simp only [bit, BitVec.getLsbD_shiftLeft, hk, show ¬ lo + k < lo by omega, Nat.add_sub_cancel_left, decide_true,
    decide_false, Bool.not_false, Bool.true_and]

theorem bitsAt_procCode (p : ProcState) :
    bitsAt p.code 0 3 = (match p with | .stopped => 0 | .running => 1 | .suspended => 2) := by
  cases p <;> decide

theorem bitsAt_statusWord_rs {src : Word} (h : src &&& ~~~srcMask = 0) (t r : ProcState) :
    bitsAt (statusWord src t r) 17 3 = bitsAt r.code 0 3 := by
  refine bitsAt_eq_of fun k hk => ?_
  rw [bit_statusWord_proc h t r (by omega) (by omega), bit_procCode t 20 (17 + k) (by decide) (by omega),
    bit_shiftLeft_add _ (by omega), Bool.or_false, Nat.zero_add]

theorem bitsAt_statusWord_ts {src : Word} (h : src &&& ~~~srcMask = 0) (t r : ProcState) :
    bitsAt (statusWord src t r) 20 3 = bitsAt t.code 0 3 := by
  refine bitsAt_eq_of fun k hk => ?_
  rw [bit_statusWord_proc h t r (by omega) (by omega), bit_procCode r 17 (20 + k) (by decide) (by omega),
    bit_shiftLeft_add _ (by omega), Bool.false_or, Nat.zero_add]

theorem bitsAt_statusWord_reserved {src : Word} (h : src &&& ~~~srcMask = 0) (t r : ProcState) :
    bitsAt (statusWord src t r) 23 9 = 0 := by
  refine bit_statusWord src t r 23 9 fun k hk => ?_
  rw [bit_statusWord_proc h t r (by omega) (by omega), bit_procCode r 17 (23 + k) (by decide) (by omega),
    bit_procCode t 20 (23 + k) (by decide) (by omega), Bool.or_false]

/-- Settles O19: the write is a fence and `storeStatus`; the read is `statusWord`, field by field. -/
theorem statusRegister : Obligations.StatusRegister := by
  intro s v hm hr
  have hsrc := hr.csr.source
  refine ⟨⟨descFence s, fenced_descFence hm, rfl⟩, fun b => bit_statusWord_source _ _ _ b.pos_lt_15, ?_, ?_, ?_, ?_,
    bitsAt_statusWord_reserved hsrc _ _⟩
  · rw [readCsr, bit_statusWord_ais hsrc, ais_iff]
  · rw [readCsr, bit_statusWord_nis hsrc, nis_iff]
  · exact (bitsAt_statusWord_rs hsrc _ _).trans (bitsAt_procCode _)
  · exact (bitsAt_statusWord_ts hsrc _ _).trans (bitsAt_procCode _)

/-! ### The interrupt line (R40) -/

/-- A mask of latched and enabled sources is not 0 exactly when one of the mask's sources is latched and enabled. -/
theorem latchedAndEnabled_iff {p : Source → Prop} {m : Word}
    (hm : ∀ k < 32, bit m k = true ↔ ∃ b : Source, p b ∧ b.pos = k) (src ier : Word) :
    src &&& ier &&& m ≠ 0 ↔ ∃ b : Source, p b ∧ bit src b.pos = true ∧ bit ier b.pos = true := by
  rw [irq_part]
  constructor
  · rintro ⟨k, hk, hs, he, hb⟩
    obtain ⟨b, hp, rfl⟩ := (hm k hk).1 hb
    exact ⟨b, hp, hs, he⟩
  · rintro ⟨b, hp, hs, he⟩
    exact ⟨b.pos, pos_lt b, hs, he, (hm _ (pos_lt b)).2 ⟨b, hp, rfl⟩⟩

theorem abnormal_bits_and (k : Nat) (hk : k < 32) :
    bit abnormalMask k = true ↔ ∃ b : Source, (b ≠ .ti ∧ b ≠ .ri) ∧ b.pos = k := by
  simp only [abnormal_bits k hk, and_assoc]

/-- Settles O23: `irqMac` tests the two masks, and `isrEnabled` adds the two flags of an operational interface. -/
theorem interruptLine : Obligations.InterruptLine := by
  refine fun s => ⟨?_, isrEnabled_iff⟩
  simp only [State.irqMac, Bool.or_eq_true, Bool.and_eq_true, decide_eq_true_eq, latchedAndEnabled_iff normal_bits,
    latchedAndEnabled_iff abnormal_bits_and, and_assoc]

/-! ### The registers that only store (R39, R41, R44 to R47, R50) -/

/-- Settles O20: each write is a fence and the register's own store, by evaluating the map of R36 at its offset; the bits of
MAC_CONFIG are `legalMacConfig_bit`'s. -/
theorem writesOfThePlainRegisters : Obligations.WritesOfThePlainRegisters := by
  intro s v hm
  refine ⟨descFence s, fenced_descFence hm, rfl, rfl, ⟨legalMacConfig s.params v, rfl, fun k hk => ?_, ?_, ?_,
    (legalMacConfig_spec _ v).1⟩, rfl, rfl, rfl, rfl, rfl, rfl, rfl, rfl, rfl, rfl, rfl⟩
  · rw [legalMacConfig_bit _ _ (by omega), if_pos hk]
  · exact legalMacConfig_bit _ _ (by decide)
  · exact legalMacConfig_bit _ _ (by decide)

/-! ### Reads, read-only registers and reserved offsets (R31, R36, R48 to R50) -/

/-- R36 lists no register above RESULT1's offset. -/
theorem csrAt_above {n : Nat} (h : 0x7C ≤ n) : csrAt n = none := by
  have hmap : ∀ p ∈ csrMap, p.1 ≤ 0x78 := by decide
  refine List.lookup_eq_none_iff.2 fun p hp => ?_
  have := hmap p hp
  exact bne_iff_ne.2 (by omega)

theorem csrAt_reserved {off : BitVec 8} (h : off ∈ [0x20, 0x24, 0x54, 0x58, 0x5C] ∨ 0x7C ≤ off.toNat) :
    csrAt off.toNat = none := by
  rcases h with h | h
  · fin_cases h <;> rfl
  · exact csrAt_above h

theorem hostCsrRead_reserved {off : BitVec 8} (h : off.toNat % 4 = 0) (hr : csrAt off.toNat = none) (s : State) :
    hostCsrRead 4 off s = .next { s with busData := 0 } := by
  simp [hostCsrRead, csrAccessLegal, h, hr]

theorem hostCsrWrite_reserved {off : BitVec 8} (h : off.toNat % 4 = 0) (hr : csrAt off.toNat = none) (v : Word)
    (s : State) : hostCsrWrite 4 off v s = .next (descFence s) := by
  simp [hostCsrWrite, csrAccessLegal, h, hr]

theorem hostCsrWrite_readOnly {off : BitVec 8} (h : off ∈ [0x48, 0x4C, 0x50, 0x74, 0x78]) (v : Word) (s : State) :
    hostCsrWrite 4 off v s = .next (descFence s) := by
  fin_cases h <;> rfl

theorem hwFeature_spec (p : Params) :
    bit (hwFeature p) 0 = decide (p.variant = .gmac) ∧ bit (hwFeature p) 1 = p.csumOffload ∧
      hwFeature p &&& 0xFFFF_FFFC = 0 := by
  refine ⟨?_, ?_, or_and_zero (bitIf_and_zero _ (by decide)) (bitIf_and_zero _ (by decide))⟩ <;>
    simp [hwFeature, bit_or, bit_bitIf]

/-- The address of a descriptor word is said through the base register that the host reads (R32, R330). -/
theorem descAddr_from_base (s : State) (r : RingSel) (i k : Nat) :
    ∃ b, hostCsrRead 4 (if r = .tx then 0x10 else 0x14) s = .next { s with busData := b } ∧
      s.descAddr r i k = b + natWord (16 * i + 4 * k) ∧ s.dmaDesc r i k = b + natWord (16 * i + 4 * k) := by
  cases r
  · exact ⟨s.tx.base, rfl, rfl, rfl⟩
  · exact ⟨s.rx.base, rfl, rfl, rfl⟩

/-- Settles O21: an offset that R36 lists reads its register (each by evaluating the map there), any other reads 0, and a write
that no register takes is only the fence. -/
theorem readsAndIgnoredWrites : Obligations.ReadsAndIgnoredWrites := by
  intro s v hm
  refine ⟨rfl, rfl, rfl, rfl, rfl, rfl, rfl, rfl, rfl, rfl, rfl, rfl, rfl, rfl, rfl, rfl, rfl, rfl,
    ⟨hwFeature s.params, rfl, hwFeature_spec s.params⟩, rfl, rfl, rfl, rfl, rfl, rfl, rfl,
    fun r i k => descAddr_from_base s r i k, fun off hoff => ⟨fun hres => ?_, fun hign => ?_⟩⟩
  · exact hostCsrRead_reserved hoff (csrAt_reserved hres) s
  · refine ⟨descFence s, fenced_descFence hm, ?_⟩
    rcases hign with hres | hro
    · exact hostCsrWrite_reserved hoff (csrAt_reserved hres) v s
    · exact hostCsrWrite_readOnly hro v s

end Sys2Proof.Machine
end

section
/-! PROOF. Shared memory as the host reaches it (O22, O24 to O26), its canonical form (O13), and mapping (O35). -/

namespace Sys2Proof.Machine

open Sys2Proof

/-! ### The canonical form (R80, log 2) -/

/-- Settles O13: every event keeps memory's form, and a step is at most one event. -/
theorem stepKeepsMemoryCanonical : Obligations.StepKeepsMemoryCanonical :=
  fun _ _ hm h => (step_formKept h).mem hm

/-! ### The faults a check raises (R60, R84, R95, R493) -/

theorem raise_of_sound {s : State} (hs : s.sound) (f : Fault) : raise f s = { s with fault := some f } := by
  simp only [raise, show s.fault = none from hs]

/-- A check of a range faults at the first byte that fails it (log 9). -/
theorem ownViolation_first {p : Word → Bool} {a : Word} {n k : Nat} (hk : k < n) (h : p (a + natWord k) = true)
    (hj : ∀ j < k, p (a + natWord j) = false) :
    (((List.range n).map fun j => a + natWord j).find? p).map Fault.ownViolation =
      some (.ownViolation (a + natWord k)) := by
  rw [find_first hk h hj]
  rfl

section

variable {s : State} {a : Word}

theorem deviceFault_first {b : Nat} (hb : b < 4) (h : s.hardwareOwns (a + natWord b))
    (hj : ∀ j < b, ¬ s.hardwareOwns (a + natWord j)) : s.deviceFault a 4 = some (.ownViolation (a + natWord b)) :=
  ownViolation_first hb (deviceByte_iff.2 h) fun j hjb => deviceByte_false (hj j hjb)

theorem deviceFault_none (h : ∀ b < 4, ¬ s.hardwareOwns (a + natWord b)) : s.deviceFault a 4 = none := by
  rw [State.deviceFault, find_none fun b hb => deviceByte_false (h b hb)]
  rfl

/-- A check that at each byte of a word asks only whether the byte is the hardware's is the check of R84. -/
theorem check_eq_deviceFault {p : Word → Bool} (h : ∀ b < 4, p (a + natWord b) = s.deviceByte (a + natWord b)) :
    (((List.range 4).map fun b => a + natWord b).find? p).map Fault.ownViolation = s.deviceFault a 4 := by
  rw [State.deviceFault, List.find?_map, List.find?_map]
  congr 2
  exact List.find?_congr fun b hb => h b (List.mem_range.1 hb)

end

theorem add_natWord_zero (a : Word) : a + natWord 0 = a := BitVec.add_zero a

/-! ### Where a host access stops (R81, R83, R85, R451) -/

theorem csrAccessLegal_false {width : Nat} {off : BitVec 8} (h : width ≠ 4 ∨ off.toNat % 4 ≠ 0) :
    csrAccessLegal width off = false := by
  simpa only [csrAccessLegal, Bool.and_eq_false_iff, decide_eq_false_iff_not] using h

theorem hostCsrWrite_illegal {width : Nat} {off : BitVec 8} (h : width ≠ 4 ∨ off.toNat % 4 ≠ 0) (v : Word)
    (s : State) :
    hostCsrWrite width off v s = .next (raise (.badCsrAccess (off.setWidth 32)) s) := by
  simp only [hostCsrWrite, csrAccessLegal_false h, Bool.not_false, if_true]

theorem hostCsrRead_illegal {width : Nat} {off : BitVec 8} (h : width ≠ 4 ∨ off.toNat % 4 ≠ 0) (s : State) :
    hostCsrRead width off s = .next (raise (.badCsrAccess (off.setWidth 32)) s) := by
  simp only [hostCsrRead, csrAccessLegal_false h, Bool.not_false, if_true]

theorem hostMemWrite_outside {s : State} {a x : Word} (h : s.outside a 4 = some x) (v : Word) :
    hostMemWrite a v s = .refused (.softwareOutsideRegions x) := by
  simp only [hostMemWrite, h]

theorem hostMemRead_outside {s : State} {a x : Word} (h : s.outside a 4 = some x) :
    hostMemRead a s = .refused (.softwareOutsideRegions x) := by
  simp only [hostMemRead, h]

/-- The host writes no part of a descriptor word (log 34). -/
theorem hostMemWrite_partial {s : State} {a : Word} (hin : s.outside a 4 = none) (ht : touchesDesc s a = true)
    (hoff : ∀ r i off, s.descAt a = some (r, i, off) → off % 4 ≠ 0) (v : Word) :
    hostMemWrite a v s = .refused (.notOneDescriptorWord a) := by
  cases hd : s.descAt a with
  | none => simp [hostMemWrite, hin, ht, hd]
  | some x =>
    obtain ⟨r, i, off⟩ := x
    simp [hostMemWrite, hin, ht, hd, hoff r i off hd]

/-- The host reads no part of a descriptor word (log 34). -/
theorem hostMemRead_partial {s : State} {a : Word} (hin : s.outside a 4 = none) (ht : touchesDesc s a = true)
    (hoff : ∀ r i off, s.descAt a = some (r, i, off) → off % 4 ≠ 0) :
    hostMemRead a s = .refused (.notOneDescriptorWord a) := by
  cases hd : s.descAt a with
  | none => simp [hostMemRead, hin, ht, hd]
  | some x =>
    obtain ⟨r, i, off⟩ := x
    simp [hostMemRead, hin, ht, hd, hoff r i off hd]

/-- Settles O22: each access meets the test that stops it before any other. -/
theorem hostAccessesThatStop : Obligations.HostAccessesThatStop := by
  refine ⟨fun s width off v hs h => ?_, fun s a v => ⟨fun x hx => ?_, fun hin ht hoff => ?_⟩⟩
  · rw [hostCsrWrite_illegal h, hostCsrRead_illegal h, raise_of_sound hs]
    exact ⟨rfl, rfl⟩
  · exact ⟨hostMemWrite_outside hx v, hostMemRead_outside hx⟩
  · exact ⟨hostMemWrite_partial hin ht hoff v, hostMemRead_partial hin ht hoff⟩

/-! ### What a host access does where it does not stop (R84, R90, R95) -/

/-- A write that touches no descriptor enters the write buffer, or faults at its check. -/
theorem hostMemWrite_apart {s : State} {a : Word} (hin : s.outside a 4 = none) (ht : touchesDesc s a = false) (v : Word) :
    hostMemWrite a v s =
      .next ((s.writeFault a 4).elim (pushWrite a (splitWord s.params.endian v) s) (raise · s)) := by
  cases hf : s.writeFault a 4 <;> simp [hostMemWrite, hin, ht, hf]

/-- A write of word `k` of a descriptor is software's write of that word (R85). -/
theorem hostMemWrite_desc {s : State} {a : Word} {r : RingSel} {i k : Nat} (hin : s.outside a 4 = none)
    (hd : s.descAt a = some (r, i, 4 * k)) (v : Word) : hostMemWrite a v s = .next (writeDesc r i k v s) := by
  simp [hostMemWrite, hin, touches_of hd, hd]

/-- A read that touches no descriptor returns the word software sees, or faults at its check. -/
theorem hostMemRead_apart {s : State} {a : Word} (hin : s.outside a 4 = none) (ht : touchesDesc s a = false) :
    hostMemRead a s = .next ((s.readFault a 4).elim { s with busData := swWord s a } (raise · s)) := by
  cases hf : s.readFault a 4 <;> simp [hostMemRead, hin, ht, hf]

/-- So does a read of a word of a descriptor (R85). -/
theorem hostMemRead_desc {s : State} {a : Word} {r : RingSel} {i k : Nat} (hin : s.outside a 4 = none)
    (hd : s.descAt a = some (r, i, 4 * k)) :
    hostMemRead a s = .next ((s.readFault a 4).elim { s with busData := swWord s a } (raise · s)) := by
  cases hf : s.readFault a 4 <;> simp [hostMemRead, hin, hd, hf]

/-! ### Words of no descriptor (R82, R84, R90, R92) -/

/-- Both checks of a word of no descriptor are the check of R84. -/
theorem faults_apart {s : State} {a : Word} (ht : touchesDesc s a = false) :
    s.writeFault a 4 = s.deviceFault a 4 ∧ s.readFault a 4 = s.deviceFault a 4 := by
  have hd := descAt_none ht
  constructor <;> refine check_eq_deviceFault fun b hb => ?_
  · simp only [State.writeForbidden, hd b hb, Bool.or_false]
  · simp only [State.readForbidden, hd b hb, Bool.or_false]

theorem eq_add_of_inSpan {a x : Word} {n : Nat} (h : inSpan a n x = true) : ∃ k < n, x = a + natWord k := by
  refine ⟨(x - a).toNat, of_decide_eq_true h, ?_⟩
  rw [natWord, BitVec.ofNat_toNat, BitVec.setWidth_eq, BitVec.add_comm, BitVec.sub_add_cancel]

/-- A write that touches no descriptor leaves every descriptor's words. -/
theorem descWord_push_apart {s : State} {a : Word} {r : RingSel} {i k : Nat} (hL : s.arraysLegal)
    (ht : touchesDesc s a = false) (v : Word) (hi : i < (s.ring r).n) (hk : k < 4) :
    (pushWrite a (splitWord s.params.endian v) s).descWord r i k = s.descWord r i k := by
  refine descWord_same (.of_eq rfl rfl) rfl hk fun x hx => ?_
  rw [swByte_pushWrite, splitWord_length, if_neg]
  intro hc
  obtain ⟨j, hj, rfl⟩ := eq_add_of_inSpan hc
  have := holds_of_descAt_none (descAt_none ht j hj) r
  rw [hL.holds hi hx] at this
  cases this

/-- What the hardware owns depends on the marks, the arrays and the descriptors' words alone. -/
theorem hardwareOwns_of_words {s t : State} {x : Word} (hs : SameArrays s t) (hm : t.marked x = s.marked x)
    (hd : t.dmaImage x = s.dmaImage x)
    (hw : ∀ r i, i < (s.ring r).n → ∀ k < 4, t.descWord r i k = s.descWord r i k) (h : t.hardwareOwns x) :
    s.hardwareOwns x := by
  rcases h with h | ⟨r, i, ha, hi, ho, hb⟩
  · exact .inl (hm ▸ h)
  · rw [(hs r).2.1] at hi
    rw [← descAddresses_iff, hd] at hb
    obtain ⟨ho', hb'⟩ := owned_of_words (hw r i hi) ho hb
    exact .inr ⟨r, i, (hs r).1 ▸ ha, hi, ho', descAddresses_iff.1 hb'⟩

theorem pushWrite_dmaImage (a : Word) (bs : List Byte) (s : State) (x : Word) :
    (pushWrite a bs s).dmaImage x = s.dmaImage x := rfl

theorem pushWrite_marked (a : Word) (bs : List Byte) (s : State) (x : Word) :
    (pushWrite a bs s).marked x = s.marked x := rfl

/-- A write that touches no descriptor makes no byte the hardware's. -/
theorem hardwareOwns_push_apart {s : State} {a : Word} (hL : s.arraysLegal) (ht : touchesDesc s a = false) (v : Word)
    {x : Word} (h : (pushWrite a (splitWord s.params.endian v) s).hardwareOwns x) : s.hardwareOwns x :=
  hardwareOwns_of_words (t := pushWrite a (splitWord s.params.endian v) s) (.of_eq rfl rfl)
    (pushWrite_marked _ _ s x) (pushWrite_dmaImage _ _ s x) (fun _ _ hi _ hk => descWord_push_apart hL ht v hi hk) h

/-- A write to a word of no descriptor, none of whose bytes is the hardware's: software sees the word, the other bytes
stay, and the host reads the word back (R82, R90). -/
theorem hostMemWrite_readback {s : State} {a : Word} (hL : s.arraysLegal) (hin : s.outside a 4 = none)
    (ht : touchesDesc s a = false) (h : ∀ k < 4, ¬ s.hardwareOwns (a + natWord k)) (v : Word) :
    ∃ t, hostMemWrite a v s = .next t ∧ t = { s with wbuf := t.wbuf } ∧ swWord t a = v ∧
      (∀ k < 4, swByte t (a + natWord k) = (v >>> (8 * if s.params.endian = .le then k else 3 - k)).setWidth 8) ∧
      (∀ x : Word, inSpan a 4 x = false → swByte t x = swByte s x) ∧
      hostMemRead a t = .next { t with busData := v } := by
  have hw := swWord_pushWrite_self a v s
  have hfree : ∀ k < 4, ¬ (pushWrite a (splitWord s.params.endian v) s).hardwareOwns (a + natWord k) :=
    fun k hk => mt (hardwareOwns_push_apart hL ht v) (h k hk)
  refine ⟨pushWrite a (splitWord s.params.endian v) s, ?_, rfl, hw, fun k hk => ?_, fun x hx => ?_, ?_⟩
  · rw [hostMemWrite_apart hin ht, (faults_apart ht).1, deviceFault_none h]
    rfl
  · rw [swWord_byte _ a hk, hw]
    rfl
  · rw [swByte_pushWrite, splitWord_length, hx]
    rfl
  · have hin' : (pushWrite a (splitWord s.params.endian v) s).outside a 4 = none := hin
    have ht' : touchesDesc (pushWrite a (splitWord s.params.endian v) s) a = false := ht
    rw [hostMemRead_apart hin' ht', (faults_apart ht').2, deviceFault_none hfree, hw]
    rfl

/-- Making one entry visible performs its write and removes it (R90). -/
theorem drainOne_spec {s : State} {k : Nat} {e : Pending} (hm : s.memLegal) (he : s.wbuf[k]? = some e) :
    (drainOne k s).wbuf = s.wbuf.eraseIdx k ∧
      ∀ a : Word, memRead (drainOne k s).mem a.toNat =
        if inSpan e.addr e.bytes.length a then e.bytes.getD (a - e.addr).toNat 0 else memRead s.mem a.toNat := by
  rw [drainOne, he]
  exact ⟨rfl, fun a => memRead_memWriteBytes _ _ _ a hm⟩

/-- Settles O24: the fence and the drain by the laws of memory, the access by its check, and the word read back because
a write apart from the descriptors makes no byte the hardware's. -/
theorem hostBufferWrite : Obligations.HostBufferWrite := by
  refine ⟨fun s hm => ⟨fenced_descFence hm, descFence_memRead hm, fun k e he => drainOne_spec hm he⟩,
    fun s a k hk => swWord_byte s a hk, fun s a v hs hl hin ht => ⟨fun k hk h hj => ?_, fun h => ⟨?_, ?_⟩⟩⟩
  · obtain ⟨hw, hr⟩ := faults_apart ht
    rw [hostMemWrite_apart hin ht, hostMemRead_apart hin ht, hw, hr, deviceFault_first hk h hj, ← raise_of_sound hs]
    exact ⟨rfl, rfl⟩
  · rw [hostMemRead_apart hin ht, (faults_apart ht).2, deviceFault_none h]
    rfl
  · exact hostMemWrite_readback hl.arrays hin ht h v

/-! ### Words of a descriptor (R85, R91, R95, R169) -/

section

variable {s : State} {r : RingSel} {i k : Nat}

theorem descAt_word (hl : s.ringsLegal) (hi : i < (s.ring r).n) (hk : k < 4) :
    s.descAt (s.descAddr r i k) = some (r, i, 4 * k) := by
  have := descAt_desc hl hi hk (b := 0) (by decide)
  rwa [add_natWord_zero] at this

/-! Software's write of a word, by what stops it (R84, R91, R95). -/

theorem writeDesc_device {f : Fault} (hf : s.deviceFault (s.descAddr r i k) 4 = some f) (v : Word) :
    writeDesc r i k v s = raise f s := by
  simp only [writeDesc, hf]

theorem writeDesc_owned (hf : s.deviceFault (s.descAddr r i k) 4 = none) (ho : s.ownSeen r i = true) (v : Word) :
    writeDesc r i k v s = raise (.ownViolation (s.descAddr r i k)) s := by
  simp only [writeDesc, hf, ho, if_true]

theorem writeDesc_unfenced {v : Word} (hf : s.deviceFault (s.descAddr r i k) 4 = none) (ho : s.ownSeen r i = false)
    (hset : k = 0 ∧ bit v 31 = true) (hp : s.writePending r i) :
    writeDesc r i k v s = raise (.missingFence (s.descAddr r i k)) s := by
  obtain ⟨rfl, hv⟩ := hset
  simp [writeDesc, hf, ho, show ownOf v = true from hv, unfenced_iff.2 hp]

theorem writeDesc_publishes {v : Word} (hf : s.deviceFault (s.descAddr r i k) 4 = none) (ho : s.ownSeen r i = false)
    (hset : k = 0 ∧ bit v 31 = true) (hp : ¬ s.writePending r i) :
    writeDesc r i k v s = (pushWrite (s.descAddr r i k) (splitWord s.params.endian v) s).setPub r i true := by
  obtain ⟨rfl, hv⟩ := hset
  have hu : s.unfenced r i = false := Bool.eq_false_iff.2 (mt unfenced_iff.1 hp)
  simp [writeDesc, hf, ho, show ownOf v = true from hv, hu]

theorem writeDesc_plain {v : Word} (hf : s.deviceFault (s.descAddr r i k) 4 = none) (ho : s.ownSeen r i = false)
    (hset : ¬ (k = 0 ∧ bit v 31 = true)) :
    writeDesc r i k v s = pushWrite (s.descAddr r i k) (splitWord s.params.endian v) s := by
  have hc : (decide (k = 0) && ownOf v) = false := by
    rw [Bool.eq_false_iff]
    simpa [ownOf] using hset
  simp [writeDesc, hf, ho, hc]

theorem setPub_pushWrite (a : Word) (bs : List Byte) (b : Bool) :
    (pushWrite a bs s).setPub r i b = { s.setPub r i b with wbuf := (pushWrite a bs s).wbuf } := by
  cases r <;> rfl

/-- A write that nothing stops writes its word and no other byte, and publishes the slot where it sets OWN (R169). -/
theorem writeDesc_allowed {v : Word} (hi : i < 1024) (hk : k < 4) (hf : s.deviceFault (s.descAddr r i k) 4 = none)
    (ho : s.ownSeen r i = false) (hp : ¬ ((k = 0 ∧ bit v 31 = true) ∧ s.writePending r i)) :
    let t := writeDesc r i k v s
    sameBytesButDesc s t r i ∧ (∀ l < 4, t.descWord r i l = if l = k then v else s.descWord r i l) ∧
      ((k = 0 ∧ bit v 31 = true) → t = { s.setPub r i true with wbuf := t.wbuf }) ∧
      (¬ (k = 0 ∧ bit v 31 = true) → t = { s with wbuf := t.wbuf }) := by
  have hbytes := pushWrite_sameBytesButDesc s r (i := i) v hk
  have hwords := fun l (hl : l < 4) => descWord_push (s := s) (r := r) v hi hk hl
  by_cases hset : k = 0 ∧ bit v 31 = true
  · simp only [writeDesc_publishes hf ho hset fun h => hp ⟨hset, h⟩]
    refine ⟨fun a ha => ?_, fun l hl => ?_, fun _ => ?_, fun h => absurd hset h⟩
    · rw [setPub_swByte, hbytes a ha]
    · rw [setPub_descWord, hwords l hl]
    · rw [setPub_pushWrite]
  · simp only [writeDesc_plain hf ho hset]
    exact ⟨hbytes, hwords, fun h => absurd h hset, fun _ => rfl⟩

/-- What a read of byte `b` of word `k` checks: the hardware's bytes, and the owner of des1 to des3 (R84, R95). -/
theorem readForbidden_desc (hl : s.ringsLegal) (hi : i < (s.ring r).n) (hk : k < 4) {b : Nat} (hb : b < 4) :
    s.readForbidden (s.descAddr r i k + natWord b) =
      (s.deviceByte (s.descAddr r i k + natWord b) || decide (k ≠ 0) && s.ownSeen r i) := by
  have hword : decide (4 ≤ 4 * k + b) = decide (k ≠ 0) := decide_eq_decide.2 (by omega)
  simp only [State.readForbidden, descAt_desc hl hi hk hb, hword]

end

/-- Settles O25: the access is software's write of the word, and each clause is one of its cases. -/
theorem hostDescriptorWrite : Obligations.HostDescriptorWrite := by
  intro s r i k v hs hl hi hk a sets
  have hwrite : hostMemWrite a v s = .next (writeDesc r i k v s) :=
    hostMemWrite_desc (outside_desc hl hi hk) (descAt_word hl hi hk) v
  refine ⟨fun b hb h hj => ?_, fun hfree => ?_⟩
  · rw [hwrite, writeDesc_device (deviceFault_first hb h hj), raise_of_sound hs]
  · have hf : s.deviceFault (s.descAddr r i k) 4 = none := deviceFault_none hfree
    refine ⟨fun ho => ?_, fun ho hset hp => ?_, fun ho hp => ⟨_, hwrite, ?_⟩⟩
    · rw [hwrite, writeDesc_owned hf ho, raise_of_sound hs]
    · rw [hwrite, writeDesc_unfenced hf ho hset hp, raise_of_sound hs]
    · exact writeDesc_allowed (Nat.lt_of_lt_of_le hi (ring_lt hl r)) hk hf ho hp

/-- Settles O26: the read's check at the word's bytes is `readForbidden_desc`. -/
theorem hostDescriptorRead : Obligations.HostDescriptorRead := by
  intro s r i k hs hl hi hk a
  have hread := hostMemRead_desc (outside_desc hl hi hk) (descAt_word hl hi hk)
  have hcheck := fun b hb => readForbidden_desc (b := b) hl hi hk hb
  refine ⟨fun hk0 ho => ?_, fun hsoft => ?_⟩
  · have hf : s.readFault (s.descAddr r i k) 4 = some (.ownViolation (s.descAddr r i k + natWord 0)) :=
      ownViolation_first (by decide) (by rw [hcheck 0 (by decide)]; simp [hk0, ho]) fun j hj => absurd hj (by omega)
    rw [hread, hf, add_natWord_zero, ← raise_of_sound hs]
    rfl
  · have hf : s.readFault a 4 = s.deviceFault a 4 := check_eq_deviceFault fun b hb => by
      rw [hcheck b hb]
      rcases hsoft with rfl | ho
      · simp [a]
      · simp [a, ho]
    rw [hread, hf]
    refine ⟨fun b hb h hj => ?_, fun hfree => ?_⟩
    · rw [deviceFault_first hb h hj, ← raise_of_sound hs]
      rfl
    · rw [deviceFault_none hfree]
      rfl

/-! ### Mapping (R84) -/

/-- `map` marks the buffer's bytes and no other. -/
theorem mapBuf_marked (a : Word) (len : Nat) (s : State) (c : Word) :
    (mapBuf a len s).marked c = (s.marked c || inSpan a len c) := by
  rw [mapBuf_eq]
  simp [State.marked]

/-- Settles O35: each mark is cut to what `cutMark_span` and `cutMark_takes` say, and `map` is a fence, a region and
a mark. -/
theorem mapAndUnmap : Obligations.MapAndUnmap := by
  refine fun s a len hm => ⟨fun hlen => ⟨fun d => ?_, fun c d => ?_⟩, rfl, ?_, mapBuf_marked a len s⟩
  · exact unmap_any fun m hmem => cutMark_span a len m d (hlen m hmem)
  · exact unmap_any (p := Mark.takes c d) fun m hmem => cutMark_takes a len m c d (hlen m hmem)
  · exact ⟨descFence s, fenced_descFence hm, mapBuf_eq a len s⟩

end Sys2Proof.Machine
end

section
/-! PROOF. The DMA agents where they take no frame: DMA_TX_SUSPEND, the stop faults and the steps that are not enabled
(O50), and the frames DMA_RX does not take (O52). -/

namespace Sys2Proof.Machine

open Sys2Proof

/-! ### What enables a TX step (R330 to R335, R345 to R347) -/

section

variable {s : State}

theorem dmaAwake_of (hs : s.sound) (hp : bit s.csr.pmt 0 = false) : s.dmaAwake = true := by
  simp [State.dmaAwake, show s.fault = none from hs, hp]

theorem dmaAwake_false (hp : bit s.csr.pmt 0 = true) : s.dmaAwake = false := by
  simp [State.dmaAwake, hp]

theorem txRunning_of (hs : s.sound) (hp : bit s.csr.pmt 0 = false) (ht : s.dma.ts = .running) : s.txRunning = true := by
  simp [State.txRunning, dmaAwake_of hs hp, ht]

theorem txRunning_false (h : s.dma.ts ≠ .running ∨ bit s.csr.pmt 0 = true) : s.txRunning = false := by
  rcases h with h | h
  · simp [State.txRunning, h]
  · simp [State.txRunning, dmaAwake_false h]

theorem txEnabled_false (h : s.txRunning = false ∨ bit s.csr.macConfig 0 = false) : s.txEnabled = false := by
  rcases h with h | h <;> simp [State.txEnabled, h]

/-! ### The steps that send a frame (R332, R334, R335, log 13) -/

theorem withReadyChain_passes (h : s.txChain = .incomplete ∨ s.txChain = .malformed) (k : List Nat → State) :
    withReadyChain s k = .next s := by
  rcases h with h | h <;> simp [withReadyChain, h]

theorem withReadyChain_outside (hs : s.sound) {x : Word} (h : s.txChain = .outside x) (k : List Nat → State) :
    withReadyChain s k = .next { s with fault := some (.dmaOutOfBounds x) } := by
  simp only [withReadyChain, h, raise_of_sound hs]

/-- No step that sends a frame is enabled where DMA_TX may not send, or no frame is READY. -/
theorem sendingSteps_pass (h : s.txEnabled = false ∨ s.txChain = .incomplete ∨ s.txChain = .malformed) :
    ∀ i ∈ [Instr.dmaTxFrame, .dmaTxUnderflow, .dmaTxJabber], exec i s = .next s := by
  have hpass : ∀ k, s.txEnabled = true → withReadyChain s k = .next s := fun k he =>
    withReadyChain_passes (h.resolve_left (by simp [he])) k
  intro i hi
  simp only [List.mem_cons, List.not_mem_nil, or_false] at hi
  obtain rfl | rfl | rfl := hi
  all_goals
    cases he : s.txEnabled with
    | false => simp [exec, execDmaTxFrame, execDmaTxUnderflow, execDmaTxJabber, he]
    | true => simp [exec, execDmaTxFrame, execDmaTxUnderflow, execDmaTxJabber, he, hpass _ he]

/-- There is no underflow in store-and-forward mode (R334). -/
theorem underflow_passes (h : bit s.csr.dmaCtrl 2 = true) : exec .dmaTxUnderflow s = .next s := by
  simp [exec, execDmaTxUnderflow, h]

theorem sendingSteps_outside (hs : s.sound) (he : s.txEnabled = true) {x : Word} (h : s.txChain = .outside x) :
    exec .dmaTxFrame s = .next { s with fault := some (.dmaOutOfBounds x) } ∧
      exec .dmaTxJabber s = .next { s with fault := some (.dmaOutOfBounds x) } ∧
      (bit s.csr.dmaCtrl 2 = false → exec .dmaTxUnderflow s = .next { s with fault := some (.dmaOutOfBounds x) }) := by
  refine ⟨?_, ?_, fun hc => ?_⟩
  · simp [exec, execDmaTxFrame, he, withReadyChain_outside hs h]
  · simp [exec, execDmaTxJabber, he, withReadyChain_outside hs h]
  · simp [exec, execDmaTxUnderflow, he, hc, withReadyChain_outside hs h]

/-! ### DMA_TX_SUSPEND (R331) -/

theorem suspend_incomplete (hr : s.txRunning = true) (h : s.txChain = .incomplete) :
    exec .dmaTxSuspend s = .next { s with dma := { s.dma with ts := .suspended } } := by
  simp [exec, execDmaTxSuspend, hr, h, suspendTx]

theorem suspend_outside (hs : s.sound) (hr : s.txRunning = true) {x : Word} (h : s.txChain = .outside x) :
    exec .dmaTxSuspend s = .next { s with fault := some (.dmaOutOfBounds x) } := by
  simp [exec, execDmaTxSuspend, hr, h, raise_of_sound hs]

theorem suspend_passes (h : s.txRunning = false ∨ (∃ js, s.txChain = .ready js) ∨ s.txChain = .malformed) :
    exec .dmaTxSuspend s = .next s := by
  rcases h with h | ⟨js, h⟩ | h <;> simp [exec, execDmaTxSuspend, h]

/-- What DMA_TX_SUSPEND and the sending steps satisfy, the four steps that look at the TX chain do. -/
theorem chainSteps {P : Instr → Prop} (hsuspend : P .dmaTxSuspend)
    (hsend : ∀ i ∈ [Instr.dmaTxFrame, .dmaTxUnderflow, .dmaTxJabber], P i) :
    ∀ i ∈ [Instr.dmaTxFrame, .dmaTxSuspend, .dmaTxUnderflow, .dmaTxJabber], P i := by
  simp only [List.forall_mem_cons] at hsend ⊢
  obtain ⟨hframe, hunder, hjabber, hnil⟩ := hsend
  exact ⟨hframe, hsuspend, hunder, hjabber, hnil⟩

/-- None of them is enabled where DMA_TX is not RUNNING or the block is powered down (R330, R331). -/
theorem chainSteps_idle (h : s.dma.ts ≠ .running ∨ bit s.csr.pmt 0 = true) :
    ∀ i ∈ [Instr.dmaTxFrame, .dmaTxSuspend, .dmaTxUnderflow, .dmaTxJabber], exec i s = .next s :=
  have hr := txRunning_false h
  chainSteps (suspend_passes (.inl hr)) (sendingSteps_pass (.inl (txEnabled_false (.inl hr))))

/-! ### The stop faults (R345 to R347) -/

theorem txStopFault_stops (ha : s.dmaAwake = true) (h : s.dma.ts ≠ .stopped) : exec .dmaTxStopFault s = .next { s with
    csr := { s.csr with statusSrc := s.csr.statusSrc ||| 2, dmaCtrl := putBit s.csr.dmaCtrl 0 false }
    dma := { s.dma with ts := .stopped } } := by
  simp only [exec, execDmaTxStopFault, ha, h, ne_eq, not_false_eq_true, decide_true, Bool.and_self, if_true]
  rfl

theorem rxStopFault_stops (ha : s.dmaAwake = true) (h : s.dma.rs ≠ .stopped) : exec .dmaRxStopFault s = .next { s with
    csr := { s.csr with statusSrc := s.csr.statusSrc ||| 0x100, dmaCtrl := putBit s.csr.dmaCtrl 1 false }
    dma := { s.dma with rs := .stopped } } := by
  simp only [exec, execDmaRxStopFault, ha, h, ne_eq, not_false_eq_true, decide_true, Bool.and_self, if_true]
  rfl

theorem fatalBusError_stops (ha : s.dmaAwake = true) (h : s.dma.ts ≠ .stopped ∨ s.dma.rs ≠ .stopped) :
    exec .dmaFatalBusError s = .next { s with
      csr := { s.csr with
        statusSrc := s.csr.statusSrc ||| 0x2000
        dmaCtrl := if s.params.fbeStopsRx then putBit (putBit s.csr.dmaCtrl 0 false) 1 false
          else putBit s.csr.dmaCtrl 0 false }
      dma := { s.dma with ts := .stopped, rs := if s.params.fbeStopsRx then .stopped else s.dma.rs } } := by
  have hgo : (s.dmaAwake && (decide (s.dma.ts ≠ .stopped) || decide (s.dma.rs ≠ .stopped))) = true := by
    simpa [ha] using h
  simp only [exec, execDmaFatalBusError, hgo, if_true]
  cases s.params.fbeStopsRx <;> rfl

theorem txStopFault_passes (h : s.dmaAwake = false ∨ s.dma.ts = .stopped) : exec .dmaTxStopFault s = .next s := by
  rcases h with h | h <;> simp [exec, execDmaTxStopFault, h]

theorem rxStopFault_passes (h : s.dmaAwake = false ∨ s.dma.rs = .stopped) : exec .dmaRxStopFault s = .next s := by
  rcases h with h | h <;> simp [exec, execDmaRxStopFault, h]

theorem fatalBusError_passes (h : s.dmaAwake = false ∨ s.dma.ts = .stopped ∧ s.dma.rs = .stopped) :
    exec .dmaFatalBusError s = .next s := by
  rcases h with h | ⟨ht, hr⟩
  · simp [exec, execDmaFatalBusError, h]
  · simp [exec, execDmaFatalBusError, ht, hr]

/-- Powered down, no step of DMA_TX and no stop fault is enabled (R47, R330). -/
theorem poweredDown_passes (hp : bit s.csr.pmt 0 = true) :
    ∀ i ∈ [Instr.dmaTxFrame, .dmaTxSuspend, .dmaTxUnderflow, .dmaTxJabber, .dmaTxStopFault, .dmaRxStopFault,
      .dmaFatalBusError], exec i s = .next s := by
  have ha := dmaAwake_false hp
  refine List.forall_mem_append (l₁ := [Instr.dmaTxFrame, .dmaTxSuspend, .dmaTxUnderflow, .dmaTxJabber]).2
    ⟨chainSteps_idle (.inr hp), ?_⟩
  simp only [List.forall_mem_cons]
  exact ⟨txStopFault_passes (.inl ha), rxStopFault_passes (.inl ha), fatalBusError_passes (.inl ha),
    List.forall_mem_nil _⟩

end

/-- Settles O50: the chain read is what `txChain` answers, and each step is enabled by its own test. -/
theorem dmaTxWaitsAndStopFaults : Obligations.DmaTxWaitsAndStopFaults := by
  refine ⟨fun s js hs hp ht => ?_, fun s hs => ?_⟩
  · have hr := txRunning_of hs hp ht
    refine ⟨fun h => ?_, fun h => suspend_passes (.inr (.inl ⟨js, chain_ready h⟩)), fun h => ?_, fun x h => ?_,
      fun hte => sendingSteps_pass (.inl (txEnabled_false (.inr hte))), underflow_passes⟩
    · have hc := chain_part h
      exact ⟨suspend_incomplete hr hc, sendingSteps_pass (.inr (.inl hc))⟩
    · have hc := chain_malformed h
      exact chainSteps (suspend_passes (.inr (.inr hc))) (sendingSteps_pass (.inr (.inr hc)))
    · have hc := chain_outside h
      exact ⟨suspend_outside hs hr hc, fun hte => sendingSteps_outside hs (txEnabled_of hs hp ht hte) hc⟩
  · refine ⟨fun hp => ?_, fun h => chainSteps_idle (.inl h), fun h => txStopFault_passes (.inr h),
      fun h => rxStopFault_passes (.inr h), fun ht hr => fatalBusError_passes (.inr ⟨ht, hr⟩), poweredDown_passes⟩
    have ha := dmaAwake_of hs hp
    exact ⟨txStopFault_stops ha, rxStopFault_stops ha, fatalBusError_stops ha⟩

/-! ### The arrival of a frame (R340, R341, R344) -/

/-- The WIRE offers a frame of a legal length to a sound machine. -/
structure Offered (s : State) (f : WireFrame) : Prop where
  sound : s.sound
  arrival : s.arrival = some f

section

variable {s : State} {f : WireFrame}

theorem offered_of {rest : List WireFrame} (hs : s.sound) (hw : s.wire = f :: rest) (h1 : 1 ≤ f.bytes.length)
    (h2 : f.bytes.length ≤ 16379) : Offered s f :=
  ⟨hs, by simp only [State.arrival, hw]; exact if_pos ⟨h1, h2⟩⟩

theorem rxDeaf_iff : s.rxDeaf = true ↔
    bit s.csr.macConfig 1 = false ∨ s.dma.rs = .stopped ∨ bit s.csr.pmt 0 = true := by
  simp [State.rxDeaf, or_assoc]

theorem onArrival_deaf (h : Offered s f) (hd : s.rxDeaf = true) (own : Bool) (k : WireFrame → State → State) :
    onArrival s own k = .next (takeArrival s) := by
  simp [onArrival, show s.fault = none from h.sound, h.arrival, hd]

theorem onArrival_outside (h : Offered s f) (hd : s.rxDeaf = false) {x : Word}
    (hx : s.dmaOutside (s.dmaDesc .rx s.dma.rxIdx 0) 4 = some x) (own : Bool) (k : WireFrame → State → State) :
    onArrival s own k = .next { s with fault := some (.dmaOutOfBounds x) } := by
  simp [onArrival, show s.fault = none from h.sound, h.arrival, hd, hx, raise]

theorem onArrival_takes (h : Offered s f) (hd : s.rxDeaf = false) (hin : s.dmaInside .rx s.dma.rxIdx 0) {own : Bool}
    (ho : bit (s.dmaDescWord .rx s.dma.rxIdx 0) 31 = own) (k : WireFrame → State → State) :
    onArrival s own k = .next (settle s (k f (takeArrival s))) := by
  have ho' : ownOf (s.dmaWord (s.dmaDesc .rx s.dma.rxIdx 0)) = own := ho
  simp [onArrival, show s.fault = none from h.sound, h.arrival, hd,
    show s.dmaOutside (s.dmaDesc .rx s.dma.rxIdx 0) 4 = none from hin, ho']

/-- The step that needs the other OWN bit is not enabled (log 13). -/
theorem onArrival_passes (h : Offered s f) (hd : s.rxDeaf = false) (hin : s.dmaInside .rx s.dma.rxIdx 0) {own : Bool}
    (ho : bit (s.dmaDescWord .rx s.dma.rxIdx 0) 31 ≠ own) (k : WireFrame → State → State) :
    onArrival s own k = .next s := by
  have ho' : ownOf (s.dmaWord (s.dmaDesc .rx s.dma.rxIdx 0)) ≠ own := ho
  simp [onArrival, show s.fault = none from h.sound, h.arrival, hd,
    show s.dmaOutside (s.dmaDesc .rx s.dma.rxIdx 0) 4 = none from hin, ho']

/-! Each step of DMA_RX is the arrival of a frame. -/

theorem exec_dmaRxFrame (s : State) : exec .dmaRxFrame s = onArrival s true fun g u => receiveFrame u.dma.rxIdx g u := rfl

theorem exec_dmaRxNoDesc (s : State) : exec .dmaRxNoDesc s = onArrival s false fun _ u => dropFrame (latch .ru u) := rfl

theorem exec_dmaRxOverflow (s : State) : exec .dmaRxOverflow s = onArrival s true fun _ u => latch .ovf u := rfl

/-- What any arrival does, each step of DMA_RX does. -/
theorem receiveSteps {t : State} (h : ∀ own k, onArrival s own k = .next t) :
    ∀ i ∈ [Instr.dmaRxFrame, .dmaRxNoDesc, .dmaRxOverflow], exec i s = .next t := by
  simp only [List.forall_mem_cons, exec_dmaRxFrame, exec_dmaRxNoDesc, exec_dmaRxOverflow]
  exact ⟨h _ _, h _ _, h _ _, List.forall_mem_nil _⟩

theorem takeArrival_of {rest : List WireFrame} (hw : s.wire = f :: rest) : takeArrival s = { s with wire := rest } := by
  rw [takeArrival, hw]
  rfl

theorem noDesc_drops (h : Offered s f) (hd : s.rxDeaf = false) (hin : s.dmaInside .rx s.dma.rxIdx 0)
    (ho : bit (s.dmaDescWord .rx s.dma.rxIdx 0) 31 = false) :
    exec .dmaRxNoDesc s = .next (dropFrame (latch .ru (takeArrival s))) := by
  rw [exec_dmaRxNoDesc, onArrival_takes h hd hin ho]
  exact congrArg _ (settle_of_none h.sound)

theorem overflow_drops (h : Offered s f) (hd : s.rxDeaf = false) (hin : s.dmaInside .rx s.dma.rxIdx 0)
    (ho : bit (s.dmaDescWord .rx s.dma.rxIdx 0) 31 = true) :
    exec .dmaRxOverflow s = .next (latch .ovf (takeArrival s)) := by
  rw [exec_dmaRxOverflow, onArrival_takes h hd hin ho]
  exact congrArg _ (settle_of_none h.sound)

end

/-- Settles O52: each step is one arrival, which the receiver, the descriptor's place and its OWN bit decide. -/
theorem dmaRxLostFrames : Obligations.DmaRxLostFrames := by
  intro s f rest hs hw h1 h2 off own
  have h := offered_of hs hw h1 h2
  have hdeaf : ¬ off → s.rxDeaf = false := fun hoff => Bool.eq_false_iff.2 (mt rxDeaf_iff.1 hoff)
  refine ⟨fun hoff => ?_, fun hoff x hx => ?_, fun hoff hin => ⟨fun ho => ⟨?_, ?_⟩, fun ho => ⟨?_, ?_⟩⟩⟩
  · rw [← takeArrival_of hw]
    exact receiveSteps (onArrival_deaf h (rxDeaf_iff.2 hoff))
  · exact receiveSteps (onArrival_outside h (hdeaf hoff) hx)
  · rw [noDesc_drops h (hdeaf hoff) hin ho, takeArrival_of hw]
    rfl
  · have hpass := onArrival_passes (own := true) h (hdeaf hoff) hin (ne_of_eq_of_ne ho Bool.false_ne_true)
    simp only [List.forall_mem_cons, exec_dmaRxFrame, exec_dmaRxOverflow]
    exact ⟨hpass _, hpass _, List.forall_mem_nil _⟩
  · rw [overflow_drops h (hdeaf hoff) hin ho, takeArrival_of hw]
    rfl
  · rw [exec_dmaRxNoDesc, onArrival_passes h (hdeaf hoff) hin (ne_of_eq_of_ne ho Bool.false_ne_true.symm)]

end Sys2Proof.Machine
end

section
/-! PROOF. Command words (O1 to O4): what the decoder answers, against the table of R140. -/

namespace Sys2Proof.Machine

open Sys2Proof

/-! ### The word in memory (R82) -/

theorem decodeBytes_splitWord (e : Endian) (w : Word) (rest : List Byte) :
    decodeBytes e (splitWord e w ++ rest) = (decodeWord w).map (·, rest) := by
  have hjoin := joinBytes_splitWord e w
  cases e <;> exact congrArg (fun v => (decodeWord v).map (·, rest)) hjoin

/-- Settles O1: a word is joined from its bytes, and each arm of the decoder undoes its arm of the encoder. -/
theorem decodeOfEncode : Obligations.DecodeOfEncode := by
  intro i e rest hi
  have hd := decodeWord_encode hi
  refine ⟨hd, ?_⟩
  rw [decodeBytes_splitWord, hd]
  rfl

/-- Settles O3: each word is evaluated. -/
theorem specWordsDecode : Obligations.SpecWordsDecode :=
  ⟨rfl, rfl, rfl, rfl, rfl, rfl, rfl, rfl, rfl, rfl⟩

/-! ### The table of R140, by opcode -/

/-- Among rows with distinct keys, a row with a key is the one found by looking the key up. -/
theorem any_eq_lookup_any {α : Type} (rows : List (Nat × α)) (hrows : (rows.map Prod.fst).Nodup) (o : Nat)
    (p : α → Bool) : (rows.any fun row => row.1 == o && p row.2) = (rows.lookup o).any p := by
  induction rows with
  | nil => rfl
  | cons row rows ih =>
    obtain ⟨o', x⟩ := row
    obtain ⟨hnew, hrest⟩ := List.nodup_cons.1 hrows
    rw [List.any_cons, ih hrest]
    by_cases h : o = o'
    · subst h
      have hnone : rows.lookup o = none := List.lookup_eq_none_iff.2 fun row hrow =>
        bne_iff_ne.2 fun he => hnew (List.mem_map.2 ⟨row, hrow, he.symm⟩)
      simp [hnone]
    · simp [Ne.symm h, List.lookup_cons, beq_false_of_ne h]

/-- The fields of a word meet R141: the reserved bits are 0, the opcode has a row, and RING and IDX are what it
admits. -/
def legalFields (f : Fields) : Bool :=
  f.rsvd == 0 && (commandTable.lookup f.opc.toNat).any fun row => row.1.admits f.ring && row.2.admits f.idx.toNat

theorem legalCommandWord_eq (w : Word) : legalCommandWord w = legalFields (fieldsOf w) := by
  have hrsvd : ((fieldsOf w).rsvd.toNat == 0) = ((fieldsOf w).rsvd == 0) := by
    rw [Bool.eq_iff_iff, beq_iff_eq, beq_iff_eq]
    exact BitVec.toNat_eq (y := 0).symm
  rw [legalFields, ← any_eq_lookup_any commandTable (by decide)]
  simp only [legalCommandWord, field_opc, field_rsvd, field_idx, field_ring, hrsvd, Bool.and_assoc]

theorem admits_zero (n : BitVec 16) : IdxColumn.zero.admits n.toNat = decide (n = 0) :=
  decide_eq_decide.2 (BitVec.toNat_eq (y := 0)).symm

/-- The instruction is the command with this opcode, RING and IDX. -/
structure CommandOf (i : Instr) (opc : BitVec 8) (ring : BitVec 1) (n : BitVec 16) : Prop where
  isCommand : i.isCommand = true
  wellFormed : i.wellFormed = true
  word : encode i = commandWord opc ring n

/-! ### What the decoder answers (R139 to R141) -/

/-- What the decoder can answer for the fields of a word: the command of a legal word, an agent's step whose code is the
opcode, or the reason there is no instruction. -/
inductive DecodeCase (f : Fields) : Except DecodeError Instr → Prop where
  | command {i : Instr} (hl : legalFields f = true) (hi : CommandOf i f.opc (if f.ring then 1 else 0) f.idx) :
    DecodeCase f (.ok i)
  | agentStep {i : Instr} (hl : legalFields f = false) (hc : i.isCommand = false) (hw : i.wellFormed = true)
    (he : encode i = commandWord f.opc 0 0) : DecodeCase f (.ok i)
  | illegal {e : DecodeError} (hl : legalFields f = false) : DecodeCase f (.error e)

section

variable {f : Fields} {o : Nat}

theorem legalFields_noRow (hrow : commandTable.lookup f.opc.toNat = none) : legalFields f = false := by
  simp [legalFields, hrow]

theorem agentStep_case {i : Instr} (ho : f.opc.toNat = o) (hrow : commandTable.lookup o = none)
    (hc : i.isCommand = false) (hw : i.wellFormed = true) (he : encode i = commandWord (BitVec.ofNat 8 o) 0 0) :
    DecodeCase f (.ok i) := by
  subst ho
  rw [BitVec.ofNat_toNat, BitVec.setWidth_eq] at he
  exact .agentStep (legalFields_noRow hrow) hc hw he

/-! One lemma per form a row has: the decoder's arm for an opcode with such a row. -/

/-- With the opcode's row at hand, only RING and IDX are left to look at. -/
theorem row_case {c : RingColumn} {d : IdxColumn} {k : Except DecodeError Instr}
    (hrow : commandTable.lookup f.opc.toNat = some (c, d))
    (hk : legalFields f = (c.admits f.ring && d.admits f.idx.toNat) → DecodeCase f k) :
    DecodeCase f (whenReservedZero f k) := by
  by_cases hr : f.rsvd = 0
  · rw [whenReservedZero, if_pos hr]
    exact hk (by simp [legalFields, hr, hrow])
  · rw [whenReservedZero, if_neg hr]
    exact .illegal (by rw [legalFields, beq_false_of_ne hr, Bool.false_and])

/-- The opcode's command, where its RING and IDX are those of the fields. -/
theorem command_case {i : Instr} {ring : BitVec 1} {n : BitVec 16} (hl : legalFields f = true)
    (hi : CommandOf i (BitVec.ofNat 8 f.opc.toNat) ring n) (hring : ring = if f.ring then 1 else 0) (hn : n = f.idx) :
    DecodeCase f (.ok i) := by
  rw [BitVec.ofNat_toNat, BitVec.setWidth_eq, hring, hn] at hi
  exact .command hl hi

theorem ringBit_ringOf (b : Bool) : ringBit (ringOf b) = if b then 1 else 0 := by cases b <;> rfl

theorem decodeRing_case {mk : RingSel → Instr} (ho : f.opc.toNat = o)
    (hrow : commandTable.lookup o = some (.both, .zero))
    (hmk : ∀ r, CommandOf (mk r) (BitVec.ofNat 8 o) (ringBit r) 0) : DecodeCase f (decodeRing f mk) := by
  subst ho
  refine row_case hrow fun hl => ?_
  rw [admits_zero] at hl
  split
  case isTrue hx => exact command_case (by simp [hl, hx, RingColumn.admits]) (hmk _) (ringBit_ringOf _) hx.symm
  case isFalse hx => exact .illegal (by simpa [hl, RingColumn.admits] using hx)

theorem decodeRingIdx_case {mk : RingSel → BitVec 16 → Instr} (ho : f.opc.toNat = o)
    (hrow : commandTable.lookup o = some (.both, .operand))
    (hmk : ∀ r n, CommandOf (mk r n) (BitVec.ofNat 8 o) (ringBit r) n) : DecodeCase f (decodeRingIdx f mk) := by
  subst ho
  exact row_case hrow fun hl =>
    command_case (by simp [hl, RingColumn.admits, IdxColumn.admits]) (hmk _ _) (ringBit_ringOf _) rfl

theorem decodeZeroRingIdx_case {mk : BitVec 16 → Instr} {c : RingColumn} (ho : f.opc.toNat = o)
    (hrow : commandTable.lookup o = some (c, .operand)) (hc : ∀ b, c.admits b = !b)
    (hmk : ∀ n, CommandOf (mk n) (BitVec.ofNat 8 o) 0 n) : DecodeCase f (decodeZeroRingIdx f mk) := by
  subst ho
  refine row_case hrow fun hl => ?_
  split
  case isTrue hb => exact .illegal (by simp [hl, hc, hb])
  case isFalse hb =>
    exact command_case (by simp [hl, hc, hb, IdxColumn.admits]) (hmk _) (if_neg hb).symm rfl

theorem decodeRxIdx_case {mk : BitVec 16 → Instr} (ho : f.opc.toNat = o)
    (hrow : commandTable.lookup o = some (.rxOnly, .operand)) (hmk : ∀ n, CommandOf (mk n) (BitVec.ofNat 8 o) 1 n) :
    DecodeCase f (decodeRxIdx f mk) := by
  subst ho
  refine row_case hrow fun hl => ?_
  split
  case isTrue hb =>
    exact command_case (by simp [hl, hb, RingColumn.admits, IdxColumn.admits]) (hmk _) (if_pos hb).symm rfl
  case isFalse hb => exact .illegal (by simp [hl, hb, RingColumn.admits])

theorem decodePlain_case {i : Instr} (ho : f.opc.toNat = o) (hrow : commandTable.lookup o = some (.unused, .zero))
    (hi : CommandOf i (BitVec.ofNat 8 o) 0 0) : DecodeCase f (decodePlain f i) := by
  subst ho
  refine row_case hrow fun hl => ?_
  rw [admits_zero] at hl
  split
  case isTrue hb => exact .illegal (by simp [hl, hb, RingColumn.admits])
  case isFalse hb =>
    split
    case isTrue hx =>
      exact command_case (by simp [hl, hb, hx, RingColumn.admits]) hi (if_neg hb).symm hx.symm
    case isFalse hx => exact .illegal (by simpa [hl, hb, RingColumn.admits] using hx)

theorem decodeBounded_case {mk : BitVec 16 → Instr} {bound : Nat} {e : DecodeError} (ho : f.opc.toNat = o)
    (hrow : commandTable.lookup o = some (.unused, .upTo bound))
    (hmk : ∀ n, n.toNat ≤ bound → CommandOf (mk n) (BitVec.ofNat 8 o) 0 n) :
    DecodeCase f (decodeBounded f bound e mk) := by
  subst ho
  refine row_case hrow fun hl => ?_
  split
  case isTrue hb => exact .illegal (by simp [hl, hb, RingColumn.admits])
  case isFalse hb =>
    split
    case isTrue hx =>
      exact command_case (by simp [hl, hb, hx, RingColumn.admits, IdxColumn.admits]) (hmk _ hx) (if_neg hb).symm rfl
    case isFalse hx => exact .illegal (by simpa [hl, hb, RingColumn.admits, IdxColumn.admits] using hx)

end

/-- Each opcode's arm of the decoder is the arm for the form of its row. -/
theorem decodeFields_cases (f : Fields) : DecodeCase f (decodeFields f) := by
  unfold decodeFields
  split
  -- INIT_DESC_CHAIN, DMA_START, DMA_STOP, POLL_DEMAND, ALLOCATE, AVAIL
  case h_1 ho | h_14 ho | h_15 ho | h_20 ho | h_21 ho | h_25 ho =>
    exact decodeRing_case ho rfl fun _ => ⟨rfl, rfl, rfl⟩
  -- GET_OWN, SET_OWN
  case h_2 ho | h_3 ho => exact decodeRingIdx_case ho rfl fun _ _ => ⟨rfl, rfl, rfl⟩
  -- GET_TX_LEN, SET_WOL, SUBMIT, RECLAIM, POLL, SUSPEND
  case h_4 ho | h_13 ho | h_22 ho | h_23 ho | h_29 ho | h_36 ho =>
    exact decodeZeroRingIdx_case ho rfl (fun _ => rfl) fun _ => ⟨rfl, rfl, rfl⟩
  -- RX_STATUS, RX_COAL_ENABLE, RX_COAL_DISABLE, REFILL
  case h_5 ho | h_9 ho | h_10 ho | h_24 ho => exact decodeRxIdx_case ho rfl fun _ => ⟨rfl, rfl, rfl⟩
  -- SET_TUNABLE, READ_STAT
  case h_38 ho | h_41 ho => exact decodeBounded_case ho rfl fun _ hn => ⟨rfl, decide_eq_true hn, rfl⟩
  -- the codes of the DMA agents' steps
  case h_42 ho | h_43 ho | h_44 ho | h_45 ho | h_46 ho | h_47 ho | h_48 ho | h_49 ho | h_50 ho | h_51 ho =>
    exact agentStep_case ho rfl rfl rfl rfl
  -- an opcode that R140 does not list
  case h_52 =>
    refine .illegal (legalFields_noRow (List.lookup_eq_none_iff.2 ?_))
    simp only [commandTable, opsTableRows, pathRows, lifecycleRows, List.cons_append, List.nil_append, List.mem_cons,
      List.not_mem_nil, or_false, bne_iff_ne, ne_eq, forall_eq_or_imp, forall_eq]
    and_intros <;> assumption
  -- the commands with neither RING nor IDX
  all_goals exact decodePlain_case ‹_› rfl ⟨rfl, rfl, rfl⟩

theorem decodeWord_cases (w : Word) : DecodeCase (fieldsOf w) (decodeWord w) := decodeFields_cases (fieldsOf w)

/-- The word a legal command was decoded from is its own. -/
theorem CommandOf.encode_eq {w : Word} {i : Instr}
    (hi : CommandOf i (fieldsOf w).opc (if (fieldsOf w).ring then 1 else 0) (fieldsOf w).idx)
    (hr : (fieldsOf w).rsvd = 0) : encode i = w :=
  hi.word.trans (word_parts w _ rfl hr).symm

theorem legalFields_rsvd {f : Fields} (h : legalFields f = true) : f.rsvd = 0 :=
  eq_of_beq (Bool.and_eq_true_iff.1 h).1

theorem opcode_commandWord (o : BitVec 8) (r : BitVec 1) (n : BitVec 16) :
    bitsAt (commandWord o r n) 24 8 = o.toNat := by
  rw [field_opc, fieldsOf_commandWord]

/-- Settles O2: of the decoder's three answers, two are an instruction. -/
theorem decodedWordIsEncoded : Obligations.DecodedWordIsEncoded := by
  intro w i hd
  have hcase := decodeWord_cases w
  rw [hd] at hcase
  cases hcase with
  | command hl hi =>
    refine ⟨hi.wellFormed, fun _ => hi.encode_eq (legalFields_rsvd hl), fun hn => ?_⟩
    rw [hi.isCommand] at hn
    cases hn
  | agentStep hl hc hw he =>
    refine ⟨hw, fun hn => ?_, fun _ => ?_⟩
    · rw [hc] at hn
      cases hn
    · rw [he, opcode_commandWord, field_opc]

/-! ### Words written to CMD (R50, R141) -/

theorem issueCommand_illegal {w : Word} (h : ∀ i, decodeWord w = .ok i → i.isCommand = false) (s : State) :
    issueCommand w s = .next (illegalCommand s) := by
  unfold issueCommand
  split
  case h_1 i hd => rw [h i hd, if_neg Bool.false_ne_true]
  case h_2 => rfl

/-- Settles O4: the decoder answers with a command exactly where the word is legal. -/
theorem illegalWordsChangeOnlyResult : Obligations.IllegalWordsChangeOnlyResult := by
  intro w s
  rw [legalCommandWord_eq]
  have hcase := decodeWord_cases w
  refine ⟨fun hill => ?_, fun hleg => ?_⟩
  · rw [issueCommand_illegal fun i hd => ?_, illegalCommand, putBit_cmdErr]
    · rfl
    rw [hd] at hcase
    cases hcase with
    | command hl _ => rw [hill] at hl; cases hl
    | agentStep _ hc _ _ => exact hc
  · generalize hd : decodeWord w = x at hcase
    cases hcase with
    | command hl hi =>
      exact ⟨_, hi.isCommand, hi.wellFormed, hi.encode_eq (legalFields_rsvd hl),
        issueCommand_of_decode hd hi.isCommand s⟩
    | agentStep hl => rw [hleg] at hl; cases hl
    | illegal hl => rw [hleg] at hl; cases hl

end Sys2Proof.Machine
end

section
/-! PROOF. The descriptor words the block writes (O8), and the commands that answer ERROR without running (O15). -/

namespace Sys2Proof.Machine

open Sys2Proof

/-! ### Descriptor words (R122 to R128) -/

/-- Above its 13 bits a size holds no bit. -/
theorem bit_sizeField (n : Nat) {k : Nat} (hk : 13 ≤ k) : bit (natWord (n % 2 ^ 13)) k = false :=
  bit_natWord (by decide) (Nat.mod_lt _ (by decide)) hk

theorem bit_txDes1 (ic ls fs csum er : Bool) (n : Nat) {k : Nat} (hk : 13 ≤ k) : bit (txDes1 ic ls fs csum er n) k =
    ((ic && decide (31 = k)) || (ls && decide (30 = k)) || (fs && decide (29 = k)) || (csum && decide (28 = k)) ||
      (er && decide (27 = k))) := by
  simp only [txDes1, bit_or, bit_bitIf _ (show 31 < 32 by decide), bit_bitIf _ (show 30 < 32 by decide),
    bit_bitIf _ (show 29 < 32 by decide), bit_bitIf _ (show 28 < 32 by decide), bit_bitIf _ (show 27 < 32 by decide),
    bit_sizeField n hk, Bool.or_false]

theorem bit_rxDes1 (er dic : Bool) (n : Nat) {k : Nat} (hk : 13 ≤ k) :
    bit (rxDes1 er dic n) k = ((er && decide (27 = k)) || (dic && decide (26 = k))) := by
  simp only [rxDes1, bit_or, bit_bitIf _ (show 27 < 32 by decide), bit_bitIf _ (show 26 < 32 by decide),
    bit_sizeField n hk, Bool.or_false]

/-- The fields of an RX status word, bit by bit: FL above bit 16, the flags below it. -/
theorem bit_rxStatusWord (fl : Nat) (de ce cse csv : Bool) {k : Nat} (hk : k < 32) :
    bit (rxStatusWord fl de ce cse csv) k =
    ((decide (16 ≤ k) && bit (natWord (fl % 2 ^ 14)) (k - 16)) || ((de || ce) && decide (15 = k)) ||
      (de && decide (14 = k)) || decide (9 = k) || decide (8 = k) || (cse && decide (7 = k)) ||
      (ce && decide (1 = k)) || (csv && decide (0 = k))) := by
  simp only [rxStatusWord, bit_or, bit_shl16 hk, bit_bitIf _ (show 15 < 32 by decide),
    bit_bitIf _ (show 14 < 32 by decide), bit_oneBit (show 9 < 32 by decide), bit_oneBit (show 8 < 32 by decide),
    bit_bitIf _ (show 7 < 32 by decide), bit_bitIf _ (show 1 < 32 by decide), bit_bitIf _ (show 0 < 32 by decide)]

/-- Above FL an RX status word holds no bit. -/
theorem rxStatusWord_top (fl : Nat) (de ce cse csv : Bool) {k : Nat} (hlo : 30 ≤ k) (hk : k < 32) :
    bit (rxStatusWord fl de ce cse csv) k = false := by
  have hfl : bit (natWord (fl % 2 ^ 14)) (k - 16) = false :=
    bit_natWord (by decide) (Nat.mod_lt _ (by decide)) (by omega)
  have hflags : ∀ j < 30, j ≠ k := fun j hj => by omega
  rw [bit_rxStatusWord _ _ _ _ _ hk, hfl]
  simp [hflags]

/-- A field in which no flag falls reads 0. -/
theorem rxStatusWord_reserved (fl : Nat) (de ce cse csv : Bool) {a m : Nat} (ha : a + m ≤ 16)
    (hfree : ∀ k < m, a + k ∉ [15, 14, 9, 8, 7, 1, 0]) : bitsAt (rxStatusWord fl de ce cse csv) a m = 0 := by
  refine bitsAt_zero fun k hk => ?_
  have hno := hfree k hk
  simp only [List.mem_cons, List.not_mem_nil, or_false, not_or, eq_comm (a := a + k)] at hno
  rw [bit_rxStatusWord _ _ _ _ _ (by omega)]
  simp [hno, show ¬ 16 ≤ a + k by omega]

theorem rxStatusWord_length (fl : Nat) (de ce cse csv : Bool) :
    bitsAt (rxStatusWord fl de ce cse csv) 16 14 = fl % 2 ^ 14 := by
  refine bitsAt_natWord (Nat.mod_lt _ (by decide)) (by decide) fun k hk => ?_
  rw [bit_rxStatusWord _ _ _ _ _ (by omega), Nat.add_sub_cancel_left]
  have hflags : ∀ j < 16, j ≠ 16 + k := fun j hj => by omega
  simp [hflags]

/-- Settles O8: a word is the OR of its fields, so each of its bits is read off them. -/
theorem descriptorWords : Obligations.DescriptorWords := by
  refine ⟨fun ic ls fs csum er n hn => ?_, fun er dic n hn => ?_, fun de ce cse csv n hn => ?_⟩
  · obtain ⟨hlen, hbs2⟩ := txDes1_sizes ic ls fs csum er n
    rw [Nat.mod_eq_of_lt (by omega)] at hlen
    refine ⟨?_, ?_, ?_, ?_, ?_, ?_, hbs2, hlen⟩ <;> simp [bit_txDes1]
  · obtain ⟨hlen, hbs2⟩ := rxDes1_sizes er dic n
    rw [Nat.mod_eq_of_lt (by omega)] at hlen
    refine ⟨bitsAt_zero fun k hk => ?_, ?_, ?_, hbs2, hlen⟩
    · rw [bit_rxDes1 _ _ _ (by omega)]
      simp [show 27 ≠ 28 + k by omega, show 26 ≠ 28 + k by omega]
    · simp [bit_rxDes1]
    · simp [bit_rxDes1]
  · have hlen := rxStatusWord_length n de ce cse csv
    rw [Nat.mod_eq_of_lt (by omega)] at hlen
    have htop {k : Nat} := rxStatusWord_top n de ce cse csv (k := k)
    have hreserved {a m : Nat} := rxStatusWord_reserved n de ce cse csv (a := a) (m := m)
    refine ⟨htop (by decide) (by decide), htop (by decide) (by decide), hlen, ?_, ?_, hreserved (by decide) (by decide),
      ?_, ?_, ?_, hreserved (by decide) (by decide), ?_, ?_⟩ <;> simp [bit_rxStatusWord]

/-! ### Commands before ATTACH and slots out of range (R142, R143, R432) -/

section

variable {s : State}

theorem whenAttached_unattached (ha : s.dev.attached = false) (x : Ret) : whenAttached s x = failed s := by
  rw [whenAttached, ha]
  rfl

/-- Every command but ATTACH and POLL begins with a test that an unattached device fails. -/
theorem exec_unattached {i : Instr} (ha : s.dev.attached = false) (hi : i.isCommand = true)
    (hw : i.wellFormed = true) (hattach : i ≠ .attach) (hpoll : ∀ b, i ≠ .poll b) :
    exec i s = complete s (failed s) := by
  have hguard : ∀ x, whenAttached s x = failed s := whenAttached_unattached ha
  cases i with
  | attach => exact absurd rfl hattach
  | poll b => exact absurd rfl (hpoll b)
  | setTunable id | readStat id =>
    exact congrArg (complete s) ((if_neg (Nat.not_lt.2 (of_decide_eq_true hw))).trans (hguard _))
  | submit n | refill n | transmit => exact if_pos (by simp [ha])
  | txReclaim | txRecovery => exact congrArg (complete s) (if_pos (by simp [ha]))
  | watchdogExpire | openDev | closeDev | suspend _ | resume | setMtu | detach =>
    exact congrArg (complete s) (if_neg (by simp [ha]))
  | dmaTxFrame | dmaTxSuspend | dmaTxUnderflow | dmaTxJabber | dmaTxStopFault | dmaRxFrame | dmaRxNoDesc | dmaRxOverflow
  | dmaRxStopFault | dmaFatalBusError => cases hi
  | _ => exact congrArg (complete s) (hguard _)

/-- POLL answers 0 where the interface is down (R300). -/
theorem exec_poll_down (b : BitVec 16) (hdown : s.dev.ifup = false) :
    exec (.poll b) s = complete s { st := s, res := 0 } :=
  congrArg (complete s) (if_pos (by simp [State.operational, hdown]))

theorem whenAttached_failed : whenAttached s (failed s) = failed s := ite_self _

theorem withSlot_outOfRange {r : RingSel} {i : BitVec 16} (h : (s.ring r).n ≤ i.toNat) (f : Nat → Ret) :
    withSlot r i s f = failed s :=
  if_neg (Nat.not_lt.2 h)

/-- A command on a slot that its ring does not have. -/
theorem slot_outOfRange {r : RingSel} {i : BitVec 16} (h : (s.ring r).n ≤ i.toNat) (f : Nat → Ret) :
    complete s (whenAttached s (withSlot r i s f)) = complete s (failed s) := by
  rw [withSlot_outOfRange h, whenAttached_failed]

theorem exec_submit_outOfRange {i : BitVec 16} (h : s.tx.n ≤ i.toNat) : exec (.submit i) s = complete s (failed s) :=
  if_pos (by simp [slotIdx, Nat.not_lt.2 h])

theorem exec_refill_outOfRange {i : BitVec 16} (h : s.rx.n ≤ i.toNat) : exec (.refill i) s = complete s (failed s) :=
  if_pos (by simp [slotIdx, Nat.not_lt.2 h])

end

/-- Settles O15: each command's own test comes before anything it does. -/
theorem commandsThatMayNotRun : Obligations.CommandsThatMayNotRun := by
  refine ⟨fun i s hs hsession ha hi hw hattach => ?_, fun s i c r hs hr hc => ?_⟩
  · split
    case h_1 b =>
      have hdown : s.dev.ifup = false := Bool.eq_false_iff.2 fun hup => by
        rw [hsession.attached (.inl hup)] at ha
        cases ha
      exact (exec_poll_down b hdown).trans (complete_of_none (x := { st := s, res := 0 }) hs)
    case h_2 hpoll => rw [exec_unattached ha hi hw hattach hpoll, complete_failed hs]
  · rw [← complete_failed hs]
    obtain rfl | rfl | ⟨rfl, rfl | rfl | rfl⟩ | ⟨rfl, rfl | rfl | rfl | rfl⟩ := hc
    case inr.inr.inl.inr.inl => exact exec_submit_outOfRange hr
    case inr.inr.inr.inr.inr.inr => exact exec_refill_outOfRange hr
    all_goals exact slot_outOfRange hr _

end Sys2Proof.Machine
end
section
/-! PROOF. The register commands of the operations table (O27 to O31). -/

namespace Sys2Proof.Machine

open Sys2Proof

/-! ### How a command of an attached device ends (R12, R143) -/

theorem attached_done {s t : State} {x : Ret} (ha : s.dev.attached = true) (hx : x = done t) (ht : t.fault = none) :
    complete s (whenAttached s x) = .next { t with csr := { t.csr with result := 0 } } := by
  rw [whenAttached_of ha, hx, complete_done ht]

theorem attached_failed {s : State} {x : Ret} (hs : s.sound) (ha : s.dev.attached = true) (hx : x = failed s) :
    complete s (whenAttached s x) = .next { s with csr := { s.csr with result := 2 } } := by
  rw [whenAttached_of ha, hx, complete_failed hs]

/-- A command that only answers writes RESULT, and RESULT1 where it gives one. -/
theorem attached_answer {s : State} {x : Ret} {v : Word} {w : Option Word} (hs : s.sound) (ha : s.dev.attached = true)
    (hx : x = { st := s, res := v, res1 := w }) :
    complete s (whenAttached s x) =
      .next { s with csr := { s.csr with result := v, result1 := w.getD s.csr.result1 } } := by
  rw [whenAttached_of ha, hx]
  exact complete_of_none (x := { st := s, res := v, res1 := w }) hs

/-! ### SET_MAC_ADDR, SET_FILTER and SET_WOL (R176, R177, R182) -/

theorem and_and_self (v m : Word) : v &&& m &&& m = v &&& m := by
  rw [BitVec.and_assoc, BitVec.and_self]

theorem storeMacAddrHi_masked (v : Word) (s : State) : storeMacAddrHi (v &&& 0xFFFF) s = storeMacAddrHi v s := by
  rw [storeMacAddrHi, and_and_self]
  rfl

theorem storeFilter_masked (v : Word) (s : State) : storeFilter (v &&& 7) s = storeFilter v s := by
  rw [storeFilter, and_and_self]
  rfl

/-- The PMT word that SET_WOL writes (R182). -/
def wolWord (c : Word) (mode : BitVec 16) : Word := putBit (putBit c 1 (mode.getLsbD 0)) 2 (mode.getLsbD 1)

theorem bit_wolWord (c : Word) (mode : BitVec 16) (k : Nat) :
    bit (wolWord c mode) k = if 2 = k then mode.getLsbD 1 else if 1 = k then mode.getLsbD 0 else bit c k := by
  rw [wolWord, bit_putBit _ (by decide), bit_putBit _ (by decide)]

theorem exec_setWol {s : State} {mode : BitVec 16} (hs : s.sound) (ha : s.dev.attached = true) (h : mode.toNat < 4) :
    exec (.setWol mode) s =
      .next { descFence s with csr := { s.csr with pmt := wolWord s.csr.pmt mode &&& 7, result := 0 } } :=
  have hlegal : ¬ mode.toNat / 4 ≠ 0 := by omega
  attached_done ha (if_neg hlegal) hs

theorem exec_setWol_failed {s : State} {mode : BitVec 16} (hs : s.sound) (ha : s.dev.attached = true)
    (h : 4 ≤ mode.toNat) : exec (.setWol mode) s = .next { s with csr := { s.csr with result := 2 } } :=
  have hillegal : mode.toNat / 4 ≠ 0 := by omega
  attached_failed hs ha (if_pos hillegal)

/-- Settles O27: each command is a fence and its registers' stores, whose masks keep what was masked already. -/
theorem filterAndWakeCommands : Obligations.FilterAndWakeCommands := by
  refine ⟨fun s hs hm ha => ⟨descFence s, fenced_descFence hm, ?_, ?_⟩,
    fun s mode hs hm _ ha => ⟨fun h => ?_, exec_setWol_failed hs ha⟩⟩
  · exact attached_done ha (congrArg done (storeMacAddrHi_masked _ _)) hs
  · exact attached_done ha (congrArg (done ∘ storeHashHi _ ∘ storeHashLo _) (storeFilter_masked _ _)) hs
  · refine ⟨descFence s, _, fenced_descFence hm, exec_setWol hs ha h, ?_, ?_, ?_, and_disjoint _ (by decide)⟩
    all_goals
      rw [bit_and, bit_wolWord]
      exact Bool.and_true _

/-! ### READ_IRQ_STATUS, CLEAR_IRQ_STATUS, IRQ_ENABLE and IRQ_DISABLE (R180, R181, R185, R187) -/

/-- A word of implemented enables is stored as it is written (R39). -/
theorem wrIer_legal {v : Word} (h : v &&& ~~~ierMask = 0) (s : State) :
    wrIer v s = { descFence s with csr := { s.csr with dmaIer := v } } := by
  rw [wrIer, storeIer, and_of_legal h]
  rfl

/-- Settles O28: the read writes no register; each write is a fence and its register's store, and DMA_IER's mask takes
nothing from bits that are implemented. -/
theorem interruptCommands : Obligations.InterruptCommands := by
  intro s hs hm hr ha
  have hset : (s.csr.dmaIer ||| (s.csr.arg0 &&& ierMask)) &&& ~~~ierMask = 0 :=
    or_and_zero hr.csr.enables (and_disjoint _ (by decide))
  have hclear : s.csr.dmaIer &&& ~~~s.csr.arg0 &&& ~~~ierMask = 0 := and_and_zero _ hr.csr.enables
  exact ⟨descFence s, fenced_descFence hm, attached_answer hs ha rfl, attached_done ha rfl hs,
    attached_done ha (congrArg done (wrIer_legal hset s)) hs, attached_done ha (congrArg done (wrIer_legal hclear s)) hs⟩

/-! ### DMA_START, DMA_STOP and POLL_DEMAND (R183, R184, R189) -/

/-- Settles O29: `dmaStart` and `dmaStop` as one update each, and the poll demand as a fence and its store. -/
theorem dmaProcessCommands : Obligations.DmaProcessCommands := by
  refine ⟨fun s hs hm hr ha => ⟨descFence s, fenced_descFence hm, ?_, ?_, ?_, ?_⟩,
    fun s hs hm ha => ⟨descFence s, fenced_descFence hm, attached_done ha rfl hs, attached_done ha rfl hs⟩⟩
  · exact attached_done ha (congrArg done (dmaStart_tx_eq hr)) hs
  · exact attached_done ha (congrArg done (dmaStart_rx_eq hr)) hs
  · exact attached_done ha (congrArg done (dmaStop_tx_eq hr)) hs
  · exact attached_done ha (congrArg done (dmaStop_rx_eq hr)) hs

/-! ### DMA_MODE (R175) -/

/-- The word that DMA_MODE writes to DMA_CTRL: the start bits are kept, CMD_ERR is written 0 (R37, R175). -/
def modeWord (c pbl : Word) (tsf rsf : Bool) : Word :=
  putBit ((c &&& (0x8000_0003 : Word)) ||| bitIf tsf 2 ||| bitIf rsf 3 ||| natWord (bitsAt pbl 0 6) <<< 8) 31 false

theorem bit_modeWord (c pbl : Word) (tsf rsf : Bool) {k : Nat} (hk : k < 31) :
    bit (modeWord c pbl tsf rsf) k =
      (bit c k && bit (0x8000_0003 : Word) k || tsf && decide (2 = k) || rsf && decide (3 = k) ||
        bit (natWord (bitsAt pbl 0 6) <<< 8) k) := by
  rw [modeWord, bit_putBit _ (by decide), if_neg (by omega), bit_or, bit_or, bit_or, bit_and, bit_bitIf _ (by decide),
    bit_bitIf _ (by decide)]

/-- The low four bits of DMA_MODE's word: the start bits and the two store-and-forward bits. -/
theorem bit_modeWord_low (c pbl : Word) (tsf rsf : Bool) {k : Nat} (hk : k < 4) :
    bit (modeWord c pbl tsf rsf) k = if k < 2 then bit c k else if k = 2 then tsf else rsf := by
  have hmask : bit (0x8000_0003 : Word) k = decide (k < 2) := by interval_cases k <;> rfl
  have hfield : bit (natWord (bitsAt pbl 0 6) <<< 8) k = false :=
    bit_field_out (Nat.mod_lt _ (by decide)) (.inl (by omega))
  rw [bit_modeWord _ _ _ _ (by omega), hmask, hfield]
  interval_cases k <;> simp

theorem bitsAt_modeWord_pbl (c pbl : Word) (tsf rsf : Bool) : bitsAt (modeWord c pbl tsf rsf) 8 6 = bitsAt pbl 0 6 := by
  have hmask : ∀ k < 6, bit (0x8000_0003 : Word) (8 + k) = false := by decide
  refine bitsAt_eq_of fun k hk => ?_
  rw [bit_modeWord _ _ _ _ (by omega), hmask k hk, bit_field 0 (by omega) (by omega)]
  simp [show 2 ≠ 8 + k by omega, show 3 ≠ 8 + k by omega]

/-- DMA_MODE writes the start bits as they are, so both processes stay (R52, R53). -/
theorem storeDmaCtrl_modeWord (pbl : Word) (tsf rsf : Bool) (s : State) :
    storeDmaCtrl (modeWord s.csr.dmaCtrl pbl tsf rsf) s =
      { s with csr := { s.csr with dmaCtrl := legalDmaCtrl s.csr.dmaCtrl (modeWord s.csr.dmaCtrl pbl tsf rsf) } } := by
  have hst : bit (modeWord s.csr.dmaCtrl pbl tsf rsf) 0 = bit s.csr.dmaCtrl 0 := bit_modeWord_low _ _ _ _ (by decide)
  have hsr : bit (modeWord s.csr.dmaCtrl pbl tsf rsf) 1 = bit s.csr.dmaCtrl 1 := bit_modeWord_low _ _ _ _ (by decide)
  simp only [storeDmaCtrl, hst, hsr, procAfter_same]

theorem dmaMode_eq (pbl : Word) (tsf rsf : Bool) (tc : Word) (s : State) :
    dmaMode pbl tsf rsf tc s = { descFence s with
      csr := { s.csr with
        dmaCtrl := legalDmaCtrl s.csr.dmaCtrl (modeWord s.csr.dmaCtrl pbl tsf rsf), dmaTxThresh := legalThresh tc } } :=
  congrArg (wrThresh tc) (storeDmaCtrl_modeWord pbl tsf rsf (descFence s))

/-- Settles O30: DMA_CTRL takes `legalDmaCtrl` of `modeWord`, whose start bits are the register's own. -/
theorem dmaModeCommand : Obligations.DmaModeCommand := by
  intro s hs hm _ ha
  let w := modeWord s.csr.dmaCtrl s.csr.arg0 (bit s.csr.arg1 0) (bit s.csr.arg1 1)
  have hlow : ∀ k < 4, bit (legalDmaCtrl s.csr.dmaCtrl w) k =
      if k < 2 then bit s.csr.dmaCtrl k else if k = 2 then bit s.csr.arg1 0 else bit s.csr.arg1 1 := fun k hk => by
    rw [bit_legalDmaCtrl _ _ (by omega), if_pos hk, bit_modeWord_low _ _ _ _ hk]
  refine ⟨descFence s, legalDmaCtrl s.csr.dmaCtrl w, fenced_descFence hm, ?_, hlow 0 (by decide), hlow 1 (by decide), ?_,
    hlow 2 (by decide), hlow 3 (by decide), (legalDmaCtrl_spec _ w).1, ?_⟩
  · exact attached_done ha (congrArg done (dmaMode_eq _ _ _ _ s)) hs
  · have hclear : bit w 31 = false := bit_putBit _ (by decide) 31 false
    rw [bit_legalDmaCtrl _ _ (by decide), hclear]
    exact Bool.and_true _
  · rw [legalDmaCtrl_pbl, bitsAt_modeWord_pbl]

/-! ### ADJUST_LINK and READ_LINK (R186, R188) -/

/-- The word that ADJUST_LINK writes to MAC_CONFIG for a link that is up: DM, FES and, on a GMAC, PS (R44, R186). -/
def linkWord (v : Variant) (sp : Speed) (full : Bool) (c : Word) : Word :=
  putBit (match v with | .gmac => putBit (putBit c 2 full) 4 (sp ≠ .s1000) | .mac100 => putBit c 2 full) 3 (sp = .s100)

theorem bit_linkWord (v : Variant) (sp : Speed) (full : Bool) (c : Word) (k : Nat) :
    bit (linkWord v sp full c) k =
      if k = 2 then full
      else if k = 3 then decide (sp = .s100)
      else if k = 4 ∧ v = .gmac then decide (sp ≠ .s1000)
      else bit c k := by
  have hput := fun (w : Word) (b : Bool) (j : Nat) (hj : j < 32) => bit_putBit w hj k b
  cases v
  all_goals
    simp only [linkWord, hput _ _ 3 (by decide), hput _ _ 2 (by decide), hput _ _ 4 (by decide), eq_comm (a := k)]
    grind

/-- MAC_CONFIG takes ADJUST_LINK's word as it is written (R44). -/
theorem legalMacConfig_linkWord {s : State} (hr : s.regsLegal) (sp : Speed) (full : Bool) {k : Nat} (hk : k < 32) :
    bit (legalMacConfig s.params (linkWord s.params.variant sp full s.csr.macConfig)) k =
      bit (linkWord s.params.variant sp full s.csr.macConfig) k := by
  have hsame : ∀ j, ¬ j < 4 → (s.params.variant = .gmac → j ≠ 4) →
      bit (linkWord s.params.variant sp full s.csr.macConfig) j = bit s.csr.macConfig j := fun j hj hps => by
    rw [bit_linkWord, if_neg (by omega), if_neg (by omega), if_neg fun h => hps h.2 h.1]
  rw [legalMacConfig_self hr.csr.macConfig hr.csr.portSelect hr.csr.offload (fun j _ => hsame j) k hk]
  split
  · rfl
  · next h => exact (hsame k (by omega) fun hg h4 => h (.inr ⟨h4, hg⟩)).symm

theorem speedOfArg_none {v : Variant} {a : Word} (h : ¬ (a = 10 ∨ a = 100 ∨ a = 1000 ∧ v = .gmac)) :
    speedOfArg v a = none := by
  simp only [not_or] at h
  obtain ⟨h10, h100, h1000⟩ := h
  rw [speedOfArg, if_neg h10, if_neg h100, if_neg h1000]

theorem adjustLink_unsupported {s : State} {a : Word} (h : speedOfArg s.params.variant a = none) (full : Bool) :
    adjustLink true a full s = failed s := by
  simp [adjustLink, h]

theorem adjustLink_up {s : State} {a : Word} {sp : Speed} (h : speedOfArg s.params.variant a = some sp) (full : Bool) :
    adjustLink true a full s = done { descFence s with
      csr := { s.csr with
        macConfig := legalMacConfig s.params (linkWord s.params.variant sp full s.csr.macConfig) }
      link := { up := true, speed := sp, duplex := if full then .full else .half } } := by
  simp only [adjustLink, h]
  rfl

theorem exec_adjustLink {s : State} {up : Bool} (hup : bit s.csr.arg0 0 = up) :
    exec .adjustLink s = complete s (whenAttached s (adjustLink up s.csr.arg1 (bit s.csr.arg2 0) s)) := by
  rw [← hup]
  rfl

theorem exec_readLink {s : State} (hs : s.sound) (ha : s.dev.attached = true) :
    exec .readLink s = .next { s with csr := { s.csr with
      result := bitIf (s.link.duplex = .full) 1 ||| bitIf s.link.up 0, result1 := s.link.speed.word } } :=
  attached_answer hs ha rfl

/-- Settles O31: ADJUST_LINK by the link and the speed asked for, MAC_CONFIG by `bit_linkWord`; READ_LINK by the mirror's
values. -/
theorem linkCommands : Obligations.LinkCommands := by
  intro s hs hm hr ha
  refine ⟨fun hdown => ?_, fun hup hspeed => ?_, fun hup hspeed => ?_, ?_⟩
  · rw [exec_adjustLink hdown]
    exact attached_done ha rfl hs
  · rw [exec_adjustLink hup, attached_failed hs ha (adjustLink_unsupported (speedOfArg_none hspeed) _)]
  · obtain ⟨sp, hsp, hword, h100, h1000⟩ := speedOfArg_some hspeed
    refine ⟨descFence s, legalMacConfig s.params (linkWord s.params.variant sp (bit s.csr.arg2 0) s.csr.macConfig),
      sp, fenced_descFence hm, hword, ?_, fun k hk => ?_⟩
    · rw [exec_adjustLink hup]
      exact attached_done ha (adjustLink_up hsp _) hs
    · rw [legalMacConfig_linkWord hr _ _ hk, bit_linkWord]
      simp only [ne_eq, h100, h1000]
  · rw [exec_readLink hs ha]
    cases s.link.duplex <;> cases s.link.up <;> cases s.link.speed <;> rfl

end Sys2Proof.Machine
end

section
/-! PROOF. The operations table on descriptors (O32 to O34), and INIT_DESC_CHAIN (O36). -/

namespace Sys2Proof.Machine

open Sys2Proof

/-! ### Slot commands of an attached device (R142, R143) -/

theorem slotCommand_eq {s : State} {r : RingSel} {i : BitVec 16} (ha : s.dev.attached = true)
    (hi : i.toNat < (s.ring r).n) (f : Nat → Ret) :
    complete s (whenAttached s (withSlot r i s f)) = complete s (f i.toNat) := by
  rw [whenAttached_of ha, withSlot_of hi]

/-! ### GET_OWN, GET_TX_LEN, RX_STATUS and AVAIL (R127, R171, R173, R174, R224) -/

section

variable {s : State} {i : BitVec 16}

theorem exec_getOwn {r : RingSel} (hs : s.sound) (ha : s.dev.attached = true) (hi : i.toNat < (s.ring r).n)
    (hc : s.descClear r i.toNat) :
    exec (.getOwn r i) s = .next { s with
      csr := { s.csr with result := if s.ownSeen r i.toNat then 1 else 0 } } := by
  refine (slotCommand_eq ha hi _).trans ?_
  rw [readDesc_eq hc (by decide) (.inl rfl)]
  exact complete_of_none hs

theorem exec_getTxLen (hs : s.sound) (ha : s.dev.attached = true) (hi : i.toNat < s.tx.n)
    (hc : s.descClear .tx i.toNat) :
    exec (.getTxLen i) s = .next (if s.ownSeen .tx i.toNat then
      { s with csr := { s.csr with result := 2 } }
    else
      { s with csr := { s.csr with result := natWord (sizesOf (s.descWord .tx i.toNat 1)) } }) := by
  refine (slotCommand_eq (r := .tx) ha hi _).trans ?_
  rw [readDesc_eq hc (by decide) (.inl rfl)]
  by_cases ho : s.ownSeen .tx i.toNat = true
  · rw [if_pos ho, if_pos ho, complete_failed hs]
  · rw [if_neg ho, if_neg ho, readDesc_eq hc (by decide) (.inr (Bool.eq_false_iff.2 ho))]
    exact complete_of_none hs

theorem classify_code (ipc : Bool) (d : Word) :
    (classify ipc d).code =
      if bit d 15 ∨ bit d 9 = false ∨ bit d 8 = false then 3 else if bit d 7 then 2
      else if bit d 0 ∧ ipc then 1 else 0 := by
  simp only [classify, apply_ite RxClass.code, Bool.or_eq_true, Bool.not_eq_true', or_assoc, Bool.and_eq_true]
  rfl

theorem exec_rxStatus (hs : s.sound) (ha : s.dev.attached = true) (hi : i.toNat < s.rx.n)
    (hc : s.descClear .rx i.toNat) :
    exec (.rxStatus i) s = .next (if s.ownSeen .rx i.toNat ∨ (s.rxSlot i.toNat).pub = false then
      { s with csr := { s.csr with result := 2 } }
    else
      { s with csr := { s.csr with
        result := (classify s.ipc (s.descWord .rx i.toNat 0)).code
        result1 := natWord (flOf (s.descWord .rx i.toNat 0)) } }) := by
  refine (slotCommand_eq (r := .rx) ha hi _).trans ?_
  rw [readDesc_eq hc (by decide) (.inl rfl)]
  by_cases h : s.ownSeen .rx i.toNat = true ∨ (s.rxSlot i.toNat).pub = false
  · rw [if_pos h, if_pos (by simpa [State.pub] using h), complete_failed hs]
  · rw [if_neg h, if_neg (by simpa [State.pub] using h)]
    exact complete_of_none hs

theorem exec_avail (r : RingSel) (hs : s.sound) (ha : s.dev.attached = true) :
    exec (.avail r) s = .next (if (s.ring r).allocated then
      { s with csr := { s.csr with
        result := natWord (s.ring r).n - ((s.ring r).sub - (s.ring r).comp) - 1
        result1 := (s.ring r).sub - (s.ring r).comp } }
    else { s with csr := { s.csr with result := 2 } }) := by
  cases hg : (s.ring r).allocated with
  | true => exact attached_answer hs ha (if_pos hg)
  | false => exact attached_failed hs ha (if_neg (by simp [hg]))

end

/-- Settles O32: each query's checks find nothing in a clear descriptor, so it only answers. -/
theorem descriptorQueries : Obligations.DescriptorQueries := by
  refine fun s r i hs ha => ⟨exec_getOwn hs ha, exec_getTxLen hs ha, fun hi hc => ?_, exec_avail r hs ha⟩
  rw [exec_rxStatus hs ha hi hc, classify_code]
  rfl

/-! ### SET_OWN (R91, R169, R172, R441) -/

section

variable {s : State} {r : RingSel} {i : BitVec 16}

theorem exec_setOwn_unstaged (hs : s.sound) (ha : s.dev.attached = true) (hi : i.toNat < (s.ring r).n)
    (hst : s.staged r i.toNat = false) :
    exec (.setOwn r i) s = .next { s with csr := { s.csr with result := 2 } } := by
  refine (slotCommand_eq ha hi _).trans ?_
  rw [if_pos (by simp [hst]), complete_failed hs]

theorem exec_setOwn_staged (ha : s.dev.attached = true) (hi : i.toNat < (s.ring r).n)
    (hst : s.staged r i.toNat = true) (hc : s.descClear r i.toNat) :
    exec (.setOwn r i) s =
      complete s (if s.ownSeen r i.toNat then failed s else done (publish r i.toNat s)) := by
  refine (slotCommand_eq ha hi _).trans ?_
  rw [if_neg (by simp [hst]), readDesc_eq hc (by decide) (.inl rfl)]

/-- After a submission only its own write is pending (R91). -/
theorem publish_wbuf {i : Nat} (hm : s.memLegal) (hl : s.ringsLegal) (hi : i < (s.ring r).n) (hc : s.descClear r i)
    (ho : s.ownSeen r i = false) :
    (publish r i s).wbuf = [{ addr := s.descAddr r i 0, bytes := splitWord s.params.endian ownWord }] := by
  rw [publish_eq hm hc hl.arrays hi ho]
  cases r <;> rfl

end

/-- Settles O33: a slot that is not staged is not read; a staged one is owned already, or published. -/
theorem setOwnCommand : Obligations.SetOwnCommand := by
  intro s r i hs hm hl ha hi
  refine ⟨exec_setOwn_unstaged hs ha hi, fun hst hc => ⟨fun ho => ?_, fun ho => ?_⟩⟩
  · rw [exec_setOwn_staged ha hi hst hc, if_pos ho, complete_failed hs]
  · have hpub := publish_spec hm hl.arrays hi hc ho
    have hwbuf := publish_wbuf hm hl hi hc ho
    have hfault : (publish r i.toNat s).fault = none := by
      rw [hpub.rest]
      cases r <;> exact hs
    have hexec : exec (.setOwn r i) s =
        .next { publish r i.toNat s with csr := { (publish r i.toNat s).csr with result := 0 } } := by
      rw [exec_setOwn_staged ha hi hst hc, if_neg (by simp [ho]), complete_done hfault]
    refine ⟨_, hexec, hpub.bytes, hpub.words, hpub.memory, ?_⟩
    rw [hpub.rest, hwbuf]
    cases r <;> rfl

/-! ### RX_COAL_ENABLE and RX_COAL_DISABLE (R178, R179) -/

section

variable {s : State} {i : BitVec 16} {b : Bool}

theorem exec_rxCoal (ha : s.dev.attached = true) (hi : i.toNat < s.rx.n) :
    exec (if b then .rxCoalEnable i else .rxCoalDisable i) s = complete s (setDic i.toNat b s) := by
  cases b <;> exact slotCommand_eq (r := .rx) ha hi _

theorem setDic_owned {i : Nat} (hc : s.descClear .rx i) (ho : s.ownSeen .rx i = true) (b : Bool) :
    setDic i b s = failed s := by
  simp only [setDic, readDesc_eq hc (by decide) (.inl rfl), ho, if_true]

end

/-- Settles O34: DIC is bit 26 of the one word `setDic` writes. -/
theorem receiveCoalescingCommands : Obligations.ReceiveCoalescingCommands := by
  intro s i b hs _ hl ha hi hc
  have hb : i.toNat < 1024 := Nat.lt_of_lt_of_le hi (ring_lt hl .rx)
  rw [exec_rxCoal ha hi]
  refine ⟨fun ho => ?_, fun ho => ?_⟩
  · let v := putBit (s.descWord .rx i.toNat 1) 26 b
    have hwords := fun k (hk : k < 4) => descWord_push (s := s) (r := .rx) v hb (k := 1) (by decide) hk
    have hexec : complete s (setDic i.toNat b s) =
        .next { pushWrite (s.descAddr .rx i.toNat 1) (splitWord s.params.endian v) s with
          csr := { s.csr with result := 0 } } := by
      rw [setDic_eq hc ho]
      exact complete_done hs
    refine ⟨_, hexec, pushWrite_sameBytesButDesc s .rx v (by decide), fun k hk h1 => ?_, fun k _ => ?_, rfl⟩
    · exact (hwords k hk).trans (if_neg h1)
    · refine (congrArg (bit · k) ((hwords 1 (by decide)).trans (if_pos rfl))).trans ?_
      rw [bit_putBit _ (by decide)]
      exact if_congr eq_comm rfl rfl
  · rw [setDic_owned hc ho, complete_failed hs]

/-! ### INIT_DESC_CHAIN (R96, R125, R129, R170) -/

theorem chainEmptied.fault {s t : State} {r : RingSel} (h : chainEmptied s t r) : t.fault = s.fault := by
  rw [h.rest]

theorem initChain_failed {s : State} {r : RingSel} (h : (s.ring r).allocated = false ∨ s.proc r ≠ .stopped) :
    initChain r s = failed s :=
  if_pos (by simpa using h)

/-- Settles O36: the chain by `initChain_spec`; anything else fails its test. -/
theorem initDescChainCommand : Obligations.InitDescChainCommand := by
  refine fun s r hs hm hl ha => ⟨fun hg hp => ?_, fun h => ?_⟩
  · obtain ⟨t, heq, hempty⟩ := initChain_spec hm hl hg hp
    exact ⟨t, hempty, attached_done ha heq (hempty.fault.trans hs)⟩
  · exact attached_failed hs ha (initChain_failed h)

end Sys2Proof.Machine
end

section
/-! PROOF. Every step keeps the rings and the lifecycle flags legal, and all but a base register's write keeps the arrays in
place (O12). -/

namespace Sys2Proof.Machine

open Sys2Proof

/-! ### Commands (R32, R55, R220, R228) -/

theorem complete_legalKept {s t : State} {x : Ret} (h : complete s x = .next t) (hx : LegalKept s x.st) :
    LegalKept s t := by
  rw [complete_next h]
  exact finish_legalKept hx

theorem ite_legalKept {s : State} {c : Prop} [Decidable c] {x y : Ret} (hx : c → LegalKept s x.st)
    (hy : ¬ c → LegalKept s y.st) : LegalKept s (if c then x else y).st := by
  by_cases hc : c
  · rw [if_pos hc]
    exact hx hc
  · rw [if_neg hc]
    exact hy hc

/-- A command that begins with the `attached` check. -/
theorem attached_legalKept {s t : State} {x : Ret} (h : complete s (whenAttached s x) = .next t)
    (hx : LegalKept s x.st) : LegalKept s t :=
  complete_legalKept h (whenAttached_legalKept hx)

/-- A command that begins with the `attached` check and leaves the rings' software state. -/
theorem attached_sameRings {s t : State} {x : Ret} (h : complete s (whenAttached s x) = .next t)
    (hx : SameRings s x.st) : LegalKept s t :=
  attached_legalKept h hx.kept.legalKept

/-- A command on a slot. -/
theorem slot_legalKept {s t : State} {r : RingSel} {i : BitVec 16} {f : Nat → Ret}
    (h : complete s (whenAttached s (withSlot r i s f)) = .next t) (hf : ∀ k, RingsKept s (f k).st) : LegalKept s t :=
  attached_legalKept h (withSlot_legalKept fun k => (hf k).legalKept)

/-- A command that runs where its precondition holds and is an ERROR elsewhere. -/
theorem guarded_legalKept {s t : State} {c : Prop} [Decidable c] {x : Ret}
    (h : complete s (if c then x else failed s) = .next t) (hx : c → LegalKept s x.st) : LegalKept s t :=
  complete_legalKept h (ite_legalKept hx fun _ => .refl s)

theorem execSetOwn_legalKept {r : RingSel} {i : BitVec 16} {s t : State} (h : execSetOwn r i s = .next t) :
    LegalKept s t := by
  refine slot_legalKept h fun k => ?_
  dsimp only
  split
  · exact .refl s
  · split
    · exact (readDesc_rings r k 0 s).kept
    · exact ((readDesc_rings r k 0 s).trans (publish_rings r k _)).kept

theorem execGetTxLen_legalKept {i : BitVec 16} {s t : State} (h : execGetTxLen i s = .next t) : LegalKept s t := by
  refine slot_legalKept h fun k => ?_
  dsimp only
  split
  · exact (readDesc_rings .tx k 0 s).kept
  · exact ((readDesc_rings .tx k 0 s).trans (readDesc_rings .tx k 1 _)).kept

theorem execRxStatus_legalKept {i : BitVec 16} {s t : State} (h : execRxStatus i s = .next t) : LegalKept s t := by
  refine slot_legalKept h fun k => ?_
  dsimp only
  split <;> exact (readDesc_rings .rx k 0 s).kept

/-- ALLOCATE adds a ring that was not there, so the interface was down (R412). -/
theorem allocate_legalKept (r : RingSel) (n : Nat) (s : State) : LegalKept s (allocate r n s).st := by
  refine ⟨allocate_shape r n s, fun hs => ?_⟩
  obtain ⟨_, hsame⟩ | ⟨_, hfree, _⟩ := allocate_rings r n s
  · exact hsame.kept.session hs
  · have hdown : s.dev.ifup ≠ true := fun hup => by
      have hrings := hs.rings hup
      cases r
      · exact Bool.false_ne_true (hfree.symm.trans hrings.1)
      · exact Bool.false_ne_true (hfree.symm.trans hrings.2)
    have hdev := allocate_dev r n s
    exact ⟨by rw [hdev]; exact hs.attached, by rw [hdev]; exact fun hup => absurd hup hdown,
      by rw [hdev]; exact hs.shutdown⟩

theorem submitAt_kept (i : Nat) (cpu : Word) (len : Nat) (flags handle : Word) {s : State} (hfree : 1 ≤ s.tx.avail) :
    RingsKept s (submitAt i cpu len flags handle s) := by
  have h := submitAt_rings i cpu len flags handle s
  exact ⟨shapeKept_tx (fun hg => Ring.legal_submit (k := 1) hg hfree s.tx.coalCnt) h, by rw [h.tx], by rw [h.rx],
    by rw [h.dev], by rw [h.dev], by rw [h.dev], by rw [h.dev]⟩

theorem execSubmit_legalKept {i : BitVec 16} {s t : State} (h : execSubmit i s = .next t) : LegalKept s t := by
  simp only [execSubmit] at h
  split at h
  · exact complete_legalKept h (.refl s)
  · split at h
    · exact complete_legalKept h (countBusy_rings s).kept.legalKept
    · split at h
      · cases h
      · exact complete_legalKept h (submitAt_kept _ _ _ _ _ (by omega)).legalKept

theorem execRefill_legalKept {i : BitVec 16} {s t : State} (h : execRefill i s = .next t) : LegalKept s t := by
  simp only [execRefill] at h
  split at h
  · exact complete_legalKept h (.refl s)
  · split at h
    · cases h
    · exact complete_legalKept h
        (ite_legalKept (fun _ => (refillAlloc_kept _ s).legalKept) fun _ => (refillGiven_kept _ _ s).legalKept)

theorem transmitSegments_legalKept {s t : State} {k : Packet} {segs : List Segment}
    (h : transmitSegments s k segs = .next t) : LegalKept s t := by
  have hcsum := softwareCsum_rings k segs s
  simp only [transmitSegments] at h
  split at h
  · exact complete_legalKept h (rejectBusy_kept s).legalKept
  · split at h
    · cases h
    · have hroom : segs.length ≤ (softwareCsum k segs s).tx.avail := by rw [hcsum.tx]; omega
      exact complete_legalKept h (hcsum.kept.trans (sendSegments_kept k _ segs _ hroom)).legalKept

theorem execTransmit_legalKept {s t : State} (h : execTransmit s = .next t) : LegalKept s t := by
  simp only [execTransmit] at h
  split at h
  · exact complete_legalKept h (.refl s)
  · split at h
    · cases h
    · split at h
      · cases h
        exact (raise_rings _ s).kept.legalKept
      · split at h
        · exact complete_legalKept h (rejectRecord_rings s).kept.legalKept
        · exact transmitSegments_legalKept h

theorem openSession_legalKept (s : State) : LegalKept s (openSession s).st :=
  ⟨openSession_shape s, openSession_session⟩

/-- CLOSE clears `ifup` and leaves the other three flags (R420). -/
theorem closeRun_legalKept (s : State) : LegalKept s (closeRun s) :=
  have hdev := closeRun_dev s
  ⟨closeRun_shape s, fun hs =>
    ⟨by rw [hdev]; exact fun h => hs.attached (.inr (h.resolve_left Bool.false_ne_true)),
      by rw [hdev]; exact fun h => absurd h Bool.false_ne_true,
      by rw [hdev]; exact fun h => ⟨(hs.shutdown h).1, rfl⟩⟩⟩

/-- DETACH of a device that is neither up nor suspended (R432). -/
theorem detach_legalKept {s : State} (hdown : s.dev.ifup = false) (hawake : s.dev.suspended = false) :
    LegalKept s { s with dev := { s.dev with attached := false } } := by
  refine ⟨setDev_shape _ s, fun hs => ⟨fun h => ?_, hs.rings, hs.shutdown⟩⟩
  dsimp only at h
  rw [hdown, hawake] at h
  exact absurd h (by decide)

theorem execSetTunable_legalKept {id : BitVec 16} {s t : State} (h : execSetTunable id s = .next t) :
    LegalKept s t := by
  refine complete_legalKept h (ite_legalKept (fun _ => ?_) fun _ => whenAttached_legalKept ?_)
  · exact .of_same rfl rfl rfl rfl rfl
  · split <;> exact .of_same rfl rfl rfl rfl rfl

theorem command_legalKept {i : Instr} (hc : i.isCommand = true) {s t : State} (h : exec i s = .next t) :
    LegalKept s t := by
  cases i with
  | initDescChain r => exact attached_legalKept h (initChain_kept r s).legalKept
  | getOwn r n => exact slot_legalKept h fun k => (readDesc_rings r k 0 s).kept
  | setOwn r n => exact execSetOwn_legalKept h
  | getTxLen n => exact execGetTxLen_legalKept h
  | rxStatus n => exact execRxStatus_legalKept h
  | dmaMode => exact attached_sameRings h (dmaMode_rings _ _ _ _ s)
  | setMacAddr | setFilter => exact attached_legalKept h (.of_same rfl rfl rfl rfl rfl)
  | rxCoalEnable n => exact slot_legalKept h fun k => (setDic_rings k true s).kept
  | rxCoalDisable n => exact slot_legalKept h fun k => (setDic_rings k false s).kept
  | readIrqStatus => exact attached_sameRings h (.refl s)
  | clearIrqStatus => exact attached_sameRings h (wrStatus_rings _ s)
  | setWol mode =>
    exact attached_legalKept h (ite_legalKept (fun _ => .refl s) fun _ => (wrPmt_rings _ s).kept.legalKept)
  | dmaStart r => exact attached_sameRings h (dmaStart_rings r s)
  | dmaStop r => exact attached_sameRings h (dmaStop_rings r s)
  | irqEnable => exact attached_sameRings h (wrIer_rings _ s)
  | adjustLink => exact attached_sameRings h (adjustLink_rings _ _ _ s)
  | irqDisable => exact attached_sameRings h (wrIer_rings _ s)
  | readLink => exact attached_sameRings h (.refl s)
  | pollDemand r => exact attached_sameRings h (wrPoll_rings r s)
  | allocate r => exact attached_legalKept h (allocate_legalKept r _ s)
  | submit n => exact execSubmit_legalKept h
  | reclaim n => exact slot_legalKept h fun k => reclaimAt_kept k s
  | refill n => exact execRefill_legalKept h
  | avail r => exact attached_legalKept h (ite_legalKept (fun _ => .refl s) fun _ => .refl s)
  | transmit => exact execTransmit_legalKept h
  | txReclaim => exact complete_legalKept h (txReclaim_kept s).legalKept
  | watchdogExpire => exact guarded_legalKept h fun _ => (watchdogStep_kept s).legalKept
  | poll b => exact complete_legalKept h (pollRun_kept b.toNat s).legalKept
  | isr => exact attached_legalKept h (isrRun_kept s).legalKept
  | txRecovery => exact complete_legalKept h (txRecovery_kept s).legalKept
  | raiseTxThreshold => exact attached_sameRings h (raiseThreshold_rings s)
  | attach =>
    exact complete_legalKept h
      (ite_legalKept (fun _ => .refl s) fun _ => ⟨attachDev_shape s, fun _ => attachDev_session s⟩)
  | openDev => exact complete_legalKept h (openSession_legalKept s)
  | closeDev => exact guarded_legalKept h fun _ => closeRun_legalKept s
  | suspend wol =>
    refine guarded_legalKept h fun hc => ⟨suspendRun_shape _ s, fun hs => suspendRun_session _ hs ?_⟩
    simp only [Bool.and_eq_true] at hc
    exact hc.1.1.1
  | resume => exact guarded_legalKept h fun _ => ⟨resumeRun_shape s, resumeRun_session⟩
  | setTunable id => exact execSetTunable_legalKept h
  | setMtu => exact guarded_legalKept h fun _ => .of_same rfl rfl rfl rfl rfl
  | detach =>
    refine guarded_legalKept h fun hc => ?_
    simp only [Bool.and_eq_true, Bool.not_eq_true'] at hc
    exact detach_legalKept hc.1.2 hc.2
  | readStat id =>
    exact complete_legalKept h
      (ite_legalKept (fun _ => .of_same rfl rfl rfl rfl rfl) fun _ => whenAttached_legalKept (.refl s))
  | _ => cases hc

/-- Every instruction keeps the rings and the lifecycle flags legal (R55, R228). -/
theorem exec_legalKept {i : Instr} {s t : State} (h : exec i s = .next t) : LegalKept s t := by
  cases hc : i.isCommand with
  | true => exact command_legalKept hc h
  | false => exact (agent_legalKept i hc s t h).kept.legalKept

/-! ### Base registers (R32, R42, log 37) -/

/-- The rings and the lifecycle flags stay legal, and the same rings of the same sizes are allocated; their arrays may lie
elsewhere. -/
structure ArraysMoved (s t : State) : Prop where
  shaped : s.ringsShaped → t.ringsShaped
  session : s.sessionLegal → t.sessionLegal
  allocated : ∀ r, (t.ring r).allocated = (s.ring r).allocated
  size : ∀ r, (t.ring r).n = (s.ring r).n

/-- Where no allocated ring's array has moved, nothing has. -/
theorem ArraysMoved.legalKept {s t : State} (h : ArraysMoved s t)
    (hb : ∀ r, (s.ring r).allocated = true → (t.ring r).base = (s.ring r).base) : LegalKept s t :=
  ⟨.of_arrays h.shaped fun _ r hr =>
    have ha := (h.allocated r).symm.trans hr
    ⟨ha, h.size r, hb r ha⟩, h.session⟩

theorem SameRings.arraysMoved {s t u : State} (h : SameRings s t) (k : ArraysMoved t u) : ArraysMoved s u :=
  have hs := SameArrays.of_eq h.tx h.rx
  ⟨k.shaped ∘ h.shapeKept.shaped, k.session ∘ h.kept.session, fun r => (k.allocated r).trans (hs r).1,
    fun r => (k.size r).trans (hs r).2.1⟩

theorem ArraysMoved.refl (s : State) : ArraysMoved s s := ⟨id, id, fun _ => rfl, fun _ => rfl⟩

theorem ArraysMoved.sameRings {s t u : State} (h : ArraysMoved s t) (k : SameRings t u) : ArraysMoved s u :=
  have hs := SameArrays.of_eq k.tx k.rx
  ⟨k.shapeKept.shaped ∘ h.shaped, k.kept.session ∘ h.session, fun r => (hs r).1.trans (h.allocated r),
    fun r => (hs r).2.1.trans (h.size r)⟩

theorem setBase_arraysMoved (r : RingSel) (v : Word) (s : State) :
    ArraysMoved s (s.setRing r { s.ring r with base := v &&& 0xFFFF_FFF0 }) := by
  refine ⟨ringsShaped_base r v, fun h => ?_, fun q => ?_, fun q => ?_⟩
  · cases r <;> exact ⟨h.attached, h.rings, h.shutdown⟩
  · cases r <;> cases q <;> rfl
  · cases r <;> cases q <;> rfl

theorem storeCsr_arraysMoved {c : Csr} (hc : c = .txDescBase ∨ c = .rxDescBase) (v : Word) (s : State) :
    ArraysMoved s (storeCsr c v s) := by
  obtain h | ⟨r, h⟩ := storeCsr_base hc v s
  · exact (ArraysMoved.refl s).sameRings h
  · exact (setBase_arraysMoved r v s).sameRings h

/-- R36 gives each base register one offset. -/
theorem csrAt_base {off : BitVec 8} {c : Csr} (h : csrAt off.toNat = some c) (hc : c = .txDescBase ∨ c = .rxDescBase) :
    off = 0x10 ∨ off = 0x14 := by
  have hmap : ∀ p ∈ csrMap, p.2 = .txDescBase ∨ p.2 = .rxDescBase → p.1 = 0x10 ∨ p.1 = 0x14 := by decide
  obtain ⟨l, l', hl, _⟩ := List.lookup_eq_some_iff.1 h
  have hoff := hmap (off.toNat, c) (hl ▸ List.mem_append_right l List.mem_cons_self) hc
  exact hoff.imp (fun h => BitVec.eq_of_toNat_eq h) fun h => BitVec.eq_of_toNat_eq h

/-! ### One event (R55, R228) -/

theorem issueCommand_legalKept {w : Word} {s t : State} (h : issueCommand w s = .next t) : LegalKept s t := by
  unfold issueCommand at h
  split at h
  · split at h
    · exact exec_legalKept h
    · cases h
      exact (illegalCommand_stepKeeps s).legalKept
  · cases h
    exact (illegalCommand_stepKeeps s).legalKept

theorem dmaTurn_legalKept {w : Word} {s t : State} (h : dmaTurn w s = .next t) : LegalKept s t := by
  unfold dmaTurn at h
  split at h
  · split at h
    · cases h
      exact .refl s
    · exact exec_legalKept h
  · cases h
    exact .refl s

/-- A host write of a register: of a base register, or one that keeps the arrays in place. -/
theorem hostCsrWrite_legalKept {width : Nat} {off : BitVec 8} {v : Word} {s t : State}
    (h : hostCsrWrite width off v s = .next t) :
    LegalKept s t ∨ (off = 0x10 ∨ off = 0x14) ∧ ArraysMoved s t := by
  have hfence := descFence_rings s
  unfold hostCsrWrite at h
  split at h
  · cases h
    exact .inl (raise_rings _ s).kept.legalKept
  · split at h
    · exact .inl (hfence.kept.legalKept.trans (issueCommand_legalKept h))
    · rename_i c _ hat
      cases h
      by_cases hc : c = .txDescBase ∨ c = .rxDescBase
      · exact .inr ⟨csrAt_base hat hc, hfence.arraysMoved (storeCsr_arraysMoved hc v _)⟩
      · rw [not_or] at hc
        exact .inl (hfence.trans (storeCsr_rings hc.1 hc.2 v _)).kept.legalKept
    · cases h
      exact .inl hfence.kept.legalKept

theorem hostCsrRead_rings {width : Nat} {off : BitVec 8} {s t : State} (h : hostCsrRead width off s = .next t) :
    SameRings s t := by
  unfold hostCsrRead at h
  split at h <;> cases h
  · exact raise_rings _ s
  · exact ⟨rfl, rfl, rfl, rfl, rfl, rfl⟩

theorem hostMemWrite_rings {a v : Word} {s t : State} (h : hostMemWrite a v s = .next t) : SameRings s t := by
  unfold hostMemWrite at h
  split at h
  · cases h
  · split at h
    · split at h
      · split at h <;> cases h
        exact writeDesc_rings _ _ _ v s
      · cases h
    · split at h <;> cases h
      · exact raise_rings _ s
      · exact pushWrite_rings _ _ s

theorem hostMemRead_rings {a : Word} {s t : State} (h : hostMemRead a s = .next t) : SameRings s t := by
  unfold hostMemRead at h
  split at h
  · cases h
  · split at h
    all_goals
      split at h
      · cases h
      · split at h <;> cases h
        · exact raise_rings _ s
        · exact ⟨rfl, rfl, rfl, rfl, rfl, rfl⟩

/-- One event keeps the rings and the flags legal, and only the write of a base register moves an array (R32, log 37). -/
theorem runEvent_legalKept {e : Event} {s t : State} (h : runEvent e s = .next t) :
    LegalKept s t ∨ e.writesBase = true ∧ ArraysMoved s t := by
  cases e with
  | csrWrite width off v =>
    exact (hostCsrWrite_legalKept h).imp_right fun ⟨hoff, hmoved⟩ => ⟨by simpa [Event.writesBase] using hoff, hmoved⟩
  | csrRead width off => exact .inl (hostCsrRead_rings h).kept.legalKept
  | memWrite a v => exact .inl (hostMemWrite_rings h).kept.legalKept
  | memRead a => exact .inl (hostMemRead_rings h).kept.legalKept
  | fence => cases h; exact .inl (descFence_rings s).kept.legalKept
  | drain k => cases h; exact .inl (drainOne_rings k s).kept.legalKept
  | isr => exact .inl (agentTurn_stepKeeps (isrRun_keeps s) (isrRun_kept s).legalKept h).legalKept
  | txReclaim => exact .inl (agentTurn_stepKeeps (reclaimRun_keeps s) (reclaimRun_kept s).legalKept h).legalKept
  | poll b => exact .inl (agentTurn_stepKeeps (pollRun_keeps b.toNat s) (pollRun_kept b.toNat s).legalKept h).legalKept
  | watchdog => exact .inl (agentTurn_stepKeeps (watchdogStep_keeps s) (watchdogStep_kept s).legalKept h).legalKept
  | agentStep code => exact .inl (dmaTurn_legalKept h)
  | supply a bytes => cases h; exact .inl (supplyBuffer_rings a bytes s).kept.legalKept
  | withdraw a => cases h; exact .inl (withdrawBuffer_rings a s).kept.legalKept

theorem baseWritten_of_schedule {s : State} {e : Event} {rest : List Event} (he : s.schedule = e :: rest) :
    s.baseWritten = e.writesBase := by
  rw [State.baseWritten, he]
  rfl

/-- A step keeps the rings and the flags legal, and only a host write of a base register moves an array. -/
theorem step_legalKept {s t : State} (h : step s = .next t) :
    LegalKept s t ∨ s.baseWritten = true ∧ ArraysMoved s t := by
  obtain rfl | ⟨e, rest, he, hrun⟩ := step_next_cases h
  · exact .inl (.refl _)
  · have htaken : SameRings s { s with schedule := rest } := ⟨rfl, rfl, rfl, rfl, rfl, rfl⟩
    exact (runEvent_legalKept hrun).imp (htaken.kept.legalKept.trans ·) fun ⟨hw, hmoved⟩ =>
      ⟨(baseWritten_of_schedule he).trans hw, htaken.arraysMoved hmoved⟩

/-- Settles O12: a step keeps all of it or writes a base register, and such a write that moves no allocated array keeps it
too. -/
theorem stepKeepsTheRingsLegal : Obligations.StepKeepsTheRingsLegal := by
  intro s t hshaped hsession hstep
  obtain h | ⟨hw, h⟩ := step_legalKept hstep
  · exact ⟨h.shaped hshaped, h.session hsession, fun _ => ⟨h.legal, h.inSpace hshaped⟩⟩
  · refine ⟨h.shaped hshaped, h.session hsession, fun hb => ?_⟩
    have hkept := h.legalKept (hb.resolve_left (by simp [hw]))
    exact ⟨hkept.legal, hkept.inSpace hshaped⟩

end Sys2Proof.Machine
end

section
/-! PROOF. The ring operations (O37 to O41): ALLOCATE, SUBMIT, RECLAIM and REFILL, run and rejected. -/

namespace Sys2Proof.Machine

open Sys2Proof

/-! ### ALLOCATE (R220) -/

theorem ringSizeLegal_iff {n : Nat} : ringSizeLegal n = true ↔ n ∈ [4, 8, 16, 32, 64, 128, 256, 512, 1024] :=
  List.contains_iff_mem

theorem allocate_rejected {s : State} {r : RingSel} {n : Nat} (h : (s.ring r).allocated = true ∨
    s.proc r ≠ .stopped ∨ n ∉ [4, 8, 16, 32, 64, 128, 256, 512, 1024]) : allocate r n s = failed s :=
  if_pos (by
    rw [← ringSizeLegal_iff, Bool.not_eq_true] at h
    simpa [or_assoc] using h)

/-- ALLOCATE with an answer that is FAIL or no fresh region leaves what the draw leaves (R220, log 8). -/
theorem allocate_noRegion {s : State} {r : RingSel} {n : Nat} (hfree : (s.ring r).allocated = false)
    (hstop : s.proc r = .stopped) (hn : ringSizeLegal n = true)
    (h : (drawAnswer s).1 = none ∨ ∃ m, (drawAnswer s).1 = some m ∧ s.fresh 16 m (16 * n) = false) :
    allocate r n s = failed (drawAnswer s).2 := by
  have hguard : ((s.ring r).allocated || decide (s.proc r ≠ .stopped) || !ringSizeLegal n) = false := by
    simp [hfree, hstop, hn]
  simp only [allocate, hguard, drawFresh_none h, Bool.false_eq_true, if_false]

/-- Settles O37: a rejected ALLOCATE draws nothing, a refused draw leaves only itself, and a fresh answer is
`allocate_spec`'s. -/
theorem allocateCommand : Obligations.AllocateCommand := by
  intro s r hs hm ha
  dsimp only
  refine ⟨fun h => attached_failed hs ha (allocate_rejected h), fun hfree hstop hn => ⟨fun h => ?_, fun m hd hf => ?_⟩⟩
  · have hexec : exec (.allocate r) s = complete s (failed (drawAnswer s).2) := by
      refine congrArg (complete s) ?_
      rw [whenAttached_of ha, allocate_noRegion hfree hstop (ringSizeLegal_iff.2 hn) h]
    have hdraw := drawAnswer_eq s
    rw [hexec, complete_eq (by rw [hdraw]; exact hs)]
    generalize (drawAnswer s).2 = d at *
    rw [hdraw]
    rfl
  · obtain ⟨t, heq, hmem, ht⟩ := allocate_spec hm hfree hstop hn hd hf
    have hfault : t.fault = none := by rw [ht]; exact hs
    have hexec : exec (.allocate r) s =
        .next { t with csr := { t.csr with result := 0, result1 := m } } := by
      refine (congrArg (complete s) ((whenAttached_of ha).trans heq)).trans ?_
      exact complete_eq hfault
    refine ⟨_, hexec, hmem, ?_⟩
    generalize t.mem = M at *
    subst ht
    rfl

/-! ### SUBMIT (R221) -/

section

variable {s : State} {i : BitVec 16}

theorem exec_submit_notAllowed (h : submitAllowed i.toNat s.csr.arg1 s.csr.arg2 s = false) :
    exec (.submit i) s = complete s (failed s) :=
  if_pos (by simp [slotIdx, h])

/-- SUBMIT past its preconditions: a full ring, then a device-owned buffer, then the submission (R221, log 17). -/
theorem exec_submit_allowed (hl : s.ringsLegal) (ha : s.dev.attached = true)
    (h : submitAllowed i.toNat s.csr.arg1 s.csr.arg2 s = true) :
    exec (.submit i) s =
      if s.tx.avail < 1 then complete s { st := countBusy s, res := codeBusy }
      else if s.meetsMark s.csr.arg0 s.csr.arg1.toNat then .refused (.mapOfDeviceOwned s.csr.arg0)
      else complete s (done (submitAt i.toNat s.csr.arg0 s.csr.arg1.toNat s.csr.arg2 s.csr.arg3 s)) := by
  obtain ⟨halloc, hidx, _⟩ := submitAllowed_iff.1 h
  have hslot : i.toNat < s.tx.n := hidx ▸ idx_lt (tx_n_pos hl halloc)
  exact if_neg (by simp [ha, slotIdx, hslot, h])

/-- A staged descriptor is published as it stands (R91). -/
theorem StagedAt.publishedAt {u : State} {k : Nat} {cpu : Word} {len : Nat} {pkt : Option Word} {d1 : Word}
    (h : StagedAt s u k cpu len pkt d1) (hm : u.memLegal) (hL : s.arraysLegal) (hd : s.softDesc .tx k)
    (ha : ∀ x, inSpan (s.descAddr .tx k 0) 16 x = true → inSpan cpu len x = false) :
    PublishedAt u (publish .tx k u) .tx k := by
  have hsame : SameArrays s u := fun r => by rw [h.rest]; cases r <;> exact ⟨rfl, rfl, rfl⟩
  have hown : u.ownSeen .tx k = false := by rw [State.ownSeen, h.word0]; exact hd.own
  have hmark : ∀ x, inSpan (s.descAddr .tx k 0) 16 x = true → s.marked x = false → u.marked x = false := by
    intro x hx hfree
    rw [State.marked, h.rest, List.any_append, Bool.or_eq_false_iff]
    exact ⟨hfree, by simpa using ha x hx⟩
  have hclear : u.descClear .tx k := hd.clear.write hL hd.slot hsame hmark h.bytes (by rw [h.rest]) hown
  exact publish_spec hm (hL.of_same hsame) (by rw [(hsame .tx).2.1]; exact hd.slot) hclear hown

/-- What is in memory after a segment is staged, and published where `pub` says so: every byte outside the descriptor, and with
the publication every byte but those of its own write (R84, R91). -/
theorem stageOne_memory {k : Nat} {cpu : Word} {len : Nat} (pkt : Option Word) (ic ls fs csum pub : Bool)
    (hm : s.memLegal) (hL : s.arraysLegal) (hd : s.softDesc .tx k)
    (ha : ∀ x, inSpan (s.descAddr .tx k 0) 16 x = true → inSpan cpu len x = false) :
    let u := stageTx k cpu len pkt ic ls fs csum s
    let t := if pub then publish .tx k u else u
    (∀ a, inSpan (s.descAddr .tx k 0) 16 a = false → memRead t.mem a.toNat = swByte s a) ∧
      (pub = true → ∀ a, inSpan (s.descAddr .tx k 0) 4 a = false → memRead t.mem a.toNat = swByte t a) := by
  have hu := stageTx_spec pkt ic ls fs csum hm hL hd ha
  have hum := (stageTx_keeps k cpu len pkt ic ls fs csum s).mem hm
  dsimp only
  generalize stageTx k cpu len pkt ic ls fs csum s = u at *
  cases pub with
  | false => exact ⟨fun a _ => hu.memory a, nofun⟩
  | true =>
    have hp := hu.publishedAt hum hL hd ha
    have haddr : u.descAddr .tx k 0 = s.descAddr .tx k 0 := by rw [hu.rest]; rfl
    exact ⟨fun a hx => (hp.memory a).trans (hu.bytes a hx),
      fun _ a hx => (hp.memory a).trans (hp.apart a (haddr ▸ hx)).symm⟩

variable {k : Nat} {cpu : Word} {len : Nat} (flags handle : Word) (hm : s.memLegal) (hL : s.arraysLegal)
  (hd : s.softDesc .tx k) (ha : ∀ x, inSpan (s.descAddr .tx k 0) 16 x = true → inSpan cpu len x = false)

include hm hL hd ha

/-- A submission is a staged segment, published where ARG2[4] is set (R221). -/
theorem submitAt_stagedOne (hslots : k < s.txSlots.length) :
    StagedOne s (submitAt k cpu len flags handle s) k cpu len (if handle = 0 then none else some handle)
      (txDes1 (bit flags 3) (bit flags 2) (bit flags 1) (bit flags 0) (erOf (s.descWord .tx k 1)) len) (bit flags 4) :=
  stageOne_spec _ _ _ _ _ (bit flags 4) hm hL hslots hd ha

theorem submitAt_memory :
    let t := submitAt k cpu len flags handle s
    (∀ a, inSpan (s.descAddr .tx k 0) 16 a = false → memRead t.mem a.toNat = swByte s a) ∧
      (bit flags 4 = true → ∀ a, inSpan (s.descAddr .tx k 0) 4 a = false → memRead t.mem a.toNat = swByte t a) :=
  stageOne_memory _ _ _ _ _ (bit flags 4) hm hL hd ha

end

/-- Settles O38: what a submission leaves in the descriptor and in memory is that of its one staged segment. -/
theorem submitCommand : Obligations.SubmitCommand := by
  intro s i hs hm hl ha halloc hidx hmin hmax hflags hroom hunmapped hd hapart
  have hallowed := submitAllowed_iff.2 ⟨halloc, hidx, hmin, hmax, hflags⟩
  have hslots : i.toNat < s.txSlots.length := by rw [hl.tx.slots halloc]; exact hd.slot
  have hbuf := apart_desc (r := .tx) hl halloc hapart hd.slot
  have hone := submitAt_stagedOne s.csr.arg2 s.csr.arg3 hm hl.arrays hd hbuf hslots
  obtain ⟨houter, hpublished⟩ := submitAt_memory s.csr.arg2 s.csr.arg3 hm hl.arrays hd hbuf
  rw [exec_submit_allowed hl ha hallowed, if_neg (by omega), if_neg (by simp [hunmapped])]
  generalize submitAt i.toNat s.csr.arg0 s.csr.arg1.toNat s.csr.arg2 s.csr.arg3 s = t at *
  have ht := hone.rest
  refine ⟨_, complete_done (by rw [ht]; exact hs), hone.bytes, hone.word0, hone.word1, hone.word2, hone.word3, houter,
    hpublished, ?_⟩
  rw [mapBuf_regions]
  generalize t.mem = M at *
  generalize t.wbuf = W at *
  subst ht
  rfl

/-! ### REFILL past its preconditions (R223, R230) -/

section

variable {s : State} {i : BitVec 16}

/-- A command that gives one result and raised no fault. -/
theorem complete_result {t : State} {v : Word} (h : t.fault = none) :
    complete s { st := t, res := v } = .next { t with csr := { t.csr with result := v } } :=
  complete_eq (x := { st := t, res := v }) h

theorem refillOverlaps_iff {k : Nat} {b : Word} : refillOverlaps k b s = true ↔
    b ≠ 0 ∧ s.rx.inflight < s.rx.n - 1 ∧ (s.rxSlot k).buf = none ∧ s.meetsMark b s.eff.bufSz = true := by
  simp [refillOverlaps, and_assoc]

theorem exec_refill_notAllowed (h : refillAllowed i.toNat s = false) :
    exec (.refill i) s = complete s (failed s) :=
  if_pos (by simp [slotIdx, h])

variable (hl : s.ringsLegal) (ha : s.dev.attached = true) (halloc : s.rx.allocated = true)
  (hidx : i.toNat = idx s.rx.sub s.rx.n)

include hl ha halloc hidx

/-- REFILL past its preconditions: a device-owned buffer it would map is refused (log 17). -/
theorem exec_refill_allowed : exec (.refill i) s =
    if refillOverlaps i.toNat s.csr.arg0 s then .refused (.mapOfDeviceOwned s.csr.arg0)
    else complete s (if s.csr.arg0 = 0 then refillAlloc i.toNat s else refillGiven i.toNat s.csr.arg0 s) := by
  have hslot : i.toNat < s.rx.n := hidx ▸ idx_lt (rx_n_pos hl halloc)
  exact if_neg (by simp [ha, slotIdx, hslot, refillAllowed_iff.2 ⟨halloc, hidx⟩])

/-- REFILL that maps no device-owned buffer, by what ARG0 says. -/
theorem exec_refill_runs (hno : refillOverlaps i.toNat s.csr.arg0 s = false) : exec (.refill i) s =
    complete s (if s.csr.arg0 = 0 then refillAlloc i.toNat s else refillGiven i.toNat s.csr.arg0 s) := by
  rw [exec_refill_allowed hl ha halloc hidx, hno]
  rfl

/-- A full ring answers BUSY before anything else is looked at (R230, log 38). -/
theorem exec_refill_full (hs : s.sound) (hfull : s.rx.n - 1 ≤ s.rx.inflight) :
    exec (.refill i) s = .next { s with csr := { s.csr with result := 1 } } := by
  have hbusy : (if s.csr.arg0 = 0 then refillAlloc i.toNat s else refillGiven i.toNat s.csr.arg0 s) =
      { st := s, res := codeBusy } := by
    rw [refillAlloc, refillGiven, if_pos hfull, if_pos hfull, ite_self]
  rw [exec_refill_runs hl ha halloc hidx (by simp [refillOverlaps, Nat.not_lt.2 hfull]), hbusy,
    complete_result hs]
  rfl

/-- A slot that kept its buffer takes no other. -/
theorem exec_refill_keptGiven (hs : s.sound) (hroom : s.rx.inflight < s.rx.n - 1)
    (hbuf : (s.rxSlot i.toNat).buf.isSome = true) (hgiven : s.csr.arg0 ≠ 0) :
    exec (.refill i) s = .next { s with csr := { s.csr with result := 2 } } := by
  obtain ⟨b, hb⟩ := Option.isSome_iff_exists.1 hbuf
  have hfail : refillGiven i.toNat s.csr.arg0 s = failed s := by
    simp only [refillGiven, if_neg (Nat.not_le.2 hroom), hb]
  rw [exec_refill_runs hl ha halloc hidx (by simp [refillOverlaps, hb]), if_neg hgiven, hfail, complete_failed hs]

/-- A failed draw is counted (R223, log 8). -/
theorem exec_refill_noBuffer (hs : s.sound) (hroom : s.rx.inflight < s.rx.n - 1)
    (hbuf : (s.rxSlot i.toNat).buf = none) (hask : s.csr.arg0 = 0) (hfail : (allocBuf s.eff.bufSz s).1 = none) :
    exec (.refill i) s = .next { (allocBuf s.eff.bufSz s).2 with
      csr := { s.csr with result := 2 }
      stats := { s.stats with rxAllocFail := s.stats.rxAllocFail + 1 } } := by
  have hdraw := allocBuf_eq s.eff.bufSz s
  have hrun : refillAlloc i.toNat s = failed { (allocBuf s.eff.bufSz s).2 with
      stats := { s.stats with rxAllocFail := s.stats.rxAllocFail + 1 } } := by
    simp only [refillAlloc, if_neg (Nat.not_le.2 hroom), hbuf, hfail]
    rw [hdraw]
  rw [exec_refill_runs hl ha halloc hidx (by simp [refillOverlaps, hask]), if_pos hask, hrun, failed,
    complete_result (by rw [hdraw]; exact hs)]
  rw [hdraw]
  rfl

end

/-- Settles O39: each rejection is the first test it fails, in the order the model takes them (log 17, log 38). -/
theorem rejectedRingOperations : Obligations.RejectedRingOperations := by
  refine ⟨fun s i hs hl ha => ⟨fun h => ?_, fun halloc hidx hmin hmax hflags => ?_⟩,
    fun s i hs hl ha => ⟨fun h => ?_, fun halloc hidx => ⟨?_, ?_, ?_, ?_⟩⟩⟩
  · have hno : submitAllowed i.toNat s.csr.arg1 s.csr.arg2 s = false := Bool.eq_false_iff.2 fun hok => by
      obtain ⟨halloc, hidx, hmin, hmax, hflags⟩ := submitAllowed_iff.1 hok
      simp only [halloc, hidx, hflags, ne_eq, not_true_eq_false, Bool.true_eq_false, false_or, or_false] at h
      omega
    rw [exec_submit_notAllowed hno, complete_failed hs]
  · rw [exec_submit_allowed hl ha (submitAllowed_iff.2 ⟨halloc, hidx, hmin, hmax, hflags⟩)]
    refine ⟨fun hfull => ?_, fun hroom hmapped => ?_⟩
    · rw [if_pos (by omega), complete_result (t := countBusy s) hs]
      rfl
    · rw [if_neg (by omega), if_pos hmapped]
  · have hno : refillAllowed i.toNat s = false := Bool.eq_false_iff.2 fun hok => by
      obtain ⟨halloc, hidx⟩ := refillAllowed_iff.1 hok
      simp [halloc, hidx] at h
    rw [exec_refill_notAllowed hno, complete_failed hs]
  · exact exec_refill_full hl ha halloc hidx hs
  · exact exec_refill_keptGiven hl ha halloc hidx hs
  · exact exec_refill_noBuffer hl ha halloc hidx hs
  · intro hroom hbuf hgiven hmapped
    rw [exec_refill_allowed hl ha halloc hidx,
      if_pos (refillOverlaps_iff.2 ⟨hgiven, hroom, hbuf, hmapped⟩)]

/-! ### RECLAIM (R222, R225, R441) -/

section

variable {s : State} {i : BitVec 16}

theorem exec_reclaim (ha : s.dev.attached = true) (hi : i.toNat < s.tx.n) :
    exec (.reclaim i) s = complete s (reclaimAt i.toNat s) :=
  slotCommand_eq (r := .tx) ha hi _

/-- Off the completion cursor, or on an empty ring, the descriptor is not read (R441). -/
theorem reclaimAt_notNext {k : Nat} (h : k ≠ idx s.tx.comp s.tx.n ∨ s.tx.inflight = 0) :
    reclaimAt k s = failed s := if_pos (by simpa using h)

/-- At the completion cursor the descriptor decides. -/
theorem reclaimAt_next {k : Nat} (hidx : k = idx s.tx.comp s.tx.n) (hpos : 0 < s.tx.inflight)
    (hc : s.descClear .tx k) : reclaimAt k s = if s.completed k then reclaimBody k s else failed s := by
  rw [reclaimAt, if_neg (by simp [← hidx]; omega), readDesc_eq hc (by decide) (.inl rfl)]

end

/-- Settles O40: `reclaimBody_spec` where the descriptor is completed, and no change anywhere else. -/
theorem reclaimCommand : Obligations.ReclaimCommand := by
  intro s i hs _ hl ha hi
  rw [exec_reclaim ha hi]
  refine ⟨fun h => ?_, fun hidx hpos hc => ?_⟩
  · rw [reclaimAt_notNext h, complete_failed hs]
  · rw [reclaimAt_next hidx hpos hc]
    refine ⟨fun h => ?_, fun ho hpub => ?_⟩
    · have hnot : ¬ s.completed i.toNat = true := by
        obtain ho | hpub := h
        · simp [State.completed, ho]
        · simp [State.completed, hpub]
      rw [if_neg hnot, complete_failed hs]
    · obtain ⟨t, heq, ht⟩ := reclaimBody_spec hl.arrays hi hc ho
      have hrest := ht.rest
      have hexec : complete s (reclaimBody i.toNat s) =
          .next { t with csr := { t.csr with
            result := s.descWord .tx i.toNat 0
            result1 := natWord (sizesOf (s.descWord .tx i.toNat 1)) } } := by
        rw [heq]
        exact complete_eq (by rw [hrest]; exact hs)
      rw [if_pos (by simp [State.completed, ho, hpub])]
      refine ⟨_, hexec, ht.bytes, ht.words, ?_⟩
      rw [reclaimStats_eq] at hrest
      generalize t.wbuf = W at *
      subst hrest
      rfl

/-! ### REFILL that arms a slot (R91, R128, R223) -/

/-- `u` is `s` with RX slot `k` holding a buffer that the DMA agents reach at `a`: the slot may be armed. -/
structure ReadyToArm (s u : State) (k : Nat) (a : Word) : Prop where
  mem : u.memLegal
  clear : u.descClear .rx k
  own : u.ownSeen .rx k = false
  bytes : sameBytes s u
  addr : (u.rxSlot k).addr.getD 0 = a
  rest : u = { s with
    rxSlots := u.rxSlots
    marks := u.marks
    regions := u.regions
    allocAnswers := u.allocAnswers
    draws := u.draws
    mem := u.mem
    wbuf := u.wbuf }

section

variable {s u : State} {k : Nat} {a : Word}

/-- A slot that kept its buffer. -/
theorem ReadyToArm.kept (hm : s.memLegal) (hd : s.softDesc .rx k) : ReadyToArm s s k ((s.rxSlot k).addr.getD 0) :=
  ⟨hm, hd.clear, hd.own, fun _ => rfl, rfl, rfl⟩

/-- A slot that a mapped buffer is bound to. -/
theorem ReadyToArm.mapped {b : Word} {len : Nat} (hm : s.memLegal) (hL : s.arraysLegal) (hd : s.softDesc .rx k)
    (hslots : k < s.rxSlots.length) (hap : ∀ x, inSpan (s.descAddr .rx k 0) 16 x = true → inSpan b len x = false)
    (y : RxSlot) : ReadyToArm s ((mapBuf b len s).setRxSlot k y) k (y.addr.getD 0) := by
  obtain ⟨hmem, hclear, hown, _, hbytes, _, _⟩ := bound_desc hm hL hd hap y
  have hlen : k < (mapBuf b len s).rxSlots.length := by rw [(mapBuf_rings b len s).rxLen]; exact hslots
  have hslot : ((mapBuf b len s).setRxSlot k y).rxSlot k = y := getD_set_self _ hlen y _
  exact ⟨hmem, hclear, hown, hbytes, by rw [hslot], by rw [mapBuf_eq]; rfl⟩

theorem softDesc_allocBuf {r : RingSel} (len : Nat) (hd : s.softDesc r k) : (allocBuf len s).2.softDesc r k := by
  rw [allocBuf_eq]
  cases r <;> exact ⟨hd.slot, hd.own, hd.clear⟩

/-- The draw before the binding changes nothing that arming looks at. -/
theorem ReadyToArm.of_allocBuf {len : Nat} (h : ReadyToArm (allocBuf len s).2 u k a) : ReadyToArm s u k a := by
  have hdraw := allocBuf_eq len s
  refine ⟨h.mem, h.clear, h.own, fun x => (h.bytes x).trans ?_, h.addr, ?_⟩
  · rw [hdraw]
    rfl
  · have hrest := h.rest
    rw [hdraw] at hrest
    exact hrest

/-- Arming the slot, as seen from the state before its buffer was bound. -/
structure ArmedFrom (s u t : State) (k : Nat) (a : Word) : Prop where
  bytes : sameBytesButDesc s t .rx k
  words : ∀ j < 4, t.descWord .rx k j =
    if j = 0 then 0x8000_0000
    else if j = 1 then rxDes1 (bit (s.descWord .rx k 1) 27)
      (decide ((s.rx.coalCnt + 1).toNat < s.eff.rxCoal)) s.eff.bufSz
    else if j = 2 then a else 0
  memory : ∀ x, inSpan (s.descAddr .rx k 0) 4 x = false → memRead t.mem x.toNat = swByte t x
  rest : t = { u.setPub .rx k true with
    rx := { s.rx with
      sub := s.rx.sub + 1
      coalCnt := if (s.rx.coalCnt + 1).toNat < s.eff.rxCoal then s.rx.coalCnt + 1 else 0 }
    mem := t.mem
    wbuf := t.wbuf }

theorem ReadyToArm.armed (h : ReadyToArm s u k a) (hL : s.arraysLegal) (hk : k < s.rx.n) :
    ArmedFrom s u (armRx k u) k a := by
  have hrx : u.rx = s.rx := by rw [h.rest]
  have heff : u.eff = s.eff := by rw [h.rest]
  have haddr : u.descAddr .rx k 0 = s.descAddr .rx k 0 := by rw [h.rest]; rfl
  have hword : u.descWord .rx k 1 = s.descWord .rx k 1 :=
    descWord_congr h.bytes (by rw [h.rest]) (by rw [h.rest]; rfl)
  have harrays : u.arraysLegal := hL.of_same (.of_eq (by rw [h.rest]) hrx)
  have harm := armRx_spec h.mem harrays (hrx ▸ hk) h.clear h.own
  have hwords := harm.words
  have hrest := harm.rest
  rw [hrx, heff] at hrest
  rw [hword, hrx, heff, h.addr] at hwords
  exact ⟨fun x hx => (harm.bytes x (haddr ▸ hx)).trans (h.bytes x), hwords, fun x hx => harm.memory x (haddr ▸ hx), hrest⟩

/-- Binding a drawn buffer binds it as the state before the draw would (R223). -/
theorem bindRx_allocBuf (len : Nat) (b : Word) : bindRx k b (allocBuf len s).2 =
    (mapBuf b s.eff.bufSz (allocBuf len s).2).setRxSlot k
      { s.rxSlot k with buf := some b, addr := some (dmaMapOf s.params b) } := by
  have hdraw := allocBuf_eq len s
  have heff : (allocBuf len s).2.eff = s.eff := by rw [hdraw]
  have hparams : (allocBuf len s).2.params = s.params := by rw [hdraw]
  have hslot : (allocBuf len s).2.rxSlot k = s.rxSlot k := by rw [hdraw]; rfl
  rw [bindRx, heff, hparams, hslot]

theorem refillAlloc_kept_eq (hroom : s.rx.inflight < s.rx.n - 1) (hbuf : (s.rxSlot k).buf.isSome = true) :
    refillAlloc k s = done (armRx k s) := by
  obtain ⟨b, hb⟩ := Option.isSome_iff_exists.1 hbuf
  simp only [refillAlloc, if_neg (Nat.not_le.2 hroom), hb]

theorem refillAlloc_drawn_eq {b : Word} (hroom : s.rx.inflight < s.rx.n - 1) (hbuf : (s.rxSlot k).buf = none)
    (hb : (allocBuf s.eff.bufSz s).1 = some b) :
    refillAlloc k s = done (armRx k (bindRx k b (allocBuf s.eff.bufSz s).2)) := by
  simp only [refillAlloc, if_neg (Nat.not_le.2 hroom), hbuf, hb]

theorem refillGiven_empty_eq (b : Word) (hroom : s.rx.inflight < s.rx.n - 1) (hbuf : (s.rxSlot k).buf = none) :
    refillGiven k b s = done (armRx k (bindRx k b s)) := by
  simp only [refillGiven, if_neg (Nat.not_le.2 hroom), hbuf]

/-- A REFILL that arms slot `i` of a ready state ends in the armed state with RESULT 0. -/
theorem exec_refill_arms {i : BitVec 16} (hs : s.sound) (hL : s.arraysLegal) (hd : s.softDesc .rx i.toNat)
    (h : ReadyToArm s u i.toNat a) (hexec : exec (.refill i) s = complete s (done (armRx i.toNat u))) :
    ∃ t, exec (.refill i) s = .next { t with csr := { s.csr with result := 0 } } ∧
      ArmedFrom s u t i.toNat a := by
  have harm := h.armed hL hd.slot
  have hfault : (armRx i.toNat u).fault = none := by rw [harm.rest, h.rest]; exact hs
  have hcsr : (armRx i.toNat u).csr = s.csr := by rw [harm.rest, h.rest]; rfl
  exact ⟨armRx i.toNat u, by rw [hexec, complete_done hfault, hcsr], harm⟩

end

/-- Settles O41: in each of the three cases the slot is ready to be armed, and arming it is `armRx_spec`'s. -/
theorem refillCommand : Obligations.RefillCommand := by
  intro s i hs hm hl ha halloc hidx hroom hd a u hcase
  have hL := hl.arrays
  have hslots : i.toNat < s.rxSlots.length := by rw [hl.rx.slots halloc]; exact hd.slot
  have hruns := exec_refill_runs hl ha halloc hidx
  have hready : ReadyToArm s u i.toNat a ∧ exec (.refill i) s = complete s (done (armRx i.toNat u)) := by
    obtain ⟨hbuf, hask, rfl, rfl⟩ | ⟨hbuf, hgiven, hunmapped, hapart, rfl, rfl⟩ | ⟨b, hbuf, hask, hb, rfl, rfl⟩ := hcase
    · refine ⟨.kept hm hd, ?_⟩
      rw [hruns (by simp [refillOverlaps, hask]), if_pos hask, refillAlloc_kept_eq hroom hbuf]
    · refine ⟨.mapped hm hL hd hslots (apart_desc (r := .rx) hl halloc hapart hd.slot) _, ?_⟩
      rw [hruns (by simp [refillOverlaps, hunmapped]), if_neg hgiven, refillGiven_empty_eq _ hroom hbuf]
      rfl
    · have hrings := allocBuf_rings s.eff.bufSz s
      have hsame : SameArrays s (allocBuf s.eff.bufSz s).2 := .of_eq hrings.tx hrings.rx
      have hap : ∀ x, inSpan ((allocBuf s.eff.bufSz s).2.descAddr .rx i.toNat 0) 16 x = true →
          inSpan b s.eff.bufSz x = false := fun x hx =>
        meetsArray_apart (allocBuf_fresh hb).arrays .rx
          (hL.holds hd.slot (by rw [State.descAddr, (hsame .rx).2.2] at hx; exact hx))
      refine ⟨.of_allocBuf (.mapped ((allocBuf_keeps _ s).mem hm) (hL.of_same hsame) (softDesc_allocBuf _ hd)
        (by rw [hrings.rxLen]; exact hslots) hap _), ?_⟩
      rw [hruns (by simp [refillOverlaps, hask]), if_pos hask, refillAlloc_drawn_eq hroom hbuf hb, bindRx_allocBuf]
  obtain ⟨t, hexec, ht⟩ := exec_refill_arms hs hL hd hready.1 hready.2
  refine ⟨_, hexec, ht.bytes, ht.words, ht.memory, ?_⟩
  have hrest := ht.rest
  generalize t.mem = M at *
  generalize t.wbuf = W at *
  subst hrest
  rfl

end Sys2Proof.Machine
end

section
/-! PROOF. A packet's record and segments (O42), and TRANSMIT (O43, O44). -/

namespace Sys2Proof.Machine

open Sys2Proof

/-! ### The packet record (R135) -/

section

variable {s : State} {a : Word}

theorem bitsAt_low (v : Word) (n : Nat) : bitsAt v 0 n = v.toNat % 2 ^ n := by
  rw [bitsAt, BitVec.ushiftRight_zero]

/-- A field that reaches up to bit 31 is a quotient. -/
theorem bitsAt_high (v : Word) {lo n : Nat} (h : lo + n = 32) : bitsAt v lo n = v.toNat / 2 ^ lo := by
  have hlt : v.toNat / 2 ^ lo < 2 ^ n := by
    rw [Nat.div_lt_iff_lt_mul (Nat.two_pow_pos lo), ← Nat.pow_add, Nat.add_comm n, h]
    exact v.isLt
  rw [bitsAt, BitVec.toNat_ushiftRight, Nat.shiftRight_eq_div_pow, Nat.mod_eq_of_lt hlt]

/-- A record with at most MAX_FRAGS fragments is read whole. -/
theorem fragsRead_whole (h : recordFrags s a ≤ s.params.maxFrags) : fragsRead s a = recordFrags s a := if_pos h

/-- Of a record with more than MAX_FRAGS fragments none is read (log 11). -/
theorem fragsRead_none (h : s.params.maxFrags < recordFrags s a) : fragsRead s a = 0 := if_neg (Nat.not_le.2 h)

theorem readRecord_frags_getElem? {i : Nat} (h : i < fragsRead s a) :
    (readRecord s a).frags[i]? = some (recordWord s a (4 + 2 * i), (recordWord s a (5 + 2 * i)).toNat) := by
  simp only [readRecord, List.getElem?_map, List.getElem?_range h, Option.map_some]

theorem readRecord_frags_length : (readRecord s a).frags.length = fragsRead s a := by
  simp only [readRecord, List.length_map, List.length_range]

end

/-! ### Segmentation (R261, R264) -/

section

variable {p : Params} {k : Packet}

theorem fragments_bad_iff {l : List Segment} {cap : Nat} :
    l.any (fun f => f.2 = 0 ∨ f.2 > cap) = true ↔ ∃ f ∈ l, f.2 = 0 ∨ f.2 > cap := by
  simp only [List.any_eq_true, decide_eq_true_eq]

theorem txSegments_none_iff : txSegments p k = none ↔
    k.reserved ≠ 0 ∨ k.nrFrags > p.maxFrags ∨ k.headLen = 0 ∨ k.headLen > 2 * p.txBufCap.val ∨
      ∃ f ∈ k.frags, f.2 = 0 ∨ f.2 > p.txBufCap.val := by
  rw [← fragments_bad_iff, txSegments]
  dsimp only
  split_ifs with hfields hlong hfrags
  · exact iff_of_true rfl (by tauto)
  · exact iff_of_true rfl (by tauto)
  · exact iff_of_true rfl (by tauto)
  · exact iff_of_false nofun (by tauto)

/-- The head's segments: one, or two where it exceeds TX_BUF_CAP (R261). -/
def headSegments (cap : Nat) (k : Packet) : List Segment :=
  if k.headLen ≤ cap then [(k.headAddr, k.headLen)]
  else [(k.headAddr, cap), (k.headAddr + natWord cap, k.headLen - cap)]

/-- What a packet that is segmented is: its lengths are legal, and the head comes before the fragments. -/
structure Segmented (p : Params) (k : Packet) (segs : List Segment) : Prop where
  head : 1 ≤ k.headLen ∧ k.headLen ≤ 2 * p.txBufCap.val
  frags : ∀ f ∈ k.frags, 1 ≤ f.2 ∧ f.2 ≤ p.txBufCap.val
  segs : segs = headSegments p.txBufCap.val k ++ k.frags

theorem txSegments_some {segs : List Segment} (h : txSegments p k = some segs) : Segmented p k segs := by
  have hok : txSegments p k ≠ none := by rw [h]; nofun
  rw [Ne, txSegments_none_iff] at hok
  push Not at hok
  obtain ⟨hres, hnr, hpos, hmax, hfrags⟩ := hok
  refine ⟨⟨by omega, hmax⟩, fun f hf => ?_, ?_⟩
  · obtain ⟨hf0, hf1⟩ := hfrags f hf
    exact ⟨by omega, hf1⟩
  · have hbad : ¬ k.frags.any (fun f => f.2 = 0 ∨ f.2 > p.txBufCap.val) = true := by
      rw [fragments_bad_iff]
      push Not
      exact hfrags
    have hfields : ¬ (k.reserved ≠ 0 ∨ k.nrFrags > p.maxFrags ∨ k.headLen = 0) := by
      push Not
      exact ⟨hres, hnr, hpos⟩
    rw [txSegments] at h
    dsimp only at h
    rw [if_neg hfields, if_neg (Nat.not_lt.2 hmax), if_neg hbad] at h
    rw [← Option.some.inj h, headSegments]
    obtain hle | hlt := le_or_gt k.headLen p.txBufCap.val
    · rw [if_neg (Nat.not_lt.2 hle), if_pos hle, Nat.min_eq_left hle]
      rfl
    · rw [if_pos hlt, if_neg (Nat.not_le.2 hlt), Nat.min_eq_right hlt.le]
      rfl

theorem headSegments_sum (cap : Nat) (k : Packet) : ((headSegments cap k).map (·.2)).sum = k.headLen := by
  rw [headSegments]
  split_ifs with h
  · simp
  · simp; omega

theorem headSegments_lengths {cap : Nat} (h1 : 1 ≤ k.headLen) (h2 : k.headLen ≤ 2 * cap) :
    ∀ g ∈ headSegments cap k, 1 ≤ g.2 ∧ g.2 ≤ cap := by
  rw [headSegments]
  split_ifs with h <;> simp <;> omega

variable {segs : List Segment}

theorem Segmented.sum (h : Segmented p k segs) :
    (segs.map (·.2)).sum = k.headLen + (k.frags.map (·.2)).sum := by
  rw [h.segs, List.map_append, List.sum_append, headSegments_sum]

theorem Segmented.lengths (h : Segmented p k segs) : ∀ g ∈ segs, 1 ≤ g.2 ∧ g.2 ≤ p.txBufCap.val := by
  intro g hg
  rw [h.segs, List.mem_append] at hg
  exact hg.elim (headSegments_lengths h.head.1 h.head.2 g) (h.frags g)

theorem Segmented.nonempty (h : Segmented p k segs) : segs ≠ [] := by
  rw [h.segs, headSegments]
  split_ifs <;> exact List.cons_ne_nil _ _

end

/-- Settles O42: the record's words by definition, and the packet that is segmented as `Segmented` says. -/
theorem packetSegmentation : Obligations.PacketSegmentation := by
  refine ⟨fun s a => ⟨rfl, rfl, rfl, bitsAt_low _ 16, rfl, bitsAt_high _ rfl, fun hmax => ?_⟩,
    fun p k => ⟨txSegments_none_iff, fun segs h => ?_⟩⟩
  · have hread := fragsRead_whole hmax
    exact ⟨congrArg (16 + 8 * ·) hread, readRecord_frags_length.trans hread,
      fun i hi => readRecord_frags_getElem? (hread.symm ▸ hi)⟩
  · have hseg := txSegments_some h
    refine ⟨fun hle => ?_, fun hlt => ?_, hseg.sum, hseg.lengths⟩
    · rw [hseg.segs, headSegments, if_pos hle]
      rfl
    · rw [hseg.segs, headSegments, if_neg (Nat.not_le.2 hlt)]
      rfl

/-! ### TRANSMIT that does not send (R230, R260, R262) -/

section

variable {s : State}

theorem exec_transmit_rejects (h : s.dev.ifup = false ∨ s.dev.suspended = true ∨ s.csr.arg0.toNat % 4 ≠ 0) :
    exec .transmit s = complete s (failed s) :=
  if_pos (by obtain h | h | h := h <;> simp [State.operational, h])

section

variable (hat : s.dev.attached = true) (hup : s.dev.ifup = true) (hawake : s.dev.suspended = false)
  (halign : s.csr.arg0.toNat % 4 = 0)

include hat hup hawake halign

theorem exec_transmit_outside {x : Word} (h : s.outside s.csr.arg0 (recordLen s s.csr.arg0) = some x) :
    exec .transmit s = .refused (.softwareOutsideRegions x) := by
  simp only [exec, execTransmit, transmit_ok hat hup hawake halign, h, Bool.false_eq_true, if_false]

variable (hin : s.outside s.csr.arg0 (recordLen s s.csr.arg0) = none)

include hin

theorem exec_transmit_unreadable {f : Fault} (h : s.readFault s.csr.arg0 (recordLen s s.csr.arg0) = some f) :
    exec .transmit s = .next (raise f s) := by
  simp only [exec, execTransmit, transmit_ok hat hup hawake halign, hin, h, Bool.false_eq_true, if_false]

variable (hread : s.readFault s.csr.arg0 (recordLen s s.csr.arg0) = none)

include hread

theorem exec_transmit_badRecord (h : txSegments s.params (readRecord s s.csr.arg0) = none) :
    exec .transmit s = complete s (rejectRecord s) := by
  simp only [exec, execTransmit, transmit_ok hat hup hawake halign, hin, hread, h, Bool.false_eq_true, if_false]

theorem exec_transmit_segments {segs : List Segment}
    (h : txSegments s.params (readRecord s s.csr.arg0) = some segs) :
    exec .transmit s = transmitSegments s (readRecord s s.csr.arg0) segs := by
  simp only [exec, execTransmit, transmit_ok hat hup hawake halign, hin, hread, h, Bool.false_eq_true, if_false]

end

/-! What TRANSMIT does with a segmented packet. -/

variable {k : Packet} {segs : List Segment}

theorem transmitSegments_busy (h : s.tx.avail < segs.length) :
    transmitSegments s k segs = complete s (rejectBusy s) := if_pos h

/-- A fault of the software checksum is all that is left of the command (log 6). -/
theorem transmitSegments_faulted (h : segs.length ≤ s.tx.avail) {f : Fault}
    (hf : (softwareCsum k segs s).fault = some f) : transmitSegments s k segs = .next { s with fault := some f } := by
  simp only [transmitSegments, if_neg (Nat.not_lt.2 h), hf]
  exact complete_of_some ((sendSegments_keeps k _ segs _).fault f hf)

theorem transmitSegments_overlap (h : segs.length ≤ s.tx.avail) (hf : (softwareCsum k segs s).fault = none) {x : Word}
    (hx : segmentsOverlap (softwareCsum k segs s) segs = some x) :
    transmitSegments s k segs = .refused (.mapOfDeviceOwned x) := by
  simp only [transmitSegments, if_neg (Nat.not_lt.2 h), hf, hx]

theorem transmitSegments_sends (h : segs.length ≤ s.tx.avail)
    (hx : segmentsOverlap (softwareCsum k segs s) segs = none) :
    transmitSegments s k segs =
      complete s (done (sendSegments k (csumInHardware s k) segs (softwareCsum k segs s))) := by
  simp only [transmitSegments, if_neg (Nat.not_lt.2 h), hx]
  split
  · rename_i hcontra
    cases hcontra
  · rfl

/-- Where no checksum is asked for, or hardware inserts it, `SW_CSUM` is not applied (R263). -/
theorem softwareCsum_idle (h : k.csumReq = false ∨ s.params.csumOffload = true ∧ bit s.csr.macConfig 8 = true) :
    softwareCsum k segs s = s :=
  if_neg (by
    obtain h | ⟨hoffload, hipc⟩ := h
    · simp [h]
    · simp [csumInHardware, hoffload, hipc])

end

/-- Settles O43: each rejection is the first test it fails, in the order TRANSMIT takes them (log 11, log 17, log 43). -/
theorem transmitRejected : Obligations.TransmitRejected := by
  intro s hs hat a
  refine ⟨fun h => ?_, fun hmany => ?_, fun hup hawake halign => ⟨fun x => exec_transmit_outside hat hup hawake halign,
    fun hin => ⟨fun f hf => ?_, fun hread => ⟨fun h => ?_, fun segs hsegs => ?_⟩⟩⟩⟩
  · rw [exec_transmit_rejects h, complete_failed hs]
  · have hnone := fragsRead_none hmany
    exact ⟨congrArg (16 + 8 * ·) hnone, List.length_eq_zero_iff.1 (readRecord_frags_length.trans hnone)⟩
  · rw [exec_transmit_unreadable hat hup hawake halign hin hf, raise_of_sound hs]
  · rw [exec_transmit_badRecord hat hup hawake halign hin hread h, complete_of_none (x := rejectRecord s) hs]
    rfl
  · rw [exec_transmit_segments hat hup hawake halign hin hread hsegs]
    refine ⟨fun hfull => ?_, fun hroom f hf => transmitSegments_faulted hroom hf, fun hroom hidle x hx => ?_⟩
    · rw [transmitSegments_busy hfull, complete_of_none (x := rejectBusy s) hs]
      rfl
    · have hsame : softwareCsum (readRecord s a) segs s = s := softwareCsum_idle hidle
      exact transmitSegments_overlap hroom (by rw [hsame]; exact hs) (by rw [hsame]; exact hx)

/-! ### TRANSMIT that sends (R260, R263, R265, R266) -/

/-- The coalescing decision: the counter starts again where it reaches the limit, and the packet asks for an interrupt (R266). -/
theorem coalesce_eq (limit : Nat) (cnt : Word) (n : Nat) : coalesce limit cnt n =
    (if (cnt + natWord n).toNat < limit then cnt + natWord n else 0, decide (limit ≤ (cnt + natWord n).toNat)) := by
  rw [coalesce]
  split_ifs with h
  · rw [decide_eq_false (Nat.not_le.2 h)]
  · rw [decide_eq_true (Nat.not_lt.1 h)]

section

variable {s c : State}

/-- Software writes that raised no fault change the write buffer and published flags alone. -/
theorem RunsWritten.frame (h : RunsWritten s c) (hs : s.sound) (hc : c.fault = none) :
    c = { s with wbuf := c.wbuf, txSlots := c.txSlots, rxSlots := c.rxSlots } := by
  have hrest := h.rest
  rw [hc, ← hs] at hrest
  exact hrest

theorem RunsWritten.sameArrays (h : RunsWritten s c) : SameArrays s c :=
  .of_eq (by rw [h.rest]) (by rw [h.rest])

theorem RunsWritten.bufferApart (h : RunsWritten s c) {r : RingSel} {a : Word} {len : Nat} (hap : s.bufferApart r a len) :
    c.bufferApart r a len := by
  have hparams : c.params = s.params := by rw [h.rest]
  have hholds := h.sameArrays.holds r
  refine ⟨fun x hx => hap.1 x ((hholds x).symm.trans hx), fun x hx => ?_⟩
  rw [hparams]
  exact hap.2 x ((hholds x).symm.trans hx)

variable {segs : List Segment} (h : RunsWritten s c) (hL : s.arraysLegal)
  (hother : ∀ x, (∀ g ∈ segs, inSpan g.1 g.2 x = false) → swByte c x = swByte s x)
  (hap : ∀ g ∈ segs, s.bufferApart .tx g.1 g.2)

include h hL hother hap

/-- Packet bytes apart from the TX array leave its descriptors. -/
theorem RunsWritten.txWord {i w : Nat} (hi : i < s.tx.n) (hw : w < 4) : c.descWord .tx i w = s.descWord .tx i w :=
  descWord_same h.sameArrays (by rw [h.rest]) hw fun x hx =>
    hother x fun g hg => (hap g hg).1 x (hL.holds (r := .tx) hi hx)

/-- ... and so its slots (R169). -/
theorem RunsWritten.txSlot {i : Nat} (hi : i < s.tx.n) : c.txSlot i = s.txSlot i := by
  have hown : c.ownSeen .tx i = s.ownSeen .tx i := congrArg ownOf (h.txWord hL hother hap hi (by decide))
  have hpub : published s c .tx i = false := by rw [published, hown, Bool.not_and_self]
  rw [h.tx i hi, hpub, Bool.or_false]

end

/-- A packet sent after its bytes were written in place changes, of the state before, the slots, the marks, the regions, the
cursor and memory alone (R260). -/
theorem SentAll.frame {s c t : State} {segs : List Segment} {csum ic : Bool} {handle cnt : Word}
    (h : SentAll c t segs csum ic handle cnt) (hc : c = { s with wbuf := c.wbuf, txSlots := c.txSlots, rxSlots := c.rxSlots }) :
    t = { s with
      dma := { s.dma with ts := if s.dma.ts = .suspended then .running else s.dma.ts }
      tx := { s.tx with sub := s.tx.sub + natWord segs.length, coalCnt := cnt }
      txSlots := t.txSlots
      rxSlots := c.rxSlots
      marks := s.marks ++ segs.map fun g => { dma := dmaMapOf s.params g.1, cpu := g.1, len := g.2 }
      regions := (segs.foldl (fun u g => addRegion g.1 g.2 u) s).regions
      mem := t.mem
      wbuf := [] } := by
  have hrest := h.rest
  rw [addRegions_congr segs s c (by rw [hc])] at hrest
  generalize c.rxSlots = R at *
  generalize c.txSlots = A at *
  generalize c.wbuf = W at *
  subst hc
  exact hrest

/-- Settles O44: the checksum leaves the TX ring and the cursor, and what is sent from there is `sendSegments_spec`'s. -/
theorem transmitAccepted : Obligations.TransmitAccepted := by
  intro s segs hs hm hl hsess hup hawake a k c csum cnt slot halign hin hread hsegs hroom hsoft hap hc hover
  have hat := hsess.attached (.inl hup)
  have halloc := (hsess.rings hup).1
  have hle : segs.length ≤ s.tx.n := hroom.trans (by rw [Ring.avail]; omega)
  have hexec : exec .transmit s = complete s (done (sendSegments k csum segs c)) :=
    (exec_transmit_segments hat hup hawake halign hin hread hsegs).trans (transmitSegments_sends hroom hover)
  obtain ⟨hruns, hidle, hother⟩ : RunsWritten s c ∧ _ ∧ _ := softwareCsum_spec hl hc
  have hrings : SameRings s c := softwareCsum_rings k segs s
  have hparams : c.params = s.params := (softwareCsum_keeps k segs s).params
  have hcm : c.memLegal := (softwareCsum_keeps k segs s).mem hm
  have hsent := sendSegments_spec k csum segs hcm (hrings.legal hl) (by rw [hrings.tx]; exact halloc)
    (txSegments_some hsegs).nonempty (by rw [hrings.tx]; exact hle) (by rw [hrings.tx]; exact hsoft)
    fun g hg => hruns.bufferApart (hap g hg)
  rw [hrings.eff, hrings.tx, coalesce_eq] at hsent
  have ht := hsent.frame (hruns.frame hs hc)
  generalize sendSegments k csum segs c = t at *
  rw [complete_done (by rw [ht]; exact hs)] at hexec
  have hwords := hsent.words
  have hothers := hsent.others
  rw [hrings.tx, hparams] at hwords
  rw [hrings.tx] at hothers
  have hrx : t.rxSlots = c.rxSlots := by rw [ht]
  refine ⟨_, hexec, hidle, hother, hsent.bytes, fun j hj => ?_, fun i hi hne => ?_, ?_, fun i hi => ?_, ?_⟩
  · have hslot : slot j < s.tx.n := by rw [← hrings.tx]; exact (hsoft j hj).slot
    have hword := hwords j hj
    rw [hruns.txWord hl.arrays hother hap hslot (by decide)] at hword
    exact hword
  · obtain ⟨hw, hsl⟩ := hothers i hi hne
    exact ⟨fun w hw4 => (hw w hw4).trans (hruns.txWord hl.arrays hother hap hi hw4),
      hsl.trans (hruns.txSlot hl.arrays hother hap hi)⟩
  · exact (congrArg List.length hrx).trans hruns.rxLen
  · exact (congrArg (·.getD i RxSlot.empty) hrx).trans (hruns.rx i hi)
  · rw [← hrx] at ht
    generalize t.txSlots = A at *
    generalize t.rxSlots = R at *
    generalize t.mem = M at *
    subst ht
    rfl

end Sys2Proof.Machine
end

section
/-! PROOF. The software checksum in place (O45). -/

namespace Sys2Proof.Machine

open Sys2Proof

/-! ### The software checksum in place (R263, R84, R91, R95, R169) -/

/-- Where a checksum is asked for that hardware does not insert, of bytes that software may read, `SW_CSUM` is applied to the
segments (R263). -/
theorem softwareCsum_due {s : State} {k : Packet} {segs : List Segment} (hreq : k.csumReq = true)
    (hsoft : s.params.csumOffload = false ∨ bit s.csr.macConfig 8 = false)
    (hread : ∀ g ∈ segs, s.readFault g.1 g.2 = none) :
    softwareCsum k segs s = writePacket (Config.swCsum (packetBytes s segs)) segs s := by
  have hhw : csumInHardware s k = false := by
    obtain h | h := hsoft <;> simp [csumInHardware, h]
  have hnone : packetReadFault s segs = none := List.findSome?_eq_none_iff.2 hread
  rw [softwareCsum, hreq, hhw, hnone]
  rfl

section

variable {s : State} {a : Word} {bs : List Byte}

/-- A run that software may not write raises that fault, whatever it publishes (log 9). -/
theorem writeRun_forbidden (hs : s.sound) {f : Fault} (hf : s.writeFault a bs.length = some f) :
    (writeRun a bs s).fault = some f := by
  have hraised : (raise f (publishSlots s (pushWrite a bs s))).fault = some f := by
    rw [raise_fault, show (publishSlots s (pushWrite a bs s)).fault = none from hs]
    rfl
  rw [writeRun, hf]
  exact (raiseIf_keeps _ _).fault f hraised

/-- What a descriptor waits for does not depend on the slots, nor on a fault. -/
theorem writeRun_writePendingIn (w : List Pending) (r : RingSel) (i : Nat) :
    (writeRun a bs s).writePendingIn w r i ↔ (pushWrite a bs s).writePendingIn w r i := by
  rw [writeRun, raiseIf_eq, raiseIf_eq (s.writeFault a bs.length)]
  cases r <;> exact Iff.rfl

theorem writeRun_published (r : RingSel) (i : Nat) :
    published s (writeRun a bs s) r i = published s (pushWrite a bs s) r i := by
  rw [published, published, writeRun_own]

theorem published_iff {t : State} {r : RingSel} {i : Nat} :
    published s t r i = true ↔ s.ownSeen r i = false ∧ t.ownSeen r i = true := by
  rw [published, Bool.and_eq_true, Bool.not_eq_true']

/-- The run sets the OWN bit of descriptor `i` from 0 to 1. -/
def setsOwn (s c : State) (r : RingSel) (i : Nat) : Prop :=
  i < (s.ring r).n ∧ s.ownSeen r i = false ∧ c.ownSeen r i = true

variable (hs : s.sound) (hf : s.writeFault a bs.length = none)

include hs hf

/-- A permitted run that sets no OWN bit too early raises nothing (R91). -/
theorem writeRun_fault_none (h : ∀ r i, setsOwn s (writeRun a bs s) r i → ¬ (writeRun a bs s).writePendingIn s.wbuf r i) :
    (writeRun a bs s).fault = none := by
  rw [writeRun_fault hs hf, ownFault_none]
  intro r i hi hp
  rw [← writeRun_published, published_iff] at hp
  rw [← Bool.not_eq_true, pendingFor_iff, ← writeRun_writePendingIn]
  exact h r i ⟨hi, hp⟩

/-- A permitted run that sets an OWN bit too early raises MISSING_FENCE at such a descriptor (R91, log 9). -/
theorem writeRun_fault_early
    (h : ∃ r i, setsOwn s (writeRun a bs s) r i ∧ (writeRun a bs s).writePendingIn s.wbuf r i) :
    ∃ r i, setsOwn s (writeRun a bs s) r i ∧ (writeRun a bs s).writePendingIn s.wbuf r i ∧
      (writeRun a bs s).fault = some (.missingFence (s.descAddr r i 0)) := by
  obtain ⟨f, hown⟩ : ∃ f, ownFault s (pushWrite a bs s) = some f := by
    rw [← Option.ne_none_iff_exists', Ne, ownFault_none]
    intro hnone
    obtain ⟨r, i, ⟨hi, hset⟩, hpend⟩ := h
    rw [← published_iff, writeRun_published] at hset
    rw [writeRun_writePendingIn, ← pendingFor_iff, hnone r i hi hset] at hpend
    cases hpend
  obtain ⟨r, i, hi, hset, hpend, rfl⟩ := ownFault_some hown
  rw [← writeRun_published, published_iff] at hset
  rw [pendingFor_iff, ← writeRun_writePendingIn] at hpend
  exact ⟨r, i, ⟨hi, hset⟩, hpend, (writeRun_fault hs hf).trans hown⟩

end

/-- Settles O45: the laws of `writePacket`, and for a packet of one segment those of its one run. -/
theorem softwareChecksumInPlace : Obligations.SoftwareChecksumInPlace := by
  intro s segs hl hmax hpair
  refine ⟨fun k hreq hsoft hread => softwareCsum_due hreq hsoft hread, fun new => ?_⟩
  refine ⟨writePacket_bytes segs new s hmax hpair, writePacket_other new segs s, writePacket_frame new segs s,
    fun hc => ?_, fun hs h => ?_, fun a len hseg hs => ?_⟩
  · obtain ⟨hruns, -⟩ := writePacket_runs new segs s hl hc
    exact ⟨hruns.tx, hruns.rx⟩
  · exact writePacket_apart segs new s hs hl (fun g hg => (h g hg).1) fun g hg => (h g hg).2
  · subst hseg
    have hlen : ((List.range len).map fun k => new.getD k (swByte s (a + natWord k))).length = len := by
      rw [List.length_map, List.length_range]
    refine ⟨fun f hf => writeRun_forbidden hs (hlen.symm ▸ hf), fun hf => ⟨fun h => ?_, fun h => ?_⟩⟩
    · exact writeRun_fault_none hs (hlen.symm ▸ hf) h
    · exact writeRun_fault_early hs (hlen.symm ▸ hf) h

end Sys2Proof.Machine
end

section
/-! PROOF. Reclamation (O46) and TX recovery (O47). -/

namespace Sys2Proof.Machine

open Sys2Proof

/-! ### TX_RECLAIM and the RECLAIM agent (R12, R222, R270, R271) -/

section

variable {s : State}

theorem exec_txReclaim_unallocated (h : s.tx.allocated = false) : exec .txReclaim s = complete s (failed s) :=
  congrArg (complete s) (if_pos (by simp [h]))

theorem exec_txReclaim (hat : s.dev.attached = true) (h : s.tx.allocated = true) :
    exec .txReclaim s = complete s (reclaimRun s) :=
  congrArg (complete s) (if_neg (by simp [hat, h]))

/-- The RECLAIM agent is enabled by the pending flag alone (R270). -/
theorem runEvent_txReclaim (h : s.dev.txReclaimPending = true) :
    runEvent .txReclaim s = .next (settle s (reclaimRun s).st) :=
  congrArg Host.Outcome.next (if_pos h)

/-- On an unallocated ring only the flag is cleared (log 14). -/
theorem reclaimRun_unallocated (h : s.tx.allocated = false) :
    reclaimRun s = { st := { s with dev := { s.dev with txReclaimPending := false } }, res := 0 } :=
  if_neg (by simp [h])

/-- The wake rule as one update of the queue's flag (R271). -/
theorem wakeQueue_eq (s : State) : wakeQueue s = { s with
    dev := { s.dev with txQueueStopped := s.dev.txQueueStopped && !decide (s.tx.n / 4 < s.tx.avail) } } := by
  rw [wakeQueue]
  cases hstop : s.dev.txQueueStopped with
  | false => rw [Bool.false_and, if_neg (by decide), Bool.false_and, ← hstop]
  | true =>
    by_cases hfree : s.tx.n / 4 < s.tx.avail
    · rw [if_pos (by simpa using hfree), decide_eq_true hfree]
      rfl
    · rw [if_neg (by simpa using hfree), decide_eq_false hfree, Bool.not_false, Bool.and_true, ← hstop]

end

/-- Consuming `m` in-flight descriptors frees their slots (R33). -/
theorem avail_comp_add {g : Ring} {m : Nat} (h : m ≤ g.inflight) :
    ({ g with comp := g.comp + natWord m } : Ring).avail = g.n - (g.inflight - m) - 1 := by
  rw [Ring.avail, inflight_comp_add h]

/-- The RECLAIM step consumes the completed descriptors from the completion cursor on, and then applies the wake rule (R270). -/
theorem reclaimRun_spec {s : State} (hl : s.ringsLegal) (ha : s.tx.allocated = true) (hc : s.arrayClear .tx) :
    ∃ u m, reclaimRun s = { st := wakeQueue u, res := natWord m } ∧ m ≤ s.tx.inflight ∧
      (∀ j < m, s.ownSeen .tx (idx (s.tx.comp + natWord j) s.tx.n) = false ∧
        (s.txSlot (idx (s.tx.comp + natWord j) s.tx.n)).pub = true) ∧
      (m < s.tx.inflight → ¬ (s.ownSeen .tx (idx (s.tx.comp + natWord m) s.tx.n) = false ∧
        (s.txSlot (idx (s.tx.comp + natWord m) s.tx.n)).pub = true)) ∧
      ReclaimedRun { s with dev := { s.dev with txReclaimPending := false } } u m := by
  have hsize := hl.tx.size ha
  obtain ⟨hmin, hmax⟩ := ringSizeLegal_bounds hsize
  have hfuel : s.tx.inflight < s.tx.n := Nat.lt_of_le_of_lt (hl.tx.window ha) (by omega)
  have hclear : ∀ i < s.tx.n, s.descClear .tx i := fun i hi => hc.desc ha hi hmax
  obtain ⟨hbound, hfinished, hstop, hrun⟩ := reclaimLoop_spec s.tx.inflight
    { s with dev := { s.dev with txReclaimPending := false } } (hl.arrays.of_same (.of_eq rfl rfl)) hsize ha
    (hl.tx.slots ha) hclear hfuel
  exact ⟨_, _, if_pos ha, hbound, hfinished, hstop, hrun⟩

/-- Settles O46: what the loop leaves is `reclaimLoop_spec`'s, the counters are sums by `reclaim_counts`, and the wake rule sets
one flag (log 14). -/
theorem txReclaimCommand : Obligations.TxReclaimCommand := by
  intro s hs hl slot d0 d1 finished
  refine ⟨fun ha => ⟨fun hat => ?_, fun hp => ?_⟩, fun ha hc => ?_⟩
  · rw [exec_txReclaim_unallocated ha, complete_failed hs]
  · rw [runEvent_txReclaim hp, reclaimRun_unallocated ha]
    exact congrArg Host.Outcome.next (settle_ok hs)
  · obtain ⟨u, m, hrun, hbound, hfinished, hstop, hu⟩ := reclaimRun_spec hl ha hc
    have hrest := hu.rest
    rw [reclaim_counts] at hrest
    have hring : u.tx = { s.tx with comp := s.tx.comp + natWord m } := by rw [hrest]
    have hn : u.tx.n = s.tx.n := by rw [hring]
    have havail : u.tx.avail = s.tx.n - (s.tx.inflight - m) - 1 := by rw [hring, avail_comp_add hbound]
    have hfault : (wakeQueue u).fault = none := by rw [wakeQueue_eq, hrest]; exact hs
    have hcsr : (wakeQueue u).csr = s.csr := by rw [wakeQueue_eq, hrest]
    refine ⟨wakeQueue u, m, fun hat => ?_, fun hp => ?_, hbound, hfinished, hstop, ?_⟩
    · rw [exec_txReclaim hat ha, hrun, complete_result hfault, hcsr]
    · rw [runEvent_txReclaim hp, hrun]
      exact congrArg Host.Outcome.next (settle_ok hfault)
    · rw [wakeQueue_eq]
      refine ⟨hu.bytes, hu.words, hu.others, ?_⟩
      rw [hn, havail]
      generalize u.txSlots = A at *
      generalize u.wbuf = W at *
      subst hrest
      rfl

/-! ### TX recovery (R276, R381, R382) -/

section

variable {s : State}

theorem txRecovery_unallocated (h : s.tx.allocated = false) : txRecovery s = failed s := if_pos (by simp [h])

theorem exec_watchdogExpire_down (h : s.dev.ifup = false) : exec .watchdogExpire s = complete s (failed s) :=
  congrArg (complete s) (if_neg (by simp [h]))

/-- The counters play no part in emptying a chain. -/
theorem chainEmptied.withStats {u t : State} {r : RingSel} (h : chainEmptied u t r) (c : Stats) :
    chainEmptied { u with stats := c } { t with stats := c } r := by
  have hring : ∀ q, ({ u with stats := c } : State).ring q = u.ring q := fun q => by cases q <;> rfl
  refine ⟨?_, ?_, ?_⟩
  · cases r <;> exact h.bytes
  · cases r <;> exact h.words
  · have hrest := h.rest
    generalize t.mem = M at *
    subst hrest
    rfl

end

/-- Settles O47: `recovery_spec`, for the watchdog from the state whose timeout is counted already. -/
theorem recoveryCommands : Obligations.RecoveryCommands := by
  intro s hs hm hl hr hat c on recovers
  refine ⟨fun ha => ?_, fun ha => ?_, fun ha hup => ?_, fun hdown => ?_⟩
  · obtain ⟨t, hempty, heq⟩ := recovery_spec hm hl hr hat ha
    have hnone : s.stats.txTimeout + 0 = s.stats.txTimeout := BitVec.add_zero _
    refine ⟨t, hempty, ?_⟩
    rw [hnone]
    exact (congrArg (complete s) heq).trans (complete_done (hempty.fault.trans hs))
  · exact (congrArg (complete s) (txRecovery_unallocated ha)).trans (complete_failed hs)
  · have hstats := setStats_keeps { s.stats with txTimeout := s.stats.txTimeout + 1 } s
    obtain ⟨t, hempty, heq⟩ := recovery_spec (hstats.mem hm) ((setStats_rings _ s).legal hl) (hstats.regs hr) hat ha
    refine ⟨{ t with stats := s.stats }, hempty.withStats s.stats, ?_⟩
    rw [exec_watchdogExpire_of_ifup hat hup, watchdogStep, heq]
    exact complete_done (hempty.fault.trans hs)
  · rw [exec_watchdogExpire_down hdown, complete_failed hs]

end Sys2Proof.Machine
end

section
/-! PROOF. POLL: the frames taken, the slots refilled and the rearm (O53). -/

namespace Sys2Proof.Machine

open Sys2Proof

/-! ### The slots a poll refills (R33, R228, R305) -/

/-- The submission cursor is `inflight` slots past the completion cursor (R33). -/
theorem filledIdx_eq_takenIdx (s : State) (j : Nat) : filledIdx s j = takenIdx s (s.rx.inflight + j) := by
  rw [filledIdx, takenIdx, sub_eq_comp s.rx, natWord_add_toNat]

section

variable {s : State} (hn : ringSizeLegal s.rx.n = true)
include hn

theorem takenIdx_lt (j : Nat) : takenIdx s j < s.rx.n := idx_lt (by have := ringSizeLegal_bounds hn; omega)

theorem filledIdx_lt (j : Nat) : filledIdx s j < s.rx.n := filledIdx_eq_takenIdx s j ▸ takenIdx_lt hn _

theorem inWindow_takenIdx {j : Nat} (hj : j < s.rx.n) : s.rx.inWindow (takenIdx s j) = decide (j < s.rx.inflight) := by
  rw [Ring.inWindow, takenIdx, window_pos hn, Nat.mod_eq_of_lt hj]

/-- Software owns each slot the refills reach: it lies past the window (R228), or its frame was just taken (R301). -/
theorem filledIdx_not_owned
    (hsoft : ∀ i < s.rx.n, s.rx.inWindow i = false → s.ownSeen .rx i = false) {m : Nat} (hm : m ≤ s.rx.inflight)
    (htaken : ∀ j < m, s.ownSeen .rx (takenIdx s j) = false) {j : Nat} (hj : j < s.rx.n - 1 - (s.rx.inflight - m)) :
    s.ownSeen .rx (filledIdx s j) = false := by
  rw [filledIdx_eq_takenIdx]
  rcases Nat.lt_or_ge (s.rx.inflight + j) s.rx.n with hpast | hwrap
  · refine hsoft _ (takenIdx_lt hn _) ?_
    rw [inWindow_takenIdx hn hpast]
    exact decide_eq_false (by omega)
  · obtain ⟨l, hl⟩ := Nat.exists_eq_add_of_le' hwrap
    rw [hl, takenIdx, idx_period hn]
    exact htaken l (by omega)

end

/-! ### What taking `m` frames leaves to the refills (R300 to R303) -/

theorem takenShorts_eq (s : State) (m : Nat) : takenShorts s m =
    (List.range m).countP fun j => decide (takenClass s j ≠ .discard ∧ bitsAt (takenWord s j) 16 14 < 4) :=
  List.countP_congr fun _ _ => by rw [frameShort, ← Bool.decide_and]; rfl

/-- `s` without the marks of the buffers delivered with its first `m` frames, their regions the upper layer's, and the
open lengths drawn (R303). -/
def delivered (s : State) (m : Nat) : State :=
  { s with
    marks := (List.range m).foldl (fun g j =>
      if takenClass s j ≠ .discard then withoutBuffer g (takenSlot s j).addr s.eff.bufSz else g) s.marks
    regions := (List.range m).foldl (fun g j =>
      if takenClass s j ≠ .discard then givenAway g (takenSlot s j).buf else g) s.regions
    draws := s.draws + (List.range m).countP fun j =>
      decide (takenClass s j ≠ .discard ∧ bitsAt (takenWord s j) 16 14 < 4) }

/-- The buffer of slot `i` went out with one of the first `m` frames. -/
abbrev slotDelivered (s : State) (m i : Nat) : Prop := ∃ l < m, i = takenIdx s l ∧ takenClass s l ≠ .discard

/-- Slot `i` holds no buffer after the first `m` frames. -/
abbrev slotVacant (s : State) (m i : Nat) : Prop := (s.rxSlot i).buf = none ∨ slotDelivered s m i

namespace TakenRun

variable {s u : State} {m : Nat} (h : TakenRun s u m)
include h

theorem rest_delivered : u = { delivered s m with
    rx := { s.rx with comp := s.rx.comp + natWord m }
    rxSlots := u.rxSlots
    stats := (List.range m).foldl (fun c j => takeStats (takenClass s j) (takenLen s j) c) s.stats
    outputs := s.outputs ++ (List.range m).filterMap fun j =>
      if takenClass s j ≠ .discard then
        (takenSlot s j).buf.map fun b => Output.deliver b (takenLen s j) (stampOf (takenClass s j))
      else none } := by
  rw [delivered, ← takenShorts_eq]
  exact h.rest

theorem rx : u.rx = { s.rx with comp := s.rx.comp + natWord m } := by rw [h.rest]

theorem n : u.rx.n = s.rx.n := by rw [h.rx]

theorem eff : u.eff = s.eff := by rw [h.rest]

theorem params : u.params = s.params := by rw [h.rest]

theorem inflight (hm : m ≤ s.rx.inflight) : u.rx.inflight = s.rx.inflight - m := by
  rw [h.rx, inflight_comp_add hm]

theorem filledIdx (j : Nat) : filledIdx u j = Machine.filledIdx s j := by
  rw [Machine.filledIdx, Machine.filledIdx, h.rx]

theorem sameArrays : SameArrays s u := fun r => by rw [h.rest]; cases r <;> exact ⟨rfl, rfl, rfl⟩

theorem bytes : sameBytes s u := swByte_congr (by rw [h.rest]) (by rw [h.rest])

theorem word (i k : Nat) : u.descWord .rx i k = s.descWord .rx i k :=
  descWord_congr h.bytes h.params (h.sameArrays .rx).2.2

theorem marked {a : Word} (ha : s.marked a = false) : u.marked a = false := by
  rw [State.marked, h.rest]
  refine List.foldlRecOn (motive := fun g : List Mark => (g.any fun k => inSpan k.cpu k.len a) = false) _ _ ha
    fun g hg j _ => ?_
  split
  · exact withoutBuffer_marked hg
  · exact hg

theorem arrayClear (hc : s.arrayClear .rx) : u.arrayClear .rx := fun a ha => by
  rw [h.sameArrays.holds] at ha
  exact deviceByte_same h.sameArrays ha h.marked h.bytes (by rw [h.params]) (hc a ha)

theorem slot_of_delivered {i : Nat} (hd : slotDelivered s m i) :
    u.rxSlot i = { buf := none, addr := some 0, pub := false } := by
  obtain ⟨l, hl, rfl, hgood⟩ := hd
  rw [h.taken l hl, if_pos hgood]

/-- A slot that gave no buffer away keeps it and its address, published or not. -/
theorem slot_of_kept {i : Nat} (hi : i < s.rx.n) (hd : ¬ slotDelivered s m i) :
    ∃ pub, u.rxSlot i = { s.rxSlot i with pub := pub } := by
  by_cases ht : ∃ l < m, i = takenIdx s l
  · obtain ⟨l, hl, rfl⟩ := ht
    exact ⟨false, by rw [h.taken l hl, if_neg fun hgood => hd ⟨l, hl, rfl, hgood⟩]; rfl⟩
  · exact ⟨(s.rxSlot i).pub, h.others i hi fun l hl hc => ht ⟨l, hl, hc⟩⟩

theorem buf_none_iff {i : Nat} (hi : i < s.rx.n) :
    (u.rxSlot i).buf = none ↔ slotVacant s m i := by
  by_cases hd : slotDelivered s m i
  · rw [h.slot_of_delivered hd]
    exact iff_of_true rfl (.inr hd)
  · obtain ⟨pub, hslot⟩ := h.slot_of_kept hi hd
    rw [hslot]
    exact (or_iff_left hd).symm

theorem buffersApart (hap : ∀ i < s.rx.n, ∀ b, (s.rxSlot i).buf = some b →
      s.arrayApart .rx ((s.rxSlot i).addr.getD 0) s.eff.bufSz) :
    ∀ i < u.rx.n, ∀ b, (u.rxSlot i).buf = some b → u.arrayApart .rx ((u.rxSlot i).addr.getD 0) u.eff.bufSz := by
  intro i hi b hb x hx
  rw [h.n] at hi
  rw [h.sameArrays.holds] at hx
  by_cases hd : slotDelivered s m i
  · rw [h.slot_of_delivered hd] at hb
    cases hb
  · obtain ⟨pub, hslot⟩ := h.slot_of_kept hi hd
    rw [hslot] at hb ⊢
    rw [h.eff]
    exact hap i hi b hb x hx

theorem filledEmpty_eq (hn : ringSizeLegal s.rx.n = true) (k : Nat) :
    filledEmpty u k = (List.range k).countP fun j => decide (slotVacant s m (Machine.filledIdx s j)) := by
  refine List.countP_congr fun j _ => ?_
  rw [h.filledIdx, Option.isNone_iff_eq_none, decide_eq_true_eq, h.buf_none_iff (filledIdx_lt hn j)]

theorem refillsWith {new : List Word} {failed : Bool} (hw : u.refillsWith new failed) :
    (delivered s m).refillsWith new failed := by
  have hrest := h.rest_delivered
  generalize u.rxSlots = slots at hrest
  subst hrest
  exact ⟨hw.given, hw.refused⟩

end TakenRun

/-! ### The rearm (R309) -/

/-- `t` is `v` after the rearm, if budget was `left` over. -/
structure RearmedIf (left : Prop) [Decidable left] (v t : State) : Prop where
  bytes : sameBytes v t
  drained : left → ∀ x : Word, memRead t.mem x.toNat = swByte t x
  idle : ¬ left → t = v
  rest : t = { v with
    csr := { v.csr with dmaIer := if left then putBit v.csr.dmaIer 6 true else v.csr.dmaIer }
    dev := { v.dev with rxPollScheduled := v.dev.rxPollScheduled && !decide left }
    mem := t.mem
    wbuf := t.wbuf }

theorem rearm_eq {v : State} (he : v.csr.dmaIer &&& ~~~ierMask = 0) : rearm v = { descFence v with
    csr := { v.csr with dmaIer := putBit v.csr.dmaIer 6 true }
    dev := { v.dev with rxPollScheduled := false } } :=
  congrArg (fun w => { descFence v with
    csr := { v.csr with dmaIer := w }, dev := { v.dev with rxPollScheduled := false } }) (ier_put he)

theorem rearmedIf {v : State} (left : Prop) [Decidable left] (hm : v.memLegal) (he : v.csr.dmaIer &&& ~~~ierMask = 0) :
    RearmedIf left v (if left then rearm v else v) := by
  by_cases hleft : left
  · rw [if_pos hleft, rearm_eq he]
    refine ⟨swByte_descFence hm, fun _ x => (descFence_memRead hm x).trans (swByte_descFence hm x).symm,
      fun hc => absurd hleft hc, ?_⟩
    simp only [hleft, if_true, decide_true, Bool.not_true, Bool.and_false]
    rfl
  · rw [if_neg hleft]
    refine ⟨fun _ => rfl, fun hc => absurd hc hleft, fun _ => rfl, ?_⟩
    simp only [hleft, if_false, decide_false, Bool.not_false, Bool.and_true]

/-! ### A poll of an interface that is up (R300, R305, R309) -/

/-- A poll of `s` with budget `b` takes `m` frames, which leaves `u`; makes `k` refills with the buffers `new`, up to one
that `failed` if any did, which leaves `v`; and rearms where budget is left, which leaves `t`. -/
structure PollPass (s u v t : State) (b m k : Nat) (failed : Bool) (new : List Word) : Prop where
  budget : m ≤ b
  window : m ≤ s.rx.inflight
  unowned : ∀ j < m, s.ownSeen .rx (takenIdx s j) = false
  stop : m < b → m < s.rx.inflight → s.ownSeen .rx (takenIdx s m) = true
  taken : TakenRun s u m
  room : k ≤ s.rx.n - 1 - (s.rx.inflight - m)
  full : failed = false → k = s.rx.n - 1 - (s.rx.inflight - m)
  short : failed = true → k < s.rx.n - 1 - (s.rx.inflight - m)
  refilled : RefilledRun u v k failed new
  rearmed : RearmedIf (m < b) v t

theorem RefilledRun.csr {s t : State} {k : Nat} {failed : Bool} {new : List Word} (h : RefilledRun s t k failed new) :
    t.csr = s.csr := by
  rw [h.rest]
  rfl

theorem RefilledRun.sameArrays {s t : State} {k : Nat} {failed : Bool} {new : List Word}
    (h : RefilledRun s t k failed new) : SameArrays s t := fun r => by
  rw [h.rest]
  cases r <;> exact ⟨rfl, rfl, rfl⟩

theorem exec_poll (budget : BitVec 16) (s : State) : exec (.poll budget) s = complete s (pollRun budget.toNat s) := rfl

theorem pollRun_down {s : State} (b : Nat) (h : s.operational = false) : pollRun b s = { st := s, res := 0 } :=
  if_pos (by rw [h]; rfl)

theorem pollRun_pass {s : State} (b : Nat) (hm : s.memLegal) (hl : s.ringsLegal) (hr : s.regsLegal)
    (ha : s.rx.allocated = true) (hop : s.operational = true) (hc : s.arrayClear .rx)
    (hap : ∀ i < s.rx.n, ∀ b, (s.rxSlot i).buf = some b → s.arrayApart .rx ((s.rxSlot i).addr.getD 0) s.eff.bufSz)
    (hsoft : ∀ i < s.rx.n, s.rx.inWindow i = false → s.ownSeen .rx i = false) :
    ∃ u v t m k failed new, pollRun b s = { st := t, res := natWord m } ∧ PollPass s u v t b m k failed new := by
  have hn := hl.rx.size ha
  obtain ⟨hmin, hmax⟩ := ringSizeLegal_bounds hn
  have hwin := hl.rx.window ha
  have hclear : ∀ i < s.rx.n, s.descClear .rx i := fun i hi => hc.desc ha hi hmax
  have hrun : pollRun b s = {
      st := if (pollLoop (min b s.rx.inflight) s).1 < b
        then rearm (refillPass (pollLoop (min b s.rx.inflight) s).2)
        else refillPass (pollLoop (min b s.rx.inflight) s).2
      res := natWord (pollLoop (min b s.rx.inflight) s).1 } :=
    if_neg (by rw [hop]; decide)
  obtain ⟨hfuel, hunowned, hstop, htaken⟩ :=
    pollLoop_spec (min b s.rx.inflight) s hn hl.arrays (hl.rx.slots ha) hclear (by omega)
  generalize (pollLoop (min b s.rx.inflight) s).1 = m at *
  generalize (pollLoop (min b s.rx.inflight) s).2 = u at *
  have hwindow : m ≤ s.rx.inflight := by omega
  have hinf := htaken.inflight hwindow
  have hroom : u.rx.n - 1 - u.rx.inflight = s.rx.n - 1 - (s.rx.inflight - m) := by rw [htaken.n, hinf]
  have hmu : u.memLegal := by rw [htaken.rest]; exact hm
  obtain ⟨k, new, hk, hok, hshort, hfilled⟩ := refillMany_spec (u.rx.n - 1 - u.rx.inflight) u hmu
    (by rw [htaken.n]; exact hn) (hl.arrays.of_same htaken.sameArrays)
    (by rw [htaken.slots, htaken.n]; exact hl.rx.slots ha) (htaken.arrayClear hc) (htaken.buffersApart hap)
    (by rw [hroom, htaken.n, hinf]; omega)
    (fun j hj => by
      rw [htaken.filledIdx, State.ownSeen, htaken.word]
      exact filledIdx_not_owned hn hsoft hwindow hunowned (hroom ▸ hj))
  refine ⟨u, refillPass u, _, m, k, _, new, hrun, by omega, hwindow, hunowned, fun h1 h2 => hstop (by omega), htaken,
    hroom ▸ hk, fun h => hroom ▸ hok (by simpa using h), fun h => hroom ▸ hshort (by simpa using h), hfilled,
    rearmedIf _ hfilled.mem ?_⟩
  rw [show (refillPass u).csr = s.csr by rw [refillPass, hfilled.csr, htaken.rest]]
  exact hr.csr.enables

namespace PollPass

variable {s u v t : State} {b m k : Nat} {failed : Bool} {new : List Word} (h : PollPass s u v t b m k failed new)
include h

theorem rxSlot (i : Nat) : t.rxSlot i = v.rxSlot i := by rw [h.rearmed.rest]; rfl

theorem word (i w : Nat) : t.descWord .rx i w = v.descWord .rx i w :=
  descWord_congr h.rearmed.bytes (by rw [h.rearmed.rest]) (by rw [h.rearmed.rest]; rfl)

theorem bytes : sameBytesButRing s t .rx := fun a ha => by
  rw [h.rearmed.bytes a, h.refilled.bytes a (by rw [h.taken.sameArrays.holds]; exact ha), h.taken.bytes a]

theorem slot_drawn (hn : ringSizeLegal s.rx.n = true) {j : Nat} (hj : j < k)
    (he : slotVacant s m (filledIdx s j)) :
    ∃ b, new[(List.range j).countP fun i => decide (slotVacant s m (filledIdx s i))]? = some b ∧
      t.rxSlot (filledIdx s j) = { buf := some b, addr := some (dmaMapOf s.params b), pub := true } := by
  have hslot := h.refilled.fresh j hj
  rw [h.taken.filledIdx, h.taken.params, ← h.rxSlot, h.taken.filledEmpty_eq hn] at hslot
  exact hslot ((h.taken.buf_none_iff (filledIdx_lt hn j)).2 he)

theorem slot_reused (hn : ringSizeLegal s.rx.n = true) {j : Nat} (hj : j < k)
    (he : ¬ slotVacant s m (filledIdx s j)) :
    t.rxSlot (filledIdx s j) = { s.rxSlot (filledIdx s j) with pub := true } := by
  have hi := filledIdx_lt hn j
  obtain ⟨buf, hbuf⟩ := Option.ne_none_iff_exists'.1 (mt (h.taken.buf_none_iff hi).1 he)
  obtain ⟨pub, hkept⟩ := h.taken.slot_of_kept hi fun hd => he (.inr hd)
  have hslot := h.refilled.kept j hj buf (by rw [h.taken.filledIdx]; exact hbuf)
  rw [h.taken.filledIdx, hkept] at hslot
  rw [h.rxSlot, hslot]

theorem words {j : Nat} (hj : j < k) :
    t.descWord .rx (filledIdx s j) 0 = 0x8000_0000 ∧
      t.descWord .rx (filledIdx s j) 1 = rxDes1 (bit (s.descWord .rx (filledIdx s j) 1) 27)
        (decide (((coalNext s.eff.rxCoal)^[j] s.rx.coalCnt + 1).toNat < s.eff.rxCoal)) s.eff.bufSz ∧
      t.descWord .rx (filledIdx s j) 2 = (t.rxSlot (filledIdx s j)).addr.getD 0 ∧
      t.descWord .rx (filledIdx s j) 3 = 0 := by
  have hwords := h.refilled.words j hj
  rw [h.taken.filledIdx, h.taken.word, h.taken.eff, h.taken.rx] at hwords
  simp only [h.word, h.rxSlot]
  exact hwords

/-- A slot that is not refilled keeps its descriptor, and its contents are what the frames taken left. -/
theorem unfilled {i : Nat} (hi : i < s.rx.n) (hne : ∀ j < k, i ≠ filledIdx s j) :
    (∀ w < 4, t.descWord .rx i w = s.descWord .rx i w) ∧ t.rxSlot i = u.rxSlot i := by
  obtain ⟨hslot, hwords⟩ := h.refilled.others i (by rw [h.taken.n]; exact hi)
    fun j hj => by rw [h.taken.filledIdx]; exact hne j hj
  exact ⟨fun w hw => by rw [h.word, hwords w hw, h.taken.word], (h.rxSlot i).trans hslot⟩

/-- All but the last published des0 is in memory (R91): that write is the one still pending. -/
theorem memory {j : Nat} (hk : k = j + 1) {x : Word} (hx : inSpan (s.descAddr .rx (filledIdx s j) 0) 4 x = false) :
    memRead t.mem x.toNat = swByte t x := by
  by_cases hleft : m < b
  · exact h.rearmed.drained hleft x
  · rw [h.rearmed.idle hleft]
    refine h.refilled.memory j hk x ?_
    rw [h.taken.filledIdx, State.descAddr, (h.taken.sameArrays .rx).2.2]
    exact hx

theorem idle (hk : k = 0) (hleft : ¬ m < b) : t.mem = s.mem ∧ t.wbuf = s.wbuf := by
  obtain ⟨hmem, hwbuf⟩ := h.refilled.idle hk
  rw [h.rearmed.idle hleft, hmem, hwbuf, h.taken.rest]
  exact ⟨rfl, rfl⟩

/-- What a pass changes and what it leaves (R300 to R306). -/
theorem rest : t = { s with
    csr := { s.csr with dmaIer := if m < b then putBit s.csr.dmaIer 6 true else s.csr.dmaIer }
    rx := { s.rx with
      comp := s.rx.comp + natWord m
      sub := s.rx.sub + natWord k
      coalCnt := (coalNext s.eff.rxCoal)^[k] s.rx.coalCnt }
    rxSlots := t.rxSlots
    dev := { s.dev with rxPollScheduled := s.dev.rxPollScheduled && !decide (m < b) }
    stats := { s.stats with
      rxErrors := s.stats.rxErrors +
        BitVec.ofNat 64 ((List.range m).countP fun j => !decide (takenClass s j ≠ .discard))
      rxPackets := s.stats.rxPackets +
        BitVec.ofNat 64 ((List.range m).countP fun j => decide (takenClass s j ≠ .discard))
      rxBytes := s.stats.rxBytes +
        BitVec.ofNat 64 (((List.range m).filter fun j => decide (takenClass s j ≠ .discard)).map (takenLen s)).sum
      rxCsumOk := s.stats.rxCsumOk + BitVec.ofNat 64
        ((List.range m).countP fun j => decide (takenClass s j = .csumUnnecessary))
      rxAllocFail := if failed then s.stats.rxAllocFail + 1 else s.stats.rxAllocFail }
    outputs := s.outputs ++ (List.range m).filterMap fun j =>
      if takenClass s j ≠ .discard then
        (takenSlot s j).buf.map fun b => Output.deliver b (takenLen s j) (stampOf (takenClass s j))
      else none
    marks := ((delivered s m).withBuffers new).marks
    regions := ((delivered s m).withBuffers new).regions
    allocAnswers := s.allocAnswers.drop (new.length + failed.toNat)
    draws := (delivered s m).draws + (new.length + failed.toNat - s.allocAnswers.length)
    mem := t.mem
    wbuf := t.wbuf } := by
  have hu := h.taken.rest_delivered
  have hv := h.refilled.rest
  have ht := h.rearmed.rest
  rw [take_counts] at hu
  clear h
  generalize u.rxSlots = A at hu
  generalize v.rxSlots = B at hv
  generalize v.mem = C at hv
  generalize v.wbuf = D at hv
  generalize t.mem = E at *
  generalize t.wbuf = F at *
  subst hu
  subst hv
  subst ht
  rfl

end PollPass

/-- Settles O53: a pass is `pollRun_pass`'s, and each clause is what one of its three parts says. -/
theorem pollCommand : Obligations.PollCommand := by
  intro s budget hs hm hl hr hsession
  refine ⟨fun hdown => ?_, fun hup hawake hc hap hsoft => ?_⟩
  · have hop : s.operational = false := by rcases hdown with h | h <;> simp [State.operational, h]
    rw [exec_poll, pollRun_down _ hop, complete_result hs]
  · have ha := (hsession.rings hup).2
    have hn := hl.rx.size ha
    obtain ⟨u, v, t, m, k, failed, new, hrun, h⟩ :=
      pollRun_pass budget.toNat hm hl hr ha (operational_iff.2 ⟨hup, hawake⟩) hc hap hsoft
    have hfault : t.fault = none := by rw [h.rest]; exact hs
    refine ⟨{ t with csr := { t.csr with result := natWord m } }, m, k, takenLen s, failed, new, ?_, h.budget, h.window,
      h.unowned, h.stop, fun j _ _ hlen => if_pos hlen, ?_⟩
    · rw [exec_poll, hrun, complete_result hfault]
    refine ⟨h.room, h.full, fun hf => ⟨h.short hf, ?_⟩, h.taken.refillsWith h.refilled.oracle,
      h.refilled.count.trans (h.taken.filledEmpty_eq hn k), fun j hj he => h.slot_drawn hn hj he,
      fun j hj he => h.slot_reused hn hj he, fun j hj => h.words hj, fun i hi hne => ?_, h.bytes, h.rearmed.drained,
      fun j hk x hx => h.memory hk hx, h.idle, congrArg (fun w : State => { w with
        csr := { w.csr with result := natWord m } }) h.rest⟩
    · exact (h.taken.buf_none_iff (filledIdx_lt hn k)).1 (h.taken.filledIdx k ▸ h.refilled.stopped hf)
    · obtain ⟨hwords, hslot⟩ := h.unfilled hi hne
      refine ⟨hwords, fun ht => hslot.trans (h.taken.others i hi ht), ?_⟩
      rintro j hj rfl
      exact hslot.trans (h.taken.taken j hj)

end Sys2Proof.Machine
end

section
/-! PROOF. The DMA agents where they take a frame: DMA_TX sends it (O48) or gives it up (O49), DMA_RX receives it (O51). -/

namespace Sys2Proof.Machine

open Sys2Proof

/-! ### The TX frame (R332, R334, R335) -/

/-- DMA_TX may send, and `js` are the descriptors of the READY frame at its pointer (R332, R333). -/
structure Sending (s : State) (js : List Nat) : Prop where
  sound : s.sound
  enabled : s.txEnabled = true
  ready : s.chainReady js

section

variable {s : State} {js : List Nat}

theorem withReadyChain_takes (h : s.chainReady js) (k : List Nat → State) :
    withReadyChain s k = .next (settle s (k js)) := by
  simp only [withReadyChain, chain_ready h]

/-- What goes to the wire, by the words of the frame's descriptors (R332, R333). -/
theorem wireFrame_eq (h : s.chainReady js) :
    wireFrame s js = if bit (s.dmaDescWord .tx s.dma.txIdx 1) 28 && bit s.csr.macConfig 8
      then Config.hwCsum (s.chainBytes js) else s.chainBytes js := by
  simp only [wireFrame, csumInserted, frameBytes_eq, head_of_ready h]
  rfl

theorem closeFrame_fault (js : List Nat) (v : Word) (s : State) : (closeFrame js v s).fault = s.fault := by
  rw [closeFrame_eq]

/-- A frame is closed in memory whatever its step did to the registers, the outputs and the draws before. -/
theorem closeFrame_closed {u : State} (hm : s.memLegal) (hmem : u.mem = s.mem) (hcell : u.dmaCell = s.dmaCell)
    (hparams : u.params = s.params) (htx : u.tx = s.tx) (js : List Nat) (v : Word) :
    chainClosed s (closeFrame js v u) js v := by
  have hcells : closeCells u js v = closeCells s js v := closeCells_congr (congrFun hcell) (by rw [htx]) hparams js v
  rw [closeFrame_eq, hcells, hmem]
  exact chainClosed_of js v hm rfl hparams htx

theorem chainClosed_latch {t : State} {v : Word} (h : chainClosed s t js v) (b : Source) : chainClosed s (latch b t) js v :=
  ⟨h.words, h.others⟩

theorem chainClosed_suspendTx {t : State} {v : Word} (h : chainClosed s t js v) : chainClosed s (suspendTx t) js v :=
  ⟨h.words, h.others⟩

/-! Each step of DMA_TX at a READY frame: sent, given up, or the first byte outside every region met. -/

theorem txFrame_sends (h : Sending s js) (ho : frameOutside s js = none) :
    exec .dmaTxFrame s = .next (closeFrame js 0 (output (.emit (wireFrame s js)) s)) := by
  have hfault : (closeFrame js 0 (output (.emit (wireFrame s js)) s)).fault = none :=
    (closeFrame_fault ..).trans h.sound
  rw [← settle_of_none (s := s) hfault]
  simp [exec, execDmaTxFrame, h.enabled, withReadyChain_takes h.ready, ho]

theorem txFrame_outside (h : Sending s js) {x : Word} (hx : frameOutside s js = some x) :
    exec .dmaTxFrame s = .next { s with fault := some (.dmaOutOfBounds x) } := by
  simp [exec, execDmaTxFrame, h.enabled, withReadyChain_takes h.ready, hx, raise_of_sound h.sound, settle]

theorem txUnderflow_aborts (h : Sending s js) (hc : bit s.csr.dmaCtrl 2 = false) :
    exec .dmaTxUnderflow s = .next (suspendTx (latch .unf (closeFrame js underflowStatus s))) := by
  have hfault : (suspendTx (latch .unf (closeFrame js underflowStatus s))).fault = none :=
    (closeFrame_fault ..).trans h.sound
  simp [exec, execDmaTxUnderflow, h.enabled, hc, withReadyChain_takes h.ready, settle_of_none hfault]

/-- What the jabbered frame has put on the wire: an open prefix of it, drawn once (R335, log 20). -/
def jabbered (js : List Nat) (s : State) : State :=
  output (.emit ((wireFrame s js).take (Config.jabberPrefix s.draws))) { s with draws := s.draws + 1 }

theorem txJabber_aborts (h : Sending s js) (ho : frameOutside s js = none) :
    exec .dmaTxJabber s = .next (latch .tjt (closeFrame js jabberStatus (jabbered js s))) := by
  have hfault : (latch .tjt (closeFrame js jabberStatus (jabbered js s))).fault = none :=
    (closeFrame_fault ..).trans h.sound
  rw [← settle_of_none (s := s) hfault]
  simp [exec, execDmaTxJabber, h.enabled, withReadyChain_takes h.ready, ho, jabbered]

theorem txJabber_outside (h : Sending s js) {x : Word} (hx : frameOutside s js = some x) :
    exec .dmaTxJabber s = .next { s with fault := some (.dmaOutOfBounds x) } := by
  simp [exec, execDmaTxJabber, h.enabled, withReadyChain_takes h.ready, hx, raise_of_sound h.sound, settle]

end

/-- Settles O48: the chain is READY, so the step emits the frame and closes it, or meets the byte outside. -/
theorem dmaTxFrameStep : Obligations.DmaTxFrameStep := by
  intro s js hs hm hp ht he hready last bytes
  have h : Sending s js := ⟨hs, txEnabled_of hs hp ht he, hready⟩
  refine ⟨fun ho => ⟨_, txFrame_sends h ho, closeFrame_closed (u := output _ s) hm rfl rfl rfl rfl js 0, ?_⟩,
    fun x hx => txFrame_outside h hx⟩
  rw [closeFrame_eq, wireFrame_eq hready]
  rfl

/-- Settles O49: an aborted frame is closed as a sent one is, with its own status word, latch and process state. -/
theorem dmaTxAbortedFrames : Obligations.DmaTxAbortedFrames := by
  intro s js hs hm hp ht he hready last bytes src
  have h : Sending s js := ⟨hs, txEnabled_of hs hp ht he, hready⟩
  have hunder := closeFrame_closed hm rfl rfl rfl rfl js underflowStatus
  have hjabber := closeFrame_closed (u := jabbered js s) hm rfl rfl rfl rfl js jabberStatus
  refine ⟨fun hc => ⟨_, txUnderflow_aborts h hc, chainClosed_suspendTx (chainClosed_latch hunder .unf), ?_⟩,
    fun ho => ⟨_, Config.jabberPrefix s.draws, txJabber_aborts h ho, chainClosed_latch hjabber .tjt, ?_⟩,
    fun x hx => txJabber_outside h hx⟩
  · rw [closeFrame_eq]
    rfl
  · rw [closeFrame_eq, jabbered, wireFrame_eq hready]
    rfl

/-! ### A DMA agent's write of distinct cells (R330) -/

section

variable {s t : State} {ps : List (Option Nat × Byte)}

theorem putCells_nodup {m : Memory} (hok : CellsOk ps) (hm : Memory.wf m = true) (hnd : (ps.map Prod.fst).Nodup) {x : Nat}
    {b : Byte} (h : (some x, b) ∈ ps) : memRead (putCells ps m) x = b :=
  putCells_at hok hm (fun _ hp hx => congrArg Prod.snd (List.inj_on_of_nodup_map hnd hp h hx)) ⟨_, h, rfl⟩

/-- A byte written to a cell no other write reaches is what the agents read there. -/
theorem dmaByte_written (hm : s.memLegal) (ht : t.mem = putCells ps s.mem) (hcell : t.dmaCell = s.dmaCell)
    (hok : CellsOk ps) (hnd : (ps.map Prod.fst).Nodup) {d : Word} (hin : ∃ x, s.dmaCell d = some x) {b : Byte}
    (h : (s.dmaCell d, b) ∈ ps) : t.dmaByte d = b := by
  obtain ⟨x, hx⟩ := hin
  rw [hx] at h
  simp only [State.dmaByte, hcell, hx, ht]
  exact putCells_nodup hok hm hnd h

theorem dmaWord_of_bytes {d v : Word}
    (h : ∀ b < 4, t.dmaByte (d + natWord b) = (splitWord t.params.endian v).getD b 0) : t.dmaWord d = v := by
  have h0 := h 0 (by decide)
  rw [show d + natWord 0 = d from BitVec.add_zero _] at h0
  rw [State.dmaWord, h0, show t.dmaByte (d + 1) = _ from h 1 (by decide), show t.dmaByte (d + 2) = _ from h 2 (by decide),
    show t.dmaByte (d + 3) = _ from h 3 (by decide)]
  exact joinBytes_splitWord _ _

theorem writeCells_fst (s : State) (d : Word) (bs : List Byte) :
    (writeCells s d bs).map Prod.fst = ((List.range bs.length).map fun k => d + natWord k).map s.dmaCell := by
  induction bs generalizing d with
  | nil => rfl
  | cons b bs ih =>
    simp only [writeCells, List.map_cons, ih, List.length_cons, List.range_succ_eq_map, List.map_map, Function.comp_def,
      add_natWord_succ, Nat.succ_eq_add_one]
    rw [show d + natWord 0 = d from BitVec.add_zero _]

theorem writeCells_reverse_fst (s : State) (d : Word) (bs : List Byte) :
    ((writeCells s d bs).reverse.map Prod.fst).Perm (((List.range bs.length).map fun k => d + natWord k).map s.dmaCell) :=
  writeCells_fst s d bs ▸ (List.reverse_perm _).map _

end

/-! ### Where a received frame goes (R342) -/

/-- The address of byte `k` of a received frame of `w` bytes: BS1 bytes at des2, then the rest at des3 (R342). -/
def receivedAt (s : State) (j w k : Nat) : Word :=
  let first := min w (bs1Of (s.dmaDescWord .rx j 1))
  if k < first then s.dmaDescWord .rx j 2 + natWord k else s.dmaDescWord .rx j 3 + natWord (k - first)

/-- The cells a received frame of `w` bytes and its descriptor's des0 go to (R342). -/
def rxCells (s : State) (j w : Nat) : List (Option Nat) :=
  ((List.range w).map (receivedAt s j w) ++ (List.range 4).map fun b => s.dmaDesc .rx j 0 + natWord b).map s.dmaCell

/-- The writes of a received frame's first `w` bytes (R342). -/
def rxFrameWrites (s : State) (j w : Nat) (bytes : List Byte) : List (Option Nat × Byte) :=
  let first := min w (bs1Of (s.dmaDescWord .rx j 1))
  (writeCells s (s.dmaDescWord .rx j 2) (bytes.take first)).reverse ++
    (writeCells s (s.dmaDescWord .rx j 3) ((bytes.drop first).take (w - first))).reverse

/-- The writes of a reception: the frame's bytes, then the status word (R342). -/
def rxWrites (s : State) (j w : Nat) (bytes : List Byte) (status : Word) : List (Option Nat × Byte) :=
  rxFrameWrites s j w bytes ++ (writeCells s (s.dmaDesc .rx j 0) (splitWord s.params.endian status)).reverse

section

variable {s : State} {j w : Nat} {bytes : List Byte} {status : Word}

/-- The addresses of a received frame, span by span. -/
theorem range_map_receivedAt (s : State) (j w : Nat) :
    let first := min w (bs1Of (s.dmaDescWord .rx j 1))
    (List.range w).map (receivedAt s j w) =
      (List.range first).map (fun k => s.dmaDescWord .rx j 2 + natWord k) ++
        (List.range (w - first)).map fun k => s.dmaDescWord .rx j 3 + natWord k := by
  intro first
  have hw : List.range w = List.range first ++ (List.range (w - first)).map (first + ·) := by
    rw [← List.range_add, Nat.add_sub_cancel' (Nat.min_le_left ..)]
  rw [hw, List.map_append, List.map_map]
  congr 1
  · exact List.map_congr_left fun k hk => if_pos (List.mem_range.1 hk)
  · refine List.map_congr_left fun k _ => (if_neg (Nat.not_lt.2 (Nat.le_add_right first k))).trans ?_
    rw [show first + k - first = k from Nat.add_sub_cancel_left ..]

/-- The writes of a reception go to its cells, each once. -/
theorem rxWrites_fst (hlen : w ≤ bytes.length) : ((rxWrites s j w bytes status).map Prod.fst).Perm (rxCells s j w) := by
  have hfirst := Nat.min_le_left w (bs1Of (s.dmaDescWord .rx j 1))
  simp only [rxWrites, rxFrameWrites, rxCells, List.map_append, range_map_receivedAt]
  generalize min w (bs1Of (s.dmaDescWord .rx j 1)) = first at hfirst
  have htake : (bytes.take first).length = first := by simp; omega
  have hdrop : ((bytes.drop first).take (w - first)).length = w - first := by simp; omega
  have h2 := writeCells_reverse_fst s (s.dmaDescWord .rx j 2) (bytes.take first)
  have h3 := writeCells_reverse_fst s (s.dmaDescWord .rx j 3) ((bytes.drop first).take (w - first))
  have h0 := writeCells_reverse_fst s (s.dmaDesc .rx j 0) (splitWord s.params.endian status)
  rw [htake] at h2
  rw [hdrop] at h3
  rw [splitWord_length] at h0
  exact (h2.append h3).append h0

theorem rxWrites_ok (s : State) (j w : Nat) (bytes : List Byte) (status : Word) : CellsOk (rxWrites s j w bytes status) := by
  intro p hp
  simp only [rxWrites, rxFrameWrites, List.mem_append, List.mem_reverse] at hp
  obtain (hfirst | hsecond) | hstatus := hp
  · exact writeCells_ok _ _ _ p hfirst
  · exact writeCells_ok _ _ _ p hsecond
  · exact writeCells_ok _ _ _ p hstatus

theorem mem_rxWrites_byte (hlen : w ≤ bytes.length) {k : Nat} (hk : k < w) :
    (s.dmaCell (receivedAt s j w k), bytes.getD k 0) ∈ rxWrites s j w bytes status := by
  have hget : bytes.getD k 0 = bytes[k] := by simp [Nat.lt_of_lt_of_le hk hlen]
  simp only [rxWrites, rxFrameWrites, receivedAt, List.mem_append, List.mem_reverse, mem_writeCells, hget]
  generalize min w (bs1Of (s.dmaDescWord .rx j 1)) = first
  by_cases hf : k < first
  · exact .inl (.inl ⟨k, by simp; omega, by simp [hf]⟩)
  · refine .inl (.inr ⟨k - first, by simp; omega, ?_⟩)
    simp [hf, show first + (k - first) = k by omega]

theorem mem_rxWrites_status {b : Nat} (hb : b < 4) :
    (s.dmaCell (s.dmaDesc .rx j 0 + natWord b), (splitWord s.params.endian status).getD b 0) ∈
      rxWrites s j w bytes status := by
  simp only [rxWrites, rxFrameWrites, List.mem_append, List.mem_reverse, mem_writeCells]
  exact .inr ⟨b, by simpa using hb, by simp [hb]⟩

/-- Where a reception leaves no region, each byte of the frame has a cell (R81, R330). -/
theorem receivedAt_inside (h : receiveOutside s j w = none) {k : Nat} (hk : k < w) :
    ∃ x, s.dmaCell (receivedAt s j w k) = some x := by
  have hspans : ∀ g ∈ receiveSpans s j w, s.dmaOutside g.1 g.2 = none := by
    simp only [receiveOutside, Option.orElse_eq_or, Option.or_eq_none_iff, List.findSome?_eq_none_iff] at h
    exact h.2.2
  have hbs : bs1Of (s.dmaWord (s.dmaDesc .rx j 1)) = bs1Of (s.dmaDescWord .rx j 1) := rfl
  simp only [receiveSpans, hbs] at hspans
  simp only [receivedAt]
  generalize min w (bs1Of (s.dmaDescWord .rx j 1)) = first at hspans
  by_cases hf : k < first
  · rw [if_pos hf]
    refine dmaOutside_none (hspans (s.dmaDescWord .rx j 2, first) ?_) k hf
    split <;> exact List.mem_cons_self
  · rw [if_neg hf]
    refine dmaOutside_none (hspans (s.dmaDescWord .rx j 3, w - first) ?_) (k - first) (by omega)
    rw [if_neg (by omega)]
    exact List.mem_cons_of_mem _ List.mem_cons_self

/-- The frame's bytes written span by span: a frame that fits BS1 writes none at des3. -/
theorem writeReceived_spans (bytes : List Byte) : writeReceived bytes (receiveSpans s j w) s =
    { s with mem := putCells (rxFrameWrites s j w bytes) s.mem } := by
  have hbs : bs1Of (s.dmaWord (s.dmaDesc .rx j 1)) = bs1Of (s.dmaDescWord .rx j 1) := rfl
  simp only [receiveSpans, rxFrameWrites, hbs]
  generalize min w (bs1Of (s.dmaDescWord .rx j 1)) = first
  by_cases hf : w ≤ first
  · rw [if_pos hf, writeReceived_one, Nat.sub_eq_zero_of_le hf, List.take_zero]
    simp only [writeCells, List.reverse_nil, List.append_nil]
    rfl
  · rw [if_neg hf, writeReceived_two]
    rfl

theorem closeDesc_rx (s : State) (j : Nat) (v : Word) : closeDesc .rx j v s =
    { s with mem := putCells (writeCells s (s.dmaDesc .rx j 0) (splitWord s.params.endian v)).reverse s.mem } :=
  dmaWrite_cells _ _ _

/-- What a reception writes to memory, as cell writes. -/
theorem closeDesc_writeReceived (bytes : List Byte) (status : Word) :
    closeDesc .rx j status (writeReceived bytes (receiveSpans s j w) s) =
      { s with mem := putCells (rxWrites s j w bytes status) s.mem } := by
  rw [writeReceived_spans, closeDesc_rx, rxWrites, putCells_append,
    writeCells_congr (s := s) (t := { s with mem := putCells (rxFrameWrites s j w bytes) s.mem }) (fun _ => rfl)]
  rfl

end

/-! ### DMA_RX_FRAME (R342) -/

/-- How many bytes of a frame and its check sequence descriptor `j` takes (R342). -/
def receivedLen (s : State) (j : Nat) (f : WireFrame) : Nat :=
  min (f.bytes.length + 4) (sizesOf (s.dmaDescWord .rx j 1))

/-- The status word with which descriptor `j` is closed (R126, R342). -/
def receivedStatus (s : State) (j : Nat) (f : WireFrame) : Word :=
  rxStatusWord (receivedLen s j f) (sizesOf (s.dmaDescWord .rx j 1) < f.bytes.length + 4) f.crcErr
    (bit s.csr.macConfig 8 && f.csum = .bad) (bit s.csr.macConfig 8 && f.csum = .good)

/-- The writes of a reception of `f` (R342). -/
def receivedWrites (s : State) (j : Nat) (f : WireFrame) : List (Option Nat × Byte) :=
  rxWrites s j (receivedLen s j f) (frameWithFcs f) (receivedStatus s j f)

/-- The state after descriptor `j` has taken `f` (R342). -/
def received (j : Nat) (f : WireFrame) (s : State) : State :=
  { s with
    csr := { s.csr with
      statusSrc := if bit (s.dmaDescWord .rx j 1) 26 then s.csr.statusSrc else s.csr.statusSrc ||| 0x40 }
    dma := { s.dma with rs := .running, rxIdx := s.chainNext .rx j }
    mem := putCells (receivedWrites s j f) s.mem }

section

variable {s : State} {j : Nat} {f : WireFrame}

theorem receivedLen_le (s : State) (j : Nat) (f : WireFrame) : receivedLen s j f ≤ (frameWithFcs f).length := by
  rw [frameWithFcs, List.length_append, splitWord_length]
  exact Nat.min_le_left ..

theorem receiveFrame_outside {x : Word} (hx : receiveOutside s j (receivedLen s j f) = some x) :
    receiveFrame j f s = raise (.dmaOutOfBounds x) s := by
  simp only [receivedLen, State.dmaDescWord] at hx
  simp only [receiveFrame, hx]

theorem receiveFrame_takes (ho : receiveOutside s j (receivedLen s j f) = none) : receiveFrame j f s = received j f s := by
  simp only [receivedLen, State.dmaDescWord] at ho
  have hdic : dicOf (s.dmaWord (s.dmaDesc .rx j 1)) = bit (s.dmaDescWord .rx j 1) 26 := rfl
  simp only [receiveFrame, received, ho, closeDesc_writeReceived, latchIf_eq, hdic]
  cases bit (s.dmaDescWord .rx j 1) 26 <;> rfl

variable (hm : s.memLegal)
include hm

/-- No byte of memory changes but those the frame and the status word go to. -/
theorem received_others {x : Nat} (hx : some x ∉ rxCells s j (receivedLen s j f)) :
    memRead (received j f s).mem x = memRead s.mem x :=
  putCells_other (rxWrites_ok _ _ _ _ _) hm fun _ hp he =>
    hx ((rxWrites_fst (receivedLen_le s j f)).mem_iff.1 (List.mem_map.2 ⟨_, hp, he⟩))

variable (hnd : (rxCells s j (receivedLen s j f)).Nodup)
include hnd

theorem dmaByte_received {d : Word} (hin : ∃ x, s.dmaCell d = some x) {b : Byte}
    (hb : (s.dmaCell d, b) ∈ receivedWrites s j f) : (received j f s).dmaByte d = b :=
  dmaByte_written (t := received j f s) hm rfl rfl (rxWrites_ok _ _ _ _ _)
    ((rxWrites_fst (receivedLen_le s j f)).nodup_iff.2 hnd) hin hb

theorem received_bytes (ho : receiveOutside s j (receivedLen s j f) = none) {k : Nat} (hk : k < receivedLen s j f) :
    (received j f s).dmaByte (receivedAt s j (receivedLen s j f) k) = (frameWithFcs f).getD k 0 :=
  dmaByte_received hm hnd (receivedAt_inside ho hk) (mem_rxWrites_byte (receivedLen_le s j f) hk)

theorem received_status (hin : s.dmaInside .rx j 0) :
    (received j f s).dmaDescWord .rx j 0 = receivedStatus s j f :=
  dmaWord_of_bytes fun b hb => dmaByte_received hm hnd (dmaOutside_none hin b hb) (mem_rxWrites_status hb)

end

/-! DMA_RX_FRAME at a descriptor DMA owns: the frame taken, or the first byte outside every region met. -/

section

variable {s : State} {f : WireFrame} (h : Offered s f) (hd : s.rxDeaf = false) (hin : s.dmaInside .rx s.dma.rxIdx 0)
  (hown : bit (s.dmaDescWord .rx s.dma.rxIdx 0) 31 = true)
include h hd hin hown

theorem rxFrame_receives (ho : receiveOutside s s.dma.rxIdx (receivedLen s s.dma.rxIdx f) = none) :
    exec .dmaRxFrame s = .next (received s.dma.rxIdx f (takeArrival s)) := by
  have htakes : receiveFrame s.dma.rxIdx f (takeArrival s) = received s.dma.rxIdx f (takeArrival s) := receiveFrame_takes ho
  have hfault : (received s.dma.rxIdx f (takeArrival s)).fault = none := h.sound
  rw [exec_dmaRxFrame, onArrival_takes h hd hin hown, ← settle_of_none (s := s) hfault, ← htakes]
  rfl

theorem rxFrame_outside {x : Word} (hx : receiveOutside s s.dma.rxIdx (receivedLen s s.dma.rxIdx f) = some x) :
    exec .dmaRxFrame s = .next { s with fault := some (.dmaOutOfBounds x) } := by
  have hraise : receiveFrame s.dma.rxIdx f (takeArrival s) = raise (.dmaOutOfBounds x) (takeArrival s) :=
    receiveFrame_outside hx
  have hfault : (raise (.dmaOutOfBounds x) (takeArrival s)).fault = some (.dmaOutOfBounds x) := by
    rw [raise_of_sound (s := takeArrival s) h.sound]
  rw [exec_dmaRxFrame, onArrival_takes h hd hin hown, ← settle_of_some (s := s) hfault, ← hraise]
  rfl

end

/-- Settles O51: the frame's bytes and the status word are one list of cell writes, each read back where its cell is its
own. -/
theorem dmaRxFrameStep : Obligations.DmaRxFrameStep := by
  intro s f rest hs hm hw h1 h2 hre hrs hpm j d total cap w first ipc data cells hin hown
  have h := offered_of hs hw h1 h2
  have hd : s.rxDeaf = false := by simp [State.rxDeaf, hre, hrs, hpm]
  have hcells : rxCells (takeArrival s) j (receivedLen (takeArrival s) j f) = cells := rfl
  refine ⟨fun ho => ⟨_, rxFrame_receives h hd hin hown ho, fun hnd => ⟨?_, fun k hk => ?_⟩, fun x hx => ?_, ?_⟩,
    fun x hx => rxFrame_outside h hd hin hown hx⟩
  · exact received_status (s := takeArrival s) hm (hcells ▸ hnd) hin
  · exact received_bytes (s := takeArrival s) hm (hcells ▸ hnd) ho hk
  · exact received_others (s := takeArrival s) hm (hcells ▸ hx)
  · rw [takeArrival_of hw]
    rfl

end Sys2Proof.Machine
end

section
/-! PROOF. The dispatcher: RAISE_TX_THRESHOLD and ISR (O54). -/

namespace Sys2Proof.Machine

open Sys2Proof

/-! ### RAISE_TX_THRESHOLD (R378) -/

section

variable {s : State} (hr : s.regsLegal)
include hr

theorem raiseThreshold_raises (hmode : bit s.csr.dmaCtrl 2 = false) (hlow : s.csr.dmaTxThresh.toNat < 256) :
    raiseThreshold s =
      { st := { descFence s with
          csr := { s.csr with dmaTxThresh := natWord (s.csr.dmaTxThresh.toNat + 64) }
          tun := { s.tun with tc := s.csr.dmaTxThresh.toNat + 64 } }
        res := natWord (s.csr.dmaTxThresh.toNat + 64) } :=
  (raiseThreshold_eq hr).trans (if_pos ⟨hmode, hlow⟩)

theorem raiseThreshold_stays (h : bit s.csr.dmaCtrl 2 = true ∨ s.csr.dmaTxThresh.toNat = 256) :
    raiseThreshold s = { st := s, res := natWord s.csr.dmaTxThresh.toNat } := by
  refine (raiseThreshold_eq hr).trans (if_neg fun ⟨hmode, hlow⟩ => ?_)
  obtain htsf | htop := h
  · exact absurd htsf (by simp [hmode])
  · omega

end

theorem exec_raiseTxThreshold {s : State} (ha : s.dev.attached = true) :
    exec .raiseTxThreshold s = complete s (raiseThreshold s) :=
  congrArg (complete s) (whenAttached_of ha)

/-! ### A dispatcher run up to its recovery (R371, R372, R376, R378, R379) -/

/-- The snapshot holds UNF, and TC has room for it in threshold mode (R378). -/
def State.raises (s : State) : Bool :=
  bit s.csr.statusSrc 5 && !bit s.csr.dmaCtrl 2 && decide (s.csr.dmaTxThresh.toNat < 256)

/-- The state a dispatcher run leaves before its recovery, but for the fence of its CSR writes (`isrRun_dispatched`). -/
def dispatched (s : State) : State :=
  let v := s.csr.statusSrc
  { s with
    csr := { s.csr with
      statusSrc := 0
      dmaTxThresh := if s.raises then natWord (s.csr.dmaTxThresh.toNat + 64) else s.csr.dmaTxThresh
      dmaIer := if bit v 6 then putBit s.csr.dmaIer 6 false else s.csr.dmaIer }
    tun := { s.tun with tc := if s.raises then s.csr.dmaTxThresh.toNat + 64 else s.tun.tc }
    dev := { s.dev with
      rxPollScheduled := s.dev.rxPollScheduled || bit v 6
      txReclaimPending := s.dev.txReclaimPending || bit v 0 }
    stats := countAbnormal v s.stats }

section

variable {s : State} (hm : s.memLegal) (hr : s.regsLegal)

include hm hr in
theorem isrRun_dispatched : isrRun s =
    { st := applyIf (bit s.csr.statusSrc 1 || bit s.csr.statusSrc 13) (fun u => (txRecovery u).st)
        (descFence (dispatched s))
      res := s.csr.statusSrc } :=
  isrRun_before_recovery hm hr

theorem dispatched_ringsLegal (hl : s.ringsLegal) : (dispatched s).ringsLegal :=
  ShapeKept.legal (s := s) (.of_rings rfl rfl rfl rfl) hl

include hr

theorem dispatched_thresh : let tc := (dispatched s).csr.dmaTxThresh
    tc = 64 ∨ tc = 128 ∨ tc = 192 ∨ tc = 256 := by
  intro tc
  cases hraises : s.raises with
  | false =>
    have htc : tc = s.csr.dmaTxThresh := if_neg (by simp [hraises])
    rw [htc]
    exact hr.csr.thresh
  | true =>
    have htc : tc = natWord (s.csr.dmaTxThresh.toNat + 64) := if_pos hraises
    have hlow : s.csr.dmaTxThresh.toNat < 256 := by simp_all [State.raises]
    rw [htc]
    obtain h | h | h | h := hr.csr.thresh <;> rw [h] at hlow ⊢
    · exact .inr (.inl (by decide))
    · exact .inr (.inr (.inl (by decide)))
    · exact .inr (.inr (.inr (by decide)))
    · exact absurd hlow (by decide)

theorem dispatched_enables : (dispatched s).csr.dmaIer &&& ~~~ierMask = 0 := by
  cases hri : bit s.csr.statusSrc 6 with
  | false => simpa [dispatched, hri] using hr.csr.enables
  | true => simpa [dispatched, hri] using reserved_put (b := false) (by decide) (by decide) hr.csr.enables

theorem dispatched_regsLegal : (dispatched s).regsLegal where
  csr := { hr.csr with
    thresh := dispatched_thresh hr
    source := BitVec.zero_and
    enables := dispatched_enables hr }
  start := ⟨hr.start.tx, hr.start.rx⟩
  bases := hr.bases

end

/-! ### ISR (R370, R377, R381) -/

section

variable {s : State} (hs : s.sound) (hm : s.memLegal) (hr : s.regsLegal) (ha : s.dev.attached = true)
include hs hm hr ha

theorem exec_isr_without_recovery
    (h : (bit s.csr.statusSrc 1 = false ∧ bit s.csr.statusSrc 13 = false) ∨ s.tx.allocated = false) :
    exec .isr s = .next { descFence (dispatched s) with
      csr := { (dispatched s).csr with result := s.csr.statusSrc } } := by
  have hstays : applyIf (bit s.csr.statusSrc 1 || bit s.csr.statusSrc 13) (fun u => (txRecovery u).st)
      (descFence (dispatched s)) = descFence (dispatched s) := by
    obtain ⟨htps, hfbi⟩ | hring := h
    · rw [htps, hfbi]
      rfl
    · have hfails := txRecovery_unallocated (s := descFence (dispatched s)) hring
      rw [applyIf_eq, hfails]
      exact ite_self _
  rw [exec_isr_of_attached ha, isrRun_dispatched hm hr, hstays]
  exact complete_eq hs

theorem exec_isr_with_recovery (hl : s.ringsLegal)
    (h : bit s.csr.statusSrc 1 = true ∨ bit s.csr.statusSrc 13 = true) (hring : s.tx.allocated = true) :
    let on := s.dev.ifup && !s.dev.suspended
    ∃ t, chainEmptied { dispatched s with
        csr := { (dispatched s).csr with
          dmaCtrl := putBit s.csr.dmaCtrl 0 false, macConfig := putBit s.csr.macConfig 0 false }
        dma := { s.dma with ts := .stopped } } t .tx ∧
      exec .isr s = .next { t with
        csr := { t.csr with
          dmaCtrl := putBit s.csr.dmaCtrl 0 on
          macConfig := putBit s.csr.macConfig 0 on
          result := s.csr.statusSrc }
        dma := { t.dma with ts := if on then .running else .stopped }
        dev := { (dispatched s).dev with txQueueStopped := false }
        stats := { (dispatched s).stats with txRecovery := s.stats.txRecovery + 1 } } := by
  have hkeeps := descFence_keeps (dispatched s)
  obtain ⟨t, hempty, hrec⟩ := recovery_spec (s := descFence (dispatched s)) (hkeeps.mem hm)
    ((descFence_rings _).legal (dispatched_ringsLegal hl)) (hkeeps.regs (dispatched_regsLegal hr)) ha hring
  have hdue : (bit s.csr.statusSrc 1 || bit s.csr.statusSrc 13) = true := by simpa using h
  refine ⟨t, chainEmptied_fence hm ?_ ?_ hempty, ?_⟩
  · rfl
  · exact swByte_descFence (s := dispatched s) hm
  rw [exec_isr_of_attached ha, isrRun_dispatched hm hr, hdue, applyIf_eq, if_pos rfl, hrec]
  exact complete_eq (hempty.fault.trans hs)

end

/-- Settles O54: the threshold by its two cases, ISR by whether its recovery runs. -/
theorem isrAndThresholdCommands : Obligations.IsrAndThresholdCommands := by
  refine ⟨fun s hs hm hr ha => ⟨fun hmode hlow => ?_, fun h => ?_⟩,
    fun s hs hm hl hr ha => ⟨fun h => ?_, fun h hring => ?_⟩⟩
  · refine ⟨descFence s, fenced_descFence hm, ?_⟩
    rw [exec_raiseTxThreshold ha, raiseThreshold_raises hr hmode hlow]
    exact complete_eq hs
  · rw [exec_raiseTxThreshold ha, raiseThreshold_stays hr h]
    exact complete_eq hs
  · exact ⟨_, fenced_descFence (s := dispatched s) hm, exec_isr_without_recovery hs hm hr ha h⟩
  · exact exec_isr_with_recovery hs hm hr ha hl h hring

end Sys2Proof.Machine
end

section
/-! PROOF. The lifecycle: ATTACH and DETACH (O55), the tunables and the counters (O56), CLOSE (O57), SUSPEND and RESUME
(O58). -/

namespace Sys2Proof.Machine

open Sys2Proof

/-! ### How a lifecycle command ends (R12, R143) -/

theorem complete_of_done {s t : State} {x : Ret} (hx : x = done t) (ht : t.fault = none) :
    complete s x = .next { t with csr := { t.csr with result := 0 } } := by
  rw [hx, complete_done ht]

theorem complete_of_failed {s : State} {x : Ret} (hx : x = failed s) (hs : s.sound) :
    complete s x = .next { s with csr := { s.csr with result := 2 } } := by
  rw [hx, complete_failed hs]

/-! ### ATTACH and DETACH (R49, R410, R432) -/

/-- The operations ATTACH selects by HW_FEATURE are the platform's (R49). -/
theorem hwFeature_ops (p : Params) : (if bit (hwFeature p) 0 then .gmac else .mac100) = p.variant := by
  obtain ⟨hgmac, -, -⟩ := hwFeature_spec p
  rw [hgmac]
  cases p.variant <;> rfl

theorem hwFeature_csum (p : Params) : bit (hwFeature p) 1 = p.csumOffload := by
  obtain ⟨-, hcsum, -⟩ := hwFeature_spec p
  exact hcsum

theorem attachDev_eq (s : State) : attachDev s = { s with
    dev := {
      attached := true, ifup := false, suspended := false, fullShutdown := false, rxPollScheduled := false,
      txReclaimPending := false, txQueueStopped := false, savedCtrl := s.dev.savedCtrl,
      ops := s.params.variant, csumCap := s.params.csumOffload }
    stats := Stats.zero
    tun := Tunables.platform s.params
    link := { up := false, speed := .none, duplex := .half } } := by
  simp only [attachDev, hwFeature_ops, hwFeature_csum]

/-- Settles O55: each command is one update or a failure, by the flags it tests. -/
theorem attachAndDetach : Obligations.AttachAndDetach := by
  intro s hs
  refine ⟨fun hfree => ?_, fun hat => ?_, fun hat hdown hawake => ?_, fun h => ?_⟩
  · exact complete_of_done (x := if s.dev.attached then failed s else done (attachDev s))
      ((if_neg (by simp [hfree])).trans (congrArg done (attachDev_eq s))) hs
  · exact complete_of_failed (if_pos hat) hs
  · exact complete_of_done (if_pos (by simp [hat, hdown, hawake])) hs
  · exact complete_of_failed (if_neg (by obtain h | h | h := h <;> simp [h])) hs

/-! ### SET_TUNABLE, SET_MTU and READ_STAT (R141, R428, R430, R434) -/

section

variable {s : State} {id : BitVec 16}

/-- An id with no entry is an illegal command (R141). -/
theorem complete_illegal (hs : s.sound) : complete s (illegalRet s) =
    .next { s with csr := { s.csr with result := 0xFFFF_FFFF, dmaCtrl := putBit s.csr.dmaCtrl 31 true } } :=
  complete_eq (x := illegalRet s) hs

variable (hs : s.sound) (ha : s.dev.attached = true)
include hs ha

/-- SET_TUNABLE of an id whose entry is `t` where `legal` holds, and none elsewhere. -/
theorem setTunable_entry {k : Nat} {c : Bool} {legal : Prop} {t : Tunables} (hk : k ≤ 8) (hc : c = true ↔ legal)
    (hset : s.tun.set k s.csr.arg0.toNat = if c then some t else none) (hid : id.toNat = k) :
    (legal → exec (.setTunable id) s = .next { s with csr := { s.csr with result := 0 }, tun := t }) ∧
    (¬ legal → exec (.setTunable id) s = .next { s with csr := { s.csr with result := 2 } }) :=
  setTunable_sets hs ha hk (fun h => hset.trans (if_pos (hc.2 h)))
    (fun h => hset.trans (if_neg (h ∘ hc.1))) hid

theorem readStat_entry (k : Nat) (hk : k ≤ 18) (hid : id.toNat = k) :
    exec (.readStat id) s = .next { s with csr := { s.csr with
      result := (s.stats.counter k).extractLsb' 0 32, result1 := (s.stats.counter k).extractLsb' 32 32 } } := by
  have hentry : ¬ maxCounterId < id.toNat := Nat.not_lt.2 (hid ▸ hk)
  rw [← hid]
  exact (congrArg (complete s) (if_neg hentry)).trans (attached_answer hs ha rfl)

end

theorem mtuLegal_iff {v : Variant} {m : Nat} :
    mtuLegal v m = true ↔ 46 ≤ m ∧ m ≤ if v = .gmac then 9000 else 1500 := by
  cases v <;> exact decide_eq_true_iff

/-- Settles O56: SET_TUNABLE and READ_STAT row by row of their tables, SET_MTU by its one test. -/
theorem tunablesAndStatistics : Obligations.TunablesAndStatistics := by
  intro s id hs ha
  dsimp only
  refine ⟨setTunable_entry hs ha (by decide) ringSizeLegal_iff rfl,
    setTunable_entry hs ha (by decide) ringSizeLegal_iff rfl,
    setTunable_entry hs ha (by decide) (by simp [bufSzLegal]) rfl,
    setTunable_entry hs ha (by decide) (by simp [thresholdLegal]) rfl,
    setTunable_entry hs ha (by decide) decide_eq_true_iff (by simp [Tunables.set]),
    setTunable_entry hs ha (by decide) decide_eq_true_iff (by simp [Tunables.set]),
    setTunable_entry hs ha (by decide) (by simp [coalLegal]) rfl,
    setTunable_entry hs ha (by decide) (by simp [coalLegal]) rfl,
    setTunable_entry hs ha (by decide) (by simp [watchdogLegal]) rfl,
    fun h => ?_, fun h => ?_, fun h => ?_, ?_⟩
  · exact (congrArg (complete s) (if_pos h)).trans (complete_illegal hs)
  · obtain ⟨hdown, hlegal⟩ := h
    exact complete_of_done (if_pos (by simp [ha, hdown, mtuLegal_iff.2 hlegal])) hs
  · refine complete_of_failed (if_neg fun hok => h ?_) hs
    simpa [ha, mtuLegal_iff] using hok
  · have hread := readStat_entry (id := id) hs ha
    exact ⟨hread 0 (by decide), hread 1 (by decide), hread 2 (by decide), hread 3 (by decide), hread 4 (by decide),
      hread 5 (by decide), hread 6 (by decide), hread 7 (by decide), hread 8 (by decide), hread 9 (by decide),
      hread 10 (by decide), hread 11 (by decide), hread 12 (by decide), hread 13 (by decide), hread 14 (by decide),
      hread 15 (by decide), hread 16 (by decide), hread 17 (by decide), hread 18 (by decide),
      fun h => (congrArg (complete s) (if_pos h)).trans (complete_illegal hs)⟩

/-! ### CLOSE (R420, R421) -/

/-- `s` with interrupts off and both DMA processes stopped, their start and enable bits 0 (R421). -/
def quieted (s : State) : State :=
  { s with
    csr := { s.csr with
      dmaIer := 0
      dmaCtrl := putBit (putBit s.csr.dmaCtrl 0 false) 1 false
      macConfig := putBit (putBit s.csr.macConfig 0 false) 1 false }
    dma := { s.dma with ts := .stopped, rs := .stopped } }

/-- The two operations with which CLOSE and SUSPEND stop the block, as one update (`quiesced_stop`). -/
theorem stopped_eq {s : State} (hr : s.regsLegal) (d : Dev) :
    dmaStop .rx (dmaStop .tx { quiesce s with dev := d }) = { descFence (quieted s) with dev := d } :=
  quiesced_stop hr d

/-- The lifecycle flags play no part in emptying a chain. -/
theorem chainEmptied.withDev {u t : State} {r : RingSel} (h : chainEmptied u t r) (d : Dev) :
    chainEmptied { u with dev := d } { t with dev := d } r := by
  refine ⟨?_, ?_, ?_⟩
  · cases r <;> exact h.bytes
  · cases r <;> exact h.words
  · have hrest := h.rest
    generalize t.mem = M at *
    subst hrest
    rfl

theorem chainEmptied.dev {s t : State} {r : RingSel} (h : chainEmptied s t r) : t.dev = s.dev := by
  rw [h.rest]

theorem chainEmptied.csr {s t : State} {r : RingSel} (h : chainEmptied s t r) : t.csr = s.csr := by
  rw [h.rest]

theorem chainEmptied.wbuf {s t : State} {r : RingSel} (h : chainEmptied s t r) : t.wbuf = [] := by
  rw [h.rest]

/-- `s` without its rings: neither is allocated or has slots (R420, log 5). -/
def ringless (s : State) : State :=
  { s with
    tx := { s.tx with allocated := false, n := 0 }
    rx := { s.rx with allocated := false, n := 0 }
    txSlots := []
    rxSlots := [] }

/-- Stopping the block and draining its rings: both chains emptied, TX first, and both rings freed (R420, R421). -/
theorem drained_spec {s : State} (hm : s.memLegal) (hl : s.ringsLegal) (hr : s.regsLegal) (htx : s.tx.allocated = true)
    (hrx : s.rx.allocated = true) (d : Dev) :
    ∃ a b, chainEmptied (quieted s) a .tx ∧ chainEmptied a b .rx ∧
      drainAndFree (dmaStop .rx (dmaStop .tx { quiesce s with dev := d })) = { ringless b with dev := d } := by
  have hmq : (quieted s).memLegal := hm
  obtain ⟨a, b, ha, hb, heq⟩ := drain_spec (s := { descFence (quieted s) with dev := d }) (descFence_wf hmq)
    (ShapeKept.legal (s := s) (.of_rings rfl rfl rfl rfl) hl) htx hrx rfl rfl
  have hdev : b.dev = d := hb.dev.trans ha.dev
  refine ⟨_, _, chainEmptied_fence hmq ?_ ?_ (ha.withDev s.dev), hb.withDev s.dev, ?_⟩
  · rfl
  · exact swByte_descFence hmq
  · rw [stopped_eq hr, heq, ← hdev]
    rfl

/-- Clearing every status source with nothing pending (R38, R420). -/
theorem wrStatus_all {s : State} (hw : s.wbuf = []) (hsrc : s.csr.statusSrc &&& ~~~srcMask = 0) :
    wrStatus srcMask s = { s with csr := { s.csr with statusSrc := 0 } } := by
  simp only [wrStatus, storeStatus, descFence, hw, hsrc, List.foldl_nil]

theorem exec_closeDev_failed {s : State} (hs : s.sound) (h : s.dev.ifup = false ∨ s.dev.suspended = true) :
    exec .closeDev s = .next { s with csr := { s.csr with result := 2 } } :=
  complete_of_failed (if_neg (by obtain h | h := h <;> simp [h])) hs

section

variable {s : State} (hs : s.sound) (hm : s.memLegal) (hl : s.ringsLegal) (hr : s.regsLegal)
  (hat : s.dev.attached = true) (hup : s.dev.ifup = true) (hawake : s.dev.suspended = false)
  (htx : s.tx.allocated = true) (hrx : s.rx.allocated = true)

include hs hm hl hr hat hup hawake htx hrx in
theorem exec_closeDev : ∃ a b, chainEmptied (quieted s) a .tx ∧ chainEmptied a b .rx ∧
    exec .closeDev s = .next { ringless b with
      csr := { b.csr with statusSrc := 0, result := 0 }
      dev := { s.dev with
        ifup := false, rxPollScheduled := false, txReclaimPending := false, txQueueStopped := false } } := by
  obtain ⟨a, b, ha, hb, heq⟩ := drained_spec hm hl hr htx hrx { (quiesce s).dev with ifup := false }
  have hsrc : b.csr.statusSrc &&& ~~~srcMask = 0 := by
    rw [hb.csr, ha.csr]
    exact hr.csr.source
  have hclear := wrStatus_all (s := { ringless b with dev := { (quiesce s).dev with ifup := false } }) hb.wbuf hsrc
  have hrun : closeRun s = { ringless b with
      csr := { b.csr with statusSrc := 0 }
      dev := { s.dev with
        ifup := false, rxPollScheduled := false, txReclaimPending := false, txQueueStopped := false } } := by
    simp only [closeRun, heq]
    rw [hclear]
    rfl
  exact ⟨a, b, ha, hb, complete_of_done ((if_pos (by simp [hat, hup, hawake])).trans (congrArg done hrun))
    (hb.fault.trans (ha.fault.trans hs))⟩

/-! ### SUSPEND and RESUME (R424, R425) -/

/-- The lifecycle flags of a suspended device, its enables saved (R421, R424). -/
def suspendedDev (s : State) : Dev :=
  { s.dev with suspended := true, rxPollScheduled := false, txReclaimPending := false, savedCtrl := enablesOf s }

include hs hr hat hup hawake in
/-- With wake-on-LAN the rings are kept, and PMT powers the MAC down (R47, R424). -/
theorem exec_suspend_wol : exec (.suspend 1) s = .next { descFence (quieted s) with
    csr := { (quieted s).csr with pmt := putBit s.csr.pmt 0 true, result := 0 }
    dev := { suspendedDev s with fullShutdown := false } } := by
  have hpmt : putBit s.csr.pmt 0 true &&& 7 = putBit s.csr.pmt 0 true := pmt_put hr.csr.pmt
  have hrun : suspendRun true s = { descFence (quieted s) with
      csr := { (quieted s).csr with pmt := putBit s.csr.pmt 0 true }
      dev := { suspendedDev s with fullShutdown := false } } := by
    simp only [suspendRun, stopped_eq hr, if_true]
    rw [wrPmt, storePmt, ← hpmt]
    rfl
  exact complete_of_done ((if_pos (by simp [hat, hup, hawake])).trans (congrArg done hrun)) hs

include hs hm hl hr hat hup hawake htx hrx in
/-- Without wake-on-LAN the rings are freed as by CLOSE (R424). -/
theorem exec_suspend_full : ∃ a b, chainEmptied (quieted s) a .tx ∧ chainEmptied a b .rx ∧
    exec (.suspend 0) s = .next { ringless b with
      csr := { b.csr with result := 0 }
      dev := { suspendedDev s with ifup := false, fullShutdown := true } } := by
  obtain ⟨a, b, ha, hb, heq⟩ := drained_spec hm hl hr htx hrx
    { (quiesce s).dev with savedCtrl := enablesOf (quiesce s) }
  have hrun : suspendRun false s = { ringless b with
      dev := { suspendedDev s with ifup := false, fullShutdown := true } } := by
    simp only [suspendRun, heq, Bool.false_eq_true, if_false]
    rfl
  exact ⟨a, b, ha, hb, complete_of_done ((if_pos (by simp [hat, hup, hawake])).trans (congrArg done hrun))
    (hb.fault.trans (ha.fault.trans hs))⟩

include hs in
theorem exec_suspend_failed {wol : BitVec 16}
    (h : s.dev.ifup = false ∨ s.dev.suspended = true ∨ 1 < wol.toNat) :
    exec (.suspend wol) s = .next { s with csr := { s.csr with result := 2 } } := by
  refine complete_of_failed (if_neg fun hok => ?_) hs
  simp only [Bool.and_eq_true, Bool.not_eq_true', decide_eq_true_eq] at hok
  obtain ⟨⟨⟨-, hup⟩, hawake⟩, hwol⟩ := hok
  obtain h | h | h := h
  · simp [h] at hup
  · simp [h] at hawake
  · omega

end

/-- Settles O57: CLOSE drains what it stopped; an interface that is up has both rings. -/
theorem closeCommand : Obligations.CloseCommand := by
  intro s hs hm hl hr hsession hat
  refine ⟨fun hup hawake => ?_, exec_closeDev_failed hs⟩
  obtain ⟨htx, hrx⟩ := hsession.rings hup
  exact exec_closeDev hs hm hl hr hat hup hawake htx hrx

/-- RESUME of kept rings restores what SUSPEND saved (`restore_eq`). -/
theorem resumeRun_kept {s : State} (hr : s.regsLegal) (hkept : s.dev.fullShutdown = false) :
    resumeRun s = done { descFence s with
      csr := { s.csr with
        pmt := putBit s.csr.pmt 0 false
        macConfig := putBit (putBit s.csr.macConfig 0 s.dev.savedCtrl.te) 1 s.dev.savedCtrl.re
        dmaCtrl := putBit (putBit s.csr.dmaCtrl 0 s.dev.savedCtrl.st) 1 s.dev.savedCtrl.sr
        dmaIer := 0x0001_A1FB }
      dma := { s.dma with
        ts := if s.dev.savedCtrl.st then (if s.dma.ts = .stopped then .running else s.dma.ts) else .stopped
        rs := if s.dev.savedCtrl.sr then (if s.dma.rs = .stopped then .running else s.dma.rs) else .stopped }
      dev := { s.dev with suspended := false } } :=
  (if_neg (by simp [hkept])).trans (congrArg done (restore_eq hr { s.dev with suspended := false }))

/-- Settles O58: SUSPEND by its operand, RESUME of kept rings as one update. -/
theorem suspendAndResume : Obligations.SuspendAndResume := by
  intro s wol hs hm hl hr hsession hat saved stopped dma dev
  refine ⟨fun hup hawake hwol => ?_, fun hup hawake hwol => ?_, exec_suspend_failed hs, fun hsus hkept => ?_,
    fun hawake => ?_⟩
  · rw [hwol]
    exact ⟨descFence s, fenced_descFence hm, exec_suspend_wol hs hr hat hup hawake⟩
  · obtain ⟨htx, hrx⟩ := hsession.rings hup
    rw [hwol]
    exact exec_suspend_full hs hm hl hr hat hup hawake htx hrx
  · exact ⟨descFence s, fenced_descFence hm,
      complete_of_done ((if_pos (by simp [hat, hsus])).trans (resumeRun_kept hr hkept)) hs⟩
  · exact complete_of_failed (if_neg (by simp [hawake])) hs

end Sys2Proof.Machine
end

section
/-! PROOF. OPEN, and RESUME of a device whose rings were freed (O59, O60). -/

namespace Sys2Proof.Machine

open Sys2Proof

/-! ### Fresh ranges beside the ring arrays (R81, D33, log 8) -/

/-- A change of the ring arrays leaves a range fresh that meets no array, and whose `DMA_MAP` image meets none. -/
theorem FreshAt.withArrays {s t : State} {align len : Nat} {a : Word} (h : FreshAt s align a len)
    (hp : t.params = s.params) (hg : t.regions = s.regions) (hk : t.marks = s.marks)
    (harr : t.meetsArray a len = false) (himg : t.meetsArray (dmaMapOf s.params a) len = false) :
    t.fresh align a len = true :=
  fresh_iff.2 ⟨h.aligned, h.inSpace, harr, hp ▸ himg, hg ▸ h.regions, by rw [State.meetsMark, hk]; exact h.marks⟩

theorem meetsArray_iff {t : State} {a : Word} {len : Nat} : t.meetsArray a len = false ↔
    (t.tx.allocated = true → spansMeet t.tx.base (16 * t.tx.n) a len = false) ∧
      (t.rx.allocated = true → spansMeet t.rx.base (16 * t.rx.n) a len = false) := by
  simp [State.meetsArray]

/-! ### The clamped tunables (R416) -/

theorem clampTunables_nTx (s : State) : (clampTunables s).tun.nTx ∈ [4, 8, 16, 32, 64, 128, 256, 512, 1024] := by
  obtain ⟨hnTx, -⟩ := clamped_bounds s.params.variant s.tun
  exact hnTx

theorem clampTunables_nRx (s : State) : (clampTunables s).tun.nRx ∈ [4, 8, 16, 32, 64, 128, 256, 512, 1024] := by
  obtain ⟨-, hnRx, -⟩ := clamped_bounds s.params.variant s.tun
  exact hnRx

theorem clampTunables_tc (s : State) : (clampTunables s).tun.tc ∈ [64, 128, 192, 256] := by
  obtain ⟨-, -, -, htc, -⟩ := clamped_bounds s.params.variant s.tun
  exact htc

theorem clampTunables_pause (s : State) : (clampTunables s).tun.pause ≤ 0xFFFF := by
  obtain ⟨-, -, -, -, hpause, -⟩ := clamped_bounds s.params.variant s.tun
  exact hpause

theorem clampTunables_rxCoal (s : State) : 1 ≤ (clampTunables s).tun.rxCoal ∧ (clampTunables s).tun.rxCoal ≤ 256 := by
  obtain ⟨-, -, -, -, -, hcoal⟩ := clamped_bounds s.params.variant s.tun
  exact hcoal

/-! ### The buffers of a new RX ring (R223, R412) -/

/-- DIC is clear on every `L`-th refill of a new ring (R223). -/
theorem coalesced_iff {L : Nat} (hmin : 1 ≤ L) (hmax : L ≤ 256) (j : Nat) :
    ((coalNext L)^[j] 0 + 1).toNat < L ↔ (j + 1) % L ≠ 0 := by
  have hlt : j % L < L := Nat.mod_lt _ (by omega)
  have hcount : ((coalNext L)^[j] 0 + 1).toNat = j % L + 1 := by
    have hsucc : natWord (j % L) + 1 = natWord (j % L + 1) := (natWord_add _ _).symm
    rw [coalNext_iter hmin hmax, hsucc, natWord_toNat (by omega)]
  rw [hcount, ← Nat.mod_add_mod]
  rcases Nat.lt_or_ge (j % L + 1) L with hbelow | hfull
  · rw [Nat.mod_eq_of_lt hbelow]
    exact iff_of_true hbelow (Nat.succ_ne_zero _)
  · have hwrap : j % L + 1 = L := by omega
    rw [hwrap, Nat.mod_self]
    exact iff_of_false (Nat.lt_irrefl _) (not_not.2 rfl)

namespace TwoRings

variable {s i : State} {n m : Nat} {x y : Word} (h : TwoRings s i n m x y)
include h

theorem rx : i.rx = { allocated := true, n := m, base := y, sub := 0, comp := 0, coalCnt := 0 } := by rw [h.rest]

theorem tx : i.tx = { allocated := true, n := n, base := x, sub := 0, comp := 0, coalCnt := 0 } := by rw [h.rest]

theorem rxSlots : i.rxSlots = List.replicate m RxSlot.empty := by rw [h.rest]

theorem eff : i.eff = s.eff := by rw [h.rest]

theorem params : i.params = s.params := by rw [h.rest]

theorem size : i.rx.n = m := by rw [h.rx]

theorem inflight : i.rx.inflight = 0 := by
  have hempty : ((0 : Word) - 0).toNat = 0 := by decide
  rw [h.rx]
  exact hempty

theorem slot_empty (j : Nat) : i.rxSlot j = RxSlot.empty := by
  rw [State.rxSlot, h.rxSlots, List.getD_eq_getElem?_getD, List.getElem?_replicate]
  split <;> rfl

theorem filledIdx_eq (hm : m ≤ 1024) {j : Nat} (hj : j < m) : filledIdx i j = j := by
  have hcursor : (0 : Word) + natWord j = natWord j := BitVec.zero_add _
  rw [filledIdx, h.rx, idx, hcursor, natWord_toNat (by omega), Nat.mod_eq_of_lt hj]

theorem not_owned {j : Nat} (hj : j < m) : i.ownSeen .rx j = false := by
  have hword : i.descWord .rx j 0 = 0 := (h.rxWords j hj 0 (by decide)).trans (if_neg fun hc => absurd hc.1 (by decide))
  rw [State.ownSeen, hword]
  rfl

theorem filledEmpty_eq (k : Nat) : filledEmpty i k = k := by
  have hall : ∀ j ∈ List.range k, (i.rxSlot (filledIdx i j)).buf.isNone = true := fun j _ => by
    rw [h.slot_empty]
    rfl
  rw [filledEmpty, List.countP_eq_length.2 hall, List.length_range]

theorem slots_length : i.rxSlots.length = i.rx.n := by rw [h.rxSlots, List.length_replicate, h.size]

theorem room {k : Nat} (hk : k ≤ m - 1) : k + i.rx.inflight ≤ i.rx.n - 1 := by
  rw [h.inflight, h.size]
  exact hk

/-- As many buffers are drawn as slots are filled. -/
theorem buffer_count {t : State} {bufs : List Word} (r : RefilledRun i t (m - 1) false bufs) : bufs.length = m - 1 :=
  r.count.trans (h.filledEmpty_eq _)

variable (hm : m ∈ [4, 8, 16, 32, 64, 128, 256, 512, 1024])
include hm

omit h in
theorem size_bounds : 4 ≤ m ∧ m ≤ 1024 := ringSizeLegal_bounds (ringSizeLegal_iff.2 hm)

theorem filled_not_owned {k : Nat} (hk : k < m - 1) : i.ownSeen .rx (filledIdx i k) = false := by
  rw [h.filledIdx_eq (size_bounds hm).2 (by omega)]
  exact h.not_owned (by omega)

/-- OPEN's refills, up to the first that fails (R412). -/
theorem refilled : let f := refillMany (i.rx.n - 1) i
    ∃ k new, (f.1 = true → k = m - 1) ∧ RefilledRun i f.2 k (!f.1) new := by
  obtain ⟨k, new, -, hall, -, hrun⟩ := refillMany_spec (i.rx.n - 1) i h.mem
    (by rw [h.size]; exact ringSizeLegal_iff.2 hm) h.legal.arrays h.slots_length h.clear
    (fun j _ b hb => by rw [h.slot_empty] at hb; cases hb)
    (h.room (by rw [h.size])) (fun j hj => h.filled_not_owned hm (by rw [h.size] at hj; exact hj))
  rw [h.size] at *
  exact ⟨k, new, hall, hrun⟩

variable {t : State} {bufs : List Word} (r : RefilledRun i t (m - 1) false bufs)
include r

/-- Each slot but the last holds the buffer drawn for it (R223). -/
theorem slot_armed {j : Nat} (hj : j < m - 1) :
    t.rxSlot j = { buf := some (bufs.getD j 0), addr := some (dmaMapOf i.params (bufs.getD j 0)), pub := true } := by
  obtain ⟨b, hb, hslot⟩ := r.fresh j hj (by rw [h.slot_empty]; rfl)
  rw [h.filledEmpty_eq] at hb
  rw [h.filledIdx_eq (size_bounds hm).2 (by omega)] at hslot
  rw [List.getD_eq_getElem?_getD, hb]
  exact hslot

/-- The last slot is not filled. -/
theorem last_kept : t.rxSlot (m - 1) = RxSlot.empty ∧
    ∀ w < 4, t.descWord .rx (m - 1) w = i.descWord .rx (m - 1) w := by
  obtain ⟨hmin, hmax⟩ := size_bounds hm
  have hne : ∀ j < m - 1, m - 1 ≠ filledIdx i j := fun j hj => by
    rw [h.filledIdx_eq hmax (by omega)]
    omega
  obtain ⟨hslot, hwords⟩ := r.others (m - 1) (by rw [h.size]; omega) hne
  exact ⟨hslot.trans (h.slot_empty _), hwords⟩

theorem slots_armed : t.rxSlots =
    bufs.map (fun b => { buf := some b, addr := some (dmaMapOf i.params b), pub := true }) ++ [RxSlot.empty] := by
  obtain ⟨hmin, -⟩ := size_bounds hm
  have hcount := h.buffer_count r
  have hlast := (h.last_kept hm r).1
  refine rxSlots_ext ?_ (fun j hj => ?_) ?_
  · rw [r.slots, h.slots_length, h.size]
    omega
  · exact h.slot_armed hm r (hcount ▸ hj)
  · rw [hcount]
    exact hlast

/-- The descriptors of a new RX ring: all armed but the last (R412). -/
theorem words_armed (hmin : 1 ≤ s.eff.rxCoal) (hmax : s.eff.rxCoal ≤ 256) {j k : Nat} (hj : j < m) (hk : k < 4) :
    t.descWord .rx j k =
      if j = m - 1 then (if k = 1 then 0x0800_0000 else 0)
      else if k = 0 then 0x8000_0000
      else if k = 1 then rxDes1 false (decide ((j + 1) % s.eff.rxCoal ≠ 0)) s.eff.bufSz
      else if k = 2 then dmaMapOf s.params (bufs.getD j 0) else 0 := by
  by_cases hlast : j = m - 1
  · rw [if_pos hlast, hlast, (h.last_kept hm r).2 k hk, h.rxWords _ (by omega) k hk]
    simp only [and_true]
  · have hidx := h.filledIdx_eq (size_bounds hm).2 hj
    have hclear : i.descWord .rx j 1 = 0 := (h.rxWords j hj 1 (by decide)).trans (if_neg fun hc => hlast hc.2)
    obtain ⟨h0, h1, h2, h3⟩ := r.words j (by omega)
    rw [hidx] at h0 h1 h2 h3
    have hcnt : i.rx.coalCnt = 0 := by rw [h.rx]
    rw [hclear, hcnt, h.eff] at h1
    rw [h.slot_armed hm r (by omega), h.params] at h2
    rw [if_neg hlast]
    match k, hk with
    | 0, _ => exact h0
    | 1, _ => rw [h1, decide_eq_decide.2 (coalesced_iff hmin hmax j)]; rfl
    | 2, _ => exact h2
    | 3, _ => exact h3

/-- The state with both rings and every buffer OPEN draws, from the state before (R412). -/
theorem armed_eq (hmin : 1 ≤ s.eff.rxCoal) (hmax : s.eff.rxCoal ≤ 256) {rest : List (Option Word)}
    (hans : s.allocAnswers = some x :: some y :: (bufs.map some ++ rest)) : t = { s.withBuffers bufs with
      dma := { s.dma with txIdx := 0, rxIdx := 0 }
      tx := { allocated := true, n := n, base := x, sub := 0, comp := 0, coalCnt := 0 }
      rx := { allocated := true, n := m, base := y, sub := natWord (m - 1), comp := 0,
              coalCnt := natWord ((m - 1) % s.eff.rxCoal) }
      txSlots := List.replicate n TxSlot.empty
      rxSlots :=
        bufs.map (fun b => { buf := some b, addr := some (dmaMapOf s.params b), pub := true }) ++ [RxSlot.empty]
      allocAnswers := rest
      mem := t.mem
      wbuf := t.wbuf } := by
  have hi := h.rest
  have ht := r.rest
  rw [drawAnswer_cons hans, drawAnswer_cons (s := { s with allocAnswers := some y :: (bufs.map some ++ rest) }) rfl] at hi
  have hcnt : (coalNext i.eff.rxCoal)^[m - 1] i.rx.coalCnt = natWord ((m - 1) % s.eff.rxCoal) := by
    rw [h.eff, h.rx, coalNext_iter hmin hmax]
  have hsub : i.rx.sub + natWord (m - 1) = natWord (m - 1) := by
    rw [h.rx]
    exact BitVec.zero_add _
  have hleft : i.allocAnswers.drop (bufs.length + false.toNat) = rest := by
    rw [hi]
    exact List.drop_left' (List.length_map _)
  have hdraws : i.draws + (bufs.length + false.toNat - i.allocAnswers.length) = s.draws := by
    rw [hi]
    simp
  rw [h.slots_armed hm r, hcnt, hsub, hleft, hdraws, h.params] at ht
  clear h r hcnt hsub hleft hdraws
  generalize t.mem = M at *
  generalize t.wbuf = W at *
  generalize i.mem = N at *
  subst ht
  subst hi
  rfl

omit hm in
/-- The refills leave the TX chain as it was made. -/
theorem txWords_kept (hn : n ≤ 1024) {j k : Nat} (hj : j < n) (hk : k < 4) :
    t.descWord .tx j k = if k = 1 ∧ j = n - 1 then 0x0800_0000 else 0 := by
  have hrest := r.rest
  have hsize : (i.ring .tx).n = n := congrArg Ring.n h.tx
  have halloc : (i.ring .tx).allocated = true := congrArg Ring.allocated h.tx
  rw [← h.txWords j hj k hk]
  refine descWord_of_bytes (by rw [hrest]; rfl) (by rw [hrest]; rfl) hk fun z hz => r.bytes z ?_
  exact h.legal.apart z (holds_desc halloc (hsize ▸ hj) (hsize ▸ hn) hz)

omit hm in
/-- Opened rings leave every byte outside the two arrays. -/
theorem bytes_kept {a : Word} (hx : inSpan x (16 * n) a = false) (hy : inSpan y (16 * m) a = false) :
    swByte t a = swByte s a := by
  have hout : (i.ring .rx).holds a = false := by
    have hring : i.ring .rx = { allocated := true, n := m, base := y, sub := 0, comp := 0, coalCnt := 0 } := h.rx
    rw [hring]
    exact hy
  exact (r.bytes a hout).trans (h.bytes a hx hy)

end TwoRings

/-! ### OPEN's phases (R412) -/

/-- Both rings allocated with the clamped sizes, and their chains (R412). -/
def openedRings (s : State) : State :=
  let c := clampTunables s
  (initChain .rx (initChain .tx (allocate .rx c.tun.nRx (allocate .tx c.tun.nTx c).st).st).st).st

/-- OPEN's refills: whether all of them succeed, and what they leave (R412). -/
def refilledRings (s : State) : Bool × State := refillMany ((openedRings s).rx.n - 1) (openedRings s)

/-- OPEN once both rings are allocated (R412). -/
theorem openRun_of_rings {s : State}
    (htx : (allocate .tx (clampTunables s).tun.nTx (clampTunables s)).res = codeOk)
    (hrx : (allocate .rx (clampTunables s).tun.nRx
      (allocate .tx (clampTunables s).tun.nTx (clampTunables s)).st).res = codeOk) :
    openRun s =
      if (refilledRings s).1 then done (startSession (refilledRings s).2) else abortOpen (refilledRings s).2 :=
  (if_neg (not_not.2 htx)).trans (if_neg (not_not.2 hrx))

theorem openedRings_keeps (s : State) : Keeps s (openedRings s) :=
  (clampTunables_keeps s).trans ((allocate_keeps .tx _ _).trans ((allocate_keeps .rx _ _).trans
    ((initChain_keeps .tx _).trans (initChain_keeps .rx _))))

theorem refilledRings_keeps (s : State) : Keeps s (refilledRings s).2 :=
  (openedRings_keeps s).trans (refillMany_keeps _ _)

/-- The interface is up: OPEN's registers written, both DMA processes running (R412). -/
def started (s : State) : State :=
  { s with
    csr := { s.csr with
      dmaCtrl := (s.csr.dmaCtrl &&& (0x8000_0000 : Word)) ||| natWord s.params.pbl.val <<< 8 ||| (3 : Word)
      dmaTxThresh := natWord s.tun.tc
      statusSrc := 0
      dmaIer := 0x0001_A1FB
      macConfig := putBit (putBit (putBit s.csr.macConfig 8 (s.dev.csumCap && s.params.csumOffload)) 0 true) 1 true
      macFlow := flowWord s.tun }
    dma := { s.dma with ts := .running, rs := .running }
    dev := { s.dev with
      ifup := true, rxPollScheduled := false, txReclaimPending := false, txQueueStopped := false } }

theorem startSession_started {s : State} (hr : s.regsLegal) (hts : s.dma.ts = .stopped) (hrs : s.dma.rs = .stopped)
    (htc : s.tun.tc ∈ [64, 128, 192, 256]) (hpause : s.tun.pause ≤ 0xFFFF) :
    startSession s = descFence (started s) := by
  rw [startSession_eq hr hts hrs,
    open_dmaCtrl hr.csr.dmaCtrl (hr.start.tx.2 hts) (hr.start.rx.2 hrs) s.params.pbl.2,
    open_thresh htc, hr.csr.source, open_macConfig hr.csr.macConfig hr.csr.portSelect, open_macFlow hpause]
  rfl

section

variable {s : State} {n m k : Nat} {x y : Word} {failed : Bool} {new : List Word}
  (h : TwoRings (clampTunables s) (openedRings s) n m x y)
  (r : RefilledRun (openedRings s) (refilledRings s).2 k failed new)
include h r

/-- What OPEN's refills leave of the session, done or not. -/
theorem refilledRings_eq : (refilledRings s).2 = { clampTunables s with
    dma := { s.dma with txIdx := 0, rxIdx := 0 }
    tx := { allocated := true, n := n, base := x, sub := 0, comp := 0, coalCnt := 0 }
    rx := { (refilledRings s).2.rx with allocated := true, n := m, base := y, comp := 0 }
    txSlots := List.replicate n TxSlot.empty
    rxSlots := (refilledRings s).2.rxSlots
    stats := { s.stats with rxAllocFail := if failed then s.stats.rxAllocFail + 1 else s.stats.rxAllocFail }
    marks := (refilledRings s).2.marks
    regions := (refilledRings s).2.regions
    allocAnswers := (refilledRings s).2.allocAnswers
    draws := (refilledRings s).2.draws
    mem := (refilledRings s).2.mem
    wbuf := (refilledRings s).2.wbuf } := by
  have hi := h.rest
  have ht := r.rest
  clear h r
  generalize (refilledRings s).2 = t at *
  generalize t.mem = M at *
  generalize t.wbuf = W at *
  generalize t.rxSlots = A at *
  generalize openedRings s = i at *
  generalize i.mem = N at *
  subst hi
  subst ht
  rfl

/-- OPEN's last phase after its refills. -/
theorem startSession_refilled (hr : s.regsLegal) (hts : s.dma.ts = .stopped) (hrs : s.dma.rs = .stopped) :
    startSession (refilledRings s).2 = descFence (started (refilledRings s).2) := by
  have hrest := refilledRings_eq h r
  exact startSession_started ((refilledRings_keeps s).regs hr) (by rw [hrest]; exact hts) (by rw [hrest]; exact hrs)
    (by rw [hrest]; exact clampTunables_tc s) (by rw [hrest]; exact clampTunables_pause s)

end

/-- What OPEN leaves where it comes to its end (R412). -/
def sessionOpened (s : State) : State :=
  { descFence (started (refilledRings s).2) with csr := { (started (refilledRings s).2).csr with result := 0 } }

/-- OPEN of an attached, closed device (R412). -/
theorem exec_openDev {s : State} (hat : s.dev.attached = true) (hdown : s.dev.ifup = false)
    (hawake : s.dev.suspended = false) : exec .openDev s = complete s (openRun s) :=
  congrArg (complete s) (openSession_eq hat hdown hawake)

theorem openSession_failed {s : State} (h : s.dev.ifup = true ∨ s.dev.suspended = true) : openSession s = failed s :=
  if_neg (by obtain h | h := h <;> simp [h])

/-- OPEN of `s` comes to its end: the oracle's first answer is `x`, both rings are as `openedRings` leaves them, and every
refill succeeds (R412). -/
structure OpenReady (s : State) (x y : Word) (new : List Word) : Prop where
  run : openRun s = done (startSession (refilledRings s).2)
  answer : (drawAnswer s).1 = some x
  ts : s.dma.ts = .stopped
  rs : s.dma.rs = .stopped
  rings : TwoRings (clampTunables s) (openedRings s) (clampTunables s).tun.nTx (clampTunables s).tun.nRx x y
  buffers : RefilledRun (openedRings s) (refilledRings s).2 ((clampTunables s).tun.nRx - 1) false new

namespace OpenReady

variable {s : State} {x y : Word} {new : List Word} (h : OpenReady s x y new)
include h

theorem fault : (refilledRings s).2.fault = s.fault := (congrArg State.fault (refilledRings_eq h.rings h.buffers) :)

theorem run_eq (hr : s.regsLegal) : openRun s = done (descFence (started (refilledRings s).2)) :=
  h.run.trans (congrArg done (startSession_refilled h.rings h.buffers hr h.ts h.rs))

theorem exec (hs : s.sound) (hr : s.regsLegal) (hat : s.dev.attached = true) (hdown : s.dev.ifup = false)
    (hawake : s.dev.suspended = false) : Machine.exec .openDev s = .next (sessionOpened s) := by
  rw [exec_openDev hat hdown hawake, h.run_eq hr]
  exact complete_done (h.fault.trans hs)

/-- OPEN's last phase writes no memory. -/
theorem sameBytes_refilled : sameBytes (refilledRings s).2 (sessionOpened s) :=
  swByte_descFence (s := started (refilledRings s).2) h.buffers.mem

theorem bytes {a : Word} (hx : inSpan x (16 * (clampTunables s).tun.nTx) a = false)
    (hy : inSpan y (16 * (clampTunables s).tun.nRx) a = false) : swByte (sessionOpened s) a = swByte s a :=
  (h.sameBytes_refilled a).trans (h.rings.bytes_kept h.buffers hx hy)

theorem word (r : RingSel) (j k : Nat) : (sessionOpened s).descWord r j k = (refilledRings s).2.descWord r j k :=
  descWord_congr h.sameBytes_refilled rfl (by cases r <;> rfl)

theorem txWords {j k : Nat} (hj : j < (clampTunables s).tun.nTx) (hk : k < 4) :
    (sessionOpened s).descWord .tx j k = if k = 1 ∧ j = (clampTunables s).tun.nTx - 1 then 0x0800_0000 else 0 :=
  (h.word .tx j k).trans (h.rings.txWords_kept h.buffers (TwoRings.size_bounds (clampTunables_nTx s)).2 hj hk)

theorem rxWords {j k : Nat} (hj : j < (clampTunables s).tun.nRx) (hk : k < 4) : let c := (clampTunables s).tun
    (sessionOpened s).descWord .rx j k =
      if j = c.nRx - 1 then (if k = 1 then 0x0800_0000 else 0)
      else if k = 0 then 0x8000_0000
      else if k = 1 then rxDes1 false (decide ((j + 1) % c.rxCoal ≠ 0)) c.bufSz
      else if k = 2 then dmaMapOf s.params (new.getD j 0) else 0 := by
  obtain ⟨hmin, hmax⟩ := clampTunables_rxCoal s
  exact (h.word .rx j k).trans (h.rings.words_armed (clampTunables_nRx s) h.buffers hmin hmax hj hk)

theorem eq_of_answers {rest : List (Option Word)} (hans : s.allocAnswers = some x :: some y :: (new.map some ++ rest)) :
    let c := (clampTunables s).tun
    sessionOpened s = { (started (clampTunables s)).withBuffers new with
      csr := { (started (clampTunables s)).csr with result := 0 }
      dma := { ts := .running, rs := .running, txIdx := 0, rxIdx := 0 }
      tx := { allocated := true, n := c.nTx, base := x, sub := 0, comp := 0, coalCnt := 0 }
      rx := { allocated := true, n := c.nRx, base := y, sub := natWord (c.nRx - 1), comp := 0,
              coalCnt := natWord ((c.nRx - 1) % c.rxCoal) }
      txSlots := List.replicate c.nTx TxSlot.empty
      rxSlots :=
        new.map (fun b => { buf := some b, addr := some (dmaMapOf s.params b), pub := true }) ++ [RxSlot.empty]
      mem := (sessionOpened s).mem
      wbuf := []
      allocAnswers := rest } := by
  obtain ⟨hmin, hmax⟩ := clampTunables_rxCoal s
  have hf := h.rings.armed_eq (clampTunables_nRx s) h.buffers hmin hmax hans
  simp only [sessionOpened]
  clear h
  generalize (refilledRings s).2 = f at *
  generalize f.mem = M at *
  generalize f.wbuf = W at *
  subst hf
  rfl

end OpenReady

/-! ### OPEN where the oracle grants every draw (R412) -/

namespace State.openGranted

variable {s : State} {c : Tunables} {mTx mRx : Word} {bufs : List Word} {rest : List (Option Word)}
  (g : s.openGranted c mTx mRx bufs rest)
include g

theorem arrays_apart : spansMeet mTx (16 * c.nTx) mRx (16 * c.nRx) = false :=
  (List.pairwise_cons.1 g.apart).1 _ List.mem_cons_self

theorem buffers_apart_tx {b : Word} (hb : b ∈ bufs) : spansMeet mTx (16 * c.nTx) b c.bufSz = false :=
  (List.pairwise_cons.1 g.apart).1 (b, c.bufSz) (List.mem_cons_of_mem _ (List.mem_map_of_mem hb))

theorem buffers_apart_rx {b : Word} (hb : b ∈ bufs) : spansMeet mRx (16 * c.nRx) b c.bufSz = false :=
  (List.pairwise_cons.1 (List.pairwise_cons.1 g.apart).2).1 (b, c.bufSz) (List.mem_map_of_mem hb)

theorem buffers_apart : bufs.Pairwise fun a b => spansMeet a c.bufSz b c.bufSz = false :=
  List.pairwise_map.1 (List.pairwise_cons.1 (List.pairwise_cons.1 g.apart).2).2

theorem first_answer : (drawAnswer s).1 = some mTx := by rw [drawAnswer_cons g.answers]

theorem second_answer : (drawAnswer (drawAnswer s).2).1 = some mRx := by
  rw [drawAnswer_cons g.answers, drawAnswer_cons rfl]

end State.openGranted

section

variable {s : State} {mTx mRx : Word} {bufs : List Word} {rest : List (Option Word)}
  (hm : s.memLegal) (hl : s.ringsLegal) (htx : s.tx.allocated = false) (hrx : s.rx.allocated = false)
  (hts : s.dma.ts = .stopped) (hrs : s.dma.rs = .stopped)
  (g : s.openGranted (clampTunables s).tun mTx mRx bufs rest)

include g in
/-- The grant is one of the state with its tunables clamped. -/
theorem granted_clamped : (clampTunables s).openGranted (clampTunables s).tun mTx mRx bufs rest :=
  ⟨g.answers, g.count, g.tx, g.rx, g.buffers, g.image, g.images, g.apart⟩

include hm hl htx hrx hts hrs g in
/-- OPEN's two draws for its rings are granted (R412). -/
theorem rings_granted :
    let c := (clampTunables s).tun
    (allocate .tx c.nTx (clampTunables s)).res = codeOk ∧
      (allocate .rx c.nRx (allocate .tx c.nTx (clampTunables s)).st).res = codeOk ∧
      TwoRings (clampTunables s) (openedRings s) c.nTx c.nRx mTx mRx := by
  have gc := granted_clamped g
  have hnTx := clampTunables_nTx s
  obtain ⟨t, halloc, -, ht⟩ := allocate_spec (s := clampTunables s) (r := .tx) hm htx hts hnTx gc.first_answer gc.tx
  have hfresh : t.fresh 16 mRx (16 * (clampTunables s).tun.nRx) = true := by
    have hapart : ∀ b len, spansMeet mTx (16 * (clampTunables s).tun.nTx) b len = false →
        t.meetsArray b len = false := fun b len hb => by
      rw [meetsArray_iff, ht]
      exact ⟨fun _ => hb, fun hc => absurd hc (Bool.eq_false_iff.1 hrx)⟩
    exact (fresh_iff.1 gc.rx).withArrays (by rw [ht]) (by rw [ht]) (by rw [ht]) (hapart _ _ gc.arrays_apart)
      (hapart _ _ gc.image)
  exact allocateBoth_spec (s := clampTunables s) hm ((clampTunables_kept s).legal hl) htx hrx hts hrs hnTx
    (clampTunables_nRx s) gc.first_answer gc.tx gc.second_answer (by rw [halloc]; exact hfresh)

include g in
/-- OPEN's draws for its buffers are granted (R412). -/
theorem buffers_granted
    (h : TwoRings (clampTunables s) (openedRings s) (clampTunables s).tun.nTx (clampTunables s).tun.nRx mTx mRx) :
    (refilledRings s).1 = true ∧
      RefilledRun (openedRings s) (refilledRings s).2 ((clampTunables s).tun.nRx - 1) false bufs := by
  have gc := granted_clamped g
  have hnRx := clampTunables_nRx s
  have hcount : bufs.length = (clampTunables s).tun.nRx - 1 := Nat.eq_sub_of_add_eq gc.count
  have hans : (openedRings s).allocAnswers = bufs.map some ++ rest := by
    rw [h.rest, drawAnswer_cons gc.answers,
      drawAnswer_cons (s := { clampTunables s with allocAnswers := some mRx :: (bufs.map some ++ rest) }) rfl]
  have hsize : (openedRings s).eff.bufSz = (clampTunables s).tun.bufSz := by rw [h.eff]; rfl
  have hfresh : ∀ b ∈ bufs, (openedRings s).fresh 4 b (openedRings s).eff.bufSz = true := fun b hb => by
    obtain ⟨himgTx, himgRx⟩ := gc.images b hb
    rw [hsize]
    refine (fresh_iff.1 (gc.buffers b hb)).withArrays h.params (by rw [h.rest]) (by rw [h.rest]) ?_ ?_
    · rw [meetsArray_iff, h.tx, h.rx]
      exact ⟨fun _ => gc.buffers_apart_tx hb, fun _ => gc.buffers_apart_rx hb⟩
    · rw [meetsArray_iff, h.tx, h.rx]
      exact ⟨fun _ => himgTx, fun _ => himgRx⟩
  rw [refilledRings, h.size, ← hcount]
  exact refillMany_all h.mem (by rw [h.size]; exact ringSizeLegal_iff.2 hnRx) h.legal.arrays h.slots_length h.clear
    (h.room hcount.le) (fun j hj => h.filled_not_owned hnRx (hcount ▸ hj)) (fun j _ => by rw [h.slot_empty]; rfl) hans
    hfresh (hsize ▸ gc.buffers_apart)

include hm hl htx hrx hts hrs g in
theorem openReady_of_granted : OpenReady s mTx mRx bufs := by
  obtain ⟨htxOk, hrxOk, h⟩ := rings_granted hm hl htx hrx hts hrs g
  obtain ⟨hall, r⟩ := buffers_granted g h
  exact ⟨(openRun_of_rings htxOk hrxOk).trans (if_pos hall), g.first_answer, hts, hrs, h, r⟩

end

/-- Settles O59: a granted OPEN comes to its end, and `OpenReady` says what it leaves. -/
theorem openCommand : Obligations.OpenCommand := by
  intro s hs hm hl hr hat sizes g nTx nRx mtuMax c
  have hclamp : clampTunables s = { s with
      tun := c, eff := { bufSz := c.bufSz, txCoal := c.txCoal, rxCoal := c.rxCoal, mtu := c.mtu } } :=
    congrArg (fun t : Tunables => { s with
      tun := t, eff := { bufSz := t.bufSz, txCoal := t.txCoal, rxCoal := t.rxCoal, mtu := t.mtu } }) (clamped_eq _ _)
  refine ⟨fun hdown hawake htx hrx hts hrs mTx mRx bufs rest hg => ?_,
    fun h => complete_of_failed (openSession_failed h) hs⟩
  have h : OpenReady s mTx mRx bufs := openReady_of_granted hm hl htx hrx hts hrs (by rw [hclamp]; exact hg)
  have hbytes := fun a hx hy => h.bytes (a := a) hx hy
  have htxWords := fun j hj k hk => h.txWords (j := j) (k := k) hj hk
  have hrxWords := fun j hj k hk => h.rxWords (j := j) (k := k) hj hk
  have heq := h.eq_of_answers hg.answers
  rw [hclamp] at hbytes htxWords hrxWords heq
  exact ⟨sessionOpened s, h.exec hs hr hat hdown hawake, hbytes, htxWords, hrxWords, heq⟩

/-! ### How OPEN ends (R412, R413), and RESUME of a device whose rings were freed (R425) -/

/-- `s` no longer suspended, its full shutdown over (R425). -/
def awakened (s : State) : State := { s with dev := { s.dev with suspended := false, fullShutdown := false } }

/-- What an OPEN of `s` leaves that comes to its abort: the tunables clamped, and a failed buffer counted (R412, R413). -/
structure OpenStopped (s u : State) : Prop where
  mem : u.memLegal
  rings : u.ringsLegal
  regs : u.regsLegal
  fault : u.fault = s.fault
  dev : u.dev = s.dev
  csr : u.csr = s.csr
  tun : u.tun = (clampTunables s).tun
  eff : u.eff = (clampTunables s).eff
  stats : u.stats = s.stats ∨ u.stats = { s.stats with rxAllocFail := s.stats.rxAllocFail + 1 }

theorem failed_res_ne (s : State) : (failed s).res ≠ codeOk := by
  change codeError ≠ codeOk
  decide

theorem openedRings_shape (s : State) : ShapeKept s (openedRings s) :=
  (clampTunables_kept s).toShapeKept.trans ((allocate_shape .tx _ _).trans ((allocate_shape .rx _ _).trans
    ((initChain_kept .tx _).trans (initChain_kept .rx _)).toShapeKept))

theorem refilledRings_shape (s : State) : ShapeKept s (refilledRings s).2 :=
  (openedRings_shape s).trans (refillMany_kept _ _).toShapeKept

/-- The registers, the flags, the tunables, the effective values, the counters and the fault are the same. -/
structure SameSession (s t : State) : Prop where
  fault : t.fault = s.fault
  dev : t.dev = s.dev
  csr : t.csr = s.csr
  tun : t.tun = s.tun
  eff : t.eff = s.eff
  stats : t.stats = s.stats

theorem SameSession.of_draw {s t u : State} (h : SameSession s t)
    (hu : u = { t with allocAnswers := u.allocAnswers, draws := u.draws }) : SameSession s u := by
  rw [hu]
  exact ⟨h.fault, h.dev, h.csr, h.tun, h.eff, h.stats⟩

section

variable {s : State} (hm : s.memLegal) (hl : s.ringsLegal) (hr : s.regsLegal)
include hm hl hr

theorem OpenStopped.of_same {u : State} (hk : Keeps s u) (hshape : ShapeKept s u)
    (h : SameSession (clampTunables s) u) : OpenStopped s u :=
  ⟨hk.mem hm, hshape.legal hl, hk.regs hr, h.fault, h.dev, h.csr, h.tun, h.eff, .inl h.stats⟩

theorem openRun_noTxRing {u : State} (hfail : allocate .tx (clampTunables s).tun.nTx (clampTunables s) = failed u)
    (h : SameSession (clampTunables s) u) : openRun s = abortOpen u ∧ OpenStopped s u := by
  have hk := (clampTunables_keeps s).trans (allocate_keeps .tx (clampTunables s).tun.nTx _)
  have hshape := (clampTunables_kept s).toShapeKept.trans (allocate_shape .tx (clampTunables s).tun.nTx _)
  rw [hfail] at hk hshape
  refine ⟨?_, .of_same hm hl hr hk hshape h⟩
  simp only [openRun, hfail]
  rw [if_pos (failed_res_ne u)]
  rfl

theorem openRun_noRxRing {u a : State} {v : Option Word}
    (hok : allocate .tx (clampTunables s).tun.nTx (clampTunables s) = { st := a, res := codeOk, res1 := v })
    (hfail : allocate .rx (clampTunables s).tun.nRx a = failed u)
    (h : SameSession (clampTunables s) u) : openRun s = abortOpen u ∧ OpenStopped s u := by
  have hk := (clampTunables_keeps s).trans ((allocate_keeps .tx (clampTunables s).tun.nTx _).trans
    (allocate_keeps .rx (clampTunables s).tun.nRx _))
  have hshape := (clampTunables_kept s).toShapeKept.trans ((allocate_shape .tx (clampTunables s).tun.nTx _).trans
    (allocate_shape .rx (clampTunables s).tun.nRx _))
  rw [hok, hfail] at hk hshape
  refine ⟨?_, .of_same hm hl hr hk hshape h⟩
  simp only [openRun, hok, hfail]
  rw [if_neg (not_not.2 rfl), if_pos (failed_res_ne u)]
  rfl

/-- OPEN once both rings are allocated: it stops at a refill, or comes to its end. -/
theorem openRun_refills {x y : Word} (hts : s.dma.ts = .stopped) (hrs : s.dma.rs = .stopped)
    (hx : (drawAnswer s).1 = some x)
    (htx : (allocate .tx (clampTunables s).tun.nTx (clampTunables s)).res = codeOk)
    (hrx : (allocate .rx (clampTunables s).tun.nRx
      (allocate .tx (clampTunables s).tun.nTx (clampTunables s)).st).res = codeOk)
    (h : TwoRings (clampTunables s) (openedRings s) (clampTunables s).tun.nTx (clampTunables s).tun.nRx x y) :
    (∃ u, openRun s = abortOpen u ∧ OpenStopped s u) ∨ ∃ x y new, OpenReady s x y new := by
  have hrun := openRun_of_rings htx hrx
  obtain ⟨k, new, hall, r⟩ := h.refilled (clampTunables_nRx s)
  change (refilledRings s).1 = true → _ at hall
  change RefilledRun _ (refilledRings s).2 _ (!(refilledRings s).1) _ at r
  cases hok : (refilledRings s).1 with
  | true =>
    rw [hok] at r
    rw [hall hok] at r
    exact .inr ⟨x, y, new, hrun.trans (if_pos hok), hx, hts, hrs, h, r⟩
  | false =>
    rw [hok] at r
    have hu := refilledRings_eq h r
    have hk := refilledRings_keeps s
    exact .inl ⟨_, hrun.trans (if_neg (by simp [hok])), hk.mem hm, (refilledRings_shape s).legal hl, hk.regs hr,
      (congrArg State.fault hu :), (congrArg State.dev hu :), (congrArg State.csr hu :), (congrArg State.tun hu :),
      (congrArg State.eff hu :), .inr (congrArg State.stats hu :)⟩

/-- OPEN stops where ALLOCATE of the TX ring fails, where that of the RX ring fails, or at a refill; or it comes to its
end. -/
theorem openRun_cases : (∃ u, openRun s = abortOpen u ∧ OpenStopped s u) ∨ ∃ x y new, OpenReady s x y new := by
  have hsame : SameSession (clampTunables s) (clampTunables s) := ⟨rfl, rfl, rfl, rfl, rfl, rfl⟩
  obtain ⟨u, hfail, hu⟩ | ⟨hfreeTx, hts, hnTx, x, hx, hfreshTx⟩ :=
    allocate_cases .tx (clampTunables s).tun.nTx (clampTunables s)
  · exact .inl ⟨u, openRun_noTxRing hm hl hr hfail (hsame.of_draw hu)⟩
  obtain ⟨a, halloc, -, ha⟩ := allocate_spec (s := clampTunables s) hm hfreeTx hts hnTx hx hfreshTx
  obtain ⟨u, hfail, hu⟩ | ⟨hfreeRx, hrs, hnRx, y, hy, hfreshRx⟩ := allocate_cases .rx (clampTunables s).tun.nRx a
  · have hfirst : SameSession (clampTunables s) a := by
      rw [ha]
      exact ⟨rfl, rfl, rfl, rfl, rfl, rfl⟩
    exact .inl ⟨u, openRun_noRxRing hm hl hr halloc hfail (hfirst.of_draw hu)⟩
  have hfree : (clampTunables s).rx.allocated = false := by
    rw [ha] at hfreeRx
    exact hfreeRx
  have hstop : (clampTunables s).dma.rs = .stopped := by
    rw [ha] at hrs
    exact hrs
  obtain ⟨hdraw, -, -⟩ := drawAnswer_congr (s := (drawAnswer (clampTunables s)).2) (t := a) (by rw [ha]) (by rw [ha])
  obtain ⟨htx, hrx, h⟩ := allocateBoth_spec (s := clampTunables s) hm ((clampTunables_kept s).legal hl) hfreeTx hfree hts
    hstop hnTx hnRx hx hfreshTx (hdraw.symm.trans hy) (by rw [halloc]; exact hfreshRx)
  exact openRun_refills hm hl hr hts hstop
    ((drawAnswer_congr (s := s) (t := clampTunables s) rfl rfl).1.symm.trans hx) htx hrx h

/-- OPEN raises no fault (log 41). -/
theorem openRun_fault : (openRun s).st.fault = s.fault := by
  obtain ⟨u, hrun, hu⟩ | ⟨x, y, new, h⟩ := openRun_cases hm hl hr
  · obtain ⟨t, habort, hend, -, -⟩ := abortOpen_spec hu.mem hu.rings hu.regs
    rw [hrun, habort]
    exact hend.fault.trans hu.fault
  · rw [h.run_eq hr]
    exact h.fault

/-- RESUME of a device whose rings were freed is an OPEN (R425). -/
theorem exec_resume_shutDown (hs : s.sound) (hat : s.dev.attached = true) (hdown : s.dev.ifup = false)
    (hsus : s.dev.suspended = true) (hshut : s.dev.fullShutdown = true) :
    exec .resume s = exec .openDev (awakened s) := by
  have hresume : exec .resume s = complete s (resumeRun s) := congrArg (complete s) (if_pos (by simp [hat, hsus]))
  have hopen : resumeRun s = openSession (awakened s) := if_pos hshut
  have hk : Keeps s (awakened s) := setDev_keeps _ s
  have hfault : (openRun (awakened s)).st.fault = none :=
    (openRun_fault (hk.mem hm) ((setDev_shape _ s).legal hl) (hk.regs hr)).trans hs
  rw [hresume, hopen, openSession_eq (s := awakened s) hat hdown rfl, exec_openDev (s := awakened s) hat hdown rfl,
    complete_of_none hfault, complete_of_none hfault]

end

/-- Settles O60: OPEN ends in one of the two ways of `openRun_cases`. -/
theorem openOutcomes : Obligations.OpenOutcomes := by
  intro s hs hm hl hr hat
  refine ⟨fun hdown hawake => ?_, fun hsus hshut hdown => exec_resume_shutDown hm hl hr hs hat hdown hsus hshut⟩
  obtain ⟨u, hrun, hu⟩ | ⟨x, y, new, h⟩ := openRun_cases hm hl hr
  · obtain ⟨t, habort, hend, htun, heff⟩ := abortOpen_spec hu.mem hu.rings hu.regs
    obtain ⟨z, hexec, hfault, hresult, hdev, hst, hsr, hts, hrs, htx, hrx, hmac, hflow, hier, hsource, hthresh, hztun,
        hzeff, hstats⟩ :=
      opened_error hs hdown (hu.fault.trans hs) hu.dev hu.csr hu.stats (hrun.trans habort) hend (htun.trans hu.tun)
        (heff.trans hu.eff)
    refine ⟨z, (exec_openDev hat hdown hawake).trans hexec, hfault, .inr ⟨hresult, hdev, hst, hsr, hts, hrs, htx, hrx,
      hmac, hflow, hier, hsource, hthresh, hztun, ?_, hstats⟩, fun _ => hresult⟩
    rw [hzeff, hztun]
    rfl
  · have heq := refilledRings_eq h.rings h.buffers
    have hdev : (refilledRings s).2.dev = s.dev := (congrArg State.dev heq :)
    refine ⟨sessionOpened s, h.exec hs hr hat hdown hawake, h.fault.trans hs, .inl ⟨rfl, ?_,
      (congrArg (fun t => t.tx.allocated) heq :), (congrArg (fun t => t.rx.allocated) heq :), rfl, rfl,
      (congrArg State.stats heq :)⟩, fun hnone => ?_⟩
    · rw [← hdev]
      rfl
    · rw [h.answer] at hnone
      cases hnone

end Sys2Proof.Machine
end

section
/-! PROOF. What a step that raises a model fault leaves (O7), and the state after reset (O9, O10). -/

namespace Sys2Proof.Machine

open Sys2Proof

/-! ### How a step that faults ends (R60, R450, log 6) -/

/-- Where the outcome of a step from `s` records a fault, the fault is all that the step changed. -/
def LeavesOnlyFault (s : State) (o : Host.Outcome State Fault Refusal) : Prop :=
  ∀ (t : State) (f : Fault), o = .next t → t.fault = some f → t = { s with fault := some f }

section

variable {s : State}

theorem LeavesOnlyFault.sound {u : State} (hu : u.sound) : LeavesOnlyFault s (.next u) := by
  intro t f ht hf
  cases ht
  rw [show u.fault = none from hu] at hf
  cases hf

theorem LeavesOnlyFault.refused (r : Refusal) : LeavesOnlyFault s (.refused r) := fun _ _ h => nomatch h

theorem LeavesOnlyFault.raise (hs : s.sound) (g : Fault) : LeavesOnlyFault s (.next (raise g s)) := by
  intro t f ht hf
  cases ht
  exact raise_fault_eq hs hf

theorem LeavesOnlyFault.settle (s u : State) : LeavesOnlyFault s (.next (settle s u)) := by
  intro t f ht hf
  cases ht
  exact settle_fault hf

theorem LeavesOnlyFault.complete (s : State) (x : Ret) : LeavesOnlyFault s (complete s x) :=
  fun _ _ => complete_fault

theorem LeavesOnlyFault.ite {c : Prop} [Decidable c] {o p : Host.Outcome State Fault Refusal}
    (ho : LeavesOnlyFault s o) (hp : LeavesOnlyFault s p) : LeavesOnlyFault s (if c then o else p) := by
  split
  · exact ho
  · exact hp

/-! ### Commands (R50, R450): they end through `complete`, but for a TRANSMIT that may not read its record -/

theorem execSubmit_leavesOnlyFault (i : BitVec 16) : LeavesOnlyFault s (execSubmit i s) :=
  .ite (.complete s _) (.ite (.complete s _) (.ite (.refused _) (.complete s _)))

theorem execRefill_leavesOnlyFault (i : BitVec 16) : LeavesOnlyFault s (execRefill i s) :=
  .ite (.complete s _) (.ite (.refused _) (.complete s _))

theorem transmitSegments_leavesOnlyFault (k : Packet) (segs : List Segment) :
    LeavesOnlyFault s (transmitSegments s k segs) := by
  refine .ite (.complete s _) ?_
  dsimp only
  split
  · exact .refused _
  · exact .complete s _

theorem execTransmit_leavesOnlyFault (hs : s.sound) : LeavesOnlyFault s (execTransmit s) := by
  refine .ite (.complete s _) ?_
  split
  · exact .refused _
  · split
    · exact .raise hs _
    · split
      · exact .complete s _
      · exact transmitSegments_leavesOnlyFault _ _

theorem command_leavesOnlyFault {i : Instr} (hc : i.isCommand = true) (hs : s.sound) :
    LeavesOnlyFault s (exec i s) := by
  cases i with
  | submit n => exact execSubmit_leavesOnlyFault n
  | refill n => exact execRefill_leavesOnlyFault n
  | transmit => exact execTransmit_leavesOnlyFault hs
  | dmaTxFrame | dmaTxSuspend | dmaTxUnderflow | dmaTxJabber | dmaTxStopFault => cases hc
  | dmaRxFrame | dmaRxNoDesc | dmaRxOverflow | dmaRxStopFault | dmaFatalBusError => cases hc
  | _ => exact .complete s _

/-! ### The DMA agents (R330, R450): a fault is raised before the step's effect, or `settle` discards the effect -/

theorem withReadyChain_leavesOnlyFault (hs : s.sound) (k : List Nat → State) :
    LeavesOnlyFault s (withReadyChain s k) := by
  unfold withReadyChain
  split
  · exact .settle s _
  · exact .raise hs _
  · exact .sound hs
  · exact .sound hs

theorem execDmaTxSuspend_leavesOnlyFault (hs : s.sound) : LeavesOnlyFault s (execDmaTxSuspend s) := by
  refine .ite (.sound hs) ?_
  split
  · exact .sound hs
  · exact .raise hs _
  · exact .sound hs
  · exact .sound hs

theorem onArrival_leavesOnlyFault (hs : s.sound) (own : Bool) (k : WireFrame → State → State) :
    LeavesOnlyFault s (onArrival s own k) := by
  unfold onArrival
  split
  · refine .ite (.sound hs) ?_
    split
    · exact .raise hs _
    · exact .ite (.settle s _) (.sound hs)
  · exact .sound hs

theorem execDmaFatalBusError_leavesOnlyFault (hs : s.sound) : LeavesOnlyFault s (execDmaFatalBusError s) := by
  refine .ite (.sound ?_) (.sound hs)
  split <;> exact hs

theorem agent_leavesOnlyFault {i : Instr} (hc : i.isCommand = false) (hs : s.sound) :
    LeavesOnlyFault s (exec i s) := by
  cases i with
  | dmaTxFrame | dmaTxUnderflow | dmaTxJabber => exact .ite (.sound hs) (withReadyChain_leavesOnlyFault hs _)
  | dmaTxSuspend => exact execDmaTxSuspend_leavesOnlyFault hs
  | dmaTxStopFault | dmaRxStopFault => exact .ite (.sound hs) (.sound hs)
  | dmaRxFrame | dmaRxNoDesc | dmaRxOverflow =>
    simp only [exec_dmaRxFrame, exec_dmaRxNoDesc, exec_dmaRxOverflow]
    exact onArrival_leavesOnlyFault hs _ _
  | dmaFatalBusError => exact execDmaFatalBusError_leavesOnlyFault hs
  | _ => cases hc

theorem exec_leavesOnlyFault (hs : s.sound) (i : Instr) : LeavesOnlyFault s (exec i s) := by
  cases hc : i.isCommand with
  | true => exact command_leavesOnlyFault hc hs
  | false => exact agent_leavesOnlyFault hc hs

/-! ### The events (R83, R84, R91, R95, R450) -/

theorem issueCommand_leavesOnlyFault (hs : s.sound) (w : Word) : LeavesOnlyFault s (issueCommand w s) := by
  unfold issueCommand
  split
  · exact .ite (exec_leavesOnlyFault hs _) (.sound hs)
  · exact .sound hs

theorem dmaTurn_leavesOnlyFault (hs : s.sound) (w : Word) : LeavesOnlyFault s (dmaTurn w s) := by
  unfold dmaTurn
  split
  · exact .ite (.sound hs) (exec_leavesOnlyFault hs _)
  · exact .sound hs

theorem agentTurn_leavesOnlyFault (hs : s.sound) (e : Bool) (x : State → Ret) :
    LeavesOnlyFault s (agentTurn e x s) := by
  cases e with
  | false => exact .sound hs
  | true => exact .settle s _

theorem writeDesc_leavesOnlyFault (hs : s.sound) (r : RingSel) (i k : Nat) (v : Word) :
    LeavesOnlyFault s (.next (writeDesc r i k v s)) := by
  unfold writeDesc
  dsimp only
  split
  · exact .raise hs _
  · split
    · exact .raise hs _
    · split
      · split
        · exact .raise hs _
        · cases r <;> exact .sound hs
      · exact .sound hs

theorem hostMemWrite_leavesOnlyFault (hs : s.sound) (a v : Word) : LeavesOnlyFault s (hostMemWrite a v s) := by
  unfold hostMemWrite
  split
  · exact .refused _
  · refine .ite ?_ ?_
    · split
      · exact .ite (writeDesc_leavesOnlyFault hs _ _ _ v) (.refused _)
      · exact .refused _
    · split
      · exact .raise hs _
      · exact .sound hs

theorem hostMemRead_leavesOnlyFault (hs : s.sound) (a : Word) : LeavesOnlyFault s (hostMemRead a s) := by
  unfold hostMemRead
  split
  · exact .refused _
  · refine .ite (.refused _) ?_
    split
    · exact .raise hs _
    · exact .sound hs

theorem storeCsr_sound (hs : s.sound) (c : Csr) (v : Word) : (storeCsr c v s).sound := by
  cases c with
  | txDescBase | rxDescBase =>
    simp only [storeCsr, storeTxBase, storeRxBase]
    split <;> exact hs
  | _ => exact hs

theorem drainOne_sound (hs : s.sound) (k : Nat) : (drainOne k s).sound := by
  unfold drainOne
  split <;> exact hs

theorem supplyBuffer_sound (hs : s.sound) (a : Word) (bytes : List Byte) : (supplyBuffer a bytes s).sound := by
  simp only [supplyBuffer]
  split <;> exact hs

/-- A CSR write faults before its fence, where it is no legal access, or in the command it issues, after the fence
(R83, R92). -/
theorem hostCsrWrite_leavesOnlyFault (hs : s.sound) (width : Nat) (off : BitVec 8) (v : Word) :
    LeavesOnlyFault s (hostCsrWrite width off v s) ∨ LeavesOnlyFault (descFence s) (hostCsrWrite width off v s) := by
  unfold hostCsrWrite
  split
  · exact .inl (.raise hs _)
  · refine .inr ?_
    split
    · exact issueCommand_leavesOnlyFault (s := descFence s) hs v
    · exact .sound (storeCsr_sound (s := descFence s) hs _ v)
    · exact .sound hs

theorem runEvent_leavesOnlyFault (hs : s.sound) (e : Event) :
    LeavesOnlyFault s (runEvent e s) ∨ LeavesOnlyFault (descFence s) (runEvent e s) := by
  cases e with
  | csrWrite width off v => exact hostCsrWrite_leavesOnlyFault hs width off v
  | csrRead width off => exact .inl (.ite (.raise hs _) (.sound hs))
  | memWrite a v => exact .inl (hostMemWrite_leavesOnlyFault hs a v)
  | memRead a => exact .inl (hostMemRead_leavesOnlyFault hs a)
  | fence | withdraw a => exact .inl (.sound hs)
  | drain k => exact .inl (.sound (drainOne_sound hs k))
  | isr | txReclaim | poll b | watchdog => exact .inl (agentTurn_leavesOnlyFault hs _ _)
  | agentStep code => exact .inl (dmaTurn_leavesOnlyFault hs code)
  | supply a bytes => exact .inl (.sound (supplyBuffer_sound hs a bytes))

end

/-- Settles O7: a step that faults took an event, which left only the fault, in the state before or after the fence. -/
theorem faultingStepChangesOnlyTheFault : Obligations.FaultingStepChangesOnlyTheFault := by
  intro s t f hs h hf
  obtain rfl | ⟨e, rest, he, hrun⟩ := step_next_cases h
  · rw [show t.fault = none from hs] at hf
    cases hf
  · rw [he]
    obtain hleft | hleft := runEvent_leavesOnlyFault (s := { s with schedule := rest }) hs e
    · exact ⟨s, .inl rfl, hleft t f hrun hf⟩
    · exact ⟨descFence s, .inr rfl, hleft t f hrun hf⟩

/-! ### Reset (R481) -/

/-- PS reads 1 on a MAC100 (R44); the other bits of MAC_CONFIG are 0 after reset. -/
theorem resetWith_macConfig (p : Params) :
    readCsr (State.resetWith p) .macConfig = if p.variant = .mac100 then 0x10 else 0 := by
  cases h : p.variant <;> simp [readCsr, State.resetWith, Csrs.reset, h]

/-- No interrupt is enabled, so none is signalled (R40). -/
theorem resetWith_irqMac (p : Params) : (State.resetWith p).irqMac = false := by
  simp [State.irqMac, State.resetWith, Csrs.reset, bit]

/-- Settles O9: what depends on the platform is MAC_CONFIG and HW_FEATURE; the rest is the reset state as written. -/
theorem resetValues : Obligations.ResetValues := by
  intro p
  obtain ⟨hgmac, hcsum, -⟩ := hwFeature_spec p
  have hmac := resetWith_macConfig p
  have hirq := resetWith_irqMac p
  have hstatus : statusWord 0 .stopped .stopped = 0 := by decide
  refine ⟨⟨?_, ?_, hstatus, ?_, ?_, ?_, ?_, ?_, hmac, ?_, ?_, ?_, ?_, ?_, ?_, ?_, ?_, ?_, hgmac, hcsum, ?_, ?_, ?_, ?_, ?_,
    ?_, ?_⟩, ⟨?_, ?_, ?_, ?_, hirq⟩, ?_, ?_, ?_, ?_⟩
  all_goals and_intros <;> rfl

theorem csrs_reset_legal (p : Params) : Csrs.legal p (Csrs.reset p) where
  dmaCtrl := (by decide : (0x0000_0800 : Word) &&& 0x7FFF_C0F0 = 0)
  pbl := (by decide : bitsAt 0x0000_0800 8 6 ∈ [1, 2, 4, 8, 16, 32])
  thresh := .inl rfl
  source := BitVec.zero_and
  enables := BitVec.zero_and
  macConfig := by cases h : p.variant <;> simp [Csrs.reset, h]
  portSelect h := by simp [Csrs.reset, h, bit]
  offload _ := by cases h : p.variant <;> simp [Csrs.reset, h, bit]
  macFlow := BitVec.zero_and
  macAddrHi := BitVec.zero_and
  frameFilter := BitVec.zero_and
  pmt := BitVec.zero_and

theorem resetWith_regsLegal (p : Params) : (State.resetWith p).regsLegal where
  csr := csrs_reset_legal p
  start :=
    ⟨iff_of_true (by decide : bit 0x0000_0800 0 = false) rfl, iff_of_true (by decide : bit 0x0000_0800 1 = false) rfl⟩
  bases := ⟨BitVec.zero_and, BitVec.zero_and⟩

theorem ring_none_legal : Ring.none.legal 0 := ⟨nofun, nofun, nofun, nofun, fun _ => rfl⟩

theorem resetWith_unallocated (p : Params) (r : RingSel) : ((State.resetWith p).ring r).allocated = false := by
  cases r <;> rfl

theorem resetWith_ringsLegal (p : Params) : (State.resetWith p).ringsLegal where
  tx := ring_none_legal
  rx := ring_none_legal
  apart _ ha := nomatch ha

theorem resetWith_ringsInSpace (p : Params) : (State.resetWith p).ringsInSpace := by
  intro r hr
  rw [resetWith_unallocated] at hr
  cases hr

theorem resetWith_sessionLegal (p : Params) : (State.resetWith p).sessionLegal where
  attached h := h.elim nofun nofun
  rings := nofun
  shutdown := nofun

/-- Settles O10: no fault, empty memory, and an invariant each for the registers, the rings and the flags. -/
theorem resetMeetsTheInvariants : Obligations.ResetMeetsTheInvariants := fun p =>
  ⟨rfl, rfl, resetWith_regsLegal p, resetWith_ringsLegal p, resetWith_ringsInSpace p, resetWith_sessionLegal p⟩

end Sys2Proof.Machine
end
